-- ==== Sys2Proof/Config.lean ====
section
/-!
DEFINITION. The implementation parameters of 00_scope.md R6: SYM_W and KW are arguments (92_eei_decisions.md D2), held by the State of the
block they are the parameters of (log 1), and every other parameter is derived from them; and the step bound of
70_reset_and_hazards.md R263. The block has no free value: no rule of spec/ leaves a result undefined after which the machine goes on.
-/

namespace Sys2Proof

/-- R6: the two open parameters of a block. -/
structure Params where
  /-- SYM_W, the width of a symbol in bits -/
  symW : Nat
  /-- KW, the width of a frequency key in bits -/
  kw : Nat
  deriving DecidableEq, Repr

/-- R6: the default values, for which 30_encoding.md and 95_test_vectors.md are written. -/
def Params.standard : Params := { symW := 8, kw := 32 }

/-- 93_implementation_defined.md U27: "the encoding of this spec carries KW up to 32 and SYM_W up to 8"; larger values are outside the
spec, and a width is at least 1 (log 1). -/
def Params.legal (p : Params) : Bool := decide (1 ≤ p.symW ∧ p.symW ≤ 8 ∧ 1 ≤ p.kw ∧ p.kw ≤ 32)

/-- R6 NSYM: symbols of the alphabet; entries of FT and CW; slots of HEAP. -/
def Params.nsym (p : Params) : Nat := 2 ^ p.symW

/-- R6 KMAX: the largest frequency a node may hold. -/
def Params.kmax (p : Params) : Nat := 2 ^ p.kw - 1

/-- R6 NODE_MAX: entries of the node arena. -/
def Params.nodeMax (p : Params) : Nat := 2 * p.nsym - 1

/-- R6 NIDX_W: width of a node index. -/
def Params.nidxW (p : Params) : Nat := p.symW + 1

/-- R6 NIL: the child field of a leaf, "no child". -/
def Params.nil (p : Params) : Nat := 2 ^ p.nidxW - 1

/-- R6 CODE_MAX: the longest codeword in digits; entries of TSTK. -/
def Params.codeMax (p : Params) : Nat := p.nsym - 1

/-- R6 CW_WORDS: 32-bit words that read one codeword back. -/
def Params.cwWords (p : Params) : Nat := p.nsym / 32

namespace Config

/-- R6: width of a command word and of a response word. -/
def CMD_W : Nat := 64

/-- R33: the command-set version that the ID register reports. -/
def VERSION : Nat := 1

/-- The largest NSYM that the encoding carries (U27). -/
def NSYM_LIMIT : Nat := 2 ^ 8

/-- R263: steps of one queue primitive on at most NSYM elements, `1 + h(NSYM)` with `h(m) = floor(log2 m) + 1`, at the largest NSYM. -/
def PRIM_STEPS : Nat := 1 + (8 + 1)

/-- R263: an upper bound on the state-machine steps of any one command, used as fuel (log 8), at the largest NSYM. BUILD is the longest:
two passes over FT, NSYM insertions, NSYM rounds of two extractions, one insertion and the B_LOOP and B_MERGE steps, and a constant; a
GENCODE's 1 + (4·NSYM − 2) + 1 steps lie below it. -/
def STEP_BOUND : Nat := 2 * (NSYM_LIMIT + 1) + NSYM_LIMIT * PRIM_STEPS + NSYM_LIMIT * (3 * PRIM_STEPS + 2) + 8

end Config

/-- R33: the value of the ID register: version in bits 31:16, KW in bits 15:8, SYM_W in bits 7:0, "for other parameter values the two low
bytes change accordingly". -/
def Params.id (p : Params) : Nat := Config.VERSION * 2 ^ 16 + p.kw * 2 ^ 8 + p.symW

end Sys2Proof
end

