-- ==== Sys2Proof/Word.lean ====
section
/-!
DEFINITION. The types of the block's words. A word type is as wide as its register or field is at the largest parameters that the encoding
carries, SYM_W = 8 and KW = 32 (93_implementation_defined.md U27). A block with smaller parameters holds only the smaller numbers that
00_scope.md R6 and 10_state.md R20 give its widths (`WidthsOk` of Safety.lean), which no arithmetic of the block leaves (41_tree_builder.md
R182; log 1). All words are unsigned (R8).
-/

namespace Sys2Proof

/-- A command or response word (30_encoding.md R94, R95), CMD_W bits. -/
abbrev Word64 := BitVec 64

/-- A symbol, SYM_W bits. -/
abbrev Symbol := BitVec 8

/-- A frequency key, KW bits (10_state.md R22). -/
abbrev Key := BitVec 32

/-- A node reference, NIDX_W bits (R23). -/
abbrev NodeRef := BitVec 9

/-- A counter or slot register of SYM_W + 1 bits: PQ_SIZE, PQ_CAP, NLEAF, S, N, CNT, I, M. -/
abbrev Count9 := BitVec 9

/-- NODE_CNT, NIDX_W + 1 bits (R24). -/
abbrev NodeCount := BitVec 10

/-- The scan sum ACC, KW + SYM_W bits (R36). -/
abbrev Sum := BitVec 40

/-- A codeword's `len` and the counter DEPTH, 8 bits, 0 to CODE_MAX (R29, R38). -/
abbrev Len := BitVec 8

/-- A codeword's `bits` and the register PATH, 256 bits: digit `i` at bit `i` (R29, R38, 20_memory.md R62). -/
abbrev Bits := BitVec 256

/-- ERRFLAGS, bits 9:0 (R34). -/
abbrev ErrBits := BitVec 10

/-- NIL as a node reference (R6, R23). -/
def nilRef (p : Params) : NodeRef := BitVec.ofNat 9 p.nil

end Sys2Proof
end

