-- ==== Sys2Proof/Syntax.lean ====
section
/-!
DEFINITION. The command set as syntax: one constructor of `Instr` per row of spec/opcode_table.json, with the operand fields its
format uses (30_encoding.md R94, R100). Operands are the unsigned numbers the fields spell (R96), before any range check.
-/

namespace Sys2Proof

/-- The 14 commands with their operands `a` and `b` (30_encoding.md R100, R106). -/
inductive Instr where
  /-- 0x01, format Z, 43_system.md R210. -/
  | clear
  /-- 0x02, format A: CSR number, 43_system.md R212. -/
  | csrRd (a : Nat)
  /-- 0x10, format AB: symbol, frequency, 41_tree_builder.md R150. -/
  | ftWr (a b : Nat)
  /-- 0x11, format A: symbol, 41_tree_builder.md R152. -/
  | ftRd (a : Nat)
  /-- 0x20, format AB: symbol, frequency, 41_tree_builder.md R155. -/
  | leaf (a b : Nat)
  /-- 0x21, format A: node reference, 41_tree_builder.md R158. -/
  | nodeRd (a : Nat)
  /-- 0x22, format A: node reference, 41_tree_builder.md R160. -/
  | nodeCh (a : Nat)
  /-- 0x30, format A: capacity, 40_priority_queue.md R130. -/
  | pqInit (a : Nat)
  /-- 0x31, format A: node reference, 40_priority_queue.md R131. -/
  | pqIns (a : Nat)
  /-- 0x32, format Z, 40_priority_queue.md R133. -/
  | pqExt
  /-- 0x33, format A: heap slot, 40_priority_queue.md R134. -/
  | heapRd (a : Nat)
  /-- 0x40, format Z, 41_tree_builder.md R164. -/
  | build
  /-- 0x50, format Z, 42_codeword_recorder.md R190. -/
  | genCode
  /-- 0x51, format AB: symbol, word select, 42_codeword_recorder.md R206. -/
  | cwRd (a b : Nat)
  deriving DecidableEq, Repr

/-- The three command formats of 30_encoding.md R94. -/
inductive Format where
  /-- uses neither operand field; both must be 0 -/
  | Z
  /-- uses `a`; `b` must be 0 -/
  | A
  /-- uses both -/
  | AB
  deriving DecidableEq, Repr

/-- The 14 opcodes of 30_encoding.md R100. -/
inductive Opcode where
  | clear | csrRd | ftWr | ftRd | leaf | nodeRd | nodeCh | pqInit | pqIns | pqExt | heapRd | build | genCode | cwRd
  deriving DecidableEq, Repr

/-- Why a word spells no command: the two cases of 30_encoding.md R101. The block answers both with IllegalCommand. -/
inductive DecodeError where
  /-- R101 (a): `op` is none of the 14 values -/
  | unknownOpcode (op : BitVec 8)
  /-- R101 (b): a field the command's format does not use is not 0 -/
  | unusedFieldNotZero (op : Opcode)
  deriving DecidableEq, Repr

/-- One row of the opcode map, 30_encoding.md R100: `w` spells the command exactly when `w &&& mask = value` (the table's `match`). -/
structure OpcodeRow where
  opcode : Opcode
  mnemonic : String
  format : Format
  value : Word64
  mask : Word64
  deriving DecidableEq, Repr

end Sys2Proof
end

