-- ==== Sys2Proof/WellFormed.lean ====
section
/-!
DEFINITION. Which terms of `Instr` have a word: every operand fits its field. This is the check 30_encoding.md R105 gives the
assembler ("refuses an operand that does not fit its field"); an operand that fits its field but lies outside the command's legal
range is well formed, since that is a run-time BadOperand.
-/

namespace Sys2Proof

/-- R94, R105: `a` is a 24-bit field. -/
def fitsA (a : Nat) : Bool := decide (a < 2 ^ 24)

/-- R94, R105: `b` is a 32-bit field. -/
def fitsB (b : Nat) : Bool := decide (b < 2 ^ 32)

/-- R105: every operand fits its field. -/
def Instr.wellFormed : Instr → Bool
  | .clear => true
  | .csrRd a => fitsA a
  | .ftWr a b => fitsA a && fitsB b
  | .ftRd a => fitsA a
  | .leaf a b => fitsA a && fitsB b
  | .nodeRd a => fitsA a
  | .nodeCh a => fitsA a
  | .pqInit a => fitsA a
  | .pqIns a => fitsA a
  | .pqExt => true
  | .heapRd a => fitsA a
  | .build => true
  | .genCode => true
  | .cwRd a b => fitsA a && fitsB b

end Sys2Proof
end

