-- ==== Sys2Proof/Decode.lean ====
section
/-!
DEFINITION. Decoding a command word and encoding a command (30_encoding.md R94, R100, R101, R103, R105).
-/

namespace Sys2Proof

/-- R94: `op` is bits 63:56. -/
def opField (w : Word64) : BitVec 8 := w.extractLsb' 56 8

/-- R94: `a` is bits 55:32. -/
def aField (w : Word64) : BitVec 24 := w.extractLsb' 32 24

/-- R94: `b` is bits 31:0. -/
def bField (w : Word64) : BitVec 32 := w.extractLsb' 0 32

/-- R100: the `op` value of each command. -/
def opcodeValue : Opcode → BitVec 8
  | .clear => 0x01#8
  | .csrRd => 0x02#8
  | .ftWr => 0x10#8
  | .ftRd => 0x11#8
  | .leaf => 0x20#8
  | .nodeRd => 0x21#8
  | .nodeCh => 0x22#8
  | .pqInit => 0x30#8
  | .pqIns => 0x31#8
  | .pqExt => 0x32#8
  | .heapRd => 0x33#8
  | .build => 0x40#8
  | .genCode => 0x50#8
  | .cwRd => 0x51#8

/-- R100: the format of each command. -/
def opcodeFormat : Opcode → Format
  | .clear => .Z
  | .csrRd => .A
  | .ftWr => .AB
  | .ftRd => .A
  | .leaf => .AB
  | .nodeRd => .A
  | .nodeCh => .A
  | .pqInit => .A
  | .pqIns => .A
  | .pqExt => .Z
  | .heapRd => .A
  | .build => .Z
  | .genCode => .Z
  | .cwRd => .AB

/-- R100: the mnemonic of each command, as the table spells it. -/
def opcodeMnemonic : Opcode → String
  | .clear => "CLEAR"
  | .csrRd => "CSR_RD"
  | .ftWr => "FT_WR"
  | .ftRd => "FT_RD"
  | .leaf => "LEAF"
  | .nodeRd => "NODE_RD"
  | .nodeCh => "NODE_CH"
  | .pqInit => "PQ_INIT"
  | .pqIns => "PQ_INS"
  | .pqExt => "PQ_EXT"
  | .heapRd => "HEAP_RD"
  | .build => "BUILD"
  | .genCode => "GENCODE"
  | .cwRd => "CW_RD"

/-- All opcodes, in the order of R100. -/
def allOpcodes : List Opcode :=
  [.clear, .csrRd, .ftWr, .ftRd, .leaf, .nodeRd, .nodeCh, .pqInit, .pqIns, .pqExt, .heapRd, .build, .genCode, .cwRd]

/-- R100, the opcode map with the `match` and `mask` columns as printed there. -/
def opcodeTable : List OpcodeRow :=
  [ ⟨.clear, "CLEAR", .Z, 0x0100000000000000#64, 0xFFFFFFFFFFFFFFFF#64⟩,
    ⟨.csrRd, "CSR_RD", .A, 0x0200000000000000#64, 0xFF000000FFFFFFFF#64⟩,
    ⟨.ftWr, "FT_WR", .AB, 0x1000000000000000#64, 0xFF00000000000000#64⟩,
    ⟨.ftRd, "FT_RD", .A, 0x1100000000000000#64, 0xFF000000FFFFFFFF#64⟩,
    ⟨.leaf, "LEAF", .AB, 0x2000000000000000#64, 0xFF00000000000000#64⟩,
    ⟨.nodeRd, "NODE_RD", .A, 0x2100000000000000#64, 0xFF000000FFFFFFFF#64⟩,
    ⟨.nodeCh, "NODE_CH", .A, 0x2200000000000000#64, 0xFF000000FFFFFFFF#64⟩ ] ++
  [ ⟨.pqInit, "PQ_INIT", .A, 0x3000000000000000#64, 0xFF000000FFFFFFFF#64⟩,
    ⟨.pqIns, "PQ_INS", .A, 0x3100000000000000#64, 0xFF000000FFFFFFFF#64⟩,
    ⟨.pqExt, "PQ_EXT", .Z, 0x3200000000000000#64, 0xFFFFFFFFFFFFFFFF#64⟩,
    ⟨.heapRd, "HEAP_RD", .A, 0x3300000000000000#64, 0xFF000000FFFFFFFF#64⟩,
    ⟨.build, "BUILD", .Z, 0x4000000000000000#64, 0xFFFFFFFFFFFFFFFF#64⟩,
    ⟨.genCode, "GENCODE", .Z, 0x5000000000000000#64, 0xFFFFFFFFFFFFFFFF#64⟩,
    ⟨.cwRd, "CW_RD", .AB, 0x5100000000000000#64, 0xFF00000000000000#64⟩ ]

/-- R103, the first line of decode: which opcode an `op` value is, if any. -/
def opcodeOf (op : BitVec 8) : Option Opcode := allOpcodes.find? fun o => opcodeValue o == op

/-- The command of an opcode with the operand numbers its format uses. -/
def instrOf (o : Opcode) (a b : Nat) : Instr :=
  match o with
  | .clear => .clear
  | .csrRd => .csrRd a
  | .ftWr => .ftWr a b
  | .ftRd => .ftRd a
  | .leaf => .leaf a b
  | .nodeRd => .nodeRd a
  | .nodeCh => .nodeCh a
  | .pqInit => .pqInit a
  | .pqIns => .pqIns a
  | .pqExt => .pqExt
  | .heapRd => .heapRd a
  | .build => .build
  | .genCode => .genCode
  | .cwRd => .cwRd a b

/-- R103: the fields a format does not use are 0. -/
def unusedZero (f : Format) (a : BitVec 24) (b : BitVec 32) : Bool :=
  match f with
  | .Z => a == 0 && b == 0
  | .A => b == 0
  | .AB => true

/-- R103: decode, total on every 64-bit word. It reads no state. -/
def decode (w : Word64) : Except DecodeError Instr :=
  match opcodeOf (opField w) with
  | none => .error (.unknownOpcode (opField w))
  | some o =>
    if unusedZero (opcodeFormat o) (aField w) (bField w) then .ok (instrOf o (aField w).toNat (bField w).toNat)
    else .error (.unusedFieldNotZero o)

/-- The opcode of a command. -/
def Instr.opcode : Instr → Opcode
  | .clear => .clear
  | .csrRd _ => .csrRd
  | .ftWr _ _ => .ftWr
  | .ftRd _ => .ftRd
  | .leaf _ _ => .leaf
  | .nodeRd _ => .nodeRd
  | .nodeCh _ => .nodeCh
  | .pqInit _ => .pqInit
  | .pqIns _ => .pqIns
  | .pqExt => .pqExt
  | .heapRd _ => .heapRd
  | .build => .build
  | .genCode => .genCode
  | .cwRd _ _ => .cwRd

/-- The operand `a` of a command, an omitted operand taken as 0 (R105). -/
def Instr.operandA : Instr → Nat
  | .clear | .pqExt | .build | .genCode => 0
  | .csrRd a | .ftRd a | .nodeRd a | .nodeCh a | .pqInit a | .pqIns a | .heapRd a => a
  | .ftWr a _ | .leaf a _ | .cwRd a _ => a

/-- The operand `b` of a command, an omitted operand taken as 0 (R105). -/
def Instr.operandB : Instr → Nat
  | .ftWr _ b | .leaf _ b | .cwRd _ b => b
  | .clear | .pqExt | .build | .genCode => 0
  | .csrRd _ | .ftRd _ | .nodeRd _ | .nodeCh _ | .pqInit _ | .pqIns _ | .heapRd _ => 0

/-- R94: the word `{op, a, b}`. -/
def commandWord (op : BitVec 8) (a : BitVec 24) (b : BitVec 32) : Word64 := op ++ a ++ b

/-- R105: `word = (op << 56) | (a << 32) | b`, for a command whose operands fit their fields. -/
def encode (i : Instr) : Word64 :=
  commandWord (opcodeValue i.opcode) (BitVec.ofNat 24 i.operandA) (BitVec.ofNat 32 i.operandB)

/-- The 64-bit command word whose low `nbits` bits are `w` and whose other bits are 0, numbered as spec/opcode_table.json numbers
them: bit 0 is the least significant of the one word a command has (R94, R104; log 16). -/
def tableWord (nbits w : Nat) : Word64 := BitVec.ofNat 64 (w % 2 ^ nbits)

/-- The command the decoder reads from a word given in the table's bit numbering. -/
def decodeTableWord (nbits w : Nat) : Option Instr :=
  match decode (tableWord nbits w) with
  | .ok i => some i
  | .error _ => none

end Sys2Proof
end

