-- ==== Sys2Proof/Machine/State.lean ====
section
/-!
DEFINITION. The state of the block as plain data (10_state.md R20), the fault and refusal names, and the state after reset (R42).
-/

namespace Sys2Proof.Machine

/-- A storage array by entry index: pairs of an index and the entry there, indices strictly rising. What an unlisted index means is
said at each array of `State`: zero for FT, `valid` = 0 for CW, "holds no value" (10_state.md R40) for NODE, HEAP and TSTK. -/
abbrev Arr (α : Type) := List (Nat × α)

/-- One record of NODE, 59 bits in five fields (10_state.md R23). -/
structure NodeRec where
  leaf : Bool
  sym : Symbol
  freq : Key
  left : NodeRef
  right : NodeRef
  deriving DecidableEq, Repr

/-- The fields `len` and `bits` of a CW entry whose `valid` is 1 (10_state.md R29). -/
structure Codeword where
  len : Len
  bits : Bits
  deriving DecidableEq, Repr

/-- The error kinds, complete (60_exceptions.md R220). -/
inductive ErrKind where
  | emptyQueue | emptyAlphabet | illegalCommand | badOperand | queueFull | arenaFull | freqOverflow | noTree | halted
  deriving DecidableEq, Repr

/-- PQ_FSM (10_state.md R37, 40_priority_queue.md R128). -/
inductive PqState where
  | pIdle | pUp | pDown
  deriving DecidableEq, Repr

/-- TB_FSM (10_state.md R37, 41_tree_builder.md R165). B_FAIL and B_FAULT carry the error they raise: the `error` that R167 chooses in
B_CHECK, and the `E` of 60_exceptions.md R232 (log 11). -/
inductive TbState where
  | bIdle | bScan | bCheck | bInit | bLeaves | bLoop | bExtU | bExtV | bMerge | bInsW | bDone
  | bFail (error : ErrKind)
  | bFault (error : ErrKind)
  deriving DecidableEq, Repr

/-- CR_FSM (10_state.md R37, 42_codeword_recorder.md R192). -/
inductive CrState where
  | gIdle | gStart | gDescend | gAscend | gDone
  deriving DecidableEq, Repr

/-- The working registers of PQ (10_state.md R35). -/
structure PqRegs where
  I : Count9
  M : Count9
  XN : NodeRef
  deriving DecidableEq, Repr

/-- The working registers of TB (10_state.md R36). -/
structure TbRegs where
  S : Count9
  N : Count9
  ACC : Sum
  U : NodeRef
  V : NodeRef
  W : NodeRef
  deriving DecidableEq, Repr

/-- The working registers of CR but for the array TSTK (10_state.md R38). -/
structure CrRegs where
  CUR : NodeRef
  DEPTH : Len
  PATH : Bits
  CNT : Count9
  deriving DecidableEq, Repr

/-- The levels the host drives on the block's input ports at one clock edge (30_encoding.md R90). -/
structure HostPins where
  rst : Bool
  cmdValid : Bool
  cmdData : Word64
  rspReady : Bool
  deriving DecidableEq, Repr

/-- The whole state of the block (10_state.md R20), its response port (30_encoding.md R90, R91), which block it is, and the host's inputs to
come. -/
structure State where
  /-- the model's own field (log 1): the parameters SYM_W and KW of this block, constants that no step changes (00_scope.md R6,
  10_state.md R41) -/
  params : Params
  /-- FT (R21); an unlisted symbol's entry is 0 -/
  ft : Arr Key
  /-- NODE (R23); an unlisted record holds no value -/
  node : Arr NodeRec
  /-- NODE_CNT (R24) -/
  nodeCnt : NodeCount
  /-- HEAP (R25); an unlisted slot holds no value -/
  heap : Arr NodeRef
  /-- PQ_SIZE (R26) -/
  pqSize : Count9
  /-- PQ_CAP (R26) -/
  pqCap : Count9
  /-- ROOT (R28) -/
  root : NodeRef
  /-- NLEAF (R28) -/
  nleaf : Count9
  /-- TREE_VALID (R28, R32) -/
  treeValid : Bool
  /-- CW (R29): the entry of a listed symbol has `valid` = 1; an unlisted symbol's has `valid` = 0, its `len` and `bits` no value -/
  cw : Arr Codeword
  /-- CW_READY (R30, R32) -/
  cwReady : Bool
  /-- FATAL (R32, 60_exceptions.md R232) -/
  fatal : Bool
  /-- ERRFLAGS (R34) -/
  errflags : ErrBits
  /-- PQ_FSM (R37) -/
  pqFsm : PqState
  /-- TB_FSM (R37) -/
  tbFsm : TbState
  /-- CR_FSM (R37) -/
  crFsm : CrState
  /-- I, M, XN (R35) -/
  pq : PqRegs
  /-- S, N, ACC, U, V, W (R36) -/
  tb : TbRegs
  /-- CUR, DEPTH, PATH, CNT (R38) -/
  cr : CrRegs
  /-- TSTK (R38); an unlisted entry holds no value -/
  tstk : Arr NodeRef
  /-- the response port: `some w` is `rsp_valid` = 1 with `rsp_data` = w (30_encoding.md R90, R91) -/
  rsp : Option Word64
  /-- the model's own field (log 3): the input levels at the coming clock edges, first edge first; past the end all are 0 -/
  host : List HostPins
  deriving DecidableEq, Repr

/-- The five storage arrays (20_memory.md R60). -/
inductive Space where
  | ft | node | heap | cw | tstk
  deriving DecidableEq, Repr

/-- Why a step stops. No state reachable from reset meets any of these (10_state.md R43, 70_reset_and_hazards.md R264); each is SAFE:
the model stops where the block would go on with something the spec gives no value. -/
inductive Fault where
  /-- A rule reads an entry that holds no value (10_state.md R40: "reading it is a modelling error, not a zero"). Raised by the
  reading operations of Machine/Ops.lean. Safe (log 4). -/
  | noValue (space : Space) (index : Nat)
  /-- A rule forms an index outside its array (00_scope.md R9: `i` is always inside the array's range when the rules are followed).
  Raised by the writing operations of Machine/Ops.lean. Safe (log 9). -/
  | outOfRange (space : Space) (index : Nat)
  /-- A command has not ended within the bound of 70_reset_and_hazards.md R263. Raised by `runUnits`. Safe (log 8). -/
  | stepBound
  deriving DecidableEq, Repr

/-- Why a step has no meaning. -/
inductive Refusal where
  /-- A command whose arm in Dispatch.lean has no meaning yet. No arm answers it. Safe. -/
  | notModelled (mnemonic : String)
  deriving DecidableEq, Repr

/-- The state after reset of the block with parameters `p` (10_state.md R42, 70_reset_and_hazards.md R250), with the host's inputs to come.
The working registers have no reset value in the spec; the model gives them 0 (DESIGN CHOICE, log 5). -/
def State.resetAt (p : Params) (inputs : List HostPins) : State where
  params := p
  ft := []
  node := []
  nodeCnt := 0
  heap := []
  pqSize := 0
  pqCap := 0
  root := 0
  nleaf := 0
  treeValid := false
  cw := []
  cwReady := false
  fatal := false
  errflags := 0
  pqFsm := .pIdle
  tbFsm := .bIdle
  crFsm := .gIdle
  pq := { I := 0, M := 0, XN := 0 }
  tb := { S := 0, N := 0, ACC := 0, U := 0, V := 0, W := 0 }
  cr := { CUR := 0, DEPTH := 0, PATH := 0, CNT := 0 }
  tstk := []
  rsp := none
  host := inputs

/-- The state after reset of the block with the default parameters (R6). No input has been given (DESIGN CHOICE, log 3). -/
def State.reset : State := State.resetAt Params.standard []

end Sys2Proof.Machine
end

