-- ==== Sys2Proof/Machine/Ops.lean ====
section
/-!
DEFINITION. The shared operations: outcomes in sequence, the storage arrays with their bounds and "holds no value" discipline
(10_state.md R40, 20_memory.md R60, R63), the response port (30_encoding.md R95), and `raise`, the block's whole trap mechanism
(60_exceptions.md R224). There is no operation for a return: R229 gives the block no handler and nothing to restore.
-/

namespace Sys2Proof.Machine

/-- What a state-machine step or a command answers. -/
abbrev Result := Host.Outcome State Fault Refusal

/-- `f` on the next state, stopping at a fault or refusal. -/
def andThen (r : Result) (f : State → Result) : Result :=
  match r with
  | .next s => f s
  | .fault e => .fault e
  | .refused e => .refused e

/-! ### Arrays -/

/-- The entry listed at an index. -/
def arrGet {α : Type} (m : Arr α) (i : Nat) : Option α :=
  match m with
  | [] => none
  | (k, v) :: t => if k = i then some v else arrGet t i

/-- List an entry at an index, in place of the one there. -/
def arrSet {α : Type} (m : Arr α) (i : Nat) (v : α) : Arr α :=
  match m with
  | [] => [(i, v)]
  | (k, w) :: t =>
    if i < k then (i, v) :: (k, w) :: t
    else if i = k then (i, v) :: t
    else (k, w) :: arrSet t i v

/-- List nothing at an index. -/
def arrErase {α : Type} (m : Arr α) (i : Nat) : Arr α := m.filter fun e => e.1 != i

/-- Indices strictly rising, each at least `lo`. -/
def arrSorted {α : Type} (lo : Nat) (m : Arr α) : Bool :=
  match m with
  | [] => true
  | (k, _) :: t => decide (lo ≤ k) && arrSorted (k + 1) t

/-- The canonical form of an array of `size` entries: indices strictly rising and inside the array. -/
def arrWf {α : Type} (size : Nat) (m : Arr α) : Bool := arrSorted 0 m && m.all fun e => decide (e.1 < size)

/-- The canonical form of all five arrays (sizes: 20_memory.md R60). FT lists no zero, since an unlisted FT entry is 0. -/
def Memory.wf (s : State) : Bool :=
  arrWf s.params.nsym s.ft && s.ft.all (fun e => e.2 != 0) && arrWf s.params.nodeMax s.node && arrWf s.params.nsym s.heap
    && arrWf s.params.nsym s.cw && arrWf s.params.codeMax s.tstk

/-! ### Reads -/

/-- `FT[i]` (R21). -/
def ftAt (s : State) (i : Nat) : Key := (arrGet s.ft i).getD 0

/-- `NODE[i]`, if it holds a value (R23, R40). -/
def nodeAt (s : State) (i : Nat) : Option NodeRec := arrGet s.node i

/-- `HEAP[k]`, if it holds a value (R25, R40). -/
def slotAt (s : State) (k : Nat) : Option NodeRef := arrGet s.heap k

/-- `CW[i]`: `some` exactly when `valid` is 1 (R29, R40). -/
def cwAt (s : State) (i : Nat) : Option Codeword := arrGet s.cw i

/-- `CW[i].valid` (R29). -/
def cwValid (s : State) (i : Nat) : Bool := (cwAt s i).isSome

/-- `TSTK[d]`, if it holds a value (R38, R40). -/
def tstkAt (s : State) (d : Nat) : Option NodeRef := arrGet s.tstk d

/-- `key(k) = NODE[HEAP[k]].freq` (R25, 40_priority_queue.md R120), if both entries hold a value. -/
def keyAt (s : State) (k : Nat) : Option Key :=
  (slotAt s k).bind fun x => (nodeAt s x.toNat).map NodeRec.freq

/-- Go on with the record `NODE[i]`. -/
def readNode (s : State) (i : Nat) (f : NodeRec → Result) : Result :=
  match nodeAt s i with
  | some n => f n
  | none => .fault (.noValue .node i)

/-- Go on with the reference `HEAP[k]`. -/
def readSlot (s : State) (k : Nat) (f : NodeRef → Result) : Result :=
  match slotAt s k with
  | some x => f x
  | none => .fault (.noValue .heap k)

/-- Go on with the reference `TSTK[d]`. -/
def readTstk (s : State) (d : Nat) (f : NodeRef → Result) : Result :=
  match tstkAt s d with
  | some x => f x
  | none => .fault (.noValue .tstk d)

/-- Go on with `key(k)`. -/
def readKey (s : State) (k : Nat) (f : Key → Result) : Result :=
  readSlot s k fun x => readNode s x.toNat fun n => f n.freq

/-! ### Writes -/

/-- `FT[i] <- v`; an entry of 0 is unlisted. Only FT_WR writes FT, after its check that `i` is inside. -/
def writeFt (s : State) (i : Symbol) (v : Key) : State :=
  { s with ft := if v = 0 then arrErase s.ft i.toNat else arrSet s.ft i.toNat v }

/-- The state with a codeword for symbol `i`. -/
def putCw (s : State) (i : Symbol) (len : Len) (bits : Bits) : State :=
  { s with cw := arrSet s.cw i.toNat { len := len, bits := bits } }

/-- `CW[i] <- { valid = 1, len, bits }`, `i` inside CW (log 9). -/
def writeCw (s : State) (i : Symbol) (len : Len) (bits : Bits) : Result :=
  if i.toNat < s.params.nsym then .next (putCw s i len bits) else .fault (.outOfRange .cw i.toNat)

/-- `CW[s].valid <- 0` for every `s`; `len` and `bits` hold no value from then on (R40). -/
def invalidateCw (s : State) : State := { s with cw := [] }

/-- The state with `x` in slot `k`. -/
def putSlot (s : State) (k : Nat) (x : NodeRef) : State := { s with heap := arrSet s.heap k x }

/-- `HEAP[k] <- x`, `k` inside HEAP (log 9). -/
def writeSlot (s : State) (k : Nat) (x : NodeRef) : Result :=
  if k < s.params.nsym then .next (putSlot s k x) else .fault (.outOfRange .heap k)

/-- `HEAP[k]` holds no value from now on (R40; log 6). -/
def dropSlot (s : State) (k : Nat) : State := { s with heap := arrErase s.heap k }

/-- `PQ_SIZE <- 0; PQ_CAP <- cap`: a new queue; no slot of HEAP holds a value from now on (R26, R40; log 6). -/
def createQueue (s : State) (cap : Count9) : State := { s with pqSize := 0, pqCap := cap, heap := [] }

/-- `NODE_CNT <- 0`: no record of NODE holds a value from now on (R24, R40; log 6). -/
def emptyArena (s : State) : State := { s with nodeCnt := 0, node := [] }

/-- The state with one more record, at index NODE_CNT. -/
def putNode (s : State) (n : NodeRec) : State :=
  { s with node := arrSet s.node s.nodeCnt.toNat n, nodeCnt := s.nodeCnt + 1 }

/-- `NODE[NODE_CNT] <- n; NODE_CNT <- NODE_CNT + 1`: allocation by increment (R24), inside NODE (log 9). -/
def allocNode (s : State) (n : NodeRec) : Result :=
  if s.nodeCnt.toNat < s.params.nodeMax then .next (putNode s n) else .fault (.outOfRange .node s.nodeCnt.toNat)

/-- A leaf's record (R23). -/
def leafRec (p : Params) (sym : Symbol) (freq : Key) : NodeRec :=
  { leaf := true, sym := sym, freq := freq, left := nilRef p, right := nilRef p }

/-- An internal node's record, `sym` the sentinel 0 (R23). -/
def innerRec (freq : Key) (left right : NodeRef) : NodeRec :=
  { leaf := false, sym := 0, freq := freq, left := left, right := right }

/-- The state with `x` in entry `d` of TSTK. -/
def putTstk (s : State) (d : Nat) (x : NodeRef) : State := { s with tstk := arrSet s.tstk d x }

/-- `TSTK[d] <- x`, `d` inside TSTK (log 9). -/
def writeTstk (s : State) (d : Nat) (x : NodeRef) : Result :=
  if d < s.params.codeMax then .next (putTstk s d x) else .fault (.outOfRange .tstk d)

/-- `TSTK[d]` holds no value from now on (R40; log 6). -/
def dropTstk (s : State) (d : Nat) : State := { s with tstk := arrErase s.tstk d }

/-- Digit `i` of a path or codeword: bit `i` (R29, R38, 20_memory.md R62). -/
def digitAt (p : Bits) (i : Nat) : Bool := p.getLsbD i

/-- `PATH[i] <- d`. -/
def setDigit (p : Bits) (i : Nat) (d : Bool) : Bits :=
  if d then p ||| (1#256 <<< i) else p &&& ~~~(1#256 <<< i)

/-! ### Working registers (10_state.md R35, R36, R38): `REG <- v` -/

/-- `I <- v`. -/
def setI (v : Count9) (s : State) : State :=
  { s with pq := { I := v, M := s.pq.M, XN := s.pq.XN } }

/-- `M <- v`. -/
def setM (v : Count9) (s : State) : State :=
  { s with pq := { I := s.pq.I, M := v, XN := s.pq.XN } }

/-- `XN <- v`. -/
def setXN (v : NodeRef) (s : State) : State :=
  { s with pq := { I := s.pq.I, M := s.pq.M, XN := v } }

/-- `S <- v`. -/
def setS (v : Count9) (s : State) : State :=
  { s with tb := { S := v, N := s.tb.N, ACC := s.tb.ACC, U := s.tb.U, V := s.tb.V, W := s.tb.W } }

/-- `N <- v`. -/
def setN (v : Count9) (s : State) : State :=
  { s with tb := { S := s.tb.S, N := v, ACC := s.tb.ACC, U := s.tb.U, V := s.tb.V, W := s.tb.W } }

/-- `ACC <- v`. -/
def setACC (v : Sum) (s : State) : State :=
  { s with tb := { S := s.tb.S, N := s.tb.N, ACC := v, U := s.tb.U, V := s.tb.V, W := s.tb.W } }

/-- `U <- v`. -/
def setU (v : NodeRef) (s : State) : State :=
  { s with tb := { S := s.tb.S, N := s.tb.N, ACC := s.tb.ACC, U := v, V := s.tb.V, W := s.tb.W } }

/-- `V <- v`. -/
def setV (v : NodeRef) (s : State) : State :=
  { s with tb := { S := s.tb.S, N := s.tb.N, ACC := s.tb.ACC, U := s.tb.U, V := v, W := s.tb.W } }

/-- `W <- v`. -/
def setW (v : NodeRef) (s : State) : State :=
  { s with tb := { S := s.tb.S, N := s.tb.N, ACC := s.tb.ACC, U := s.tb.U, V := s.tb.V, W := v } }

/-- `CUR <- v`. -/
def setCUR (v : NodeRef) (s : State) : State :=
  { s with cr := { CUR := v, DEPTH := s.cr.DEPTH, PATH := s.cr.PATH, CNT := s.cr.CNT } }

/-- `DEPTH <- v`. -/
def setDEPTH (v : Len) (s : State) : State :=
  { s with cr := { CUR := s.cr.CUR, DEPTH := v, PATH := s.cr.PATH, CNT := s.cr.CNT } }

/-- `PATH <- v`. -/
def setPATH (v : Bits) (s : State) : State :=
  { s with cr := { CUR := s.cr.CUR, DEPTH := s.cr.DEPTH, PATH := v, CNT := s.cr.CNT } }

/-- `CNT <- v`. -/
def setCNT (v : Count9) (s : State) : State :=
  { s with cr := { CUR := s.cr.CUR, DEPTH := s.cr.DEPTH, PATH := s.cr.PATH, CNT := v } }

/-! ### Sequencing registers (10_state.md R37): `fsm <- S` -/

/-- PQ_FSM moves to a state. -/
def setPqFsm (f : PqState) (s : State) : State := { s with pqFsm := f }

/-- TB_FSM moves to a state. -/
def setTbFsm (f : TbState) (s : State) : State := { s with tbFsm := f }

/-- CR_FSM moves to a state. -/
def setCrFsm (f : CrState) (s : State) : State := { s with crFsm := f }

/-! ### Registers and flags the host can read (10_state.md R31) -/

/-- `PQ_SIZE <- v`. -/
def setPqSize (v : Count9) (s : State) : State := { s with pqSize := v }

/-- `ROOT <- r; NLEAF <- n; TREE_VALID <- v` (R28: written together). -/
def setTree (r : NodeRef) (n : Count9) (v : Bool) (s : State) : State := { s with root := r, nleaf := n, treeValid := v }

/-- `CW_READY <- v`. -/
def setCwReady (v : Bool) (s : State) : State := { s with cwReady := v }

/-- `FATAL <- v`. -/
def setFatal (v : Bool) (s : State) : State := { s with fatal := v }

/-- `ERRFLAGS <- v`. -/
def setErrflags (v : ErrBits) (s : State) : State := { s with errflags := v }

/-- TSTK holds no value from now on (R40; log 6). -/
def emptyTstk (s : State) : State := { s with tstk := [] }

/-- `FT[s] <- 0` for every `s`. -/
def clearFt (s : State) : State := { s with ft := [] }

/-! ### Ports -/

/-- All three sequencing registers are idle (R37). -/
def unitsIdle (s : State) : Bool := s.pqFsm == .pIdle && s.tbFsm == .bIdle && s.crFsm == .gIdle

/-- `cmd_ready` (30_encoding.md R91): all units idle and no response waiting. -/
def cmdReady (s : State) : Bool := unitsIdle s && s.rsp.isNone

/-- `rsp_valid` (R90, R91). -/
def rspValid (s : State) : Bool := s.rsp.isSome

/-- The response word `{st, a, b}` (30_encoding.md R95). -/
def responseWord (st : BitVec 8) (a : BitVec 24) (b : BitVec 32) : Word64 := st ++ a ++ b

/-- `respond(st, a, b)` (00_scope.md R9): the response is presented and held. -/
def respond (st : BitVec 8) (a : BitVec 24) (b : BitVec 32) (s : State) : State :=
  { s with rsp := some (responseWord st a b) }

/-- `respond(OK, a, b)`, status 0x00 (R95). -/
def respondOk (a : BitVec 24) (b : BitVec 32) (s : State) : State := respond 0 a b s

/-! ### Errors -/

/-- `code(E)` (60_exceptions.md R220). -/
def errCode : ErrKind → Nat
  | .emptyQueue => 1
  | .emptyAlphabet => 2
  | .illegalCommand => 3
  | .badOperand => 4
  | .queueFull => 5
  | .arenaFull => 6
  | .freqOverflow => 7
  | .noTree => 8
  | .halted => 9

/-- `ERRFLAGS[code(E)] <- 1` on the register's value (10_state.md R34). -/
def setErrBit (f : ErrBits) (e : ErrKind) : ErrBits := f ||| (1#10 <<< errCode e)

/-- `raise E`, error entry (60_exceptions.md R224): the sticky bit, the error response, and nothing else. -/
def raise (e : ErrKind) (s : State) : State :=
  respond (BitVec.ofNat 8 (errCode e)) 0 0 (setErrflags (setErrBit s.errflags e) s)

/-- The halt check of dispatch (60_exceptions.md R226 step 2, R233). -/
def unlessHalted (s : State) (k : Result) : Result := if s.fatal then .next (raise .halted s) else k

end Sys2Proof.Machine
end

