-- ==== Sys2Proof/Machine/Operands.lean ====
section
/-!
DEFINITION. The operand kinds and their legal ranges (20_memory.md R63, 30_encoding.md R96): the whole field is compared against the
range; a value beyond it is BadOperand.
-/

namespace Sys2Proof.Machine

/-- The eight CSRs (10_state.md R31). -/
def csrCount : Nat := 8

/-- A symbol: 0 to NSYM − 1. -/
def symbolOf (s : State) (a : Nat) : Option Symbol := if a < s.params.nsym then some (BitVec.ofNat 8 a) else none

/-- A frequency: 0 to KMAX (41_tree_builder.md R150, R155). -/
def freqOf (s : State) (b : Nat) : Option Key := if b ≤ s.params.kmax then some (BitVec.ofNat 32 b) else none

/-- A node reference: 0 to NODE_CNT − 1. -/
def nodeRefOf (s : State) (a : Nat) : Option NodeRef :=
  if a < s.nodeCnt.toNat then some (BitVec.ofNat 9 a) else none

/-- A heap slot: 0 to PQ_SIZE − 1. -/
def slotOf (s : State) (a : Nat) : Option Nat := if a < s.pqSize.toNat then some a else none

/-- A capacity: 0 to NSYM. -/
def capacityOf (s : State) (a : Nat) : Option Count9 := if a ≤ s.params.nsym then some (BitVec.ofNat 9 a) else none

/-- A CSR number: 0 to 7. -/
def csrOf (a : Nat) : Option Nat := if a < csrCount then some a else none

/-- A word select: 0 to CW_WORDS − 1. -/
def wordSelOf (s : State) (b : Nat) : Option Nat := if b < s.params.cwWords then some b else none

/-- Go on with a legal operand; else raise BadOperand (60_exceptions.md R226 step 3). -/
def withOperand {α : Type} (o : Option α) (s : State) (k : α → Result) : Result :=
  match o with
  | some v => k v
  | none => .next (raise .badOperand s)

end Sys2Proof.Machine
end

