-- ==== Sys2Proof/Machine/Flags.lean ====
section
/-!
DEFINITION. The flags as the host reads them (10_state.md R32, R34, R39) and the CSR file (R31, R33). The block has no condition code.
-/

namespace Sys2Proof.Machine

/-- One flag as a 32-bit number, at its bit of STATUS. -/
def flagBit (b : Bool) (i : Nat) : BitVec 32 := if b then 1#32 <<< i else 0

/-- STATUS (R32): bit 0 TREE_VALID, bit 1 CW_READY, bit 2 FATAL, bits 31:3 zero. -/
def statusWord (s : State) : BitVec 32 := flagBit s.treeValid 0 ||| flagBit s.cwReady 1 ||| flagBit s.fatal 2

/-- ROOT as it reads (R28, R31): 0 when TREE_VALID is 0 (log 12). -/
def rootReads (s : State) : BitVec 32 := if s.treeValid then s.root.setWidth 32 else 0

/-- NLEAF as it reads (R28, R31): 0 when TREE_VALID is 0 (log 12). -/
def nleafReads (s : State) : BitVec 32 := if s.treeValid then s.nleaf.setWidth 32 else 0

/-- `zext_32(CSR[c])` (R31, 43_system.md R212). No CSR has a number above 7; `csrOf` refuses those before this is read. -/
def csrValue (s : State) (c : Nat) : BitVec 32 :=
  match c with
  | 0 => BitVec.ofNat 32 s.params.id
  | 1 => statusWord s
  | 2 => s.pqSize.setWidth 32
  | 3 => s.pqCap.setWidth 32
  | 4 => s.nodeCnt.setWidth 32
  | 5 => rootReads s
  | 6 => nleafReads s
  | 7 => s.errflags.setWidth 32
  | _ => 0

/-- `{zext(flag), low}`: a flag above a field of `w` bits (30_encoding.md R96). -/
def packFlag (w : Nat) (flag : Bool) (low : BitVec 8) : BitVec 24 := BitVec.ofNat 24 (flag.toNat * 2 ^ w + low.toNat)

end Sys2Proof.Machine
end

