-- ==== Sys2Proof/Machine/QueueUnit.lean ====
section
/-!
DEFINITION. The steps of PQ_FSM: the primitives `pq_insert` and `pq_extract` (40_priority_queue.md R120 to R128). A primitive's result
is the value of I (the slot where the inserted reference came to rest) or of XN (the extracted reference) when PQ_FSM is back in
P_IDLE.
-/

namespace Sys2Proof.Machine

/-- R122 step 0: `XN <- x; I <- PQ_SIZE; HEAP[I] <- XN; PQ_SIZE <- PQ_SIZE + 1; fsm <- P_UP`. -/
def insertStart (x : NodeRef) (s : State) : Result :=
  andThen (writeSlot (setI s.pqSize (setXN x s)) s.pqSize.toNat x) fun s =>
    .next (setPqFsm .pUp (setPqSize (s.pqSize + 1) s))

/-- R25: the parent of slot `k > 0`. -/
def parentSlot (k : Nat) : Nat := (k - 1) / 2

/-- `t <- HEAP[i]; HEAP[i] <- HEAP[j]; HEAP[j] <- t`. -/
def swapSlots (s : State) (i j : Nat) : Result :=
  readSlot s i fun x => readSlot s j fun y => andThen (writeSlot s i y) fun s => writeSlot s j x

/-- R122 step P_UP: the parent is swapped down only while its key is strictly greater (R126). -/
def upStep (s : State) : Result :=
  if s.pq.I = 0 then .next (setPqFsm .pIdle s)
  else
    readKey s (parentSlot s.pq.I.toNat) fun kp =>
      readKey s s.pq.I.toNat fun ki =>
        if ki < kp then
          andThen (swapSlots s (parentSlot s.pq.I.toNat) s.pq.I.toNat) fun s =>
            .next (setI (BitVec.ofNat 9 (parentSlot s.pq.I.toNat)) s)
        else .next (setPqFsm .pIdle s)

/-- R124, the second line of step 0, after PQ_SIZE is decremented: the last element moves to slot 0, and the slot at the new PQ_SIZE
holds no value from now on (R40). -/
def moveLast (s : State) : Result :=
  if s.pqSize = 0 then .next (dropSlot s 0)
  else readSlot s s.pqSize.toNat fun y => andThen (writeSlot s 0 y) fun s => .next (dropSlot s s.pqSize.toNat)

/-- R124 step 0. -/
def extractStart (s : State) : Result :=
  readSlot s 0 fun x =>
    andThen (moveLast (setPqSize (s.pqSize - 1) (setXN x s))) fun s =>
      .next (setPqFsm .pDown (setI 0 s))

/-- One of the two `if` lines of R124 step P_DOWN: go on with the child `c` if it is present and its key is strictly below that of
slot `m`, else with `m`. -/
def lesserSlot (s : State) (m c : Nat) (f : Nat → Result) : Result :=
  if c < s.pqSize.toNat then
    readKey s c fun kc => readKey s m fun km => if kc < km then f c else f m
  else f m

/-- R124 step P_DOWN. The child indices are exact numbers, so they do not wrap. -/
def downStep (s : State) : Result :=
  lesserSlot s s.pq.I.toNat (2 * s.pq.I.toNat + 1) fun m =>
    lesserSlot s m (2 * s.pq.I.toNat + 2) fun m =>
      if m = s.pq.I.toNat then .next (setPqFsm .pIdle (setM (BitVec.ofNat 9 m) s))
      else
        andThen (swapSlots s s.pq.I.toNat m) fun s => .next (setI (BitVec.ofNat 9 m) (setM (BitVec.ofNat 9 m) s))

end Sys2Proof.Machine
end

