-- ==== Sys2Proof/Machine/BuilderUnit.lean ====
section
/-!
DEFINITION. The steps of TB_FSM, the node merger (41_tree_builder.md R165 to R174, 60_exceptions.md R232). A step that calls a queue
primitive makes the primitive's step 0; TB_FSM then waits in its state until PQ_FSM is back in P_IDLE (`afterInsert`, `afterExtract` of
Machine/Units.lean).
-/

namespace Sys2Proof.Machine

/-- R167, entry from B_IDLE. -/
def builderStart (s : State) : State := setTbFsm .bScan (setACC 0 (setN 0 (setS 0 s)))

/-- R167 B_SCAN, an occurring symbol: `N <- N + 1; ACC <- ACC + FT[S]`. -/
def countSymbol (s : State) : State :=
  setACC (s.tb.ACC + (ftAt s s.tb.S.toNat).setWidth 40) (setN (s.tb.N + 1) s)

/-- R167 B_SCAN: count and sum, working registers only. -/
def scanStep (s : State) : Result :=
  if s.tb.S.toNat < s.params.nsym then
    if ftAt s s.tb.S.toNat = 0 then .next (setS (s.tb.S + 1) s) else .next (setS (s.tb.S + 1) (countSymbol s))
  else .next (setTbFsm .bCheck s)

/-- R167 B_CHECK. -/
def checkStep (s : State) : Result :=
  if s.tb.N = 0 then .next (setTbFsm (.bFail .emptyAlphabet) s)
  else if s.params.kmax < s.tb.ACC.toNat then .next (setTbFsm (.bFail .freqOverflow) s)
  else .next (setTbFsm .bInit s)

/-- R168 B_INIT. -/
def initStep (s : State) : Result :=
  .next (setTbFsm .bLeaves (setS 0
    (invalidateCw (setCwReady false (setTree 0 0 false (createQueue (emptyArena s) s.tb.N))))))

/-- R169 B_LEAVES: one leaf per occurring symbol, in ascending order. `S <- S + 1` is done for every symbol: at once where none is inserted,
also on the way to B_FAULT, and when the insertion has ended (`afterInsert`) where one is. -/
def leavesStep (s : State) : Result :=
  if s.tb.S.toNat < s.params.nsym then
    if ftAt s s.tb.S.toNat = 0 then .next (setS (s.tb.S + 1) s)
    else if s.pqSize = s.pqCap then .next (setS (s.tb.S + 1) (setTbFsm (.bFault .queueFull) s))
    else
      andThen (allocNode s (leafRec s.params (BitVec.ofNat 8 s.tb.S.toNat) (ftAt s s.tb.S.toNat)))
        (insertStart (s.nodeCnt.setWidth 9))
  else .next (setTbFsm .bLoop s)

/-- R170 B_LOOP. -/
def loopStep (s : State) : Result :=
  if 1 < s.pqSize.toNat then .next (setTbFsm .bExtU s) else .next (setTbFsm .bDone s)

/-- R170 B_EXT_U and B_EXT_V: start an extraction. -/
def extractOrFault (s : State) : Result :=
  if s.pqSize = 0 then .next (setTbFsm (.bFault .emptyQueue) s) else extractStart s

/-- R171 B_MERGE: the first extracted node is the left child. -/
def mergeStep (s : State) : Result :=
  readNode s s.tb.U.toNat fun u =>
    readNode s s.tb.V.toNat fun v =>
      andThen (allocNode (setW (s.nodeCnt.setWidth 9) s) (innerRec (u.freq + v.freq) s.tb.U s.tb.V)) fun s =>
        .next (setTbFsm .bInsW s)

/-- R172 B_INS_W. -/
def insertMerged (s : State) : Result :=
  if s.pqSize = s.pqCap then .next (setTbFsm (.bFault .queueFull) s) else insertStart s.tb.W s

/-- R173 B_DONE: the root stays in the queue. -/
def doneStep (s : State) : Result :=
  readSlot s 0 fun r =>
    readNode s r.toNat fun n =>
      .next (respondOk (r.setWidth 24) n.freq (setTbFsm .bIdle (setTree r s.tb.N true s)))

/-- R166 B_FAIL. -/
def failStep (e : ErrKind) (s : State) : Result := .next (raise e (setTbFsm .bIdle s))

/-- R174 B_FAULT, 60_exceptions.md R232: the internal fault halts the block. -/
def faultStep (e : ErrKind) (s : State) : Result :=
  .next (raise e (setTbFsm .bIdle (setTree 0 0 false (setFatal true s))))

/-- R165: the step of TB_FSM in each of its states, PQ_FSM being idle. -/
def builderStep (s : State) : Result :=
  match s.tbFsm with
  | .bIdle => .next s
  | .bScan => scanStep s
  | .bCheck => checkStep s
  | .bInit => initStep s
  | .bLeaves => leavesStep s
  | .bLoop => loopStep s
  | .bExtU => extractOrFault s
  | .bExtV => extractOrFault s
  | .bMerge => mergeStep s
  | .bInsW => insertMerged s
  | .bDone => doneStep s
  | .bFail e => failStep e s
  | .bFault e => faultStep e s

end Sys2Proof.Machine
end

