-- ==== Sys2Proof/Machine/RecorderUnit.lean ====
section
/-!
DEFINITION. The steps of CR_FSM, the codeword path recorder (42_codeword_recorder.md R192 to R197).
-/

namespace Sys2Proof.Machine

/-- R193 G_START, first lines: every `valid` 0, CNT, DEPTH and PATH 0. With DEPTH 0 no entry of TSTK holds a value (10_state.md R40). -/
def freshTable (s : State) : State := emptyTstk (invalidateCw (setPATH 0 (setDEPTH 0 (setCNT 0 s))))

/-- R193 G_START: a fresh table; the single-leaf tree gets the codeword "0" at once. -/
def recorderStart (s : State) : Result :=
  readNode s s.root.toNat fun n =>
    if n.leaf then andThen (writeCw (freshTable s) n.sym 1 0) fun s => .next (setCrFsm .gDone (setCNT 1 s))
    else .next (setCrFsm .gDescend (setCUR s.root (freshTable s)))

/-- R194: at a leaf, the value PATH has in this step is copied into the leaf's entry. -/
def recordLeaf (n : NodeRec) (s : State) : Result :=
  andThen (writeCw s n.sym s.cr.DEPTH s.cr.PATH) fun s => .next (setCrFsm .gAscend (setCNT (s.cr.CNT + 1) s))

/-- R195: at an internal node, append '0' and go to the left child. -/
def descendLeft (n : NodeRec) (s : State) : Result :=
  andThen (writeTstk s s.cr.DEPTH.toNat s.cr.CUR) fun s =>
    .next (setCUR n.left (setDEPTH (s.cr.DEPTH + 1) (setPATH (setDigit s.cr.PATH s.cr.DEPTH.toNat false) s)))

/-- R194, R195 G_DESCEND. -/
def descendStep (s : State) : Result :=
  readNode s s.cr.CUR.toNat fun n => if n.leaf then recordLeaf n s else descendLeft n s

/-- R196, the left subtree of `TSTK[d]` is finished: the digit becomes '1', go to the right child. -/
def turnRight (d : Nat) (s : State) : Result :=
  readTstk s d fun x =>
    readNode s x.toNat fun n =>
      .next (setCrFsm .gDescend (setCUR n.right (setPATH (setDigit s.cr.PATH d true) s)))

/-- R196, the right subtree is finished: pop; `TSTK[d]` holds no value from now on. -/
def popDigit (d : Nat) (s : State) : Result :=
  .next (setDEPTH (s.cr.DEPTH - 1) (setPATH (setDigit s.cr.PATH d false) (dropTstk s d)))

/-- R196 G_ASCEND: the last digit of PATH tells which side was just finished. -/
def ascendStep (s : State) : Result :=
  if s.cr.DEPTH = 0 then .next (setCrFsm .gDone s)
  else if digitAt s.cr.PATH (s.cr.DEPTH.toNat - 1) then popDigit (s.cr.DEPTH.toNat - 1) s
  else turnRight (s.cr.DEPTH.toNat - 1) s

/-- R197 G_DONE. -/
def recorderDone (s : State) : Result :=
  .next (respondOk (s.cr.CNT.setWidth 24) 0 (setCrFsm .gIdle (setCwReady true s)))

/-- R192: the step of CR_FSM in each of its states. -/
def recorderStep (s : State) : Result :=
  match s.crFsm with
  | .gIdle => .next s
  | .gStart => recorderStart s
  | .gDescend => descendStep s
  | .gAscend => ascendStep s
  | .gDone => recorderDone s

end Sys2Proof.Machine
end

