-- ==== Sys2Proof/Machine/Units.lean ====
section
/-!
DEFINITION. One state-machine step of the block (10_state.md R37: "A state holds for one step") and running a command's state machines
to their end (30_encoding.md R91, 70_reset_and_hazards.md R264).
-/

namespace Sys2Proof.Machine

/-- PQ_FSM is back in P_IDLE after `pq_insert`: its caller goes on. With TB_FSM idle the caller is PQ_INS, which responds with the
slot (40_priority_queue.md R131); in B_LEAVES `S <- S + 1` (41_tree_builder.md R169); in B_INS_W `fsm <- B_LOOP` (R172). In the other
states of TB_FSM no insertion is ever running (log 10). -/
def afterInsert (s : State) : Result :=
  match s.tbFsm with
  | .bIdle => .next (respondOk (s.pq.I.setWidth 24) 0 s)
  | .bLeaves => .next (setS (s.tb.S + 1) s)
  | .bInsW => .next (setTbFsm .bLoop s)
  | _ => .next s

/-- PQ_FSM is back in P_IDLE after `pq_extract`: its caller goes on. With TB_FSM idle the caller is PQ_EXT, which responds with the
reference and its `freq` (40_priority_queue.md R133); in B_EXT_U the result goes to U, in B_EXT_V to V (41_tree_builder.md R170). In
the other states of TB_FSM no extraction is ever running (log 10). -/
def afterExtract (s : State) : Result :=
  match s.tbFsm with
  | .bIdle => readNode s s.pq.XN.toNat fun n => .next (respondOk (s.pq.XN.setWidth 24) n.freq s)
  | .bExtU => .next (setTbFsm .bExtV (setU s.pq.XN s))
  | .bExtV => .next (setTbFsm .bMerge (setV s.pq.XN s))
  | _ => .next s

/-- Go on with the caller once the primitive has ended. -/
def whenPqIdle (f : State → Result) (s : State) : Result := if s.pqFsm = .pIdle then f s else .next s

/-- One state-machine step: PQ if it runs, else TB if it runs (TB waits for PQ), else CR. -/
def tick (s : State) : Result :=
  match s.pqFsm with
  | .pUp => andThen (upStep s) (whenPqIdle afterInsert)
  | .pDown => andThen (downStep s) (whenPqIdle afterExtract)
  | .pIdle => if s.tbFsm = .bIdle then recorderStep s else builderStep s

/-- State-machine steps until all units are idle, at most `fuel` of them. -/
def runUnits (fuel : Nat) (s : State) : Result :=
  match fuel with
  | 0 => if unitsIdle s then .next s else .fault .stepBound
  | n + 1 => if unitsIdle s then .next s else andThen (tick s) (runUnits n)

/-- Run a command's state machines to their end (R263, R264; log 8). -/
def runToEnd (s : State) : Result := runUnits Config.STEP_BOUND s

end Sys2Proof.Machine
end

