-- ==== Sys2Proof/Machine/Builder.lean ====
section
/-!
DEFINITION. The command BUILD (41_tree_builder.md section 3).
-/

namespace Sys2Proof.Machine

/-- R164 BUILD: the merger runs from B_IDLE until TB_FSM is B_IDLE again; the response is the one formed in B_DONE, B_FAIL or B_FAULT. -/
def execBuild (s : State) : Result := unlessHalted s <| runToEnd (builderStart s)

end Sys2Proof.Machine
end

