-- ==== Sys2Proof/Machine/Queue.lean ====
section
/-!
DEFINITION. The queue commands PQ_INIT, PQ_INS, PQ_EXT, HEAP_RD (40_priority_queue.md section 3).
-/

namespace Sys2Proof.Machine

/-- R130 PQ_INIT. -/
def execPqInit (a : Nat) (s : State) : Result :=
  unlessHalted s <| withOperand (capacityOf s a) s fun cap => .next (respondOk 0 0 (createQueue s cap))

/-- R131 PQ_INS: the response, formed by `afterInsert`, is the slot where the reference came to rest. -/
def execPqIns (a : Nat) (s : State) : Result :=
  unlessHalted s <|
    withOperand (nodeRefOf s a) s fun x =>
      if s.pqSize = s.pqCap then .next (raise .queueFull s) else andThen (insertStart x s) runToEnd

/-- R133 PQ_EXT: the response, formed by `afterExtract`, is the extracted reference and its `freq`. An empty queue is an ordinary error
(60_exceptions.md R231). -/
def execPqExt (s : State) : Result :=
  unlessHalted s <|
    if s.pqSize = 0 then .next (raise .emptyQueue s) else andThen (extractStart s) runToEnd

/-- R134 HEAP_RD. -/
def execHeapRd (a : Nat) (s : State) : Result :=
  unlessHalted s <|
    withOperand (slotOf s a) s fun k =>
      readSlot s k fun x => readKey s k fun f => .next (respondOk (x.setWidth 24) f s)

end Sys2Proof.Machine
end

