-- ==== Sys2Proof/Machine/Recorder.lean ====
section
/-!
DEFINITION. The commands GENCODE and CW_RD (42_codeword_recorder.md sections 1 and 4).
-/

namespace Sys2Proof.Machine

/-- R190 GENCODE: the recorder runs from G_IDLE until CR_FSM is G_IDLE again; the response is formed in G_DONE. -/
def execGenCode (s : State) : Result :=
  unlessHalted s <|
    if s.treeValid then runToEnd (setCrFsm .gStart s) else .next (raise .noTree s)

/-- 20_memory.md R62: word `k` of a codeword's `bits` is `bits[32k + 31 : 32k]`. -/
def codewordWord (bits : Bits) (k : Nat) : BitVec 32 := bits.extractLsb' (32 * k) 32

/-- R206 CW_RD; `len` is 8 bits whatever the parameters (10_state.md R29), so `valid` stays at bit 8 (log 1). A symbol with no codeword
answers OK with zeros. -/
def execCwRd (a b : Nat) (s : State) : Result :=
  unlessHalted s <|
    withOperand (symbolOf s a) s fun sym =>
      withOperand (wordSelOf s b) s fun k =>
        match cwAt s sym.toNat with
        | some c => .next (respondOk (packFlag 8 true c.len) (codewordWord c.bits k) s)
        | none => .next (respondOk 0 0 s)

end Sys2Proof.Machine
end

