-- ==== Sys2Proof/Machine/System.lean ====
section
/-!
DEFINITION. The system commands CLEAR and CSR_RD (43_system.md).
-/

namespace Sys2Proof.Machine

/-- No unit has a working value: the registers of R35, R36, R38 and TSTK as after reset (10_state.md R42: CLEAR "produces exactly the same
state"; log 5). -/
def dropWorking (s : State) : State :=
  emptyTstk { s with pq := State.reset.pq, tb := State.reset.tb, cr := State.reset.cr }

/-- R210 CLEAR. Accepted also when FATAL is set (60_exceptions.md R233). NODE, HEAP and the `len` and `bits` of CW hold no value
afterwards. -/
def execClear (s : State) : Result :=
  .next (respondOk 0 0 (dropWorking (setErrflags 0 (invalidateCw (setFatal false (setCwReady false (setTree 0 0 false
    (createQueue (emptyArena (clearFt s)) 0))))))))

/-- R212 CSR_RD. Accepted also when FATAL is set (60_exceptions.md R233). -/
def execCsrRd (a : Nat) (s : State) : Result :=
  withOperand (csrOf a) s fun c => .next (respondOk 0 (csrValue s c) s)

end Sys2Proof.Machine
end

