-- ==== Sys2Proof/Machine/Table.lean ====
section
/-!
DEFINITION. The frequency-table and node-arena commands FT_WR, FT_RD, LEAF, NODE_RD, NODE_CH (41_tree_builder.md sections 1 and 2).
-/

namespace Sys2Proof.Machine

/-- R150 FT_WR. -/
def execFtWr (a b : Nat) (s : State) : Result :=
  unlessHalted s <|
    withOperand (symbolOf s a) s fun sym =>
      withOperand (freqOf s b) s fun f => .next (respondOk 0 0 (writeFt s sym f))

/-- R152 FT_RD. -/
def execFtRd (a : Nat) (s : State) : Result :=
  unlessHalted s <| withOperand (symbolOf s a) s fun sym => .next (respondOk 0 (ftAt s sym.toNat) s)

/-- R155 LEAF: the response is the new reference. -/
def execLeaf (a b : Nat) (s : State) : Result :=
  unlessHalted s <|
    withOperand (symbolOf s a) s fun sym =>
      withOperand (freqOf s b) s fun f =>
        if s.nodeCnt.toNat = s.params.nodeMax then .next (raise .arenaFull s)
        else andThen (allocNode s (leafRec s.params sym f)) fun t => .next (respondOk (s.nodeCnt.setWidth 24) 0 t)

/-- R158 NODE_RD; `leaf` is at bit SYM_W, above the symbol (93_implementation_defined.md U27). -/
def execNodeRd (a : Nat) (s : State) : Result :=
  unlessHalted s <|
    withOperand (nodeRefOf s a) s fun i =>
      readNode s i.toNat fun n => .next (respondOk (packFlag s.params.symW n.leaf n.sym) n.freq s)

/-- R160 NODE_CH. -/
def execNodeCh (a : Nat) (s : State) : Result :=
  unlessHalted s <|
    withOperand (nodeRefOf s a) s fun i =>
      readNode s i.toNat fun n => .next (respondOk (n.left.setWidth 24) (n.right.setWidth 32) s)

end Sys2Proof.Machine
end

