-- ==== Sys2Proof/Machine/Dispatch.lean ====
section
/-! DEFINITION. Dispatch: one meaning per command (30_encoding.md R92, R100). -/

namespace Sys2Proof.Machine

def exec (i : Instr) (s : State) : Host.Outcome State Fault Refusal :=
  match i with
  | .clear => Sys2Proof.Machine.execClear s
  | .csrRd a => Sys2Proof.Machine.execCsrRd a s
  | .ftWr a b => Sys2Proof.Machine.execFtWr a b s
  | .ftRd a => Sys2Proof.Machine.execFtRd a s
  | .leaf a b => Sys2Proof.Machine.execLeaf a b s
  | .nodeRd a => Sys2Proof.Machine.execNodeRd a s
  | .nodeCh a => Sys2Proof.Machine.execNodeCh a s
  | .pqInit a => Sys2Proof.Machine.execPqInit a s
  | .pqIns a => Sys2Proof.Machine.execPqIns a s
  | .pqExt => Sys2Proof.Machine.execPqExt s
  | .heapRd a => Sys2Proof.Machine.execHeapRd a s
  | .build => Sys2Proof.Machine.execBuild s
  | .genCode => Sys2Proof.Machine.execGenCode s
  | .cwRd a b => Sys2Proof.Machine.execCwRd a b s

end Sys2Proof.Machine
end

