-- ==== Sys2Proof/Machine/Port.lean ====
section
/-!
DEFINITION. The command and response ports at one clock edge (30_encoding.md R90 to R93): reset, a command in progress, a response that
waits, and the transfer of a command word, which is decoded and run to its end.
-/

namespace Sys2Proof.Machine

/-- All input ports at 0. -/
def quietPins : HostPins := { rst := false, cmdValid := false, cmdData := 0, rspReady := false }

/-- The input levels at this edge (log 3). -/
def pinsNow (s : State) : HostPins := s.host.headD quietPins

/-- The state with this edge's input levels used up. -/
def afterEdge (s : State) : State := { s with host := s.host.tail }

/-- Reset (70_reset_and_hazards.md R250, R251): every piece of the block's state as after reset, whatever was in progress. The
block's parameters and what the host will drive at later edges are not reset's to change. -/
def resetBlock (s : State) : State := State.resetAt s.params s.host

/-- R92: decode, then the command's dispatch checks and its own rule; a word that spells no command is IllegalCommand (R101). -/
def runWord (w : Word64) (s : State) : Result :=
  match decode w with
  | .ok i => exec i s
  | .error _ => .next (raise .illegalCommand s)

/-- A response waits: it is held until the host takes it (R91, R93). -/
def responseEdge (p : HostPins) (s : State) : Result := if p.rspReady then .next { s with rsp := none } else .next s

/-- `cmd_ready` is 1: a presented word is transferred and run; with none presented the block stays as it is
(60_exceptions.md R243). -/
def commandEdge (p : HostPins) (s : State) : Result := if p.cmdValid then runWord p.cmdData s else .next s

/-- One clock edge with the input levels `p`: reset wins over everything (60_exceptions.md R227); a command in progress makes its next
state-machine step; else a waiting response may be taken; else a command may be. -/
def portEdge (p : HostPins) (s : State) : Result :=
  if p.rst then .next (resetBlock s)
  else if unitsIdle s then
    if rspValid s then responseEdge p s else commandEdge p s
  else tick s

/-- The input levels that present a command word. -/
def presenting (w : Word64) : HostPins := { rst := false, cmdValid := true, cmdData := w, rspReady := false }

/-- The state in which `cmd_ready` is 1 and the host presents `w` at the coming edge: the units idle and no response waiting, which is
how every state between two commands is (log 16). -/
def presentWord (w : Word64) (s : State) : State :=
  { s with pqFsm := .pIdle, tbFsm := .bIdle, crFsm := .gIdle, rsp := none, host := presenting w :: s.host }

end Sys2Proof.Machine
end

