-- ==== Sys2Proof/Machine/Step.lean ====
section
/-!
DEFINITION. One step of the machine is one clock edge at which the ports are sampled (30_encoding.md R90); a command is run to its end in
the step in which its word is transferred (00_scope.md R10, log 2).
-/

namespace Sys2Proof.Machine

/-- One step. -/
def step (s : State) : Host.Outcome State Fault Refusal := portEdge (pinsNow s) (afterEdge s)

/-- `s` with the command word that spec/opcode_table.json's numbering gives as `w` on the command port at the next edge: the block has no
program counter and fetches nothing (10_state.md R37), so this stands for the host presenting the word (log 16). -/
def State.withFetchWord (s : State) (nbits w : Nat) : State := presentWord (tableWord nbits w) s

end Sys2Proof.Machine
end

