-- ==== Sys2Proof/Machine/Asm.lean ====
section
/-!
DEFINITION. The textual form of commands and responses (30_encoding.md R105), on lines given as character lists. The block does not see
text; this is the notation the spec's examples and programs are written in (log 19).
-/

namespace Sys2Proof.Machine

/-- What stands on a line: names and numbers, character operands by their code, commas. -/
inductive Token where
  | word (text : List Char)
  | code (c : Nat)
  | comma
  deriving DecidableEq, Repr

/-- Why a line is refused. -/
inductive AsmError where
  /-- an apostrophe that does not open a character operand -/
  | badCharacter
  /-- the first token of the line is no mnemonic of R100 -/
  | unknownMnemonic
  /-- not as many operands as the command's format takes -/
  | wrongOperands
  /-- an operand that is no decimal, hexadecimal or character operand -/
  | badNumber
  /-- an operand that does not fit its field: `a` ≥ 2^24 or `b` ≥ 2^32 -/
  | operandTooLarge
  deriving DecidableEq, Repr

/-- Put the word collected so far (last character first) in front of the tokens. -/
def flushWord (acc : List Char) (ts : List Token) : List Token := if acc.isEmpty then ts else .word acc.reverse :: ts

/-- A printable ASCII character. -/
def isPrintable (c : Char) : Bool := decide (0x20 ≤ c.toNat ∧ c.toNat ≤ 0x7E)

/-- The tokens of a line up to its comment. -/
def tokens : List Char → List Char → Except AsmError (List Token)
  | [], acc => .ok (flushWord acc [])
  | '\'' :: c :: '\'' :: rest, acc =>
    if isPrintable c then (tokens rest []).map fun ts => flushWord acc (.code c.toNat :: ts) else .error .badCharacter
  | '\'' :: _, _ => .error .badCharacter
  | ';' :: _, acc => .ok (flushWord acc [])
  | ',' :: rest, acc => (tokens rest []).map fun ts => flushWord acc (.comma :: ts)
  | ' ' :: rest, acc => (tokens rest []).map (flushWord acc)
  | '\t' :: rest, acc => (tokens rest []).map (flushWord acc)
  | c :: rest, acc => tokens rest (c :: acc)

/-- The value of a digit, of either case, in a base of at most 16. -/
def digitValue (base : Nat) (c : Char) : Option Nat :=
  let n := c.toNat
  let v := if 0x30 ≤ n ∧ n ≤ 0x39 then n - 0x30 else if 0x61 ≤ n ∧ n ≤ 0x66 then n - 0x61 + 10
    else if 0x41 ≤ n ∧ n ≤ 0x46 then n - 0x41 + 10 else 16
  if v < base then some v else none

/-- The number of a digit sequence, the value read so far being `v`. -/
def numberFrom (base v : Nat) : List Char → Option Nat
  | [] => some v
  | c :: rest => (digitValue base c).bind fun d => numberFrom base (base * v + d) rest

/-- R105: `operand`. -/
def operandOf : Token → Except AsmError Nat
  | .code c => .ok c
  | .comma => .error .wrongOperands
  | .word ('0' :: 'x' :: c :: rest) => (numberFrom 16 0 (c :: rest)).elim (.error .badNumber) .ok
  | .word (c :: rest) => (numberFrom 10 0 (c :: rest)).elim (.error .badNumber) .ok
  | .word [] => .error .badNumber

/-- The mnemonics of R100, upper case, as characters. -/
def mnemonicOf (text : List Char) : Option Opcode := allOpcodes.find? fun o => opcodeMnemonic o == String.ofList text

/-- R105: the operands a format takes, an omitted one taken as 0. -/
def operandsOf (f : Format) (ts : List Token) : Except AsmError (Nat × Nat) :=
  match f, ts with
  | .Z, [] => .ok (0, 0)
  | .A, [x] => (operandOf x).map fun a => (a, 0)
  | .AB, [x, .comma, y] => (operandOf x).bind fun a => (operandOf y).map fun b => (a, b)
  | _, _ => .error .wrongOperands

/-- R105: `command`. -/
def commandOf : List Token → Except AsmError Instr
  | .word m :: ts =>
    match mnemonicOf m with
    | none => .error .unknownMnemonic
    | some o => (operandsOf (opcodeFormat o) ts).map fun ab => instrOf o ab.1 ab.2
  | _ => .error .unknownMnemonic

/-- R105: the assembler refuses an operand that does not fit its field, and only that. -/
def wordOf (i : Instr) : Except AsmError Word64 := if i.wellFormed then .ok (encode i) else .error .operandTooLarge

/-- R105: `line`, either nothing or one command, with its word. -/
def assembleLine (l : List Char) : Except AsmError (Option Word64) :=
  (tokens l []).bind fun ts => if ts.isEmpty then .ok none else ((commandOf ts).bind wordOf).map some

/-- The name of an error kind (60_exceptions.md R220). -/
def errName : ErrKind → String
  | .emptyQueue => "EmptyQueue"
  | .emptyAlphabet => "EmptyAlphabet"
  | .illegalCommand => "IllegalCommand"
  | .badOperand => "BadOperand"
  | .queueFull => "QueueFull"
  | .arenaFull => "ArenaFull"
  | .freqOverflow => "FreqOverflow"
  | .noTree => "NoTree"
  | .halted => "Halted"

/-- All error kinds, in the order of R220. -/
def allErrors : List ErrKind :=
  [.emptyQueue, .emptyAlphabet, .illegalCommand, .badOperand, .queueFull, .arenaFull, .freqOverflow, .noTree, .halted]

/-- R95: the status field of a response. -/
def statusField (w : Word64) : BitVec 8 := w.extractLsb' 56 8

/-- R95: the first result of a response. -/
def resultA (w : Word64) : BitVec 24 := w.extractLsb' 32 24

/-- R95: the second result of a response. -/
def resultB (w : Word64) : BitVec 32 := w.extractLsb' 0 32

/-- R105: how a response is written, values in decimal; nothing for a status that is never produced (R95). -/
def responseText (w : Word64) : Option String :=
  if statusField w = 0 then
    some ("-> OK a=" ++ toString (resultA w).toNat ++ " b=" ++ toString (resultB w).toNat)
  else (allErrors.find? fun e => BitVec.ofNat 8 (errCode e) == statusField w).map fun e => "-> " ++ errName e

end Sys2Proof.Machine
end

