-- ==== Sys2Proof/Safety.lean ====
section
/-!
DEFINITION. What counts as a safe run, in the terms the claims use: the invariants of 10_state.md R43 in parts, the states a run
reaches, and what of a state lies outside the working registers.
-/

namespace Sys2Proof.Machine

/-- The state without its working registers (10_state.md R35, R36, R38), which no command returns and which are dead while the units are
idle (R40): two states are alike in everything but them exactly when these are equal. -/
def visible (s : State) : State := { s with pq := State.reset.pq, tb := State.reset.tb, cr := State.reset.cr }

/-- The response word of an error (30_encoding.md R95, 60_exceptions.md R222). -/
def errorWord (e : ErrKind) : Word64 := responseWord (BitVec.ofNat 8 (errCode e)) 0 0

/-- The response word of an OK response (30_encoding.md R95). -/
def okWord (a : BitVec 24) (b : BitVec 32) : Word64 := responseWord 0 a b

/-- The queue: R43 items 1 and 2, and the slots that hold a value are exactly those below PQ_SIZE (R40). -/
structure QueueOk (s : State) : Prop where
  sizeLe : s.pqSize.toNat ≤ s.pqCap.toNat
  capLe : s.pqCap.toNat ≤ s.params.nsym
  slots : s.heap.map Prod.fst = List.range s.pqSize.toNat
  refs : ∀ e ∈ s.heap, e.2.toNat < s.nodeCnt.toNat

/-- Heap order, R27 (R43 item 3). -/
def HeapOrdered (s : State) : Prop :=
  ∀ k, k < s.pqSize.toNat → 0 < k →
    ∀ kp ∈ keyAt s (parentSlot k), ∀ kk ∈ keyAt s k, kp.toNat ≤ kk.toNat

/-- An internal record: its fields against R23 and R43 item 4. -/
structure InnerOk (s : State) (i : Nat) (n : NodeRec) : Prop where
  sentinel : n.sym = 0
  leftBelow : n.left.toNat < i
  rightBelow : n.right.toNat < i
  distinct : n.left ≠ n.right
  exactSum : ∀ l ∈ nodeAt s n.left.toNat, ∀ r ∈ nodeAt s n.right.toNat, n.freq.toNat = l.freq.toNat + r.freq.toNat

/-- The arena: R43 items 1 and 4, R23, and the records that hold a value are exactly those below NODE_CNT (R24, R40). -/
structure ArenaOk (s : State) : Prop where
  cntLe : s.nodeCnt.toNat ≤ s.params.nodeMax
  records : s.node.map Prod.fst = List.range s.nodeCnt.toNat
  leaves : ∀ e ∈ s.node, e.2.leaf = true → e.2.left = nilRef s.params ∧ e.2.right = nilRef s.params
  inners : ∀ e ∈ s.node, e.2.leaf = false → InnerOk s e.1 e.2

/-- The internal records that name `c` as a child. -/
def parentsOf (s : State) (c : Nat) : List (Nat × NodeRec) :=
  s.node.filter fun e => !e.2.leaf && (e.2.left.toNat == c || e.2.right.toNat == c)

/-- The tree that TREE_VALID = 1 announces, R43 item 5. -/
structure TreeShape (s : State) : Prop where
  someLeaf : 1 ≤ s.nleaf.toNat
  rootIs : s.root.toNat + 2 = 2 * s.nleaf.toNat
  inArena : s.root.toNat < s.nodeCnt.toNat
  leavesFirst : ∀ i, i ≤ s.root.toNat → ∀ n ∈ nodeAt s i, n.leaf = decide (i < s.nleaf.toNat)
  ascending : ∀ i, i + 1 < s.nleaf.toNat →
    ∀ m ∈ nodeAt s i, ∀ n ∈ nodeAt s (i + 1), m.sym.toNat < n.sym.toNat
  oneParent : ∀ c, c ≤ s.root.toNat → (parentsOf s c).length = if c = s.root.toNat then 0 else 1

/-- The tree registers: R28 and R43 item 5. -/
structure TreeOk (s : State) : Prop where
  noTree : s.treeValid = false → s.root = 0 ∧ s.nleaf = 0
  tree : s.treeValid = true → TreeShape s

/-- `sym` is the symbol of one of the tree's NLEAF leaves. -/
def leafSymbol (s : State) (sym : Nat) : Bool :=
  (List.range s.nleaf.toNat).any fun i => (nodeAt s i).any fun n => n.sym.toNat == sym

/-- The codeword table: R29, R30, R43 item 6. -/
structure CodesOk (s : State) : Prop where
  notReady : s.cwReady = false → s.cw = []
  needsTree : s.cwReady = true → s.treeValid = true
  covers : s.cwReady = true → ∀ sym, sym < s.params.nsym → cwValid s sym = leafSymbol s sym
  digits : ∀ e ∈ s.cw, 1 ≤ e.2.len.toNat ∧ e.2.len.toNat ≤ s.params.codeMax ∧ e.2.bits.toNat < 2 ^ e.2.len.toNat

/-- Every stored symbol, frequency and child reference fits the width that the block's parameters give it (00_scope.md R6, 10_state.md R20,
R22, R23); for the counters and the references in HEAP the other invariants say so. -/
structure WidthsOk (s : State) : Prop where
  counts : ∀ e ∈ s.ft, e.2.toNat ≤ s.params.kmax
  symbols : ∀ e ∈ s.node, e.2.sym.toNat < s.params.nsym
  freqs : ∀ e ∈ s.node, e.2.freq.toNat ≤ s.params.kmax
  children : ∀ e ∈ s.node, e.2.left.toNat ≤ s.params.nil ∧ e.2.right.toNat ≤ s.params.nil

/-- The part of the invariants that every command needs in order to end: legal parameters, the units idle, the arrays in canonical form,
queue and arena in bounds and holding values where their counters say and as wide as the parameters say, no halt (R6, R43 items 1, 2, 4,
7). -/
structure CoreInv (s : State) : Prop where
  legal : s.params.legal = true
  idle : unitsIdle s = true
  canonical : Memory.wf s = true
  queue : QueueOk s
  arena : ArenaOk s
  widths : WidthsOk s
  stackEmpty : s.tstk = []
  notFatal : s.fatal = false

/-- The invariants of every observable state, 10_state.md R43, with the canonical form of the arrays, the idle units, and the unused bit
of ERRFLAGS (R34). -/
structure BlockInv (s : State) : Prop where
  core : CoreInv s
  order : HeapOrdered s
  tree : TreeOk s
  codes : CodesOk s
  noBitZero : s.errflags.getLsbD 0 = false

/-- The states a run reaches from reset, in a block with any legal parameters, whatever the host drives on the ports at whichever time (00_scope.md R7, 30_encoding.md R93). -/
inductive Reachable : State → Prop
  | reset {p : Params} (inputs : List HostPins) : p.legal = true → Reachable (State.resetAt p inputs)
  | drive {s : State} (pins : List HostPins) : Reachable s → Reachable { s with host := pins }
  | step {s t : State} : Reachable s → Sys2Proof.Machine.step s = .next t → Reachable t

/-- The read commands (20_memory.md R64). -/
def isRead : Opcode → Bool
  | .csrRd | .ftRd | .nodeRd | .nodeCh | .heapRd | .cwRd => true
  | .clear | .ftWr | .leaf | .pqInit | .pqIns | .pqExt | .build | .genCode => false

/-- Two outcomes that nobody can tell apart at the ports or by any later command: the same stop, or next states alike in everything but
the working registers. -/
def SameOutcome : Result → Result → Prop
  | .next s, .next t => visible s = visible t
  | .fault e, .fault f => e = f
  | .refused e, .refused f => e = f
  | _, _ => False

/-- A safe step: the block goes on. -/
def StepsOn (s : State) : Prop := ∃ t, Sys2Proof.Machine.step s = .next t

end Sys2Proof.Machine
end

