-- ==== Sys2Proof/Summary.lean ====
section
/-!
DEFINITION. The command-level summaries that the spec derives from its state machines (00_scope.md R10 (a)): BUILD's loops
(41_tree_builder.md R164) and GENCODE's recursion (42_codeword_recorder.md R190). The machine does not use them: statements say that it
computes them.
-/

namespace Sys2Proof.Summary

open Sys2Proof.Machine

/-! ### The queue primitives as functions (40_priority_queue.md R122, R124) -/

/-- Steps of PQ_FSM alone until it is idle. -/
def runPq (stepOf : State → Result) : Nat → State → Result
  | 0, _ => .fault .stepBound
  | n + 1, s => andThen (stepOf s) fun t => if t.pqFsm = .pIdle then .next t else runPq stepOf n t

/-- `pq_insert(x)`: the result is the register I afterwards. -/
def pqInsert (x : NodeRef) (s : State) : Result := andThen (insertStart x s) (runPq upStep Config.PRIM_STEPS)

/-- `pq_extract()`: the result is the register XN afterwards. -/
def pqExtract (s : State) : Result := andThen (extractStart s) (runPq downStep Config.PRIM_STEPS)

/-- The slots from slot `k` to the root slot, at most `n` parents up (R25). Eight parents lead from every slot of HEAP to slot 0. -/
def pathToRoot : Nat → Nat → List Nat
  | 0, k => [k]
  | n + 1, k => if k = 0 then [0] else k :: pathToRoot n (parentSlot k)

/-- `key(i) < key(j)`, both slots and their records holding values (R120). -/
def KeyLess (s : State) (i j : Nat) : Prop := ∃ x, keyAt s i = some x ∧ ∃ y, keyAt s j = some y ∧ x.toNat < y.toNat

/-- The slot that R124's step P_DOWN takes for M: the left child if it is strictly smaller than the element, then the right child if it
is strictly smaller than that. -/
def Chosen (s : State) (i m : Nat) : Prop :=
  (m = i ∧ (2 * i + 1 < s.pqSize.toNat → ¬ KeyLess s (2 * i + 1) i) ∧ (2 * i + 2 < s.pqSize.toNat → ¬ KeyLess s (2 * i + 2) i)) ∨
  (m = 2 * i + 1 ∧ m < s.pqSize.toNat ∧ KeyLess s m i ∧ (2 * i + 2 < s.pqSize.toNat → ¬ KeyLess s (2 * i + 2) m)) ∨
  (m = 2 * i + 2 ∧ m < s.pqSize.toNat ∧ KeyLess s m i ∧ KeyLess s m (2 * i + 1))

/-- The queue after the references of slots `i` and `j` have changed places and nothing else has. -/
def Swapped (s t : State) (i j : Nat) : Prop :=
  slotAt t i = slotAt s j ∧ slotAt t j = slotAt s i ∧ ∀ k, k ≠ i → k ≠ j → slotAt t k = slotAt s k

/-! ### The transition tables (41_tree_builder.md R165, 42_codeword_recorder.md R192) -/

/-- R165: the state TB_FSM is in after a step in which no primitive was running. A state that has started a primitive waits in itself. -/
def builderGoesTo (s : State) : TbState :=
  match s.tbFsm with
  | .bIdle => .bIdle
  | .bScan => if s.tb.S.toNat < s.params.nsym then .bScan else .bCheck
  | .bCheck =>
    if s.tb.N = 0 then .bFail .emptyAlphabet else if s.params.kmax < s.tb.ACC.toNat then .bFail .freqOverflow else .bInit
  | .bInit => .bLeaves
  | .bLeaves =>
    if s.tb.S.toNat < s.params.nsym then
      if ftAt s s.tb.S.toNat ≠ 0 ∧ s.pqSize = s.pqCap then .bFault .queueFull else .bLeaves
    else .bLoop
  | .bLoop => if 1 < s.pqSize.toNat then .bExtU else .bDone
  | .bExtU => if s.pqSize = 0 then .bFault .emptyQueue else .bExtU
  | .bExtV => if s.pqSize = 0 then .bFault .emptyQueue else .bExtV
  | .bMerge => .bInsW
  | .bInsW => if s.pqSize = s.pqCap then .bFault .queueFull else .bInsW
  | .bDone => .bIdle
  | .bFail _ => .bIdle
  | .bFault _ => .bIdle

/-- R192: the state CR_FSM is in after a step; nothing where the record that decides holds no value. -/
def recorderGoesTo (s : State) : Option CrState :=
  match s.crFsm with
  | .gIdle => some .gIdle
  | .gStart => (nodeAt s s.root.toNat).map fun n => if n.leaf then .gDone else .gDescend
  | .gDescend => (nodeAt s s.cr.CUR.toNat).map fun n => if n.leaf then .gAscend else .gDescend
  | .gAscend =>
    if s.cr.DEPTH = 0 then some .gDone
    else if digitAt s.cr.PATH (s.cr.DEPTH.toNat - 1) then some .gAscend
    else some .gDescend
  | .gDone => some .gIdle

/-! ### The grammar of a command line (30_encoding.md R105), on character lists, apart from the assembler -/

/-- The digits with their values: decimal digits, then hexadecimal ones in either case (log 19). -/
def digitTable : List (Char × Nat) :=
  [('0', 0), ('1', 1), ('2', 2), ('3', 3), ('4', 4), ('5', 5), ('6', 6), ('7', 7), ('8', 8), ('9', 9)] ++
  [('a', 10), ('b', 11), ('c', 12), ('d', 13), ('e', 14), ('f', 15)] ++
  [('A', 10), ('B', 11), ('C', 12), ('D', 13), ('E', 14), ('F', 15)]

/-- A digit sequence of a base, at least one digit long. -/
abbrev DigitsOf (base : Nat) (ds : List (Char × Nat)) : Prop := ds ≠ [] ∧ ∀ d ∈ ds, d ∈ digitTable ∧ d.2 < base

/-- The number a digit sequence stands for, most significant digit first. -/
def numberOf (base : Nat) (ds : List (Char × Nat)) : Nat := ds.foldl (fun v d => base * v + d.2) 0

/-- `operand`: the text of a number. -/
inductive OperandText : List Char → Nat → Prop
  | decimal {ds : List (Char × Nat)} : DigitsOf 10 ds → OperandText (ds.map Prod.fst) (numberOf 10 ds)
  | hex {ds : List (Char × Nat)} : DigitsOf 16 ds → OperandText ('0' :: 'x' :: ds.map Prod.fst) (numberOf 16 ds)
  | character {c : Char} : 0x20 ≤ c.toNat → c.toNat ≤ 0x7E → OperandText ['\'', c, '\''] c.toNat

/-- Spaces and tabs (log 19). -/
abbrev Blanks (l : List Char) : Prop := ∀ c ∈ l, c = ' ' ∨ c = '\t'

/-- `command`: the text of a mnemonic with its operands `a` and `b`, an omitted operand taken as 0. -/
inductive CommandText : List Char → Opcode → Nat → Nat → Prop
  | noOperand {o : Opcode} : opcodeFormat o = .Z → CommandText (opcodeMnemonic o).toList o 0 0
  | oneOperand {o : Opcode} {gap x : List Char} {a : Nat} : opcodeFormat o = .A → Blanks gap → gap ≠ [] → OperandText x a →
      CommandText ((opcodeMnemonic o).toList ++ gap ++ x) o a 0
  | twoOperands {o : Opcode} {gap x gap1 gap2 y : List Char} {a b : Nat} : opcodeFormat o = .AB → Blanks gap → gap ≠ [] →
      OperandText x a → Blanks gap1 → Blanks gap2 → OperandText y b →
      CommandText ((opcodeMnemonic o).toList ++ gap ++ x ++ gap1 ++ ',' :: gap2 ++ y) o a b

/-- What may stand after a command: blanks, then nothing or a comment. -/
def LineEnd (l : List Char) : Prop := Blanks l ∨ ∃ gap comment, Blanks gap ∧ l = gap ++ ';' :: comment

/-! ### BUILD (41_tree_builder.md R164) -/

/-- The symbols that occur, in ascending order. -/
def occurring (s : State) : List Nat := (List.range s.params.nsym).filter fun i => ftAt s i != 0

/-- `n`, the number of distinct symbols. -/
def symbolCount (s : State) : Nat := (occurring s).length

/-- `total`, the sum of the FT entries. -/
def totalCount (s : State) : Nat := ((List.range s.params.nsym).map fun i => (ftAt s i).toNat).sum

/-- The state in which the leaves are made: arena, queue, tree registers and codeword table emptied, a queue of capacity `n`. -/
def freshTree (n : Nat) (s : State) : State :=
  invalidateCw (setCwReady false (setTree 0 0 false (createQueue (emptyArena s) (BitVec.ofNat 9 n))))

/-- The `for` loop: one leaf for each symbol of the list. -/
def addLeaves : List Nat → State → Result
  | [], s => .next s
  | sym :: rest, s =>
    andThen (allocNode s (leafRec s.params (BitVec.ofNat 8 sym) (ftAt s sym))) fun t =>
      andThen (pqInsert (s.nodeCnt.setWidth 9) t) (addLeaves rest)

/-- One round of the `while` loop. -/
def mergeRound (s : State) : Result :=
  andThen (pqExtract s) fun s1 =>
    andThen (pqExtract s1) fun s2 =>
      readNode s2 s1.pq.XN.toNat fun u =>
        readNode s2 s2.pq.XN.toNat fun v =>
          andThen (allocNode s2 (innerRec (u.freq + v.freq) s1.pq.XN s2.pq.XN)) (pqInsert (s2.nodeCnt.setWidth 9))

/-- The `while PQ_SIZE > 1` loop, at most `n` rounds. -/
def mergeAll : Nat → State → Result
  | 0, s => if 1 < s.pqSize.toNat then .fault .stepBound else .next s
  | n + 1, s => if 1 < s.pqSize.toNat then andThen (mergeRound s) (mergeAll n) else .next s

/-- The last two lines: the tree registers and the response. -/
def finish (n : Nat) (s : State) : Result :=
  readSlot s 0 fun r =>
    readNode s r.toNat fun w =>
      .next (respondOk (r.setWidth 24) w.freq (setTree r (BitVec.ofNat 9 n) true s))

/-- The summary of R164. -/
def buildSummary (s : State) : Result :=
  if symbolCount s = 0 then .next (raise .emptyAlphabet s)
  else if s.params.kmax < totalCount s then .next (raise .freqOverflow s)
  else
    andThen (addLeaves (occurring s) (freshTree (symbolCount s) s)) fun s1 =>
      andThen (mergeAll (symbolCount s) s1) (finish (symbolCount s))

/-! ### The checks of every command, in order (60_exceptions.md R221, R226; 20_memory.md R63) -/

/-- The commands that are served while the block is halted (60_exceptions.md R233). -/
def servedWhenHalted : Instr → Bool
  | .clear => true
  | .csrRd _ => true
  | .ftWr _ _ | .ftRd _ | .leaf _ _ | .nodeRd _ | .nodeCh _ | .pqInit _ | .pqIns _ | .pqExt | .heapRd _ | .build | .genCode
  | .cwRd _ _ => false

/-- Every operand lies in its legal range (20_memory.md R63; for a frequency, 41_tree_builder.md R150 and R155). -/
def operandsLegal (s : State) : Instr → Bool
  | .csrRd a => decide (a ≤ 7)
  | .ftWr a b | .leaf a b => decide (a < s.params.nsym ∧ b ≤ s.params.kmax)
  | .ftRd a => decide (a < s.params.nsym)
  | .nodeRd a | .nodeCh a | .pqIns a => decide (a < s.nodeCnt.toNat)
  | .pqInit a => decide (a ≤ s.params.nsym)
  | .heapRd a => decide (a < s.pqSize.toNat)
  | .cwRd a b => decide (a < s.params.nsym ∧ b < s.params.cwWords)
  | .clear | .pqExt | .build | .genCode => true

/-- The state precondition that fails, if one does (60_exceptions.md R221, last column). -/
def preconditionError (s : State) : Instr → Option ErrKind
  | .leaf _ _ => if s.nodeCnt.toNat = s.params.nodeMax then some .arenaFull else none
  | .pqIns _ => if s.pqSize = s.pqCap then some .queueFull else none
  | .pqExt => if s.pqSize = 0 then some .emptyQueue else none
  | .build =>
    if symbolCount s = 0 then some .emptyAlphabet
    else if s.params.kmax < totalCount s then some .freqOverflow
    else none
  | .genCode => if s.treeValid then none else some .noTree
  | .clear | .csrRd _ | .ftWr _ _ | .ftRd _ | .nodeRd _ | .nodeCh _ | .pqInit _ | .heapRd _ | .cwRd _ _ => none

/-- The first check that fails, after decode: halt, operand bounds, state precondition (60_exceptions.md R226). -/
def checkError (s : State) (i : Instr) : Option ErrKind :=
  if s.fatal && !servedWhenHalted i then some .halted
  else if operandsLegal s i then preconditionError s i
  else some .badOperand

/-- Which error a command can answer with, after decode (60_exceptions.md R220, R221; BUILD's EmptyQueue and QueueFull only through
R232). -/
def mayAnswer : Instr → ErrKind → Bool
  | .clear, _ => false
  | .csrRd _, e => e == .badOperand
  | .ftWr _ _, e | .ftRd _, e | .nodeRd _, e | .nodeCh _, e | .pqInit _, e | .heapRd _, e | .cwRd _ _, e =>
    e == .halted || e == .badOperand
  | .leaf _ _, e => e == .halted || e == .badOperand || e == .arenaFull
  | .pqIns _, e => e == .halted || e == .badOperand || e == .queueFull
  | .pqExt, e => e == .halted || e == .emptyQueue
  | .build, e => e == .halted || e == .emptyAlphabet || e == .freqOverflow || e == .emptyQueue || e == .queueFull
  | .genCode, e => e == .halted || e == .noTree

/-! ### GENCODE (42_codeword_recorder.md R190) -/

/-- The codeword table and CNT while the walk goes on. -/
structure Table where
  cw : Arr Codeword
  cnt : Nat
  deriving DecidableEq, Repr

/-- `walk(i, depth, path)`, children before the fuel runs out; `none` where a record holds no value or the fuel is too small. Since a
child's index is below its parent's, fuel `i + 1` is enough for the subtree of `i`. -/
def walk (s : State) : Nat → NodeRef → Nat → Bits → Table → Option Table
  | 0, _, _, _, _ => none
  | fuel + 1, i, depth, path, t =>
    match nodeAt s i.toNat with
    | none => none
    | some n =>
      if n.leaf then
        some { cw := arrSet t.cw n.sym.toNat { len := BitVec.ofNat 8 depth, bits := path }, cnt := t.cnt + 1 }
      else
        match walk s fuel n.left (depth + 1) path t with
        | none => none
        | some u => walk s fuel n.right (depth + 1) (path ||| (1#256 <<< depth)) u

/-- The table GENCODE records: the codeword "0" for a single-leaf tree, else the walk from ROOT. -/
def recordedTable (s : State) : Option Table :=
  match nodeAt s s.root.toNat with
  | none => none
  | some n =>
    if n.leaf then some { cw := arrSet [] n.sym.toNat { len := 1, bits := 0 }, cnt := 1 }
    else walk s (s.root.toNat + 1) s.root 0 0 { cw := [], cnt := 0 }

/-! ### Codewords as digit sequences (20_memory.md R62 item 2, 42_codeword_recorder.md R207) -/

/-- Digits d(0) to d(len − 1). -/
def digitsOf (c : Codeword) : List Bool := (List.range c.len.toNat).map fun i => digitAt c.bits i

/-- Where a digit sequence leads from record `i`: '0' to the left child, '1' to the right child; nowhere from a leaf. -/
def follow (s : State) : Nat → List Bool → Option Nat
  | i, [] => some i
  | i, d :: ds =>
    (nodeAt s i).bind fun n => if n.leaf then none else follow s (if d then n.right.toNat else n.left.toNat) ds

/-- The string a reader prints, d(0) first (20_memory.md R62 item 4). -/
def digitString (c : Codeword) : String := String.ofList ((digitsOf c).map fun d => if d then '1' else '0')

end Sys2Proof.Summary
end

