-- ==== Sys2Proof/Certificates/Slice0/Obligations.lean ====
section
/-!
DEFINITION. The statements for the provers. Results and frames: `t = { s with f := t.f, … }` says that every field not named is as in `s`.
A statement holds in a block with any legal parameters SYM_W and KW (00_scope.md R6, log 1): `s.params` of the state it is about. Which
number the working registers hold at reset is the model's own choice (log 5), and no statement rests on it.
-/

open Sys2Proof Sys2Proof.Machine Sys2Proof.Summary

/-! ### Words -/

/-- The spec's example word of each command (files 40 to 43) decodes to that command. -/
def Obligations.ExampleWordsDecode : Prop :=
  decode 0x0100000000000000#64 = .ok .clear ∧
  decode 0x0200000100000000#64 = .ok (.csrRd 1) ∧
  decode 0x1000006100000002#64 = .ok (.ftWr 0x61 2) ∧
  decode 0x1100006100000000#64 = .ok (.ftRd 0x61) ∧
  decode 0x2000007800000005#64 = .ok (.leaf 0x78 5) ∧
  decode 0x2100000000000000#64 = .ok (.nodeRd 0) ∧
  decode 0x2200000400000000#64 = .ok (.nodeCh 4) ∧
  decode 0x3000000300000000#64 = .ok (.pqInit 3) ∧
  decode 0x3100000200000000#64 = .ok (.pqIns 2) ∧
  decode 0x3200000000000000#64 = .ok .pqExt ∧
  decode 0x3300000100000000#64 = .ok (.heapRd 1) ∧
  decode 0x4000000000000000#64 = .ok .build ∧
  decode 0x5000000000000000#64 = .ok .genCode ∧
  decode 0x5100006300000000#64 = .ok (.cwRd 0x63 0)

/-- Encoding loses nothing: every well-formed command is what its word decodes to. -/
def Obligations.DecodeOfEncodeIsTheCommand : Prop :=
  ∀ i : Instr, i.wellFormed = true → decode (encode i) = .ok i

/-- R103: decode as the rule's four lines give it, on every word, and one word for every command. -/
def Obligations.DecodeFollowsItsRule : Prop :=
  (∀ w, (∀ o, opField w ≠ opcodeValue o) → ∃ e, decode w = .error e) ∧
  (∀ w o, opField w = opcodeValue o → opcodeFormat o = .Z → (aField w ≠ 0 ∨ bField w ≠ 0) → ∃ e, decode w = .error e) ∧
  (∀ w o, opField w = opcodeValue o → opcodeFormat o = .A → bField w ≠ 0 → ∃ e, decode w = .error e) ∧
  (∀ w o, opField w = opcodeValue o → (opcodeFormat o = .Z → aField w = 0 ∧ bField w = 0) →
    (opcodeFormat o = .A → bField w = 0) → decode w = .ok (instrOf o (aField w).toNat (bField w).toNat)) ∧
  (∀ w i, decode w = .ok i → i.wellFormed = true ∧ encode i = w) ∧
  (∀ i : Instr, i.wellFormed = true → ∃ w, decode w = .ok i)

/-- R100: the opcode map, row by row: a word spells the row's command exactly when `w &&& mask = match`; the row has the command's
mnemonic, format and `op` value; every command has a row; a word whose `op` is in no row spells no command. -/
def Obligations.WordSpellsItsTableRow : Prop :=
  (∀ r ∈ opcodeTable, ∀ w, w &&& r.mask = r.value ↔ ∃ i, decode w = .ok i ∧ i.opcode = r.opcode) ∧
  (∀ r ∈ opcodeTable, r.mnemonic = opcodeMnemonic r.opcode ∧ r.format = opcodeFormat r.opcode ∧
    opField r.value = opcodeValue r.opcode) ∧
  (∀ o, ∃ r ∈ opcodeTable, r.opcode = o) ∧
  (∀ w, (∀ r ∈ opcodeTable, opField w ≠ opField r.value) → ∀ i, decode w ≠ .ok i)

/-- R101: a word spells no command in exactly the two cases, the first of them written out in `op` ranges; it then raises
IllegalCommand, also while the block is halted; and no word that spells a command is answered with IllegalCommand. -/
def Obligations.IllegalCommandInExactlyTwoCases : Prop :=
  (∀ w, (∀ i, decode w ≠ .ok i) ↔
    (∀ o, opField w ≠ opcodeValue o) ∨
    (∃ o, opField w = opcodeValue o ∧
      ((opcodeFormat o = .Z ∧ (aField w ≠ 0 ∨ bField w ≠ 0)) ∨ (opcodeFormat o = .A ∧ bField w ≠ 0)))) ∧
  (∀ w, (∀ o, opField w ≠ opcodeValue o) ↔
    ((opField w).toNat = 0x00 ∨ (0x03 ≤ (opField w).toNat ∧ (opField w).toNat ≤ 0x0F) ∨
      (0x12 ≤ (opField w).toNat ∧ (opField w).toNat ≤ 0x1F) ∨ (0x23 ≤ (opField w).toNat ∧ (opField w).toNat ≤ 0x2F) ∨
      (0x34 ≤ (opField w).toNat ∧ (opField w).toNat ≤ 0x3F) ∨ (0x41 ≤ (opField w).toNat ∧ (opField w).toNat ≤ 0x4F) ∨
      0x52 ≤ (opField w).toNat)) ∧
  (∀ w s, (∀ i, decode w ≠ .ok i) → runWord w s = .next (raise .illegalCommand s)) ∧
  (∀ w s t i, decode w = .ok i → unitsIdle s = true → runWord w s = .next t → t.rsp ≠ some (errorWord .illegalCommand))

/-- R105: which word a command and which word a line assembles to. A command whose operands fit their fields gives its own encoding, and
any other is refused; a line that spells a mnemonic and its operands (decimal, hexadecimal or character, with blanks around them and a
comment after them) gives the encoding of that command with those operands; a line without a command gives nothing; and no line gives a
word that is not the encoding of a command whose operands fit. That blanks separate, and that hexadecimal digits have either case, is the
model's own choice (log 19). -/
def Obligations.AssembledWordsAreEncodings : Prop :=
  (∀ i : Instr, wordOf i =
    if i.operandA < 2 ^ 24 ∧ i.operandB < 2 ^ 32 then .ok (encode i) else .error .operandTooLarge) ∧
  (∀ lead text tail o a b, Blanks lead → CommandText text o a b → LineEnd tail →
    assembleLine (lead ++ text ++ tail) =
      if a < 2 ^ 24 ∧ b < 2 ^ 32 then .ok (some (encode (instrOf o a b))) else .error .operandTooLarge) ∧
  (∀ tail, LineEnd tail → assembleLine tail = .ok none) ∧
  (∀ l w, assembleLine l = .ok (some w) → ∃ i : Instr, i.wellFormed = true ∧ w = encode i)

/-! ### The ports -/

/-- A step runs the command that the presented word spells, with this edge's input levels used up: exec of the decoded command, or
IllegalCommand. The second half says the same of `presentWord`, which `State.withFetchWord` is made of. -/
def Obligations.StepRunsThePresentedCommand : Prop :=
  (∀ s w ready rest i, cmdReady s = true →
    s.host = { rst := false, cmdValid := true, cmdData := w, rspReady := ready } :: rest → decode w = .ok i →
    step s = exec i { s with host := rest }) ∧
  (∀ s w ready rest, cmdReady s = true →
    s.host = { rst := false, cmdValid := true, cmdData := w, rspReady := ready } :: rest → (∀ i, decode w ≠ .ok i) →
    step s = .next (raise .illegalCommand { s with host := rest })) ∧
  (∀ s w i, decode w = .ok i →
    step (presentWord w s) = exec i { s with pqFsm := .pIdle, tbFsm := .bIdle, crFsm := .gIdle, rsp := none }) ∧
  (∀ s nbits w, State.withFetchWord s nbits w = presentWord (tableWord nbits w) s)

/-- An edge at which no command is transferred and reset is not asserted: a command in progress makes its next state-machine step and
the host's levels do not matter; a waiting response is held until `rsp_ready`; an idle block stays as it is. Its clauses are the model's
own choices: a busy unit makes one state-machine step per edge (log 17; log 10 for a primitive that no caller waits for), while a command
that is transferred runs to its end in that step, so a busy unit at an edge is a state between a command's steps (log 2); with `rsp_ready`
the edge takes the response and nothing else, also when a command is presented (log 14); the levels are read from the list `host` and
used up edge by edge (log 3), a transfer being both lines at 1 at one edge (log 18). -/
def Obligations.EdgeWithoutACommand : Prop :=
  (∀ s, (pinsNow s).rst = false → unitsIdle s = false → step s = tick { s with host := s.host.tail }) ∧
  (∀ s w, (pinsNow s).rst = false → unitsIdle s = true → s.rsp = some w → (pinsNow s).rspReady = false →
    step s = .next { s with host := s.host.tail }) ∧
  (∀ s w, (pinsNow s).rst = false → unitsIdle s = true → s.rsp = some w → (pinsNow s).rspReady = true →
    step s = .next { s with rsp := none, host := s.host.tail }) ∧
  (∀ s, (pinsNow s).rst = false → cmdReady s = true → (pinsNow s).cmdValid = false →
    step s = .next { s with host := s.host.tail })

/-- R251: asserting `rst` leads from every state, intermediate ones too, to the one reset state; no response is produced. -/
def Obligations.ResetFromEveryState : Prop :=
  ∀ s, (pinsNow s).rst = true →
    ∃ t, step s = .next t ∧ visible t = visible (State.resetAt s.params s.host.tail) ∧ t.rsp = none ∧ cmdReady t = true

/-- Every command word, also one that spells no command, is answered with exactly one response word of R95's form, formed with all
units idle. -/
def Obligations.EveryCommandEndsWithOneResponse : Prop :=
  ∀ w s t, unitsIdle s = true → runWord w s = .next t →
    unitsIdle t = true ∧ t.host = s.host ∧
      ((∃ a b, t.rsp = some (okWord a b)) ∨ ∃ e, t.rsp = some (errorWord e))

/-! ### Errors -/

/-- R224: error entry, the code of each error kind, and what is left: the block idle and ready once the response is taken. -/
def Obligations.RaiseIsTheWholeErrorEntry : Prop :=
  (∀ e s, raise e s = { s with errflags := (raise e s).errflags, rsp := some (responseWord (BitVec.ofNat 8 (errCode e)) 0 0) }) ∧
  (∀ e s k, k < 10 → (raise e s).errflags.getLsbD k = (s.errflags.getLsbD k || decide (k = errCode e))) ∧
  (∀ e s, unitsIdle s = true → cmdReady { raise e s with rsp := none } = true) ∧
  (allErrors.map fun e => (errName e, errCode e)) =
    [("EmptyQueue", 1), ("EmptyAlphabet", 2), ("IllegalCommand", 3), ("BadOperand", 4), ("QueueFull", 5), ("ArenaFull", 6),
      ("FreqOverflow", 7), ("NoTree", 8), ("Halted", 9)]

/-- R226: the first check that fails decides the error, and nothing else but the error entry happens: decode, then halt, then operand
bounds, then the command's state precondition, BUILD's two in their order. Said for every idle state of a block with legal parameters,
whatever it holds. -/
def Obligations.FirstFailingCheckDecides : Prop :=
  (∀ w s, (∀ i, decode w ≠ .ok i) → runWord w s = .next (raise .illegalCommand s)) ∧
  (∀ i s e, s.params.legal = true → unitsIdle s = true → checkError s i = some e →
    ∃ t, exec i s = .next t ∧ visible t = visible (raise e s))

/-- R225: an error response leaves the state as it was but for the error's ERRFLAGS bit; the working registers of TB, which BUILD's scan
writes, are no architectural state. `t.fatal = s.fatal` leaves out the internal fault of R232 and nothing else. -/
def Obligations.ErrorsLeaveNoPartialResult : Prop :=
  ∀ w s t e, unitsIdle s = true → runWord w s = .next t → t.rsp = some (errorWord e) → t.fatal = s.fatal →
    t = { s with errflags := setErrBit s.errflags e, rsp := some (errorWord e), tb := t.tb }

/-- Which command can answer with which error: the matrix of R221. -/
def Obligations.ErrorsAreThoseOfTheMatrix : Prop :=
  ∀ i s t e, unitsIdle s = true → exec i s = .next t → t.rsp = some (errorWord e) → mayAnswer i e = true

/-- A command whose checks all pass answers OK: from every state that meets the invariants, exec completes. This is where every command
completes. -/
def Obligations.PassedChecksAnswerOk : Prop :=
  ∀ i s, BlockInv s → checkError s i = none → ∃ t a b, exec i s = .next t ∧ t.rsp = some (okWord a b)

/-- R233: a halted block serves CLEAR and CSR_RD only; CLEAR and reset end the halt, and nothing else does. -/
def Obligations.HaltedBlockServesTwoCommands : Prop :=
  (∀ i s, s.fatal = true → i.opcode ≠ .clear → i.opcode ≠ .csrRd → exec i s = .next (raise .halted s)) ∧
  (∀ s, s.fatal = true → ∃ t, exec .clear s = .next t ∧ t.fatal = false ∧ t.rsp = some (okWord 0 0)) ∧
  (∀ s, s.fatal = true → (pinsNow s).rst = true → ∃ t, step s = .next t ∧ t.fatal = false) ∧
  (∀ s a, s.fatal = true → a < 8 → ∃ t b, exec (.csrRd a) s = .next t ∧ t.fatal = true ∧ t.rsp = some (okWord 0 b)) ∧
  (∀ s t, s.fatal = true → unitsIdle s = true → (pinsNow s).rst = false →
    ((pinsNow s).cmdValid = true → decode (pinsNow s).cmdData ≠ .ok .clear) → step s = .next t → t.fatal = true)

/-- R232: the step of B_FAULT, and which error each failing primitive gives it; B_LEAVES moves S on also then (41_tree_builder.md R169). -/
def Obligations.InternalFaultHaltsTheBlock : Prop :=
  (∀ s e, s.pqFsm = .pIdle → s.tbFsm = .bFault e →
    tick s = .next { s with
      fatal := true, treeValid := false, root := 0, nleaf := 0, errflags := setErrBit s.errflags e,
      rsp := some (errorWord e), tbFsm := .bIdle }) ∧
  (∀ s, s.pqFsm = .pIdle → s.tbFsm = .bExtU ∨ s.tbFsm = .bExtV → s.pqSize = 0 →
    tick s = .next { s with tbFsm := .bFault .emptyQueue }) ∧
  (∀ s, s.pqFsm = .pIdle → s.tbFsm = .bInsW → s.pqSize = s.pqCap → tick s = .next { s with tbFsm := .bFault .queueFull }) ∧
  (∀ s, s.pqFsm = .pIdle → s.tbFsm = .bLeaves → s.tb.S.toNat < s.params.nsym → ftAt s s.tb.S.toNat ≠ 0 → s.pqSize = s.pqCap →
    tick s = .next { s with tb := { s.tb with S := s.tb.S + 1 }, tbFsm := .bFault .queueFull })

/-- R234: only the step of B_FAULT sets FATAL, and the halt is never observed: in every state a run reaches FATAL and ERRFLAGS bit 9 are
0, no command answers Halted, and BUILD answers neither EmptyQueue nor QueueFull. -/
def Obligations.HaltIsNeverObserved : Prop :=
  (∀ s t, tick s = .next t → s.fatal = false → t.fatal = true → ∃ e, s.tbFsm = .bFault e) ∧
  (∀ s, Reachable s → s.fatal = false ∧ s.errflags.getLsbD 9 = false ∧
    (∀ i t, exec i s = .next t → t.rsp ≠ some (errorWord .halted)) ∧
    (∀ t, exec .build s = .next t → t.rsp ≠ some (errorWord .emptyQueue) ∧ t.rsp ≠ some (errorWord .queueFull)))

/-- R34: an ERRFLAGS bit is set exactly when a response with its code is formed, and stays set until CLEAR or reset; bit 0 is unused. -/
def Obligations.ErrflagsAreSticky : Prop :=
  (∀ w s t k, unitsIdle s = true → runWord w s = .next t → decode w ≠ .ok .clear → k < 10 →
    (t.errflags.getLsbD k = true ↔ s.errflags.getLsbD k = true ∨ ∃ e, errCode e = k ∧ t.rsp = some (errorWord e))) ∧
  (∀ s t, exec .clear s = .next t → t.errflags = 0) ∧
  (∀ s t, (pinsNow s).rst = true → step s = .next t → t.errflags = 0) ∧
  (∀ s t, (pinsNow s).rst = false → unitsIdle s = true → (cmdReady s && (pinsNow s).cmdValid) = false → step s = .next t →
    t.errflags = s.errflags) ∧
  (∀ s, Reachable s → s.errflags.getLsbD 0 = false)

/-! ### Reset and CLEAR -/

/-- R42: every value of the table of reset values, in a block with any parameters, the CSR numbers as CSR_RD reads them, and the storage
that holds no value; the ID of the block with the default parameters. -/
def Obligations.ResetLeavesTheTableOfValues : Prop :=
  (∀ p inputs s, s = State.resetAt p inputs →
    s.params = p ∧ (∀ i, ftAt s i = 0) ∧ s.nodeCnt = 0 ∧ (∀ i, nodeAt s i = none) ∧
    s.pqSize = 0 ∧ s.pqCap = 0 ∧ (∀ k, slotAt s k = none) ∧ s.root = 0 ∧ s.nleaf = 0 ∧
    s.treeValid = false ∧ s.cwReady = false ∧ s.fatal = false ∧ (∀ i, cwAt s i = none) ∧ s.errflags = 0 ∧
    s.pqFsm = .pIdle ∧ s.tbFsm = .bIdle ∧ s.crFsm = .gIdle ∧ (∀ d, tstkAt s d = none) ∧
    cmdReady s = true ∧ rspValid s = false) ∧
  State.reset = State.resetAt .standard [] ∧
  exec (.csrRd 0) State.reset = .next { State.reset with rsp := some (okWord 0 0x00012008#32) } ∧
  (∀ s t, exec .clear s = .next t → unitsIdle s = true →
    visible { t with rsp := none } = visible (State.resetAt s.params s.host))

/-- R210: CLEAR writes every value of its rule, from every idle state, halted or not, and answers OK; no other command clears FATAL or an
ERRFLAGS bit. -/
def Obligations.ClearPutsTheBlockInItsResetState : Prop :=
  (∀ i s t, i ≠ .clear → unitsIdle s = true → exec i s = .next t →
    (s.fatal = true → t.fatal = true) ∧ ∀ k, s.errflags.getLsbD k = true → t.errflags.getLsbD k = true) ∧
  ∀ s, unitsIdle s = true → ∃ t, exec .clear s = .next t ∧ t.rsp = some (okWord 0 0) ∧
    (∀ i, ftAt t i = 0) ∧ t.nodeCnt = 0 ∧ t.pqSize = 0 ∧ t.pqCap = 0 ∧ t.root = 0 ∧ t.nleaf = 0 ∧
    t.treeValid = false ∧ t.cwReady = false ∧ t.fatal = false ∧ (∀ i, cwValid t i = false) ∧ t.errflags = 0 ∧
    (∀ i, nodeAt t i = none) ∧ (∀ k, slotAt t k = none) ∧
    visible { t with rsp := none } = visible (State.resetAt s.params s.host)

/-! ### Single-entry commands -/

/-- R212: CSR_RD returns each of the eight CSRs as R31 to R34 lay them out (ID with the block's own KW and SYM_W), halted or not, and
changes nothing else; a higher number is BadOperand. -/
def Obligations.CsrReadReturnsTheRegister : Prop :=
  (∀ s c, c < 8 → ∃ v : BitVec 32, exec (.csrRd c) s = .next { s with rsp := some (okWord 0 v) } ∧
    (c = 0 → s.params.legal = true → v.toNat = 2 ^ 16 + 2 ^ 8 * s.params.kw + s.params.symW) ∧
    (c = 0 → s.params = .standard → v = 0x00012008#32) ∧
    (c = 1 → v.getLsbD 0 = s.treeValid ∧ v.getLsbD 1 = s.cwReady ∧ v.getLsbD 2 = s.fatal ∧ v.toNat < 8) ∧
    (c = 2 → v.toNat = s.pqSize.toNat) ∧ (c = 3 → v.toNat = s.pqCap.toNat) ∧ (c = 4 → v.toNat = s.nodeCnt.toNat) ∧
    (c = 5 → v.toNat = if s.treeValid then s.root.toNat else 0) ∧
    (c = 6 → v.toNat = if s.treeValid then s.nleaf.toNat else 0) ∧
    (c = 7 → v.toNat = s.errflags.toNat)) ∧
  (∀ s c, 7 < c → exec (.csrRd c) s = .next (raise .badOperand s))

/-- R150: FT_WR writes one entry of FT and nothing else; an operand beyond its range is BadOperand. -/
def Obligations.FtWriteWritesOneEntry : Prop :=
  (∀ s a b, s.params.legal = true → s.fatal = false → a < s.params.nsym → b ≤ s.params.kmax →
    ∃ t, exec (.ftWr a b) s = .next t ∧ t = { s with ft := t.ft, rsp := some (okWord 0 0) } ∧
      ftAt t a = BitVec.ofNat 32 b ∧ ∀ j, j ≠ a → ftAt t j = ftAt s j) ∧
  (∀ s a b, s.fatal = false → (s.params.nsym ≤ a ∨ s.params.kmax < b) → exec (.ftWr a b) s = .next (raise .badOperand s))

/-- R152: FT_RD returns one entry of FT and changes nothing else; a symbol beyond the alphabet is BadOperand; after reset and after CLEAR
every entry reads 0. -/
def Obligations.FtReadReturnsTheEntry : Prop :=
  (∀ s a, s.params.legal = true → s.fatal = false → a < s.params.nsym →
    exec (.ftRd a) s = .next { s with rsp := some (okWord 0 (ftAt s a)) }) ∧
  (∀ s a, s.fatal = false → s.params.nsym ≤ a → exec (.ftRd a) s = .next (raise .badOperand s)) ∧
  (∀ p inputs a, a < p.nsym →
    exec (.ftRd a) (State.resetAt p inputs) = .next { State.resetAt p inputs with rsp := some (okWord 0 0) }) ∧
  (∀ s t a, exec .clear s = .next t → a < s.params.nsym → exec (.ftRd a) t = .next { t with rsp := some (okWord 0 0) })

/-- R155: LEAF allocates one leaf record at NODE_CNT and answers its reference; an operand beyond its range is BadOperand; a full arena is
ArenaFull. -/
def Obligations.LeafAllocatesOneRecord : Prop :=
  (∀ s a b, s.params.legal = true → s.fatal = false → a < s.params.nsym → b ≤ s.params.kmax →
    s.nodeCnt.toNat < s.params.nodeMax →
    ∃ t, exec (.leaf a b) s = .next t ∧
      t = { s with node := t.node, nodeCnt := t.nodeCnt, rsp := some (okWord (BitVec.ofNat 24 s.nodeCnt.toNat) 0) } ∧
      t.nodeCnt.toNat = s.nodeCnt.toNat + 1 ∧
      nodeAt t s.nodeCnt.toNat =
        some {
          leaf := true, sym := BitVec.ofNat 8 a, freq := BitVec.ofNat 32 b, left := BitVec.ofNat 9 s.params.nil,
          right := BitVec.ofNat 9 s.params.nil } ∧
      ∀ j, j ≠ s.nodeCnt.toNat → nodeAt t j = nodeAt s j) ∧
  (∀ s a b, s.fatal = false → (s.params.nsym ≤ a ∨ s.params.kmax < b) → exec (.leaf a b) s = .next (raise .badOperand s)) ∧
  (∀ s a b, s.fatal = false → a < s.params.nsym → b ≤ s.params.kmax → s.nodeCnt.toNat = s.params.nodeMax →
    exec (.leaf a b) s = .next (raise .arenaFull s))

/-- R158 and R160: NODE_RD and NODE_CH answer the fields of one record, `leaf` above the SYM_W bits of `sym` (bit 8 in the block with the
default parameters), and change nothing else; a reference beyond the allocated records is BadOperand. -/
def Obligations.NodeReadsReturnTheRecord : Prop :=
  (∀ s a n, s.params.legal = true → s.fatal = false → s.nodeCnt.toNat ≤ s.params.nodeMax → a < s.nodeCnt.toNat →
    nodeAt s a = some n →
    exec (.nodeRd a) s =
      .next { s with rsp := some (okWord (BitVec.ofNat 24 (2 ^ s.params.symW * n.leaf.toNat + n.sym.toNat)) n.freq) } ∧
    (s.params = .standard →
      exec (.nodeRd a) s = .next { s with rsp := some (okWord (BitVec.ofNat 24 (256 * n.leaf.toNat + n.sym.toNat)) n.freq) }) ∧
    exec (.nodeCh a) s =
      .next { s with rsp := some (okWord (BitVec.ofNat 24 n.left.toNat) (BitVec.ofNat 32 n.right.toNat)) }) ∧
  (∀ s a, s.fatal = false → s.nodeCnt.toNat ≤ a →
    exec (.nodeRd a) s = .next (raise .badOperand s) ∧ exec (.nodeCh a) s = .next (raise .badOperand s))

/-- R130: PQ_INIT makes an empty queue of the given capacity and changes nothing else; a capacity above NSYM is BadOperand. -/
def Obligations.QueueInitMakesAnEmptyQueue : Prop :=
  (∀ s a, s.params.legal = true → s.fatal = false → a ≤ s.params.nsym →
    ∃ t, exec (.pqInit a) s = .next t ∧
      t = { s with pqSize := 0, pqCap := t.pqCap, heap := t.heap, rsp := some (okWord 0 0) } ∧
      t.pqCap.toNat = a ∧ ∀ k, slotAt t k = none) ∧
  (∀ s a, s.fatal = false → s.params.nsym < a → exec (.pqInit a) s = .next (raise .badOperand s))

/-- R134: HEAP_RD answers one slot and its key and changes nothing else; a slot at or above PQ_SIZE is BadOperand. -/
def Obligations.HeapReadReturnsTheSlot : Prop :=
  (∀ s a x n, s.fatal = false → a < s.pqSize.toNat → slotAt s a = some x → nodeAt s x.toNat = some n →
    exec (.heapRd a) s = .next { s with rsp := some (okWord (BitVec.ofNat 24 x.toNat) n.freq) }) ∧
  (∀ s a, s.fatal = false → s.pqSize.toNat ≤ a → exec (.heapRd a) s = .next (raise .badOperand s))

/-- R206: CW_RD answers one 32-bit word of a codeword, digit `32k + j` at bit `j`, and zeros for a symbol with no codeword, and changes
nothing else; an operand beyond its range is BadOperand. -/
def Obligations.CodewordReadReturnsTheWord : Prop :=
  (∀ s a k c, s.params.legal = true → s.fatal = false → a < s.params.nsym → k < s.params.cwWords → cwAt s a = some c →
    ∃ b : BitVec 32, exec (.cwRd a k) s = .next { s with rsp := some (okWord (BitVec.ofNat 24 (256 + c.len.toNat)) b) } ∧
      ∀ j, j < 32 → b.getLsbD j = digitAt c.bits (32 * k + j)) ∧
  (∀ s a k, s.params.legal = true → s.fatal = false → a < s.params.nsym → k < s.params.cwWords → cwValid s a = false →
    exec (.cwRd a k) s = .next { s with rsp := some (okWord 0 0) }) ∧
  (∀ s a k, s.fatal = false → (s.params.nsym ≤ a ∨ s.params.cwWords ≤ k) → exec (.cwRd a k) s = .next (raise .badOperand s))

/-! ### The priority queue -/

/-- PQ_INS: the new reference comes to rest in the slot answered, on the path from the new slot to the root, above it the references
whose keys are not greater, below it, moved down by one parent each, exactly those whose keys are strictly greater; every other slot
and every other field is as before (R122, R123 (c) and (e), R126 item 1, R131). -/
def Obligations.QueueInsertPlacesTheReference : Prop :=
  ∀ s x f, CoreInv s → x < s.nodeCnt.toNat → s.pqSize.toNat < s.pqCap.toNat → (nodeAt s x).map NodeRec.freq = some f →
    ∃ t k, exec (.pqIns x) s = .next t ∧
      t = { s with heap := t.heap, pqSize := t.pqSize, pq := t.pq, rsp := some (okWord (BitVec.ofNat 24 k) 0) } ∧
      t.pqSize.toNat = s.pqSize.toNat + 1 ∧
      k ∈ pathToRoot 8 s.pqSize.toNat ∧ slotAt t k = some (BitVec.ofNat 9 x) ∧
      (0 < k → ∃ kp, keyAt s (parentSlot k) = some kp ∧ kp.toNat ≤ f.toNat) ∧
      (∀ j ∈ pathToRoot 8 s.pqSize.toNat, k < j →
        slotAt t j = slotAt s (parentSlot j) ∧ ∃ kp, keyAt s (parentSlot j) = some kp ∧ f.toNat < kp.toNat) ∧
      (∀ j, j ∉ pathToRoot 8 s.pqSize.toNat ∨ j < k → slotAt t j = slotAt s j)

/-- PQ_INS keeps heap order (R123 (a)). -/
def Obligations.QueueInsertKeepsHeapOrder : Prop :=
  ∀ s x t, CoreInv s → HeapOrdered s → exec (.pqIns x) s = .next t → HeapOrdered t

/-- PQ_EXT: the reference of slot 0 and its key are answered, the other references stay in the queue, and nothing else changes (R124,
R133). -/
def Obligations.QueueExtractRemovesTheRoot : Prop :=
  ∀ s, CoreInv s → 0 < s.pqSize.toNat →
    ∃ t x n, slotAt s 0 = some x ∧ nodeAt s x.toNat = some n ∧ exec .pqExt s = .next t ∧
      t = { s with
        heap := t.heap, pqSize := t.pqSize, pq := t.pq, rsp := some (okWord (BitVec.ofNat 24 x.toNat) n.freq) } ∧
      t.pqSize.toNat + 1 = s.pqSize.toNat ∧
      (s.heap.map Prod.snd).Perm (x :: t.heap.map Prod.snd)

/-- PQ_EXT from a queue in heap order answers a least key and leaves the queue in heap order (R125 (a) and (b), R27). -/
def Obligations.QueueExtractReturnsALeastKey : Prop :=
  ∀ s, CoreInv s → HeapOrdered s → 0 < s.pqSize.toNat →
    ∃ t a f, exec .pqExt s = .next t ∧ t.rsp = some (okWord a f) ∧
      (∀ k g, keyAt s k = some g → f.toNat ≤ g.toNat) ∧ HeapOrdered t

/-- R126: on equal frequencies the lower heap slot wins, its three items. -/
def Obligations.LowerSlotWinsTies : Prop :=
  (∀ s t g, s.pqFsm = .pUp → s.pq.I ≠ 0 → keyAt s (parentSlot s.pq.I.toNat) = some g → keyAt s s.pq.I.toNat = some g →
    tick s = .next t → t.heap = s.heap ∧ t.pqFsm = .pIdle) ∧
  (∀ s t g l, s.pqFsm = .pDown → l = 2 * s.pq.I.toNat + 1 ∨ l = 2 * s.pq.I.toNat + 2 → l < s.pqSize.toNat →
    keyAt s s.pq.I.toNat = some g → keyAt s l = some g → tick s = .next t →
    slotAt t l = slotAt s l ∧ (t.pqFsm = .pDown → t.pq.I.toNat ≠ l)) ∧
  (∀ s t f g, s.pqFsm = .pDown → 2 * s.pq.I.toNat + 2 < s.pqSize.toNat → keyAt s s.pq.I.toNat = some f →
    keyAt s (2 * s.pq.I.toNat + 1) = some g → keyAt s (2 * s.pq.I.toNat + 2) = some g → g.toNat < f.toNat →
    tick s = .next t →
    t.pq.I.toNat = 2 * s.pq.I.toNat + 1 ∧ t.pqFsm = .pDown ∧ Swapped s t s.pq.I.toNat (2 * s.pq.I.toNat + 1))

/-- PQ_FSM's transitions, complete, with what each does to the queue (R122, R124, R128). -/
def Obligations.QueueMachineTransitions : Prop :=
  (∀ x s t, insertStart x s = .next t → t.pqFsm = .pUp) ∧
  (∀ s t, extractStart s = .next t → t.pqFsm = .pDown) ∧
  (∀ s t, s.pqFsm = .pUp → tick s = .next t → t.pqSize = s.pqSize ∧
    ((t.pqFsm = .pIdle ∧ t.heap = s.heap ∧ (s.pq.I = 0 ∨ ¬ KeyLess s s.pq.I.toNat (parentSlot s.pq.I.toNat))) ∨
      (t.pqFsm = .pUp ∧ s.pq.I ≠ 0 ∧ KeyLess s s.pq.I.toNat (parentSlot s.pq.I.toNat) ∧
        Swapped s t (parentSlot s.pq.I.toNat) s.pq.I.toNat ∧ t.pq.I.toNat = parentSlot s.pq.I.toNat))) ∧
  (∀ s t, s.pqFsm = .pDown → tick s = .next t → t.pqSize = s.pqSize ∧
    ((t.pqFsm = .pIdle ∧ t.heap = s.heap ∧ Chosen s s.pq.I.toNat s.pq.I.toNat) ∨
      (t.pqFsm = .pDown ∧ t.pq.I.toNat ≠ s.pq.I.toNat ∧ Chosen s s.pq.I.toNat t.pq.I.toNat ∧
        Swapped s t s.pq.I.toNat t.pq.I.toNat))) ∧
  (∀ s t, s.pqFsm = .pIdle → tick s = .next t → t.pqFsm ≠ .pIdle →
    s.tbFsm = .bLeaves ∨ s.tbFsm = .bExtU ∨ s.tbFsm = .bExtV ∨ s.tbFsm = .bInsW)

/-- PQ_INS and PQ_EXT are the primitives of R122 and R124 run by themselves, with the response of R131 and R133. -/
def Obligations.QueueCommandsRunThePrimitives : Prop :=
  (∀ s x, unitsIdle s = true → s.fatal = false → x < s.nodeCnt.toNat → s.pqSize ≠ s.pqCap →
    exec (.pqIns x) s =
      andThen (pqInsert (BitVec.ofNat 9 x) s) fun t => .next (respondOk (BitVec.ofNat 24 t.pq.I.toNat) 0 t)) ∧
  (∀ s, unitsIdle s = true → s.fatal = false → s.pqSize ≠ 0 →
    exec .pqExt s =
      andThen (pqExtract s) fun t =>
        readNode t t.pq.XN.toNat fun n => .next (respondOk (BitVec.ofNat 24 t.pq.XN.toNat) n.freq t))

/-- The queue reads keys only: two blocks whose queues and keys agree, whatever symbols, kinds and children their records have, place and
extract alike (R120, R127). -/
def Obligations.QueueReadsKeysOnly : Prop :=
  ∀ s r, s.params = r.params → unitsIdle s = true → unitsIdle r = true → s.fatal = false → r.fatal = false →
    s.heap = r.heap → s.pqSize = r.pqSize → s.pqCap = r.pqCap → s.nodeCnt = r.nodeCnt →
    (∀ i, (nodeAt s i).map NodeRec.freq = (nodeAt r i).map NodeRec.freq) →
    (∀ x t, exec (.pqIns x) s = .next t →
      ∃ u, exec (.pqIns x) r = .next u ∧ u.heap = t.heap ∧ u.pqSize = t.pqSize ∧ u.rsp = t.rsp) ∧
    (∀ t, exec .pqExt s = .next t →
      ∃ u, exec .pqExt r = .next u ∧ u.heap = t.heap ∧ u.pqSize = t.pqSize ∧ u.rsp = t.rsp)

/-! ### The tree builder -/

/-- R165: TB_FSM's transitions, complete; a state that has started a primitive (B_LEAVES, B_EXT_U, B_EXT_V, B_INS_W) waits in itself until
PQ_FSM is back in P_IDLE, and then makes its transition. -/
def Obligations.BuilderMachineTransitions : Prop :=
  (∀ s t, s.tbFsm ≠ .bIdle → s.pqFsm = .pIdle → tick s = .next t → t.tbFsm = builderGoesTo s) ∧
  (∀ s t, s.tbFsm = .bLeaves ∨ s.tbFsm = .bInsW ∨ s.tbFsm = .bExtU ∨ s.tbFsm = .bExtV → s.pqFsm ≠ .pIdle →
    tick s = .next t → t.pqFsm ≠ .pIdle → t.tbFsm = s.tbFsm) ∧
  (∀ s t, s.pqFsm = .pUp → tick s = .next t → t.pqFsm = .pIdle →
    (s.tbFsm = .bLeaves → t.tbFsm = .bLeaves) ∧ (s.tbFsm = .bInsW → t.tbFsm = .bLoop)) ∧
  (∀ s t, s.pqFsm = .pDown → tick s = .next t → t.pqFsm = .pIdle →
    (s.tbFsm = .bExtU → t.tbFsm = .bExtV) ∧ (s.tbFsm = .bExtV → t.tbFsm = .bMerge)) ∧
  (∀ s t, s.pqFsm = .pIdle → tick s = .next t → (t.pqFsm = .pUp → s.tbFsm = .bLeaves ∨ s.tbFsm = .bInsW) ∧
    (t.pqFsm = .pDown → s.tbFsm = .bExtU ∨ s.tbFsm = .bExtV)) ∧
  (∀ s, s.fatal = false → exec .build s = runToEnd { s with tb := (builderStart s).tb, tbFsm := .bScan })

/-- BUILD computes its command-level summary, which the spec derives from its state machine (41_tree_builder.md section 3): the count and
the total, the leaves in ascending order, the merge loop, the tree registers and the response, from every idle state that is not halted,
whatever it holds. -/
def Obligations.BuildComputesItsSummary : Prop :=
  ∀ s, s.params.legal = true → unitsIdle s = true → s.fatal = false →
    ∃ t u, exec .build s = .next t ∧ buildSummary s = .next u ∧ visible t = visible u

/-- What a successful BUILD leaves in the registers, and that it writes nothing but what R164 names: from every idle state that is not
halted. -/
def Obligations.BuildLeavesTheTreeRegisters : Prop :=
  ∀ s, s.params.legal = true → unitsIdle s = true → s.fatal = false → 0 < symbolCount s → totalCount s ≤ s.params.kmax →
    ∃ t n, exec .build s = .next t ∧
      t = { s with
        node := t.node, nodeCnt := t.nodeCnt, heap := t.heap, pqSize := 1, pqCap := t.pqCap, root := t.root,
        nleaf := t.nleaf, treeValid := true, cw := [], cwReady := false, pq := t.pq, tb := t.tb,
        rsp := some (okWord (BitVec.ofNat 24 t.root.toNat) n.freq) } ∧
      t.nodeCnt.toNat = 2 * symbolCount s - 1 ∧ t.pqCap.toNat = symbolCount s ∧
      t.root.toNat = 2 * symbolCount s - 2 ∧ t.nleaf.toNat = symbolCount s ∧
      slotAt t 0 = some t.root ∧ nodeAt t t.root.toNat = some n ∧ n.freq.toNat = totalCount s

/-- The records a successful BUILD leaves: one leaf per occurring symbol in ascending order with its count, then internal nodes with exact
sums, a single binary tree with ROOT its root (R169, R175, R177, R43 items 4 and 5). -/
def Obligations.BuildLeavesASingleTree : Prop :=
  ∀ s, s.params.legal = true → unitsIdle s = true → s.fatal = false → 0 < symbolCount s → totalCount s ≤ s.params.kmax →
    ∃ t, exec .build s = .next t ∧ ArenaOk t ∧ TreeShape t ∧
      ∀ i sym, (occurring s)[i]? = some sym →
        nodeAt t i = some {
          leaf := true, sym := BitVec.ofNat 8 sym, freq := ftAt s sym, left := BitVec.ofNat 9 s.params.nil,
          right := BitVec.ofNat 9 s.params.nil }

/-- R179: the arena, the queue and the tree registers after BUILD are a function of FT alone. -/
def Obligations.BuildDependsOnFtAlone : Prop :=
  ∀ s r, s.params.legal = true → s.params = r.params →
    unitsIdle s = true → unitsIdle r = true → s.fatal = false → r.fatal = false →
    (∀ i, i < s.params.nsym → ftAt s i = ftAt r i) → 0 < symbolCount s → totalCount s ≤ s.params.kmax →
    ∃ t u, exec .build s = .next t ∧ exec .build r = .next u ∧
      t.node = u.node ∧ t.nodeCnt = u.nodeCnt ∧ t.heap = u.heap ∧ t.pqSize = u.pqSize ∧ t.pqCap = u.pqCap ∧
      t.root = u.root ∧ t.nleaf = u.nleaf ∧ t.treeValid = u.treeValid ∧ t.rsp = u.rsp

/-- One distinct symbol: a single-leaf tree (R178), and GENCODE gives it the codeword "0" (R193). -/
def Obligations.SingleSymbolGetsTheCodewordZero : Prop :=
  ∀ s sym, s.params.legal = true → unitsIdle s = true → s.fatal = false → occurring s = [sym] →
    (ftAt s sym).toNat ≤ s.params.kmax →
    ∃ t u, exec .build s = .next t ∧ t.root = 0 ∧ t.nleaf = 1 ∧ t.nodeCnt = 1 ∧ t.treeValid = true ∧
      nodeAt t 0 = some {
        leaf := true, sym := BitVec.ofNat 8 sym, freq := ftAt s sym, left := BitVec.ofNat 9 s.params.nil,
        right := BitVec.ofNat 9 s.params.nil } ∧
      t.rsp = some (okWord 0 (ftAt s sym)) ∧
      exec .genCode t = .next u ∧ u.cw = [(sym, { len := 1, bits := 0 })] ∧ u.cwReady = true ∧
      u.rsp = some (okWord 1 0) ∧ digitString { len := 1, bits := 0 } = "0"

/-! ### The codeword recorder -/

/-- R192: CR_FSM's transitions, complete. -/
def Obligations.RecorderMachineTransitions : Prop :=
  (∀ s, s.fatal = false → s.treeValid = true → exec .genCode s = runToEnd { s with crFsm := .gStart }) ∧
  (∀ s t, s.pqFsm = .pIdle → s.tbFsm = .bIdle → tick s = .next t → recorderGoesTo s = some t.crFsm)

/-- R190: GENCODE records exactly the entries of the recursion `walk`, answers their number, and writes nothing else; without a tree it
raises NoTree. -/
def Obligations.GencodeRecordsTheWalk : Prop :=
  (∀ s, s.fatal = false → s.treeValid = false → exec .genCode s = .next (raise .noTree s)) ∧
  ∀ s, CoreInv s → TreeOk s → s.treeValid = true →
    ∃ t w, recordedTable s = some w ∧ exec .genCode s = .next t ∧
      t = { s with
        cw := w.cw, cwReady := true, cr := t.cr, rsp := some (okWord (BitVec.ofNat 24 w.cnt) 0) }

/-- GENCODE codes every symbol of the tree and no other; each codeword's digits are the edges from ROOT to the symbol's leaf, one digit
per edge, '0' to the left and '1' to the right, and its unused bits are 0; the answer is NLEAF (R200, R29). -/
def Obligations.GencodeCodesEveryLeaf : Prop :=
  ∀ s, CoreInv s → TreeOk s → s.treeValid = true →
    ∃ t, exec .genCode s = .next t ∧ t.rsp = some (okWord (BitVec.ofNat 24 s.nleaf.toNat) 0) ∧
      (∀ sym, sym < s.params.nsym → cwValid t sym = leafSymbol s sym) ∧
      (∀ sym c, cwAt t sym = some c → c.bits.toNat < 2 ^ c.len.toNat) ∧
      (2 ≤ s.nleaf.toNat → ∀ sym c, cwAt t sym = some c →
        ∃ i n, follow s s.root.toNat (digitsOf c) = some i ∧ nodeAt s i = some n ∧ n.leaf = true ∧ n.sym.toNat = sym)

/-- No codeword is a prefix of another (R200). -/
def Obligations.CodewordsArePrefixFree : Prop :=
  ∀ s, CoreInv s → TreeOk s → s.treeValid = true →
    ∃ t, exec .genCode s = .next t ∧
      ∀ sym sym' c c', sym ≠ sym' → cwAt t sym = some c → cwAt t sym' = some c' → ¬ digitsOf c <+: digitsOf c'

/-- R201: the length of a codeword lies between 1 and N − 1, and is 1 for N = 1; its digits fit bits 254:0. -/
def Obligations.CodewordLengthIsBounded : Prop :=
  ∀ s, CoreInv s → TreeOk s → s.treeValid = true →
    ∃ t, exec .genCode s = .next t ∧
      ∀ sym c, cwAt t sym = some c →
        1 ≤ c.len.toNat ∧ (2 ≤ s.nleaf.toNat → c.len.toNat + 1 ≤ s.nleaf.toNat) ∧ (s.nleaf = 1 → c.len = 1) ∧
          digitAt c.bits 255 = false

/-- R200: BUILD then GENCODE, from the counts to the code: every symbol with a count gets a codeword and no other symbol does, no codeword
is a prefix of another, its digits are the edges from ROOT to the symbol's leaf, and the answer is the number of distinct symbols. From
every idle state that is not halted. -/
def Obligations.BuildAndGencodeMakeAPrefixCode : Prop :=
  ∀ s, s.params.legal = true → unitsIdle s = true → s.fatal = false → 0 < symbolCount s → totalCount s ≤ s.params.kmax →
    ∃ t u, exec .build s = .next t ∧ exec .genCode t = .next u ∧
      u.rsp = some (okWord (BitVec.ofNat 24 (symbolCount s)) 0) ∧
      (∀ sym, sym < s.params.nsym → cwValid u sym = decide (ftAt s sym ≠ 0)) ∧
      (∀ sym sym' c c', sym ≠ sym' → cwAt u sym = some c → cwAt u sym' = some c' → ¬ digitsOf c <+: digitsOf c') ∧
      (2 ≤ symbolCount s → ∀ sym c, cwAt u sym = some c →
        ∃ i n, follow u u.root.toNat (digitsOf c) = some i ∧ nodeAt u i = some n ∧ n.leaf = true ∧ n.sym.toNat = sym) ∧
      (symbolCount s = 1 → ∀ sym c, cwAt u sym = some c → c.len = 1)

/-! ### What commands leave alone -/

/-- R64: a read command that succeeds changes nothing but the response port, and repeating it gives the same answer; one that fails
changes ERRFLAGS besides. -/
def Obligations.ReadsAreFreeOfSideEffects : Prop :=
  ∀ i s t, isRead i.opcode = true → exec i s = .next t →
    t = { s with errflags := t.errflags, rsp := t.rsp } ∧
      (∀ a b, t.rsp = some (okWord a b) → t.errflags = s.errflags ∧ exec i t = .next t)

/-- The frame of every command: which commands may write which piece of state (R61 with the write columns of R21, R24, R26, R28, R30, R32,
R35, R36, R38); the units are idle again, the host's inputs untouched and the parameters the block's own. -/
def Obligations.OnlyNamedCommandsWrite : Prop :=
  ∀ i s t, unitsIdle s = true → exec i s = .next t →
    (i.opcode ∉ [.clear, .ftWr] → t.ft = s.ft) ∧
    (i.opcode ∉ [.clear, .leaf, .build] → t.node = s.node ∧ t.nodeCnt = s.nodeCnt) ∧
    (i.opcode ∉ [.clear, .pqInit, .pqIns, .pqExt, .build] → t.heap = s.heap ∧ t.pqSize = s.pqSize) ∧
    (i.opcode ∉ [.clear, .pqInit, .build] → t.pqCap = s.pqCap) ∧
    (i.opcode ∉ [.clear, .build] → t.root = s.root ∧ t.nleaf = s.nleaf ∧ t.treeValid = s.treeValid ∧ t.fatal = s.fatal) ∧
    (i.opcode ∉ [.clear, .build, .genCode] → t.cw = s.cw ∧ t.cwReady = s.cwReady) ∧
    (i.opcode ∉ [.clear, .pqIns, .pqExt, .build] → t.pq = s.pq) ∧
    (i.opcode ∉ [.clear, .build] → t.tb = s.tb) ∧
    (i.opcode ∉ [.clear, .genCode] → t.cr = s.cr ∧ t.tstk = s.tstk) ∧
    t.host = s.host ∧ t.params = s.params ∧ unitsIdle t = true

/-- Records are written once: no command but CLEAR and a successful BUILD changes or drops an allocated record (R24, R258). -/
def Obligations.AllocatedRecordsNeverChange : Prop :=
  ∀ i s t, CoreInv s → exec i s = .next t → i.opcode ≠ .clear → (i.opcode = .build → ∃ e, t.rsp = some (errorWord e)) →
    s.nodeCnt.toNat ≤ t.nodeCnt.toNat ∧ ∀ j, j < s.nodeCnt.toNat → nodeAt t j = nodeAt s j

/-- The working registers are dead between commands: two idle blocks alike in everything else answer every command alike, take the same
edges alike, and stay alike (R40, introduction of 10_state.md section 7). -/
def Obligations.WorkingRegistersAreDead : Prop :=
  ∀ s r, unitsIdle s = true → unitsIdle r = true → visible s = visible r →
    (∀ i, SameOutcome (exec i s) (exec i r)) ∧ SameOutcome (step s) (step r)

/-! ### Invariants -/

/-- The state after reset meets the invariants in a block with any legal parameters; the default parameters are legal, and the sizes
derived from them are those of R6's table. -/
def Obligations.ResetMeetsTheInvariants : Prop :=
  (∀ p inputs, p.legal = true → BlockInv (State.resetAt p inputs)) ∧ BlockInv State.reset ∧
  State.reset.params = { symW := 8, kw := 32 } ∧ State.reset.params.nsym = 256 ∧ State.reset.params.kmax = 4294967295 ∧
  State.reset.params.nodeMax = 511 ∧ State.reset.params.nidxW = 9 ∧ State.reset.params.nil = 511 ∧
  State.reset.params.codeMax = 255 ∧ State.reset.params.cwWords = 8

/-- Every step, from every state, keeps the canonical form of the five arrays. -/
def Obligations.StepKeepsArraysCanonical : Prop :=
  ∀ s t, Memory.wf s = true → step s = .next t → Memory.wf t = true

/-- Every step keeps queue and arena in bounds and consistent, every number as wide as the parameters say, and the block not halted
(R43 items 1, 2, 4, 7; R6, R22, R23); and no step, from any state, changes the parameters (R6, R41). -/
def Obligations.StepKeepsTheCoreInvariants : Prop :=
  (∀ s t, CoreInv s → step s = .next t → CoreInv t) ∧ ∀ s t, step s = .next t → t.params = s.params

/-- Every step keeps heap order (R27, R43 item 3). -/
def Obligations.StepKeepsHeapOrder : Prop :=
  ∀ s t, CoreInv s → HeapOrdered s → step s = .next t → HeapOrdered t

/-- R43: every step keeps all the invariants. -/
def Obligations.StepKeepsTheInvariants : Prop :=
  ∀ s t, BlockInv s → step s = .next t → BlockInv t

/-- R43: the invariants hold in every state a run reaches from reset, in a block with any legal parameters, whatever the host drives. -/
def Obligations.ReachableStatesMeetTheInvariants : Prop :=
  ∀ s, Reachable s → BlockInv s

/-- The block never stops: from every state that meets the invariants a step gives a next state, whatever the host drives, and so every
command ends (R264) and no access leaves its array or reads an entry that holds no value (R40, R63). -/
def Obligations.BlockNeverStops : Prop :=
  ∀ s, BlockInv s → ∀ pins, StepsOn { s with host := pins }
end

