-- ==== Sys2Proof/Laws/Config.lean ====
section
/-!
SUPPORT. The derived parameters of the default block as numerals, and their bounds for every legal choice (00_scope.md R6,
93_implementation_defined.md U27): every register's width under the parameters lies within its word type of Word.lean.
-/

namespace Sys2Proof.Params

@[simp] theorem standard_legal : standard.legal = true := rfl
@[simp] theorem standard_symW : standard.symW = 8 := rfl
@[simp] theorem standard_kw : standard.kw = 32 := rfl
@[simp] theorem standard_nsym : standard.nsym = 256 := rfl
@[simp] theorem standard_kmax : standard.kmax = 4294967295 := rfl
@[simp] theorem standard_nodeMax : standard.nodeMax = 511 := rfl
@[simp] theorem standard_nidxW : standard.nidxW = 9 := rfl
@[simp] theorem standard_nil : standard.nil = 511 := rfl
@[simp] theorem standard_codeMax : standard.codeMax = 255 := rfl
@[simp] theorem standard_cwWords : standard.cwWords = 8 := rfl
@[simp] theorem standard_id : standard.id = 0x00012008 := rfl

variable {p : Params}

theorem legal_iff : p.legal = true ↔ 1 ≤ p.symW ∧ p.symW ≤ 8 ∧ 1 ≤ p.kw ∧ p.kw ≤ 32 := by simp [legal]

/-- NSYM is 2 to 256. -/
theorem nsym_bounds (h : p.legal = true) : 2 ≤ p.nsym ∧ p.nsym ≤ 256 := by
  obtain ⟨h1, h2, -, -⟩ := legal_iff.1 h
  exact ⟨Nat.pow_le_pow_right Nat.two_pos h1, Nat.pow_le_pow_right Nat.two_pos h2⟩

/-- KMAX is 1 to 2^32 − 1. -/
theorem kmax_bounds (h : p.legal = true) : 1 ≤ p.kmax ∧ p.kmax ≤ 4294967295 := by
  obtain ⟨-, -, h1, h2⟩ := legal_iff.1 h
  have a : 2 ^ 1 ≤ 2 ^ p.kw := Nat.pow_le_pow_right Nat.two_pos h1
  have b : 2 ^ p.kw ≤ 2 ^ 32 := Nat.pow_le_pow_right Nat.two_pos h2
  simp only [kmax]
  omega

/-- NIL is one more than the last record's index, and neither depends on anything but NSYM. -/
theorem nil_eq (p : Params) : p.nil = 2 * p.nsym - 1 := by
  simp only [nil, nidxW, nsym, Nat.pow_succ]
  omega

theorem nodeMax_eq (p : Params) : p.nodeMax = 2 * p.nsym - 1 := rfl

theorem codeMax_eq (p : Params) : p.codeMax = p.nsym - 1 := rfl

/-- Every table size and every largest register value fits the word types: NODE_MAX and NIL 9 bits, CODE_MAX 8 bits. -/
theorem sizes_fit (h : p.legal = true) : p.nodeMax ≤ 511 ∧ p.nil ≤ 511 ∧ 1 ≤ p.codeMax ∧ p.codeMax ≤ 255 ∧ p.cwWords ≤ 8 := by
  have := nsym_bounds h
  rw [nil_eq, nodeMax_eq, codeMax_eq, cwWords]
  omega

/-- The scan sum fits ACC (10_state.md R36). -/
theorem sum_fits (h : p.legal = true) : p.nsym * p.kmax < 2 ^ 40 :=
  lt_of_le_of_lt (Nat.mul_le_mul (nsym_bounds h).2 (kmax_bounds h).2) (by decide)

end Sys2Proof.Params
end

