-- ==== Sys2Proof/Laws/Arr.lean ====
section
/-!
SUPPORT. The basic laws of the storage arrays: a read after a write, what a write leaves alone, and the canonical form, which every
array operation keeps.
-/

namespace Sys2Proof.Machine

variable {α : Type}

@[simp] theorem arrGet_nil (i : Nat) : arrGet ([] : Arr α) i = none := rfl

theorem arrGet_cons (k : Nat) (v : α) (t : Arr α) (i : Nat) :
    arrGet ((k, v) :: t) i = if k = i then some v else arrGet t i := rfl

@[simp] theorem arrGet_set_self (m : Arr α) (i : Nat) (v : α) : arrGet (arrSet m i v) i = some v := by
  induction m with
  | nil => simp [arrSet, arrGet]
  | cons e t ih =>
    simp only [arrSet]
    split
    · simp [arrGet]
    · split
      · simp [arrGet]
      · next h => simp [arrGet, Ne.symm h, ih]

theorem arrGet_set_other (m : Arr α) {i j : Nat} (v : α) (h : j ≠ i) : arrGet (arrSet m i v) j = arrGet m j := by
  induction m with
  | nil => simp [arrSet, arrGet, h.symm]
  | cons e t ih =>
    simp only [arrSet]
    split
    · simp [arrGet, h.symm]
    · split
      · next he => subst he; simp [arrGet, h.symm]
      · simp [arrGet, ih]

theorem arrGet_set (m : Arr α) (i j : Nat) (v : α) :
    arrGet (arrSet m i v) j = if j = i then some v else arrGet m j := by
  by_cases h : j = i
  · subst h; simp
  · simp [h, arrGet_set_other m v h]

@[simp] theorem arrGet_erase_self (m : Arr α) (i : Nat) : arrGet (arrErase m i) i = none := by
  induction m with
  | nil => rfl
  | cons e t ih =>
    by_cases h : e.1 = i
    · simpa [arrErase, h] using ih
    · simpa [arrErase, h, arrGet] using ih

theorem arrGet_erase_other (m : Arr α) {i j : Nat} (h : j ≠ i) : arrGet (arrErase m i) j = arrGet m j := by
  induction m with
  | nil => rfl
  | cons e t ih =>
    by_cases he : e.1 = i
    · have hij : ¬ i = j := fun hj => h hj.symm
      simpa [arrErase, he, arrGet, hij] using ih
    · simp only [arrErase, ne_eq, he, not_false_eq_true, bne_iff_ne, List.filter_cons_of_pos, arrGet] at ih ⊢
      rw [ih]

theorem arrGet_erase (m : Arr α) (i j : Nat) : arrGet (arrErase m i) j = if j = i then none else arrGet m j := by
  by_cases h : j = i
  · subst h; simp
  · simp [h, arrGet_erase_other m h]

/-! ### Every entry -/

theorem arrGet_mem {m : Arr α} {i : Nat} {v : α} (h : arrGet m i = some v) : (i, v) ∈ m := by
  induction m with
  | nil => simp at h
  | cons e t ih =>
    simp only [arrGet] at h
    split at h
    · next he =>
      obtain rfl : e = (i, v) := Prod.ext he (by simpa using h)
      simp
    · exact List.mem_cons_of_mem _ (ih h)

theorem mem_arrSet {m : Arr α} {i : Nat} {v : α} {e : Nat × α} (h : e ∈ arrSet m i v) : e = (i, v) ∨ e ∈ m := by
  induction m with
  | nil => simpa [arrSet] using h
  | cons f t ih =>
    simp only [arrSet] at h
    split at h
    · simpa using h
    · split at h
      · rcases List.mem_cons.1 h with h | h <;> simp [h]
      · rcases List.mem_cons.1 h with h | h
        · simp [h]
        · rcases ih h with h | h <;> simp [h]

theorem mem_of_mem_arrErase {m : Arr α} {i : Nat} {e : Nat × α} (h : e ∈ arrErase m i) : e ∈ m := List.mem_of_mem_filter h

/-! ### The canonical form -/

theorem arrSorted_mono {lo lo' : Nat} (m : Arr α) (h : lo' ≤ lo) (hs : arrSorted lo m = true) : arrSorted lo' m = true := by
  cases m with
  | nil => rfl
  | cons e t =>
    simp only [arrSorted, Bool.and_eq_true, decide_eq_true_eq] at hs ⊢
    exact ⟨by omega, hs.2⟩

theorem arrSorted_set {lo : Nat} (m : Arr α) {i : Nat} (v : α) (hi : lo ≤ i) (hs : arrSorted lo m = true) :
    arrSorted lo (arrSet m i v) = true := by
  induction m generalizing lo with
  | nil => simpa [arrSet, arrSorted] using hi
  | cons e t ih =>
    simp only [arrSorted, Bool.and_eq_true, decide_eq_true_eq] at hs
    simp only [arrSet]
    split
    · simp only [arrSorted, Bool.and_eq_true, decide_eq_true_eq]
      exact ⟨hi, by omega, hs.2⟩
    · split
      · next he =>
        subst he
        simpa [arrSorted] using hs
      · simp only [arrSorted, Bool.and_eq_true, decide_eq_true_eq]
        exact ⟨hs.1, ih (by omega) hs.2⟩

theorem arrSorted_erase {lo : Nat} (m : Arr α) (i : Nat) (hs : arrSorted lo m = true) :
    arrSorted lo (arrErase m i) = true := by
  induction m generalizing lo with
  | nil => rfl
  | cons e t ih =>
    simp only [arrSorted, Bool.and_eq_true, decide_eq_true_eq] at hs
    by_cases he : e.1 = i
    · have := ih (arrSorted_mono t (by omega : e.1 + 1 ≤ e.1 + 1) hs.2)
      simpa [arrErase, he] using arrSorted_mono _ (by omega : lo ≤ e.1 + 1) this
    · have := ih hs.2
      simp only [arrErase, ne_eq, he, not_false_eq_true, bne_iff_ne, List.filter_cons_of_pos, arrSorted, Bool.and_eq_true,
        decide_eq_true_eq] at this ⊢
      exact ⟨hs.1, this⟩

@[simp] theorem arrWf_nil (size : Nat) : arrWf size ([] : Arr α) = true := rfl

theorem arrWf_set {size : Nat} {m : Arr α} {i : Nat} (v : α) (hi : i < size) (h : arrWf size m = true) :
    arrWf size (arrSet m i v) = true := by
  simp only [arrWf, Bool.and_eq_true, List.all_eq_true, decide_eq_true_eq] at h ⊢
  refine ⟨arrSorted_set m v (Nat.zero_le _) h.1, fun e he => ?_⟩
  rcases mem_arrSet he with he | he
  · simpa [he] using hi
  · exact h.2 e he

theorem arrWf_erase {size : Nat} {m : Arr α} (i : Nat) (h : arrWf size m = true) : arrWf size (arrErase m i) = true := by
  simp only [arrWf, Bool.and_eq_true, List.all_eq_true, decide_eq_true_eq] at h ⊢
  exact ⟨arrSorted_erase m i h.1, fun e he => h.2 e (mem_of_mem_arrErase he)⟩

theorem arrGet_lt {size : Nat} {m : Arr α} {i : Nat} {v : α} (h : arrWf size m = true) (hg : arrGet m i = some v) : i < size := by
  simp only [arrWf, Bool.and_eq_true, List.all_eq_true, decide_eq_true_eq] at h
  exact h.2 _ (arrGet_mem hg)

theorem arrGet_of_sorted_mem {m : Arr α} {lo i : Nat} {v : α} (hs : arrSorted lo m = true) (h : (i, v) ∈ m) :
    lo ≤ i ∧ arrGet m i = some v := by
  induction m generalizing lo with
  | nil => simp at h
  | cons e t ih =>
    simp only [arrSorted, Bool.and_eq_true, decide_eq_true_eq] at hs
    rcases List.mem_cons.1 h with h | h
    · subst h
      exact ⟨hs.1, by simp [arrGet]⟩
    · have := ih hs.2 h
      exact ⟨by omega, by simp [arrGet, show e.1 ≠ i by omega, this.2]⟩

/-- In a canonical array an entry is listed exactly when it is read. -/
theorem mem_iff_arrGet {size : Nat} {m : Arr α} {i : Nat} {v : α} (h : arrWf size m = true) :
    (i, v) ∈ m ↔ arrGet m i = some v := by
  simp only [arrWf, Bool.and_eq_true] at h
  exact ⟨fun hm => (arrGet_of_sorted_mem h.1 hm).2, arrGet_mem⟩

/-- Two canonical arrays that read alike are equal. -/
theorem arr_ext {size : Nat} {m n : Arr α} (hm : arrWf size m = true) (hn : arrWf size n = true)
    (h : ∀ i, arrGet m i = arrGet n i) : m = n := by
  simp only [arrWf, Bool.and_eq_true] at hm hn
  replace hm := hm.1
  replace hn := hn.1
  generalize 0 = lo at hm hn
  induction m generalizing n lo with
  | nil =>
    cases n with
    | nil => rfl
    | cons f u => simpa [arrGet] using h f.1
  | cons e t ih =>
    cases n with
    | nil => simpa [arrGet] using h e.1
    | cons f u =>
      simp only [arrSorted, Bool.and_eq_true, decide_eq_true_eq] at hm hn
      have below : ∀ {w : Arr α} {k j : Nat}, arrSorted (k + 1) w = true → j ≤ k → arrGet w j = none := by
        intro w k j hw hj
        cases hg : arrGet w j with
        | none => rfl
        | some v => have := (arrGet_of_sorted_mem hw (arrGet_mem hg)).1; omega
      have hkey : e.1 = f.1 := by
        have he := h e.1
        have hf := h f.1
        simp only [arrGet, if_true] at he hf
        by_contra hne
        rcases Nat.lt_or_gt_of_ne hne with hlt | hlt
        · rw [if_neg (by omega), below hn.2 (by omega)] at he; simp at he
        · rw [if_neg (by omega), below hm.2 (by omega)] at hf; simp at hf
      have hval : e.2 = f.2 := by simpa [arrGet, hkey] using h f.1
      have htail : t = u := by
        refine ih (fun i => ?_) (e.1 + 1) hm.2 (by rw [hkey]; exact hn.2)
        have hi := h i
        simp only [arrGet, hkey] at hi
        by_cases hfi : f.1 = i
        · rw [below hm.2 (by omega : i ≤ e.1), below hn.2 (by omega : i ≤ f.1)]
        · simpa [hfi] using hi
      rw [htail, Prod.ext hkey hval]

end Sys2Proof.Machine
end

