-- ==== Sys2Proof/Laws/Decode.lean ====
section
/-!
SUPPORT. The fields of a command word (30_encoding.md R94), what `opcodeOf` answers, and the facts about an encoded command that a proof of
the round trip needs.
-/

namespace Sys2Proof

theorem opField_commandWord (op : BitVec 8) (a : BitVec 24) (b : BitVec 32) : opField (commandWord op a b) = op := by
  apply BitVec.eq_of_getLsbD_eq
  intro i hi
  simp only [opField, commandWord, BitVec.getLsbD_extractLsb', BitVec.getLsbD_append, hi, decide_true, Bool.true_and]
  rw [if_neg (by omega), if_neg (by omega)]
  congr 1
  omega

theorem aField_commandWord (op : BitVec 8) (a : BitVec 24) (b : BitVec 32) : aField (commandWord op a b) = a := by
  apply BitVec.eq_of_getLsbD_eq
  intro i hi
  simp only [aField, commandWord, BitVec.getLsbD_extractLsb', BitVec.getLsbD_append, hi, decide_true, Bool.true_and]
  rw [if_neg (by omega), if_pos (by omega)]
  congr 1
  omega

theorem bField_commandWord (op : BitVec 8) (a : BitVec 24) (b : BitVec 32) : bField (commandWord op a b) = b := by
  apply BitVec.eq_of_getLsbD_eq
  intro i hi
  simp only [bField, commandWord, BitVec.getLsbD_extractLsb', BitVec.getLsbD_append, hi, decide_true, Bool.true_and]
  rw [if_pos (by omega)]
  congr 1
  omega

/-- A command word is its three fields. -/
theorem commandWord_fields (w : Word64) : commandWord (opField w) (aField w) (bField w) = w := by
  apply BitVec.eq_of_getLsbD_eq
  intro i hi
  simp only [commandWord, opField, aField, bField, BitVec.getLsbD_append, BitVec.getLsbD_extractLsb']
  split
  · simp_all
  · split
    · rw [decide_eq_true (by omega), Bool.true_and]
      congr 1
      omega
    · rw [decide_eq_true (by omega), Bool.true_and]
      congr 1
      omega

@[simp] theorem opcodeOf_value (o : Opcode) : opcodeOf (opcodeValue o) = some o := by
  cases o <;> rfl

theorem opcodeOf_some {op : BitVec 8} {o : Opcode} (h : opcodeOf op = some o) : op = opcodeValue o := by
  have := List.find?_some h
  simpa using (beq_iff_eq.1 this).symm

/-- The operands of a well-formed command fit their fields. -/
theorem wellFormed_fits {i : Instr} (h : i.wellFormed = true) : i.operandA < 2 ^ 24 ∧ i.operandB < 2 ^ 32 := by
  cases i <;> simp_all [Instr.wellFormed, Instr.operandA, Instr.operandB, fitsA, fitsB]

/-- A command is its opcode and its operands. -/
theorem instrOf_operands (i : Instr) : instrOf i.opcode i.operandA i.operandB = i := by
  cases i <;> rfl

end Sys2Proof
end

