-- ==== Sys2Proof/Laws/State.lean ====
section
/-!
SUPPORT. One lemma per field per named update of State, so that no later proof unfolds an update.
-/

namespace Sys2Proof.Machine

/-! ### writeFt -/

@[simp] theorem writeFt_params (s : State) (i : Symbol) (v : Key) : (writeFt s i v).params = s.params := rfl
@[simp] theorem writeFt_ft (s : State) (i : Symbol) (v : Key) : (writeFt s i v).ft = if v = 0 then arrErase s.ft i.toNat else arrSet s.ft i.toNat v := rfl
@[simp] theorem writeFt_node (s : State) (i : Symbol) (v : Key) : (writeFt s i v).node = s.node := rfl
@[simp] theorem writeFt_nodeCnt (s : State) (i : Symbol) (v : Key) : (writeFt s i v).nodeCnt = s.nodeCnt := rfl
@[simp] theorem writeFt_heap (s : State) (i : Symbol) (v : Key) : (writeFt s i v).heap = s.heap := rfl
@[simp] theorem writeFt_pqSize (s : State) (i : Symbol) (v : Key) : (writeFt s i v).pqSize = s.pqSize := rfl
@[simp] theorem writeFt_pqCap (s : State) (i : Symbol) (v : Key) : (writeFt s i v).pqCap = s.pqCap := rfl
@[simp] theorem writeFt_root (s : State) (i : Symbol) (v : Key) : (writeFt s i v).root = s.root := rfl
@[simp] theorem writeFt_nleaf (s : State) (i : Symbol) (v : Key) : (writeFt s i v).nleaf = s.nleaf := rfl
@[simp] theorem writeFt_treeValid (s : State) (i : Symbol) (v : Key) : (writeFt s i v).treeValid = s.treeValid := rfl
@[simp] theorem writeFt_cw (s : State) (i : Symbol) (v : Key) : (writeFt s i v).cw = s.cw := rfl
@[simp] theorem writeFt_cwReady (s : State) (i : Symbol) (v : Key) : (writeFt s i v).cwReady = s.cwReady := rfl
@[simp] theorem writeFt_fatal (s : State) (i : Symbol) (v : Key) : (writeFt s i v).fatal = s.fatal := rfl
@[simp] theorem writeFt_errflags (s : State) (i : Symbol) (v : Key) : (writeFt s i v).errflags = s.errflags := rfl
@[simp] theorem writeFt_pqFsm (s : State) (i : Symbol) (v : Key) : (writeFt s i v).pqFsm = s.pqFsm := rfl
@[simp] theorem writeFt_tbFsm (s : State) (i : Symbol) (v : Key) : (writeFt s i v).tbFsm = s.tbFsm := rfl
@[simp] theorem writeFt_crFsm (s : State) (i : Symbol) (v : Key) : (writeFt s i v).crFsm = s.crFsm := rfl
@[simp] theorem writeFt_pq (s : State) (i : Symbol) (v : Key) : (writeFt s i v).pq = s.pq := rfl
@[simp] theorem writeFt_tb (s : State) (i : Symbol) (v : Key) : (writeFt s i v).tb = s.tb := rfl
@[simp] theorem writeFt_cr (s : State) (i : Symbol) (v : Key) : (writeFt s i v).cr = s.cr := rfl
@[simp] theorem writeFt_tstk (s : State) (i : Symbol) (v : Key) : (writeFt s i v).tstk = s.tstk := rfl
@[simp] theorem writeFt_rsp (s : State) (i : Symbol) (v : Key) : (writeFt s i v).rsp = s.rsp := rfl
@[simp] theorem writeFt_host (s : State) (i : Symbol) (v : Key) : (writeFt s i v).host = s.host := rfl

/-! ### putCw -/

@[simp] theorem putCw_params (s : State) (i : Symbol) (l : Len) (b : Bits) : (putCw s i l b).params = s.params := rfl
@[simp] theorem putCw_ft (s : State) (i : Symbol) (l : Len) (b : Bits) : (putCw s i l b).ft = s.ft := rfl
@[simp] theorem putCw_node (s : State) (i : Symbol) (l : Len) (b : Bits) : (putCw s i l b).node = s.node := rfl
@[simp] theorem putCw_nodeCnt (s : State) (i : Symbol) (l : Len) (b : Bits) : (putCw s i l b).nodeCnt = s.nodeCnt := rfl
@[simp] theorem putCw_heap (s : State) (i : Symbol) (l : Len) (b : Bits) : (putCw s i l b).heap = s.heap := rfl
@[simp] theorem putCw_pqSize (s : State) (i : Symbol) (l : Len) (b : Bits) : (putCw s i l b).pqSize = s.pqSize := rfl
@[simp] theorem putCw_pqCap (s : State) (i : Symbol) (l : Len) (b : Bits) : (putCw s i l b).pqCap = s.pqCap := rfl
@[simp] theorem putCw_root (s : State) (i : Symbol) (l : Len) (b : Bits) : (putCw s i l b).root = s.root := rfl
@[simp] theorem putCw_nleaf (s : State) (i : Symbol) (l : Len) (b : Bits) : (putCw s i l b).nleaf = s.nleaf := rfl
@[simp] theorem putCw_treeValid (s : State) (i : Symbol) (l : Len) (b : Bits) : (putCw s i l b).treeValid = s.treeValid := rfl
@[simp] theorem putCw_cw (s : State) (i : Symbol) (l : Len) (b : Bits) : (putCw s i l b).cw = arrSet s.cw i.toNat { len := l, bits := b } := rfl
@[simp] theorem putCw_cwReady (s : State) (i : Symbol) (l : Len) (b : Bits) : (putCw s i l b).cwReady = s.cwReady := rfl
@[simp] theorem putCw_fatal (s : State) (i : Symbol) (l : Len) (b : Bits) : (putCw s i l b).fatal = s.fatal := rfl
@[simp] theorem putCw_errflags (s : State) (i : Symbol) (l : Len) (b : Bits) : (putCw s i l b).errflags = s.errflags := rfl
@[simp] theorem putCw_pqFsm (s : State) (i : Symbol) (l : Len) (b : Bits) : (putCw s i l b).pqFsm = s.pqFsm := rfl
@[simp] theorem putCw_tbFsm (s : State) (i : Symbol) (l : Len) (b : Bits) : (putCw s i l b).tbFsm = s.tbFsm := rfl
@[simp] theorem putCw_crFsm (s : State) (i : Symbol) (l : Len) (b : Bits) : (putCw s i l b).crFsm = s.crFsm := rfl
@[simp] theorem putCw_pq (s : State) (i : Symbol) (l : Len) (b : Bits) : (putCw s i l b).pq = s.pq := rfl
@[simp] theorem putCw_tb (s : State) (i : Symbol) (l : Len) (b : Bits) : (putCw s i l b).tb = s.tb := rfl
@[simp] theorem putCw_cr (s : State) (i : Symbol) (l : Len) (b : Bits) : (putCw s i l b).cr = s.cr := rfl
@[simp] theorem putCw_tstk (s : State) (i : Symbol) (l : Len) (b : Bits) : (putCw s i l b).tstk = s.tstk := rfl
@[simp] theorem putCw_rsp (s : State) (i : Symbol) (l : Len) (b : Bits) : (putCw s i l b).rsp = s.rsp := rfl
@[simp] theorem putCw_host (s : State) (i : Symbol) (l : Len) (b : Bits) : (putCw s i l b).host = s.host := rfl

/-! ### invalidateCw -/

@[simp] theorem invalidateCw_params (s : State) : (invalidateCw s).params = s.params := rfl
@[simp] theorem invalidateCw_ft (s : State) : (invalidateCw s).ft = s.ft := rfl
@[simp] theorem invalidateCw_node (s : State) : (invalidateCw s).node = s.node := rfl
@[simp] theorem invalidateCw_nodeCnt (s : State) : (invalidateCw s).nodeCnt = s.nodeCnt := rfl
@[simp] theorem invalidateCw_heap (s : State) : (invalidateCw s).heap = s.heap := rfl
@[simp] theorem invalidateCw_pqSize (s : State) : (invalidateCw s).pqSize = s.pqSize := rfl
@[simp] theorem invalidateCw_pqCap (s : State) : (invalidateCw s).pqCap = s.pqCap := rfl
@[simp] theorem invalidateCw_root (s : State) : (invalidateCw s).root = s.root := rfl
@[simp] theorem invalidateCw_nleaf (s : State) : (invalidateCw s).nleaf = s.nleaf := rfl
@[simp] theorem invalidateCw_treeValid (s : State) : (invalidateCw s).treeValid = s.treeValid := rfl
@[simp] theorem invalidateCw_cw (s : State) : (invalidateCw s).cw = [] := rfl
@[simp] theorem invalidateCw_cwReady (s : State) : (invalidateCw s).cwReady = s.cwReady := rfl
@[simp] theorem invalidateCw_fatal (s : State) : (invalidateCw s).fatal = s.fatal := rfl
@[simp] theorem invalidateCw_errflags (s : State) : (invalidateCw s).errflags = s.errflags := rfl
@[simp] theorem invalidateCw_pqFsm (s : State) : (invalidateCw s).pqFsm = s.pqFsm := rfl
@[simp] theorem invalidateCw_tbFsm (s : State) : (invalidateCw s).tbFsm = s.tbFsm := rfl
@[simp] theorem invalidateCw_crFsm (s : State) : (invalidateCw s).crFsm = s.crFsm := rfl
@[simp] theorem invalidateCw_pq (s : State) : (invalidateCw s).pq = s.pq := rfl
@[simp] theorem invalidateCw_tb (s : State) : (invalidateCw s).tb = s.tb := rfl
@[simp] theorem invalidateCw_cr (s : State) : (invalidateCw s).cr = s.cr := rfl
@[simp] theorem invalidateCw_tstk (s : State) : (invalidateCw s).tstk = s.tstk := rfl
@[simp] theorem invalidateCw_rsp (s : State) : (invalidateCw s).rsp = s.rsp := rfl
@[simp] theorem invalidateCw_host (s : State) : (invalidateCw s).host = s.host := rfl

/-! ### dropSlot -/

@[simp] theorem dropSlot_params (s : State) (k : Nat) : (dropSlot s k).params = s.params := rfl
@[simp] theorem dropSlot_ft (s : State) (k : Nat) : (dropSlot s k).ft = s.ft := rfl
@[simp] theorem dropSlot_node (s : State) (k : Nat) : (dropSlot s k).node = s.node := rfl
@[simp] theorem dropSlot_nodeCnt (s : State) (k : Nat) : (dropSlot s k).nodeCnt = s.nodeCnt := rfl
@[simp] theorem dropSlot_heap (s : State) (k : Nat) : (dropSlot s k).heap = arrErase s.heap k := rfl
@[simp] theorem dropSlot_pqSize (s : State) (k : Nat) : (dropSlot s k).pqSize = s.pqSize := rfl
@[simp] theorem dropSlot_pqCap (s : State) (k : Nat) : (dropSlot s k).pqCap = s.pqCap := rfl
@[simp] theorem dropSlot_root (s : State) (k : Nat) : (dropSlot s k).root = s.root := rfl
@[simp] theorem dropSlot_nleaf (s : State) (k : Nat) : (dropSlot s k).nleaf = s.nleaf := rfl
@[simp] theorem dropSlot_treeValid (s : State) (k : Nat) : (dropSlot s k).treeValid = s.treeValid := rfl
@[simp] theorem dropSlot_cw (s : State) (k : Nat) : (dropSlot s k).cw = s.cw := rfl
@[simp] theorem dropSlot_cwReady (s : State) (k : Nat) : (dropSlot s k).cwReady = s.cwReady := rfl
@[simp] theorem dropSlot_fatal (s : State) (k : Nat) : (dropSlot s k).fatal = s.fatal := rfl
@[simp] theorem dropSlot_errflags (s : State) (k : Nat) : (dropSlot s k).errflags = s.errflags := rfl
@[simp] theorem dropSlot_pqFsm (s : State) (k : Nat) : (dropSlot s k).pqFsm = s.pqFsm := rfl
@[simp] theorem dropSlot_tbFsm (s : State) (k : Nat) : (dropSlot s k).tbFsm = s.tbFsm := rfl
@[simp] theorem dropSlot_crFsm (s : State) (k : Nat) : (dropSlot s k).crFsm = s.crFsm := rfl
@[simp] theorem dropSlot_pq (s : State) (k : Nat) : (dropSlot s k).pq = s.pq := rfl
@[simp] theorem dropSlot_tb (s : State) (k : Nat) : (dropSlot s k).tb = s.tb := rfl
@[simp] theorem dropSlot_cr (s : State) (k : Nat) : (dropSlot s k).cr = s.cr := rfl
@[simp] theorem dropSlot_tstk (s : State) (k : Nat) : (dropSlot s k).tstk = s.tstk := rfl
@[simp] theorem dropSlot_rsp (s : State) (k : Nat) : (dropSlot s k).rsp = s.rsp := rfl
@[simp] theorem dropSlot_host (s : State) (k : Nat) : (dropSlot s k).host = s.host := rfl

/-! ### createQueue -/

@[simp] theorem createQueue_params (s : State) (c : Count9) : (createQueue s c).params = s.params := rfl
@[simp] theorem createQueue_ft (s : State) (c : Count9) : (createQueue s c).ft = s.ft := rfl
@[simp] theorem createQueue_node (s : State) (c : Count9) : (createQueue s c).node = s.node := rfl
@[simp] theorem createQueue_nodeCnt (s : State) (c : Count9) : (createQueue s c).nodeCnt = s.nodeCnt := rfl
@[simp] theorem createQueue_heap (s : State) (c : Count9) : (createQueue s c).heap = [] := rfl
@[simp] theorem createQueue_pqSize (s : State) (c : Count9) : (createQueue s c).pqSize = 0 := rfl
@[simp] theorem createQueue_pqCap (s : State) (c : Count9) : (createQueue s c).pqCap = c := rfl
@[simp] theorem createQueue_root (s : State) (c : Count9) : (createQueue s c).root = s.root := rfl
@[simp] theorem createQueue_nleaf (s : State) (c : Count9) : (createQueue s c).nleaf = s.nleaf := rfl
@[simp] theorem createQueue_treeValid (s : State) (c : Count9) : (createQueue s c).treeValid = s.treeValid := rfl
@[simp] theorem createQueue_cw (s : State) (c : Count9) : (createQueue s c).cw = s.cw := rfl
@[simp] theorem createQueue_cwReady (s : State) (c : Count9) : (createQueue s c).cwReady = s.cwReady := rfl
@[simp] theorem createQueue_fatal (s : State) (c : Count9) : (createQueue s c).fatal = s.fatal := rfl
@[simp] theorem createQueue_errflags (s : State) (c : Count9) : (createQueue s c).errflags = s.errflags := rfl
@[simp] theorem createQueue_pqFsm (s : State) (c : Count9) : (createQueue s c).pqFsm = s.pqFsm := rfl
@[simp] theorem createQueue_tbFsm (s : State) (c : Count9) : (createQueue s c).tbFsm = s.tbFsm := rfl
@[simp] theorem createQueue_crFsm (s : State) (c : Count9) : (createQueue s c).crFsm = s.crFsm := rfl
@[simp] theorem createQueue_pq (s : State) (c : Count9) : (createQueue s c).pq = s.pq := rfl
@[simp] theorem createQueue_tb (s : State) (c : Count9) : (createQueue s c).tb = s.tb := rfl
@[simp] theorem createQueue_cr (s : State) (c : Count9) : (createQueue s c).cr = s.cr := rfl
@[simp] theorem createQueue_tstk (s : State) (c : Count9) : (createQueue s c).tstk = s.tstk := rfl
@[simp] theorem createQueue_rsp (s : State) (c : Count9) : (createQueue s c).rsp = s.rsp := rfl
@[simp] theorem createQueue_host (s : State) (c : Count9) : (createQueue s c).host = s.host := rfl

/-! ### emptyArena -/

@[simp] theorem emptyArena_params (s : State) : (emptyArena s).params = s.params := rfl
@[simp] theorem emptyArena_ft (s : State) : (emptyArena s).ft = s.ft := rfl
@[simp] theorem emptyArena_node (s : State) : (emptyArena s).node = [] := rfl
@[simp] theorem emptyArena_nodeCnt (s : State) : (emptyArena s).nodeCnt = 0 := rfl
@[simp] theorem emptyArena_heap (s : State) : (emptyArena s).heap = s.heap := rfl
@[simp] theorem emptyArena_pqSize (s : State) : (emptyArena s).pqSize = s.pqSize := rfl
@[simp] theorem emptyArena_pqCap (s : State) : (emptyArena s).pqCap = s.pqCap := rfl
@[simp] theorem emptyArena_root (s : State) : (emptyArena s).root = s.root := rfl
@[simp] theorem emptyArena_nleaf (s : State) : (emptyArena s).nleaf = s.nleaf := rfl
@[simp] theorem emptyArena_treeValid (s : State) : (emptyArena s).treeValid = s.treeValid := rfl
@[simp] theorem emptyArena_cw (s : State) : (emptyArena s).cw = s.cw := rfl
@[simp] theorem emptyArena_cwReady (s : State) : (emptyArena s).cwReady = s.cwReady := rfl
@[simp] theorem emptyArena_fatal (s : State) : (emptyArena s).fatal = s.fatal := rfl
@[simp] theorem emptyArena_errflags (s : State) : (emptyArena s).errflags = s.errflags := rfl
@[simp] theorem emptyArena_pqFsm (s : State) : (emptyArena s).pqFsm = s.pqFsm := rfl
@[simp] theorem emptyArena_tbFsm (s : State) : (emptyArena s).tbFsm = s.tbFsm := rfl
@[simp] theorem emptyArena_crFsm (s : State) : (emptyArena s).crFsm = s.crFsm := rfl
@[simp] theorem emptyArena_pq (s : State) : (emptyArena s).pq = s.pq := rfl
@[simp] theorem emptyArena_tb (s : State) : (emptyArena s).tb = s.tb := rfl
@[simp] theorem emptyArena_cr (s : State) : (emptyArena s).cr = s.cr := rfl
@[simp] theorem emptyArena_tstk (s : State) : (emptyArena s).tstk = s.tstk := rfl
@[simp] theorem emptyArena_rsp (s : State) : (emptyArena s).rsp = s.rsp := rfl
@[simp] theorem emptyArena_host (s : State) : (emptyArena s).host = s.host := rfl

/-! ### dropTstk -/

@[simp] theorem dropTstk_params (s : State) (d : Nat) : (dropTstk s d).params = s.params := rfl
@[simp] theorem dropTstk_ft (s : State) (d : Nat) : (dropTstk s d).ft = s.ft := rfl
@[simp] theorem dropTstk_node (s : State) (d : Nat) : (dropTstk s d).node = s.node := rfl
@[simp] theorem dropTstk_nodeCnt (s : State) (d : Nat) : (dropTstk s d).nodeCnt = s.nodeCnt := rfl
@[simp] theorem dropTstk_heap (s : State) (d : Nat) : (dropTstk s d).heap = s.heap := rfl
@[simp] theorem dropTstk_pqSize (s : State) (d : Nat) : (dropTstk s d).pqSize = s.pqSize := rfl
@[simp] theorem dropTstk_pqCap (s : State) (d : Nat) : (dropTstk s d).pqCap = s.pqCap := rfl
@[simp] theorem dropTstk_root (s : State) (d : Nat) : (dropTstk s d).root = s.root := rfl
@[simp] theorem dropTstk_nleaf (s : State) (d : Nat) : (dropTstk s d).nleaf = s.nleaf := rfl
@[simp] theorem dropTstk_treeValid (s : State) (d : Nat) : (dropTstk s d).treeValid = s.treeValid := rfl
@[simp] theorem dropTstk_cw (s : State) (d : Nat) : (dropTstk s d).cw = s.cw := rfl
@[simp] theorem dropTstk_cwReady (s : State) (d : Nat) : (dropTstk s d).cwReady = s.cwReady := rfl
@[simp] theorem dropTstk_fatal (s : State) (d : Nat) : (dropTstk s d).fatal = s.fatal := rfl
@[simp] theorem dropTstk_errflags (s : State) (d : Nat) : (dropTstk s d).errflags = s.errflags := rfl
@[simp] theorem dropTstk_pqFsm (s : State) (d : Nat) : (dropTstk s d).pqFsm = s.pqFsm := rfl
@[simp] theorem dropTstk_tbFsm (s : State) (d : Nat) : (dropTstk s d).tbFsm = s.tbFsm := rfl
@[simp] theorem dropTstk_crFsm (s : State) (d : Nat) : (dropTstk s d).crFsm = s.crFsm := rfl
@[simp] theorem dropTstk_pq (s : State) (d : Nat) : (dropTstk s d).pq = s.pq := rfl
@[simp] theorem dropTstk_tb (s : State) (d : Nat) : (dropTstk s d).tb = s.tb := rfl
@[simp] theorem dropTstk_cr (s : State) (d : Nat) : (dropTstk s d).cr = s.cr := rfl
@[simp] theorem dropTstk_tstk (s : State) (d : Nat) : (dropTstk s d).tstk = arrErase s.tstk d := rfl
@[simp] theorem dropTstk_rsp (s : State) (d : Nat) : (dropTstk s d).rsp = s.rsp := rfl
@[simp] theorem dropTstk_host (s : State) (d : Nat) : (dropTstk s d).host = s.host := rfl

/-! ### respond -/

@[simp] theorem respond_params (st : BitVec 8) (a : BitVec 24) (b : BitVec 32) (s : State) : (respond st a b s).params = s.params := rfl
@[simp] theorem respond_ft (st : BitVec 8) (a : BitVec 24) (b : BitVec 32) (s : State) : (respond st a b s).ft = s.ft := rfl
@[simp] theorem respond_node (st : BitVec 8) (a : BitVec 24) (b : BitVec 32) (s : State) : (respond st a b s).node = s.node := rfl
@[simp] theorem respond_nodeCnt (st : BitVec 8) (a : BitVec 24) (b : BitVec 32) (s : State) : (respond st a b s).nodeCnt = s.nodeCnt := rfl
@[simp] theorem respond_heap (st : BitVec 8) (a : BitVec 24) (b : BitVec 32) (s : State) : (respond st a b s).heap = s.heap := rfl
@[simp] theorem respond_pqSize (st : BitVec 8) (a : BitVec 24) (b : BitVec 32) (s : State) : (respond st a b s).pqSize = s.pqSize := rfl
@[simp] theorem respond_pqCap (st : BitVec 8) (a : BitVec 24) (b : BitVec 32) (s : State) : (respond st a b s).pqCap = s.pqCap := rfl
@[simp] theorem respond_root (st : BitVec 8) (a : BitVec 24) (b : BitVec 32) (s : State) : (respond st a b s).root = s.root := rfl
@[simp] theorem respond_nleaf (st : BitVec 8) (a : BitVec 24) (b : BitVec 32) (s : State) : (respond st a b s).nleaf = s.nleaf := rfl
@[simp] theorem respond_treeValid (st : BitVec 8) (a : BitVec 24) (b : BitVec 32) (s : State) : (respond st a b s).treeValid = s.treeValid := rfl
@[simp] theorem respond_cw (st : BitVec 8) (a : BitVec 24) (b : BitVec 32) (s : State) : (respond st a b s).cw = s.cw := rfl
@[simp] theorem respond_cwReady (st : BitVec 8) (a : BitVec 24) (b : BitVec 32) (s : State) : (respond st a b s).cwReady = s.cwReady := rfl
@[simp] theorem respond_fatal (st : BitVec 8) (a : BitVec 24) (b : BitVec 32) (s : State) : (respond st a b s).fatal = s.fatal := rfl
@[simp] theorem respond_errflags (st : BitVec 8) (a : BitVec 24) (b : BitVec 32) (s : State) : (respond st a b s).errflags = s.errflags := rfl
@[simp] theorem respond_pqFsm (st : BitVec 8) (a : BitVec 24) (b : BitVec 32) (s : State) : (respond st a b s).pqFsm = s.pqFsm := rfl
@[simp] theorem respond_tbFsm (st : BitVec 8) (a : BitVec 24) (b : BitVec 32) (s : State) : (respond st a b s).tbFsm = s.tbFsm := rfl
@[simp] theorem respond_crFsm (st : BitVec 8) (a : BitVec 24) (b : BitVec 32) (s : State) : (respond st a b s).crFsm = s.crFsm := rfl
@[simp] theorem respond_pq (st : BitVec 8) (a : BitVec 24) (b : BitVec 32) (s : State) : (respond st a b s).pq = s.pq := rfl
@[simp] theorem respond_tb (st : BitVec 8) (a : BitVec 24) (b : BitVec 32) (s : State) : (respond st a b s).tb = s.tb := rfl
@[simp] theorem respond_cr (st : BitVec 8) (a : BitVec 24) (b : BitVec 32) (s : State) : (respond st a b s).cr = s.cr := rfl
@[simp] theorem respond_tstk (st : BitVec 8) (a : BitVec 24) (b : BitVec 32) (s : State) : (respond st a b s).tstk = s.tstk := rfl
@[simp] theorem respond_rsp (st : BitVec 8) (a : BitVec 24) (b : BitVec 32) (s : State) : (respond st a b s).rsp = some (responseWord st a b) := rfl
@[simp] theorem respond_host (st : BitVec 8) (a : BitVec 24) (b : BitVec 32) (s : State) : (respond st a b s).host = s.host := rfl

/-! ### respondOk -/

@[simp] theorem respondOk_params (a : BitVec 24) (b : BitVec 32) (s : State) : (respondOk a b s).params = s.params := rfl
@[simp] theorem respondOk_ft (a : BitVec 24) (b : BitVec 32) (s : State) : (respondOk a b s).ft = s.ft := rfl
@[simp] theorem respondOk_node (a : BitVec 24) (b : BitVec 32) (s : State) : (respondOk a b s).node = s.node := rfl
@[simp] theorem respondOk_nodeCnt (a : BitVec 24) (b : BitVec 32) (s : State) : (respondOk a b s).nodeCnt = s.nodeCnt := rfl
@[simp] theorem respondOk_heap (a : BitVec 24) (b : BitVec 32) (s : State) : (respondOk a b s).heap = s.heap := rfl
@[simp] theorem respondOk_pqSize (a : BitVec 24) (b : BitVec 32) (s : State) : (respondOk a b s).pqSize = s.pqSize := rfl
@[simp] theorem respondOk_pqCap (a : BitVec 24) (b : BitVec 32) (s : State) : (respondOk a b s).pqCap = s.pqCap := rfl
@[simp] theorem respondOk_root (a : BitVec 24) (b : BitVec 32) (s : State) : (respondOk a b s).root = s.root := rfl
@[simp] theorem respondOk_nleaf (a : BitVec 24) (b : BitVec 32) (s : State) : (respondOk a b s).nleaf = s.nleaf := rfl
@[simp] theorem respondOk_treeValid (a : BitVec 24) (b : BitVec 32) (s : State) : (respondOk a b s).treeValid = s.treeValid := rfl
@[simp] theorem respondOk_cw (a : BitVec 24) (b : BitVec 32) (s : State) : (respondOk a b s).cw = s.cw := rfl
@[simp] theorem respondOk_cwReady (a : BitVec 24) (b : BitVec 32) (s : State) : (respondOk a b s).cwReady = s.cwReady := rfl
@[simp] theorem respondOk_fatal (a : BitVec 24) (b : BitVec 32) (s : State) : (respondOk a b s).fatal = s.fatal := rfl
@[simp] theorem respondOk_errflags (a : BitVec 24) (b : BitVec 32) (s : State) : (respondOk a b s).errflags = s.errflags := rfl
@[simp] theorem respondOk_pqFsm (a : BitVec 24) (b : BitVec 32) (s : State) : (respondOk a b s).pqFsm = s.pqFsm := rfl
@[simp] theorem respondOk_tbFsm (a : BitVec 24) (b : BitVec 32) (s : State) : (respondOk a b s).tbFsm = s.tbFsm := rfl
@[simp] theorem respondOk_crFsm (a : BitVec 24) (b : BitVec 32) (s : State) : (respondOk a b s).crFsm = s.crFsm := rfl
@[simp] theorem respondOk_pq (a : BitVec 24) (b : BitVec 32) (s : State) : (respondOk a b s).pq = s.pq := rfl
@[simp] theorem respondOk_tb (a : BitVec 24) (b : BitVec 32) (s : State) : (respondOk a b s).tb = s.tb := rfl
@[simp] theorem respondOk_cr (a : BitVec 24) (b : BitVec 32) (s : State) : (respondOk a b s).cr = s.cr := rfl
@[simp] theorem respondOk_tstk (a : BitVec 24) (b : BitVec 32) (s : State) : (respondOk a b s).tstk = s.tstk := rfl
@[simp] theorem respondOk_rsp (a : BitVec 24) (b : BitVec 32) (s : State) : (respondOk a b s).rsp = some (responseWord 0 a b) := rfl
@[simp] theorem respondOk_host (a : BitVec 24) (b : BitVec 32) (s : State) : (respondOk a b s).host = s.host := rfl

/-! ### raise -/

@[simp] theorem raise_params (e : ErrKind) (s : State) : (raise e s).params = s.params := rfl
@[simp] theorem raise_ft (e : ErrKind) (s : State) : (raise e s).ft = s.ft := rfl
@[simp] theorem raise_node (e : ErrKind) (s : State) : (raise e s).node = s.node := rfl
@[simp] theorem raise_nodeCnt (e : ErrKind) (s : State) : (raise e s).nodeCnt = s.nodeCnt := rfl
@[simp] theorem raise_heap (e : ErrKind) (s : State) : (raise e s).heap = s.heap := rfl
@[simp] theorem raise_pqSize (e : ErrKind) (s : State) : (raise e s).pqSize = s.pqSize := rfl
@[simp] theorem raise_pqCap (e : ErrKind) (s : State) : (raise e s).pqCap = s.pqCap := rfl
@[simp] theorem raise_root (e : ErrKind) (s : State) : (raise e s).root = s.root := rfl
@[simp] theorem raise_nleaf (e : ErrKind) (s : State) : (raise e s).nleaf = s.nleaf := rfl
@[simp] theorem raise_treeValid (e : ErrKind) (s : State) : (raise e s).treeValid = s.treeValid := rfl
@[simp] theorem raise_cw (e : ErrKind) (s : State) : (raise e s).cw = s.cw := rfl
@[simp] theorem raise_cwReady (e : ErrKind) (s : State) : (raise e s).cwReady = s.cwReady := rfl
@[simp] theorem raise_fatal (e : ErrKind) (s : State) : (raise e s).fatal = s.fatal := rfl
@[simp] theorem raise_errflags (e : ErrKind) (s : State) : (raise e s).errflags = setErrBit s.errflags e := rfl
@[simp] theorem raise_pqFsm (e : ErrKind) (s : State) : (raise e s).pqFsm = s.pqFsm := rfl
@[simp] theorem raise_tbFsm (e : ErrKind) (s : State) : (raise e s).tbFsm = s.tbFsm := rfl
@[simp] theorem raise_crFsm (e : ErrKind) (s : State) : (raise e s).crFsm = s.crFsm := rfl
@[simp] theorem raise_pq (e : ErrKind) (s : State) : (raise e s).pq = s.pq := rfl
@[simp] theorem raise_tb (e : ErrKind) (s : State) : (raise e s).tb = s.tb := rfl
@[simp] theorem raise_cr (e : ErrKind) (s : State) : (raise e s).cr = s.cr := rfl
@[simp] theorem raise_tstk (e : ErrKind) (s : State) : (raise e s).tstk = s.tstk := rfl
@[simp] theorem raise_rsp (e : ErrKind) (s : State) : (raise e s).rsp = some (responseWord (BitVec.ofNat 8 (errCode e)) 0 0) := rfl
@[simp] theorem raise_host (e : ErrKind) (s : State) : (raise e s).host = s.host := rfl

/-! ### dropWorking -/

@[simp] theorem dropWorking_params (s : State) : (dropWorking s).params = s.params := rfl
@[simp] theorem dropWorking_ft (s : State) : (dropWorking s).ft = s.ft := rfl
@[simp] theorem dropWorking_node (s : State) : (dropWorking s).node = s.node := rfl
@[simp] theorem dropWorking_nodeCnt (s : State) : (dropWorking s).nodeCnt = s.nodeCnt := rfl
@[simp] theorem dropWorking_heap (s : State) : (dropWorking s).heap = s.heap := rfl
@[simp] theorem dropWorking_pqSize (s : State) : (dropWorking s).pqSize = s.pqSize := rfl
@[simp] theorem dropWorking_pqCap (s : State) : (dropWorking s).pqCap = s.pqCap := rfl
@[simp] theorem dropWorking_root (s : State) : (dropWorking s).root = s.root := rfl
@[simp] theorem dropWorking_nleaf (s : State) : (dropWorking s).nleaf = s.nleaf := rfl
@[simp] theorem dropWorking_treeValid (s : State) : (dropWorking s).treeValid = s.treeValid := rfl
@[simp] theorem dropWorking_cw (s : State) : (dropWorking s).cw = s.cw := rfl
@[simp] theorem dropWorking_cwReady (s : State) : (dropWorking s).cwReady = s.cwReady := rfl
@[simp] theorem dropWorking_fatal (s : State) : (dropWorking s).fatal = s.fatal := rfl
@[simp] theorem dropWorking_errflags (s : State) : (dropWorking s).errflags = s.errflags := rfl
@[simp] theorem dropWorking_pqFsm (s : State) : (dropWorking s).pqFsm = s.pqFsm := rfl
@[simp] theorem dropWorking_tbFsm (s : State) : (dropWorking s).tbFsm = s.tbFsm := rfl
@[simp] theorem dropWorking_crFsm (s : State) : (dropWorking s).crFsm = s.crFsm := rfl
@[simp] theorem dropWorking_pq (s : State) : (dropWorking s).pq = State.reset.pq := rfl
@[simp] theorem dropWorking_tb (s : State) : (dropWorking s).tb = State.reset.tb := rfl
@[simp] theorem dropWorking_cr (s : State) : (dropWorking s).cr = State.reset.cr := rfl
@[simp] theorem dropWorking_tstk (s : State) : (dropWorking s).tstk = [] := rfl
@[simp] theorem dropWorking_rsp (s : State) : (dropWorking s).rsp = s.rsp := rfl
@[simp] theorem dropWorking_host (s : State) : (dropWorking s).host = s.host := rfl

/-! ### builderStart -/

@[simp] theorem builderStart_params (s : State) : (builderStart s).params = s.params := rfl
@[simp] theorem builderStart_ft (s : State) : (builderStart s).ft = s.ft := rfl
@[simp] theorem builderStart_node (s : State) : (builderStart s).node = s.node := rfl
@[simp] theorem builderStart_nodeCnt (s : State) : (builderStart s).nodeCnt = s.nodeCnt := rfl
@[simp] theorem builderStart_heap (s : State) : (builderStart s).heap = s.heap := rfl
@[simp] theorem builderStart_pqSize (s : State) : (builderStart s).pqSize = s.pqSize := rfl
@[simp] theorem builderStart_pqCap (s : State) : (builderStart s).pqCap = s.pqCap := rfl
@[simp] theorem builderStart_root (s : State) : (builderStart s).root = s.root := rfl
@[simp] theorem builderStart_nleaf (s : State) : (builderStart s).nleaf = s.nleaf := rfl
@[simp] theorem builderStart_treeValid (s : State) : (builderStart s).treeValid = s.treeValid := rfl
@[simp] theorem builderStart_cw (s : State) : (builderStart s).cw = s.cw := rfl
@[simp] theorem builderStart_cwReady (s : State) : (builderStart s).cwReady = s.cwReady := rfl
@[simp] theorem builderStart_fatal (s : State) : (builderStart s).fatal = s.fatal := rfl
@[simp] theorem builderStart_errflags (s : State) : (builderStart s).errflags = s.errflags := rfl
@[simp] theorem builderStart_pqFsm (s : State) : (builderStart s).pqFsm = s.pqFsm := rfl
@[simp] theorem builderStart_tbFsm (s : State) : (builderStart s).tbFsm = .bScan := rfl
@[simp] theorem builderStart_crFsm (s : State) : (builderStart s).crFsm = s.crFsm := rfl
@[simp] theorem builderStart_pq (s : State) : (builderStart s).pq = s.pq := rfl
@[simp] theorem builderStart_tb (s : State) : (builderStart s).tb = { S := 0, N := 0, ACC := 0, U := s.tb.U, V := s.tb.V, W := s.tb.W } := rfl
@[simp] theorem builderStart_cr (s : State) : (builderStart s).cr = s.cr := rfl
@[simp] theorem builderStart_tstk (s : State) : (builderStart s).tstk = s.tstk := rfl
@[simp] theorem builderStart_rsp (s : State) : (builderStart s).rsp = s.rsp := rfl
@[simp] theorem builderStart_host (s : State) : (builderStart s).host = s.host := rfl

/-! ### afterEdge -/

@[simp] theorem afterEdge_params (s : State) : (afterEdge s).params = s.params := rfl
@[simp] theorem afterEdge_ft (s : State) : (afterEdge s).ft = s.ft := rfl
@[simp] theorem afterEdge_node (s : State) : (afterEdge s).node = s.node := rfl
@[simp] theorem afterEdge_nodeCnt (s : State) : (afterEdge s).nodeCnt = s.nodeCnt := rfl
@[simp] theorem afterEdge_heap (s : State) : (afterEdge s).heap = s.heap := rfl
@[simp] theorem afterEdge_pqSize (s : State) : (afterEdge s).pqSize = s.pqSize := rfl
@[simp] theorem afterEdge_pqCap (s : State) : (afterEdge s).pqCap = s.pqCap := rfl
@[simp] theorem afterEdge_root (s : State) : (afterEdge s).root = s.root := rfl
@[simp] theorem afterEdge_nleaf (s : State) : (afterEdge s).nleaf = s.nleaf := rfl
@[simp] theorem afterEdge_treeValid (s : State) : (afterEdge s).treeValid = s.treeValid := rfl
@[simp] theorem afterEdge_cw (s : State) : (afterEdge s).cw = s.cw := rfl
@[simp] theorem afterEdge_cwReady (s : State) : (afterEdge s).cwReady = s.cwReady := rfl
@[simp] theorem afterEdge_fatal (s : State) : (afterEdge s).fatal = s.fatal := rfl
@[simp] theorem afterEdge_errflags (s : State) : (afterEdge s).errflags = s.errflags := rfl
@[simp] theorem afterEdge_pqFsm (s : State) : (afterEdge s).pqFsm = s.pqFsm := rfl
@[simp] theorem afterEdge_tbFsm (s : State) : (afterEdge s).tbFsm = s.tbFsm := rfl
@[simp] theorem afterEdge_crFsm (s : State) : (afterEdge s).crFsm = s.crFsm := rfl
@[simp] theorem afterEdge_pq (s : State) : (afterEdge s).pq = s.pq := rfl
@[simp] theorem afterEdge_tb (s : State) : (afterEdge s).tb = s.tb := rfl
@[simp] theorem afterEdge_cr (s : State) : (afterEdge s).cr = s.cr := rfl
@[simp] theorem afterEdge_tstk (s : State) : (afterEdge s).tstk = s.tstk := rfl
@[simp] theorem afterEdge_rsp (s : State) : (afterEdge s).rsp = s.rsp := rfl
@[simp] theorem afterEdge_host (s : State) : (afterEdge s).host = s.host.tail := rfl

/-! ### setPqFsm -/

@[simp] theorem setPqFsm_params (f : PqState) (s : State) : (setPqFsm f s).params = s.params := rfl
@[simp] theorem setPqFsm_ft (f : PqState) (s : State) : (setPqFsm f s).ft = s.ft := rfl
@[simp] theorem setPqFsm_node (f : PqState) (s : State) : (setPqFsm f s).node = s.node := rfl
@[simp] theorem setPqFsm_nodeCnt (f : PqState) (s : State) : (setPqFsm f s).nodeCnt = s.nodeCnt := rfl
@[simp] theorem setPqFsm_heap (f : PqState) (s : State) : (setPqFsm f s).heap = s.heap := rfl
@[simp] theorem setPqFsm_pqSize (f : PqState) (s : State) : (setPqFsm f s).pqSize = s.pqSize := rfl
@[simp] theorem setPqFsm_pqCap (f : PqState) (s : State) : (setPqFsm f s).pqCap = s.pqCap := rfl
@[simp] theorem setPqFsm_root (f : PqState) (s : State) : (setPqFsm f s).root = s.root := rfl
@[simp] theorem setPqFsm_nleaf (f : PqState) (s : State) : (setPqFsm f s).nleaf = s.nleaf := rfl
@[simp] theorem setPqFsm_treeValid (f : PqState) (s : State) : (setPqFsm f s).treeValid = s.treeValid := rfl
@[simp] theorem setPqFsm_cw (f : PqState) (s : State) : (setPqFsm f s).cw = s.cw := rfl
@[simp] theorem setPqFsm_cwReady (f : PqState) (s : State) : (setPqFsm f s).cwReady = s.cwReady := rfl
@[simp] theorem setPqFsm_fatal (f : PqState) (s : State) : (setPqFsm f s).fatal = s.fatal := rfl
@[simp] theorem setPqFsm_errflags (f : PqState) (s : State) : (setPqFsm f s).errflags = s.errflags := rfl
@[simp] theorem setPqFsm_pqFsm (f : PqState) (s : State) : (setPqFsm f s).pqFsm = f := rfl
@[simp] theorem setPqFsm_tbFsm (f : PqState) (s : State) : (setPqFsm f s).tbFsm = s.tbFsm := rfl
@[simp] theorem setPqFsm_crFsm (f : PqState) (s : State) : (setPqFsm f s).crFsm = s.crFsm := rfl
@[simp] theorem setPqFsm_pq (f : PqState) (s : State) : (setPqFsm f s).pq = s.pq := rfl
@[simp] theorem setPqFsm_tb (f : PqState) (s : State) : (setPqFsm f s).tb = s.tb := rfl
@[simp] theorem setPqFsm_cr (f : PqState) (s : State) : (setPqFsm f s).cr = s.cr := rfl
@[simp] theorem setPqFsm_tstk (f : PqState) (s : State) : (setPqFsm f s).tstk = s.tstk := rfl
@[simp] theorem setPqFsm_rsp (f : PqState) (s : State) : (setPqFsm f s).rsp = s.rsp := rfl
@[simp] theorem setPqFsm_host (f : PqState) (s : State) : (setPqFsm f s).host = s.host := rfl

/-! ### setTbFsm -/

@[simp] theorem setTbFsm_params (f : TbState) (s : State) : (setTbFsm f s).params = s.params := rfl
@[simp] theorem setTbFsm_ft (f : TbState) (s : State) : (setTbFsm f s).ft = s.ft := rfl
@[simp] theorem setTbFsm_node (f : TbState) (s : State) : (setTbFsm f s).node = s.node := rfl
@[simp] theorem setTbFsm_nodeCnt (f : TbState) (s : State) : (setTbFsm f s).nodeCnt = s.nodeCnt := rfl
@[simp] theorem setTbFsm_heap (f : TbState) (s : State) : (setTbFsm f s).heap = s.heap := rfl
@[simp] theorem setTbFsm_pqSize (f : TbState) (s : State) : (setTbFsm f s).pqSize = s.pqSize := rfl
@[simp] theorem setTbFsm_pqCap (f : TbState) (s : State) : (setTbFsm f s).pqCap = s.pqCap := rfl
@[simp] theorem setTbFsm_root (f : TbState) (s : State) : (setTbFsm f s).root = s.root := rfl
@[simp] theorem setTbFsm_nleaf (f : TbState) (s : State) : (setTbFsm f s).nleaf = s.nleaf := rfl
@[simp] theorem setTbFsm_treeValid (f : TbState) (s : State) : (setTbFsm f s).treeValid = s.treeValid := rfl
@[simp] theorem setTbFsm_cw (f : TbState) (s : State) : (setTbFsm f s).cw = s.cw := rfl
@[simp] theorem setTbFsm_cwReady (f : TbState) (s : State) : (setTbFsm f s).cwReady = s.cwReady := rfl
@[simp] theorem setTbFsm_fatal (f : TbState) (s : State) : (setTbFsm f s).fatal = s.fatal := rfl
@[simp] theorem setTbFsm_errflags (f : TbState) (s : State) : (setTbFsm f s).errflags = s.errflags := rfl
@[simp] theorem setTbFsm_pqFsm (f : TbState) (s : State) : (setTbFsm f s).pqFsm = s.pqFsm := rfl
@[simp] theorem setTbFsm_tbFsm (f : TbState) (s : State) : (setTbFsm f s).tbFsm = f := rfl
@[simp] theorem setTbFsm_crFsm (f : TbState) (s : State) : (setTbFsm f s).crFsm = s.crFsm := rfl
@[simp] theorem setTbFsm_pq (f : TbState) (s : State) : (setTbFsm f s).pq = s.pq := rfl
@[simp] theorem setTbFsm_tb (f : TbState) (s : State) : (setTbFsm f s).tb = s.tb := rfl
@[simp] theorem setTbFsm_cr (f : TbState) (s : State) : (setTbFsm f s).cr = s.cr := rfl
@[simp] theorem setTbFsm_tstk (f : TbState) (s : State) : (setTbFsm f s).tstk = s.tstk := rfl
@[simp] theorem setTbFsm_rsp (f : TbState) (s : State) : (setTbFsm f s).rsp = s.rsp := rfl
@[simp] theorem setTbFsm_host (f : TbState) (s : State) : (setTbFsm f s).host = s.host := rfl

/-! ### setCrFsm -/

@[simp] theorem setCrFsm_params (f : CrState) (s : State) : (setCrFsm f s).params = s.params := rfl
@[simp] theorem setCrFsm_ft (f : CrState) (s : State) : (setCrFsm f s).ft = s.ft := rfl
@[simp] theorem setCrFsm_node (f : CrState) (s : State) : (setCrFsm f s).node = s.node := rfl
@[simp] theorem setCrFsm_nodeCnt (f : CrState) (s : State) : (setCrFsm f s).nodeCnt = s.nodeCnt := rfl
@[simp] theorem setCrFsm_heap (f : CrState) (s : State) : (setCrFsm f s).heap = s.heap := rfl
@[simp] theorem setCrFsm_pqSize (f : CrState) (s : State) : (setCrFsm f s).pqSize = s.pqSize := rfl
@[simp] theorem setCrFsm_pqCap (f : CrState) (s : State) : (setCrFsm f s).pqCap = s.pqCap := rfl
@[simp] theorem setCrFsm_root (f : CrState) (s : State) : (setCrFsm f s).root = s.root := rfl
@[simp] theorem setCrFsm_nleaf (f : CrState) (s : State) : (setCrFsm f s).nleaf = s.nleaf := rfl
@[simp] theorem setCrFsm_treeValid (f : CrState) (s : State) : (setCrFsm f s).treeValid = s.treeValid := rfl
@[simp] theorem setCrFsm_cw (f : CrState) (s : State) : (setCrFsm f s).cw = s.cw := rfl
@[simp] theorem setCrFsm_cwReady (f : CrState) (s : State) : (setCrFsm f s).cwReady = s.cwReady := rfl
@[simp] theorem setCrFsm_fatal (f : CrState) (s : State) : (setCrFsm f s).fatal = s.fatal := rfl
@[simp] theorem setCrFsm_errflags (f : CrState) (s : State) : (setCrFsm f s).errflags = s.errflags := rfl
@[simp] theorem setCrFsm_pqFsm (f : CrState) (s : State) : (setCrFsm f s).pqFsm = s.pqFsm := rfl
@[simp] theorem setCrFsm_tbFsm (f : CrState) (s : State) : (setCrFsm f s).tbFsm = s.tbFsm := rfl
@[simp] theorem setCrFsm_crFsm (f : CrState) (s : State) : (setCrFsm f s).crFsm = f := rfl
@[simp] theorem setCrFsm_pq (f : CrState) (s : State) : (setCrFsm f s).pq = s.pq := rfl
@[simp] theorem setCrFsm_tb (f : CrState) (s : State) : (setCrFsm f s).tb = s.tb := rfl
@[simp] theorem setCrFsm_cr (f : CrState) (s : State) : (setCrFsm f s).cr = s.cr := rfl
@[simp] theorem setCrFsm_tstk (f : CrState) (s : State) : (setCrFsm f s).tstk = s.tstk := rfl
@[simp] theorem setCrFsm_rsp (f : CrState) (s : State) : (setCrFsm f s).rsp = s.rsp := rfl
@[simp] theorem setCrFsm_host (f : CrState) (s : State) : (setCrFsm f s).host = s.host := rfl

/-! ### setPqSize -/

@[simp] theorem setPqSize_params (v : Count9) (s : State) : (setPqSize v s).params = s.params := rfl
@[simp] theorem setPqSize_ft (v : Count9) (s : State) : (setPqSize v s).ft = s.ft := rfl
@[simp] theorem setPqSize_node (v : Count9) (s : State) : (setPqSize v s).node = s.node := rfl
@[simp] theorem setPqSize_nodeCnt (v : Count9) (s : State) : (setPqSize v s).nodeCnt = s.nodeCnt := rfl
@[simp] theorem setPqSize_heap (v : Count9) (s : State) : (setPqSize v s).heap = s.heap := rfl
@[simp] theorem setPqSize_pqSize (v : Count9) (s : State) : (setPqSize v s).pqSize = v := rfl
@[simp] theorem setPqSize_pqCap (v : Count9) (s : State) : (setPqSize v s).pqCap = s.pqCap := rfl
@[simp] theorem setPqSize_root (v : Count9) (s : State) : (setPqSize v s).root = s.root := rfl
@[simp] theorem setPqSize_nleaf (v : Count9) (s : State) : (setPqSize v s).nleaf = s.nleaf := rfl
@[simp] theorem setPqSize_treeValid (v : Count9) (s : State) : (setPqSize v s).treeValid = s.treeValid := rfl
@[simp] theorem setPqSize_cw (v : Count9) (s : State) : (setPqSize v s).cw = s.cw := rfl
@[simp] theorem setPqSize_cwReady (v : Count9) (s : State) : (setPqSize v s).cwReady = s.cwReady := rfl
@[simp] theorem setPqSize_fatal (v : Count9) (s : State) : (setPqSize v s).fatal = s.fatal := rfl
@[simp] theorem setPqSize_errflags (v : Count9) (s : State) : (setPqSize v s).errflags = s.errflags := rfl
@[simp] theorem setPqSize_pqFsm (v : Count9) (s : State) : (setPqSize v s).pqFsm = s.pqFsm := rfl
@[simp] theorem setPqSize_tbFsm (v : Count9) (s : State) : (setPqSize v s).tbFsm = s.tbFsm := rfl
@[simp] theorem setPqSize_crFsm (v : Count9) (s : State) : (setPqSize v s).crFsm = s.crFsm := rfl
@[simp] theorem setPqSize_pq (v : Count9) (s : State) : (setPqSize v s).pq = s.pq := rfl
@[simp] theorem setPqSize_tb (v : Count9) (s : State) : (setPqSize v s).tb = s.tb := rfl
@[simp] theorem setPqSize_cr (v : Count9) (s : State) : (setPqSize v s).cr = s.cr := rfl
@[simp] theorem setPqSize_tstk (v : Count9) (s : State) : (setPqSize v s).tstk = s.tstk := rfl
@[simp] theorem setPqSize_rsp (v : Count9) (s : State) : (setPqSize v s).rsp = s.rsp := rfl
@[simp] theorem setPqSize_host (v : Count9) (s : State) : (setPqSize v s).host = s.host := rfl

/-! ### setTree -/

@[simp] theorem setTree_params (r : NodeRef) (n : Count9) (v : Bool) (s : State) : (setTree r n v s).params = s.params := rfl
@[simp] theorem setTree_ft (r : NodeRef) (n : Count9) (v : Bool) (s : State) : (setTree r n v s).ft = s.ft := rfl
@[simp] theorem setTree_node (r : NodeRef) (n : Count9) (v : Bool) (s : State) : (setTree r n v s).node = s.node := rfl
@[simp] theorem setTree_nodeCnt (r : NodeRef) (n : Count9) (v : Bool) (s : State) : (setTree r n v s).nodeCnt = s.nodeCnt := rfl
@[simp] theorem setTree_heap (r : NodeRef) (n : Count9) (v : Bool) (s : State) : (setTree r n v s).heap = s.heap := rfl
@[simp] theorem setTree_pqSize (r : NodeRef) (n : Count9) (v : Bool) (s : State) : (setTree r n v s).pqSize = s.pqSize := rfl
@[simp] theorem setTree_pqCap (r : NodeRef) (n : Count9) (v : Bool) (s : State) : (setTree r n v s).pqCap = s.pqCap := rfl
@[simp] theorem setTree_root (r : NodeRef) (n : Count9) (v : Bool) (s : State) : (setTree r n v s).root = r := rfl
@[simp] theorem setTree_nleaf (r : NodeRef) (n : Count9) (v : Bool) (s : State) : (setTree r n v s).nleaf = n := rfl
@[simp] theorem setTree_treeValid (r : NodeRef) (n : Count9) (v : Bool) (s : State) : (setTree r n v s).treeValid = v := rfl
@[simp] theorem setTree_cw (r : NodeRef) (n : Count9) (v : Bool) (s : State) : (setTree r n v s).cw = s.cw := rfl
@[simp] theorem setTree_cwReady (r : NodeRef) (n : Count9) (v : Bool) (s : State) : (setTree r n v s).cwReady = s.cwReady := rfl
@[simp] theorem setTree_fatal (r : NodeRef) (n : Count9) (v : Bool) (s : State) : (setTree r n v s).fatal = s.fatal := rfl
@[simp] theorem setTree_errflags (r : NodeRef) (n : Count9) (v : Bool) (s : State) : (setTree r n v s).errflags = s.errflags := rfl
@[simp] theorem setTree_pqFsm (r : NodeRef) (n : Count9) (v : Bool) (s : State) : (setTree r n v s).pqFsm = s.pqFsm := rfl
@[simp] theorem setTree_tbFsm (r : NodeRef) (n : Count9) (v : Bool) (s : State) : (setTree r n v s).tbFsm = s.tbFsm := rfl
@[simp] theorem setTree_crFsm (r : NodeRef) (n : Count9) (v : Bool) (s : State) : (setTree r n v s).crFsm = s.crFsm := rfl
@[simp] theorem setTree_pq (r : NodeRef) (n : Count9) (v : Bool) (s : State) : (setTree r n v s).pq = s.pq := rfl
@[simp] theorem setTree_tb (r : NodeRef) (n : Count9) (v : Bool) (s : State) : (setTree r n v s).tb = s.tb := rfl
@[simp] theorem setTree_cr (r : NodeRef) (n : Count9) (v : Bool) (s : State) : (setTree r n v s).cr = s.cr := rfl
@[simp] theorem setTree_tstk (r : NodeRef) (n : Count9) (v : Bool) (s : State) : (setTree r n v s).tstk = s.tstk := rfl
@[simp] theorem setTree_rsp (r : NodeRef) (n : Count9) (v : Bool) (s : State) : (setTree r n v s).rsp = s.rsp := rfl
@[simp] theorem setTree_host (r : NodeRef) (n : Count9) (v : Bool) (s : State) : (setTree r n v s).host = s.host := rfl

/-! ### setCwReady -/

@[simp] theorem setCwReady_params (v : Bool) (s : State) : (setCwReady v s).params = s.params := rfl
@[simp] theorem setCwReady_ft (v : Bool) (s : State) : (setCwReady v s).ft = s.ft := rfl
@[simp] theorem setCwReady_node (v : Bool) (s : State) : (setCwReady v s).node = s.node := rfl
@[simp] theorem setCwReady_nodeCnt (v : Bool) (s : State) : (setCwReady v s).nodeCnt = s.nodeCnt := rfl
@[simp] theorem setCwReady_heap (v : Bool) (s : State) : (setCwReady v s).heap = s.heap := rfl
@[simp] theorem setCwReady_pqSize (v : Bool) (s : State) : (setCwReady v s).pqSize = s.pqSize := rfl
@[simp] theorem setCwReady_pqCap (v : Bool) (s : State) : (setCwReady v s).pqCap = s.pqCap := rfl
@[simp] theorem setCwReady_root (v : Bool) (s : State) : (setCwReady v s).root = s.root := rfl
@[simp] theorem setCwReady_nleaf (v : Bool) (s : State) : (setCwReady v s).nleaf = s.nleaf := rfl
@[simp] theorem setCwReady_treeValid (v : Bool) (s : State) : (setCwReady v s).treeValid = s.treeValid := rfl
@[simp] theorem setCwReady_cw (v : Bool) (s : State) : (setCwReady v s).cw = s.cw := rfl
@[simp] theorem setCwReady_cwReady (v : Bool) (s : State) : (setCwReady v s).cwReady = v := rfl
@[simp] theorem setCwReady_fatal (v : Bool) (s : State) : (setCwReady v s).fatal = s.fatal := rfl
@[simp] theorem setCwReady_errflags (v : Bool) (s : State) : (setCwReady v s).errflags = s.errflags := rfl
@[simp] theorem setCwReady_pqFsm (v : Bool) (s : State) : (setCwReady v s).pqFsm = s.pqFsm := rfl
@[simp] theorem setCwReady_tbFsm (v : Bool) (s : State) : (setCwReady v s).tbFsm = s.tbFsm := rfl
@[simp] theorem setCwReady_crFsm (v : Bool) (s : State) : (setCwReady v s).crFsm = s.crFsm := rfl
@[simp] theorem setCwReady_pq (v : Bool) (s : State) : (setCwReady v s).pq = s.pq := rfl
@[simp] theorem setCwReady_tb (v : Bool) (s : State) : (setCwReady v s).tb = s.tb := rfl
@[simp] theorem setCwReady_cr (v : Bool) (s : State) : (setCwReady v s).cr = s.cr := rfl
@[simp] theorem setCwReady_tstk (v : Bool) (s : State) : (setCwReady v s).tstk = s.tstk := rfl
@[simp] theorem setCwReady_rsp (v : Bool) (s : State) : (setCwReady v s).rsp = s.rsp := rfl
@[simp] theorem setCwReady_host (v : Bool) (s : State) : (setCwReady v s).host = s.host := rfl

/-! ### setFatal -/

@[simp] theorem setFatal_params (v : Bool) (s : State) : (setFatal v s).params = s.params := rfl
@[simp] theorem setFatal_ft (v : Bool) (s : State) : (setFatal v s).ft = s.ft := rfl
@[simp] theorem setFatal_node (v : Bool) (s : State) : (setFatal v s).node = s.node := rfl
@[simp] theorem setFatal_nodeCnt (v : Bool) (s : State) : (setFatal v s).nodeCnt = s.nodeCnt := rfl
@[simp] theorem setFatal_heap (v : Bool) (s : State) : (setFatal v s).heap = s.heap := rfl
@[simp] theorem setFatal_pqSize (v : Bool) (s : State) : (setFatal v s).pqSize = s.pqSize := rfl
@[simp] theorem setFatal_pqCap (v : Bool) (s : State) : (setFatal v s).pqCap = s.pqCap := rfl
@[simp] theorem setFatal_root (v : Bool) (s : State) : (setFatal v s).root = s.root := rfl
@[simp] theorem setFatal_nleaf (v : Bool) (s : State) : (setFatal v s).nleaf = s.nleaf := rfl
@[simp] theorem setFatal_treeValid (v : Bool) (s : State) : (setFatal v s).treeValid = s.treeValid := rfl
@[simp] theorem setFatal_cw (v : Bool) (s : State) : (setFatal v s).cw = s.cw := rfl
@[simp] theorem setFatal_cwReady (v : Bool) (s : State) : (setFatal v s).cwReady = s.cwReady := rfl
@[simp] theorem setFatal_fatal (v : Bool) (s : State) : (setFatal v s).fatal = v := rfl
@[simp] theorem setFatal_errflags (v : Bool) (s : State) : (setFatal v s).errflags = s.errflags := rfl
@[simp] theorem setFatal_pqFsm (v : Bool) (s : State) : (setFatal v s).pqFsm = s.pqFsm := rfl
@[simp] theorem setFatal_tbFsm (v : Bool) (s : State) : (setFatal v s).tbFsm = s.tbFsm := rfl
@[simp] theorem setFatal_crFsm (v : Bool) (s : State) : (setFatal v s).crFsm = s.crFsm := rfl
@[simp] theorem setFatal_pq (v : Bool) (s : State) : (setFatal v s).pq = s.pq := rfl
@[simp] theorem setFatal_tb (v : Bool) (s : State) : (setFatal v s).tb = s.tb := rfl
@[simp] theorem setFatal_cr (v : Bool) (s : State) : (setFatal v s).cr = s.cr := rfl
@[simp] theorem setFatal_tstk (v : Bool) (s : State) : (setFatal v s).tstk = s.tstk := rfl
@[simp] theorem setFatal_rsp (v : Bool) (s : State) : (setFatal v s).rsp = s.rsp := rfl
@[simp] theorem setFatal_host (v : Bool) (s : State) : (setFatal v s).host = s.host := rfl

/-! ### setErrflags -/

@[simp] theorem setErrflags_params (v : ErrBits) (s : State) : (setErrflags v s).params = s.params := rfl
@[simp] theorem setErrflags_ft (v : ErrBits) (s : State) : (setErrflags v s).ft = s.ft := rfl
@[simp] theorem setErrflags_node (v : ErrBits) (s : State) : (setErrflags v s).node = s.node := rfl
@[simp] theorem setErrflags_nodeCnt (v : ErrBits) (s : State) : (setErrflags v s).nodeCnt = s.nodeCnt := rfl
@[simp] theorem setErrflags_heap (v : ErrBits) (s : State) : (setErrflags v s).heap = s.heap := rfl
@[simp] theorem setErrflags_pqSize (v : ErrBits) (s : State) : (setErrflags v s).pqSize = s.pqSize := rfl
@[simp] theorem setErrflags_pqCap (v : ErrBits) (s : State) : (setErrflags v s).pqCap = s.pqCap := rfl
@[simp] theorem setErrflags_root (v : ErrBits) (s : State) : (setErrflags v s).root = s.root := rfl
@[simp] theorem setErrflags_nleaf (v : ErrBits) (s : State) : (setErrflags v s).nleaf = s.nleaf := rfl
@[simp] theorem setErrflags_treeValid (v : ErrBits) (s : State) : (setErrflags v s).treeValid = s.treeValid := rfl
@[simp] theorem setErrflags_cw (v : ErrBits) (s : State) : (setErrflags v s).cw = s.cw := rfl
@[simp] theorem setErrflags_cwReady (v : ErrBits) (s : State) : (setErrflags v s).cwReady = s.cwReady := rfl
@[simp] theorem setErrflags_fatal (v : ErrBits) (s : State) : (setErrflags v s).fatal = s.fatal := rfl
@[simp] theorem setErrflags_errflags (v : ErrBits) (s : State) : (setErrflags v s).errflags = v := rfl
@[simp] theorem setErrflags_pqFsm (v : ErrBits) (s : State) : (setErrflags v s).pqFsm = s.pqFsm := rfl
@[simp] theorem setErrflags_tbFsm (v : ErrBits) (s : State) : (setErrflags v s).tbFsm = s.tbFsm := rfl
@[simp] theorem setErrflags_crFsm (v : ErrBits) (s : State) : (setErrflags v s).crFsm = s.crFsm := rfl
@[simp] theorem setErrflags_pq (v : ErrBits) (s : State) : (setErrflags v s).pq = s.pq := rfl
@[simp] theorem setErrflags_tb (v : ErrBits) (s : State) : (setErrflags v s).tb = s.tb := rfl
@[simp] theorem setErrflags_cr (v : ErrBits) (s : State) : (setErrflags v s).cr = s.cr := rfl
@[simp] theorem setErrflags_tstk (v : ErrBits) (s : State) : (setErrflags v s).tstk = s.tstk := rfl
@[simp] theorem setErrflags_rsp (v : ErrBits) (s : State) : (setErrflags v s).rsp = s.rsp := rfl
@[simp] theorem setErrflags_host (v : ErrBits) (s : State) : (setErrflags v s).host = s.host := rfl

/-! ### emptyTstk -/

@[simp] theorem emptyTstk_params (s : State) : (emptyTstk s).params = s.params := rfl
@[simp] theorem emptyTstk_ft (s : State) : (emptyTstk s).ft = s.ft := rfl
@[simp] theorem emptyTstk_node (s : State) : (emptyTstk s).node = s.node := rfl
@[simp] theorem emptyTstk_nodeCnt (s : State) : (emptyTstk s).nodeCnt = s.nodeCnt := rfl
@[simp] theorem emptyTstk_heap (s : State) : (emptyTstk s).heap = s.heap := rfl
@[simp] theorem emptyTstk_pqSize (s : State) : (emptyTstk s).pqSize = s.pqSize := rfl
@[simp] theorem emptyTstk_pqCap (s : State) : (emptyTstk s).pqCap = s.pqCap := rfl
@[simp] theorem emptyTstk_root (s : State) : (emptyTstk s).root = s.root := rfl
@[simp] theorem emptyTstk_nleaf (s : State) : (emptyTstk s).nleaf = s.nleaf := rfl
@[simp] theorem emptyTstk_treeValid (s : State) : (emptyTstk s).treeValid = s.treeValid := rfl
@[simp] theorem emptyTstk_cw (s : State) : (emptyTstk s).cw = s.cw := rfl
@[simp] theorem emptyTstk_cwReady (s : State) : (emptyTstk s).cwReady = s.cwReady := rfl
@[simp] theorem emptyTstk_fatal (s : State) : (emptyTstk s).fatal = s.fatal := rfl
@[simp] theorem emptyTstk_errflags (s : State) : (emptyTstk s).errflags = s.errflags := rfl
@[simp] theorem emptyTstk_pqFsm (s : State) : (emptyTstk s).pqFsm = s.pqFsm := rfl
@[simp] theorem emptyTstk_tbFsm (s : State) : (emptyTstk s).tbFsm = s.tbFsm := rfl
@[simp] theorem emptyTstk_crFsm (s : State) : (emptyTstk s).crFsm = s.crFsm := rfl
@[simp] theorem emptyTstk_pq (s : State) : (emptyTstk s).pq = s.pq := rfl
@[simp] theorem emptyTstk_tb (s : State) : (emptyTstk s).tb = s.tb := rfl
@[simp] theorem emptyTstk_cr (s : State) : (emptyTstk s).cr = s.cr := rfl
@[simp] theorem emptyTstk_tstk (s : State) : (emptyTstk s).tstk = [] := rfl
@[simp] theorem emptyTstk_rsp (s : State) : (emptyTstk s).rsp = s.rsp := rfl
@[simp] theorem emptyTstk_host (s : State) : (emptyTstk s).host = s.host := rfl

/-! ### clearFt -/

@[simp] theorem clearFt_params (s : State) : (clearFt s).params = s.params := rfl
@[simp] theorem clearFt_ft (s : State) : (clearFt s).ft = [] := rfl
@[simp] theorem clearFt_node (s : State) : (clearFt s).node = s.node := rfl
@[simp] theorem clearFt_nodeCnt (s : State) : (clearFt s).nodeCnt = s.nodeCnt := rfl
@[simp] theorem clearFt_heap (s : State) : (clearFt s).heap = s.heap := rfl
@[simp] theorem clearFt_pqSize (s : State) : (clearFt s).pqSize = s.pqSize := rfl
@[simp] theorem clearFt_pqCap (s : State) : (clearFt s).pqCap = s.pqCap := rfl
@[simp] theorem clearFt_root (s : State) : (clearFt s).root = s.root := rfl
@[simp] theorem clearFt_nleaf (s : State) : (clearFt s).nleaf = s.nleaf := rfl
@[simp] theorem clearFt_treeValid (s : State) : (clearFt s).treeValid = s.treeValid := rfl
@[simp] theorem clearFt_cw (s : State) : (clearFt s).cw = s.cw := rfl
@[simp] theorem clearFt_cwReady (s : State) : (clearFt s).cwReady = s.cwReady := rfl
@[simp] theorem clearFt_fatal (s : State) : (clearFt s).fatal = s.fatal := rfl
@[simp] theorem clearFt_errflags (s : State) : (clearFt s).errflags = s.errflags := rfl
@[simp] theorem clearFt_pqFsm (s : State) : (clearFt s).pqFsm = s.pqFsm := rfl
@[simp] theorem clearFt_tbFsm (s : State) : (clearFt s).tbFsm = s.tbFsm := rfl
@[simp] theorem clearFt_crFsm (s : State) : (clearFt s).crFsm = s.crFsm := rfl
@[simp] theorem clearFt_pq (s : State) : (clearFt s).pq = s.pq := rfl
@[simp] theorem clearFt_tb (s : State) : (clearFt s).tb = s.tb := rfl
@[simp] theorem clearFt_cr (s : State) : (clearFt s).cr = s.cr := rfl
@[simp] theorem clearFt_tstk (s : State) : (clearFt s).tstk = s.tstk := rfl
@[simp] theorem clearFt_rsp (s : State) : (clearFt s).rsp = s.rsp := rfl
@[simp] theorem clearFt_host (s : State) : (clearFt s).host = s.host := rfl

/-! ### putSlot -/

@[simp] theorem putSlot_params (s : State) (k : Nat) (x : NodeRef) : (putSlot s k x).params = s.params := rfl
@[simp] theorem putSlot_ft (s : State) (k : Nat) (x : NodeRef) : (putSlot s k x).ft = s.ft := rfl
@[simp] theorem putSlot_node (s : State) (k : Nat) (x : NodeRef) : (putSlot s k x).node = s.node := rfl
@[simp] theorem putSlot_nodeCnt (s : State) (k : Nat) (x : NodeRef) : (putSlot s k x).nodeCnt = s.nodeCnt := rfl
@[simp] theorem putSlot_heap (s : State) (k : Nat) (x : NodeRef) : (putSlot s k x).heap = arrSet s.heap k x := rfl
@[simp] theorem putSlot_pqSize (s : State) (k : Nat) (x : NodeRef) : (putSlot s k x).pqSize = s.pqSize := rfl
@[simp] theorem putSlot_pqCap (s : State) (k : Nat) (x : NodeRef) : (putSlot s k x).pqCap = s.pqCap := rfl
@[simp] theorem putSlot_root (s : State) (k : Nat) (x : NodeRef) : (putSlot s k x).root = s.root := rfl
@[simp] theorem putSlot_nleaf (s : State) (k : Nat) (x : NodeRef) : (putSlot s k x).nleaf = s.nleaf := rfl
@[simp] theorem putSlot_treeValid (s : State) (k : Nat) (x : NodeRef) : (putSlot s k x).treeValid = s.treeValid := rfl
@[simp] theorem putSlot_cw (s : State) (k : Nat) (x : NodeRef) : (putSlot s k x).cw = s.cw := rfl
@[simp] theorem putSlot_cwReady (s : State) (k : Nat) (x : NodeRef) : (putSlot s k x).cwReady = s.cwReady := rfl
@[simp] theorem putSlot_fatal (s : State) (k : Nat) (x : NodeRef) : (putSlot s k x).fatal = s.fatal := rfl
@[simp] theorem putSlot_errflags (s : State) (k : Nat) (x : NodeRef) : (putSlot s k x).errflags = s.errflags := rfl
@[simp] theorem putSlot_pqFsm (s : State) (k : Nat) (x : NodeRef) : (putSlot s k x).pqFsm = s.pqFsm := rfl
@[simp] theorem putSlot_tbFsm (s : State) (k : Nat) (x : NodeRef) : (putSlot s k x).tbFsm = s.tbFsm := rfl
@[simp] theorem putSlot_crFsm (s : State) (k : Nat) (x : NodeRef) : (putSlot s k x).crFsm = s.crFsm := rfl
@[simp] theorem putSlot_pq (s : State) (k : Nat) (x : NodeRef) : (putSlot s k x).pq = s.pq := rfl
@[simp] theorem putSlot_tb (s : State) (k : Nat) (x : NodeRef) : (putSlot s k x).tb = s.tb := rfl
@[simp] theorem putSlot_cr (s : State) (k : Nat) (x : NodeRef) : (putSlot s k x).cr = s.cr := rfl
@[simp] theorem putSlot_tstk (s : State) (k : Nat) (x : NodeRef) : (putSlot s k x).tstk = s.tstk := rfl
@[simp] theorem putSlot_rsp (s : State) (k : Nat) (x : NodeRef) : (putSlot s k x).rsp = s.rsp := rfl
@[simp] theorem putSlot_host (s : State) (k : Nat) (x : NodeRef) : (putSlot s k x).host = s.host := rfl

/-! ### putNode -/

@[simp] theorem putNode_params (s : State) (n : NodeRec) : (putNode s n).params = s.params := rfl
@[simp] theorem putNode_ft (s : State) (n : NodeRec) : (putNode s n).ft = s.ft := rfl
@[simp] theorem putNode_node (s : State) (n : NodeRec) : (putNode s n).node = arrSet s.node s.nodeCnt.toNat n := rfl
@[simp] theorem putNode_nodeCnt (s : State) (n : NodeRec) : (putNode s n).nodeCnt = s.nodeCnt + 1 := rfl
@[simp] theorem putNode_heap (s : State) (n : NodeRec) : (putNode s n).heap = s.heap := rfl
@[simp] theorem putNode_pqSize (s : State) (n : NodeRec) : (putNode s n).pqSize = s.pqSize := rfl
@[simp] theorem putNode_pqCap (s : State) (n : NodeRec) : (putNode s n).pqCap = s.pqCap := rfl
@[simp] theorem putNode_root (s : State) (n : NodeRec) : (putNode s n).root = s.root := rfl
@[simp] theorem putNode_nleaf (s : State) (n : NodeRec) : (putNode s n).nleaf = s.nleaf := rfl
@[simp] theorem putNode_treeValid (s : State) (n : NodeRec) : (putNode s n).treeValid = s.treeValid := rfl
@[simp] theorem putNode_cw (s : State) (n : NodeRec) : (putNode s n).cw = s.cw := rfl
@[simp] theorem putNode_cwReady (s : State) (n : NodeRec) : (putNode s n).cwReady = s.cwReady := rfl
@[simp] theorem putNode_fatal (s : State) (n : NodeRec) : (putNode s n).fatal = s.fatal := rfl
@[simp] theorem putNode_errflags (s : State) (n : NodeRec) : (putNode s n).errflags = s.errflags := rfl
@[simp] theorem putNode_pqFsm (s : State) (n : NodeRec) : (putNode s n).pqFsm = s.pqFsm := rfl
@[simp] theorem putNode_tbFsm (s : State) (n : NodeRec) : (putNode s n).tbFsm = s.tbFsm := rfl
@[simp] theorem putNode_crFsm (s : State) (n : NodeRec) : (putNode s n).crFsm = s.crFsm := rfl
@[simp] theorem putNode_pq (s : State) (n : NodeRec) : (putNode s n).pq = s.pq := rfl
@[simp] theorem putNode_tb (s : State) (n : NodeRec) : (putNode s n).tb = s.tb := rfl
@[simp] theorem putNode_cr (s : State) (n : NodeRec) : (putNode s n).cr = s.cr := rfl
@[simp] theorem putNode_tstk (s : State) (n : NodeRec) : (putNode s n).tstk = s.tstk := rfl
@[simp] theorem putNode_rsp (s : State) (n : NodeRec) : (putNode s n).rsp = s.rsp := rfl
@[simp] theorem putNode_host (s : State) (n : NodeRec) : (putNode s n).host = s.host := rfl

/-! ### putTstk -/

@[simp] theorem putTstk_params (s : State) (d : Nat) (x : NodeRef) : (putTstk s d x).params = s.params := rfl
@[simp] theorem putTstk_ft (s : State) (d : Nat) (x : NodeRef) : (putTstk s d x).ft = s.ft := rfl
@[simp] theorem putTstk_node (s : State) (d : Nat) (x : NodeRef) : (putTstk s d x).node = s.node := rfl
@[simp] theorem putTstk_nodeCnt (s : State) (d : Nat) (x : NodeRef) : (putTstk s d x).nodeCnt = s.nodeCnt := rfl
@[simp] theorem putTstk_heap (s : State) (d : Nat) (x : NodeRef) : (putTstk s d x).heap = s.heap := rfl
@[simp] theorem putTstk_pqSize (s : State) (d : Nat) (x : NodeRef) : (putTstk s d x).pqSize = s.pqSize := rfl
@[simp] theorem putTstk_pqCap (s : State) (d : Nat) (x : NodeRef) : (putTstk s d x).pqCap = s.pqCap := rfl
@[simp] theorem putTstk_root (s : State) (d : Nat) (x : NodeRef) : (putTstk s d x).root = s.root := rfl
@[simp] theorem putTstk_nleaf (s : State) (d : Nat) (x : NodeRef) : (putTstk s d x).nleaf = s.nleaf := rfl
@[simp] theorem putTstk_treeValid (s : State) (d : Nat) (x : NodeRef) : (putTstk s d x).treeValid = s.treeValid := rfl
@[simp] theorem putTstk_cw (s : State) (d : Nat) (x : NodeRef) : (putTstk s d x).cw = s.cw := rfl
@[simp] theorem putTstk_cwReady (s : State) (d : Nat) (x : NodeRef) : (putTstk s d x).cwReady = s.cwReady := rfl
@[simp] theorem putTstk_fatal (s : State) (d : Nat) (x : NodeRef) : (putTstk s d x).fatal = s.fatal := rfl
@[simp] theorem putTstk_errflags (s : State) (d : Nat) (x : NodeRef) : (putTstk s d x).errflags = s.errflags := rfl
@[simp] theorem putTstk_pqFsm (s : State) (d : Nat) (x : NodeRef) : (putTstk s d x).pqFsm = s.pqFsm := rfl
@[simp] theorem putTstk_tbFsm (s : State) (d : Nat) (x : NodeRef) : (putTstk s d x).tbFsm = s.tbFsm := rfl
@[simp] theorem putTstk_crFsm (s : State) (d : Nat) (x : NodeRef) : (putTstk s d x).crFsm = s.crFsm := rfl
@[simp] theorem putTstk_pq (s : State) (d : Nat) (x : NodeRef) : (putTstk s d x).pq = s.pq := rfl
@[simp] theorem putTstk_tb (s : State) (d : Nat) (x : NodeRef) : (putTstk s d x).tb = s.tb := rfl
@[simp] theorem putTstk_cr (s : State) (d : Nat) (x : NodeRef) : (putTstk s d x).cr = s.cr := rfl
@[simp] theorem putTstk_tstk (s : State) (d : Nat) (x : NodeRef) : (putTstk s d x).tstk = arrSet s.tstk d x := rfl
@[simp] theorem putTstk_rsp (s : State) (d : Nat) (x : NodeRef) : (putTstk s d x).rsp = s.rsp := rfl
@[simp] theorem putTstk_host (s : State) (d : Nat) (x : NodeRef) : (putTstk s d x).host = s.host := rfl

/-! ### visible -/

@[simp] theorem visible_params (s : State) : (visible s).params = s.params := rfl
@[simp] theorem visible_ft (s : State) : (visible s).ft = s.ft := rfl
@[simp] theorem visible_node (s : State) : (visible s).node = s.node := rfl
@[simp] theorem visible_nodeCnt (s : State) : (visible s).nodeCnt = s.nodeCnt := rfl
@[simp] theorem visible_heap (s : State) : (visible s).heap = s.heap := rfl
@[simp] theorem visible_pqSize (s : State) : (visible s).pqSize = s.pqSize := rfl
@[simp] theorem visible_pqCap (s : State) : (visible s).pqCap = s.pqCap := rfl
@[simp] theorem visible_root (s : State) : (visible s).root = s.root := rfl
@[simp] theorem visible_nleaf (s : State) : (visible s).nleaf = s.nleaf := rfl
@[simp] theorem visible_treeValid (s : State) : (visible s).treeValid = s.treeValid := rfl
@[simp] theorem visible_cw (s : State) : (visible s).cw = s.cw := rfl
@[simp] theorem visible_cwReady (s : State) : (visible s).cwReady = s.cwReady := rfl
@[simp] theorem visible_fatal (s : State) : (visible s).fatal = s.fatal := rfl
@[simp] theorem visible_errflags (s : State) : (visible s).errflags = s.errflags := rfl
@[simp] theorem visible_pqFsm (s : State) : (visible s).pqFsm = s.pqFsm := rfl
@[simp] theorem visible_tbFsm (s : State) : (visible s).tbFsm = s.tbFsm := rfl
@[simp] theorem visible_crFsm (s : State) : (visible s).crFsm = s.crFsm := rfl
@[simp] theorem visible_pq (s : State) : (visible s).pq = State.reset.pq := rfl
@[simp] theorem visible_tb (s : State) : (visible s).tb = State.reset.tb := rfl
@[simp] theorem visible_cr (s : State) : (visible s).cr = State.reset.cr := rfl
@[simp] theorem visible_tstk (s : State) : (visible s).tstk = s.tstk := rfl
@[simp] theorem visible_rsp (s : State) : (visible s).rsp = s.rsp := rfl
@[simp] theorem visible_host (s : State) : (visible s).host = s.host := rfl

/-! ### setI -/

@[simp] theorem setI_params (v : Count9) (s : State) : (setI v s).params = s.params := rfl
@[simp] theorem setI_ft (v : Count9) (s : State) : (setI v s).ft = s.ft := rfl
@[simp] theorem setI_node (v : Count9) (s : State) : (setI v s).node = s.node := rfl
@[simp] theorem setI_nodeCnt (v : Count9) (s : State) : (setI v s).nodeCnt = s.nodeCnt := rfl
@[simp] theorem setI_heap (v : Count9) (s : State) : (setI v s).heap = s.heap := rfl
@[simp] theorem setI_pqSize (v : Count9) (s : State) : (setI v s).pqSize = s.pqSize := rfl
@[simp] theorem setI_pqCap (v : Count9) (s : State) : (setI v s).pqCap = s.pqCap := rfl
@[simp] theorem setI_root (v : Count9) (s : State) : (setI v s).root = s.root := rfl
@[simp] theorem setI_nleaf (v : Count9) (s : State) : (setI v s).nleaf = s.nleaf := rfl
@[simp] theorem setI_treeValid (v : Count9) (s : State) : (setI v s).treeValid = s.treeValid := rfl
@[simp] theorem setI_cw (v : Count9) (s : State) : (setI v s).cw = s.cw := rfl
@[simp] theorem setI_cwReady (v : Count9) (s : State) : (setI v s).cwReady = s.cwReady := rfl
@[simp] theorem setI_fatal (v : Count9) (s : State) : (setI v s).fatal = s.fatal := rfl
@[simp] theorem setI_errflags (v : Count9) (s : State) : (setI v s).errflags = s.errflags := rfl
@[simp] theorem setI_pqFsm (v : Count9) (s : State) : (setI v s).pqFsm = s.pqFsm := rfl
@[simp] theorem setI_tbFsm (v : Count9) (s : State) : (setI v s).tbFsm = s.tbFsm := rfl
@[simp] theorem setI_crFsm (v : Count9) (s : State) : (setI v s).crFsm = s.crFsm := rfl
@[simp] theorem setI_pq_I (v : Count9) (s : State) : (setI v s).pq.I = v := rfl
@[simp] theorem setI_pq_M (v : Count9) (s : State) : (setI v s).pq.M = s.pq.M := rfl
@[simp] theorem setI_pq_XN (v : Count9) (s : State) : (setI v s).pq.XN = s.pq.XN := rfl
@[simp] theorem setI_tb (v : Count9) (s : State) : (setI v s).tb = s.tb := rfl
@[simp] theorem setI_cr (v : Count9) (s : State) : (setI v s).cr = s.cr := rfl
@[simp] theorem setI_tstk (v : Count9) (s : State) : (setI v s).tstk = s.tstk := rfl
@[simp] theorem setI_rsp (v : Count9) (s : State) : (setI v s).rsp = s.rsp := rfl
@[simp] theorem setI_host (v : Count9) (s : State) : (setI v s).host = s.host := rfl

/-! ### setM -/

@[simp] theorem setM_params (v : Count9) (s : State) : (setM v s).params = s.params := rfl
@[simp] theorem setM_ft (v : Count9) (s : State) : (setM v s).ft = s.ft := rfl
@[simp] theorem setM_node (v : Count9) (s : State) : (setM v s).node = s.node := rfl
@[simp] theorem setM_nodeCnt (v : Count9) (s : State) : (setM v s).nodeCnt = s.nodeCnt := rfl
@[simp] theorem setM_heap (v : Count9) (s : State) : (setM v s).heap = s.heap := rfl
@[simp] theorem setM_pqSize (v : Count9) (s : State) : (setM v s).pqSize = s.pqSize := rfl
@[simp] theorem setM_pqCap (v : Count9) (s : State) : (setM v s).pqCap = s.pqCap := rfl
@[simp] theorem setM_root (v : Count9) (s : State) : (setM v s).root = s.root := rfl
@[simp] theorem setM_nleaf (v : Count9) (s : State) : (setM v s).nleaf = s.nleaf := rfl
@[simp] theorem setM_treeValid (v : Count9) (s : State) : (setM v s).treeValid = s.treeValid := rfl
@[simp] theorem setM_cw (v : Count9) (s : State) : (setM v s).cw = s.cw := rfl
@[simp] theorem setM_cwReady (v : Count9) (s : State) : (setM v s).cwReady = s.cwReady := rfl
@[simp] theorem setM_fatal (v : Count9) (s : State) : (setM v s).fatal = s.fatal := rfl
@[simp] theorem setM_errflags (v : Count9) (s : State) : (setM v s).errflags = s.errflags := rfl
@[simp] theorem setM_pqFsm (v : Count9) (s : State) : (setM v s).pqFsm = s.pqFsm := rfl
@[simp] theorem setM_tbFsm (v : Count9) (s : State) : (setM v s).tbFsm = s.tbFsm := rfl
@[simp] theorem setM_crFsm (v : Count9) (s : State) : (setM v s).crFsm = s.crFsm := rfl
@[simp] theorem setM_pq_I (v : Count9) (s : State) : (setM v s).pq.I = s.pq.I := rfl
@[simp] theorem setM_pq_M (v : Count9) (s : State) : (setM v s).pq.M = v := rfl
@[simp] theorem setM_pq_XN (v : Count9) (s : State) : (setM v s).pq.XN = s.pq.XN := rfl
@[simp] theorem setM_tb (v : Count9) (s : State) : (setM v s).tb = s.tb := rfl
@[simp] theorem setM_cr (v : Count9) (s : State) : (setM v s).cr = s.cr := rfl
@[simp] theorem setM_tstk (v : Count9) (s : State) : (setM v s).tstk = s.tstk := rfl
@[simp] theorem setM_rsp (v : Count9) (s : State) : (setM v s).rsp = s.rsp := rfl
@[simp] theorem setM_host (v : Count9) (s : State) : (setM v s).host = s.host := rfl

/-! ### setXN -/

@[simp] theorem setXN_params (v : NodeRef) (s : State) : (setXN v s).params = s.params := rfl
@[simp] theorem setXN_ft (v : NodeRef) (s : State) : (setXN v s).ft = s.ft := rfl
@[simp] theorem setXN_node (v : NodeRef) (s : State) : (setXN v s).node = s.node := rfl
@[simp] theorem setXN_nodeCnt (v : NodeRef) (s : State) : (setXN v s).nodeCnt = s.nodeCnt := rfl
@[simp] theorem setXN_heap (v : NodeRef) (s : State) : (setXN v s).heap = s.heap := rfl
@[simp] theorem setXN_pqSize (v : NodeRef) (s : State) : (setXN v s).pqSize = s.pqSize := rfl
@[simp] theorem setXN_pqCap (v : NodeRef) (s : State) : (setXN v s).pqCap = s.pqCap := rfl
@[simp] theorem setXN_root (v : NodeRef) (s : State) : (setXN v s).root = s.root := rfl
@[simp] theorem setXN_nleaf (v : NodeRef) (s : State) : (setXN v s).nleaf = s.nleaf := rfl
@[simp] theorem setXN_treeValid (v : NodeRef) (s : State) : (setXN v s).treeValid = s.treeValid := rfl
@[simp] theorem setXN_cw (v : NodeRef) (s : State) : (setXN v s).cw = s.cw := rfl
@[simp] theorem setXN_cwReady (v : NodeRef) (s : State) : (setXN v s).cwReady = s.cwReady := rfl
@[simp] theorem setXN_fatal (v : NodeRef) (s : State) : (setXN v s).fatal = s.fatal := rfl
@[simp] theorem setXN_errflags (v : NodeRef) (s : State) : (setXN v s).errflags = s.errflags := rfl
@[simp] theorem setXN_pqFsm (v : NodeRef) (s : State) : (setXN v s).pqFsm = s.pqFsm := rfl
@[simp] theorem setXN_tbFsm (v : NodeRef) (s : State) : (setXN v s).tbFsm = s.tbFsm := rfl
@[simp] theorem setXN_crFsm (v : NodeRef) (s : State) : (setXN v s).crFsm = s.crFsm := rfl
@[simp] theorem setXN_pq_I (v : NodeRef) (s : State) : (setXN v s).pq.I = s.pq.I := rfl
@[simp] theorem setXN_pq_M (v : NodeRef) (s : State) : (setXN v s).pq.M = s.pq.M := rfl
@[simp] theorem setXN_pq_XN (v : NodeRef) (s : State) : (setXN v s).pq.XN = v := rfl
@[simp] theorem setXN_tb (v : NodeRef) (s : State) : (setXN v s).tb = s.tb := rfl
@[simp] theorem setXN_cr (v : NodeRef) (s : State) : (setXN v s).cr = s.cr := rfl
@[simp] theorem setXN_tstk (v : NodeRef) (s : State) : (setXN v s).tstk = s.tstk := rfl
@[simp] theorem setXN_rsp (v : NodeRef) (s : State) : (setXN v s).rsp = s.rsp := rfl
@[simp] theorem setXN_host (v : NodeRef) (s : State) : (setXN v s).host = s.host := rfl

/-! ### setS -/

@[simp] theorem setS_params (v : Count9) (s : State) : (setS v s).params = s.params := rfl
@[simp] theorem setS_ft (v : Count9) (s : State) : (setS v s).ft = s.ft := rfl
@[simp] theorem setS_node (v : Count9) (s : State) : (setS v s).node = s.node := rfl
@[simp] theorem setS_nodeCnt (v : Count9) (s : State) : (setS v s).nodeCnt = s.nodeCnt := rfl
@[simp] theorem setS_heap (v : Count9) (s : State) : (setS v s).heap = s.heap := rfl
@[simp] theorem setS_pqSize (v : Count9) (s : State) : (setS v s).pqSize = s.pqSize := rfl
@[simp] theorem setS_pqCap (v : Count9) (s : State) : (setS v s).pqCap = s.pqCap := rfl
@[simp] theorem setS_root (v : Count9) (s : State) : (setS v s).root = s.root := rfl
@[simp] theorem setS_nleaf (v : Count9) (s : State) : (setS v s).nleaf = s.nleaf := rfl
@[simp] theorem setS_treeValid (v : Count9) (s : State) : (setS v s).treeValid = s.treeValid := rfl
@[simp] theorem setS_cw (v : Count9) (s : State) : (setS v s).cw = s.cw := rfl
@[simp] theorem setS_cwReady (v : Count9) (s : State) : (setS v s).cwReady = s.cwReady := rfl
@[simp] theorem setS_fatal (v : Count9) (s : State) : (setS v s).fatal = s.fatal := rfl
@[simp] theorem setS_errflags (v : Count9) (s : State) : (setS v s).errflags = s.errflags := rfl
@[simp] theorem setS_pqFsm (v : Count9) (s : State) : (setS v s).pqFsm = s.pqFsm := rfl
@[simp] theorem setS_tbFsm (v : Count9) (s : State) : (setS v s).tbFsm = s.tbFsm := rfl
@[simp] theorem setS_crFsm (v : Count9) (s : State) : (setS v s).crFsm = s.crFsm := rfl
@[simp] theorem setS_pq (v : Count9) (s : State) : (setS v s).pq = s.pq := rfl
@[simp] theorem setS_tb_S (v : Count9) (s : State) : (setS v s).tb.S = v := rfl
@[simp] theorem setS_tb_N (v : Count9) (s : State) : (setS v s).tb.N = s.tb.N := rfl
@[simp] theorem setS_tb_ACC (v : Count9) (s : State) : (setS v s).tb.ACC = s.tb.ACC := rfl
@[simp] theorem setS_tb_U (v : Count9) (s : State) : (setS v s).tb.U = s.tb.U := rfl
@[simp] theorem setS_tb_V (v : Count9) (s : State) : (setS v s).tb.V = s.tb.V := rfl
@[simp] theorem setS_tb_W (v : Count9) (s : State) : (setS v s).tb.W = s.tb.W := rfl
@[simp] theorem setS_cr (v : Count9) (s : State) : (setS v s).cr = s.cr := rfl
@[simp] theorem setS_tstk (v : Count9) (s : State) : (setS v s).tstk = s.tstk := rfl
@[simp] theorem setS_rsp (v : Count9) (s : State) : (setS v s).rsp = s.rsp := rfl
@[simp] theorem setS_host (v : Count9) (s : State) : (setS v s).host = s.host := rfl

/-! ### setN -/

@[simp] theorem setN_params (v : Count9) (s : State) : (setN v s).params = s.params := rfl
@[simp] theorem setN_ft (v : Count9) (s : State) : (setN v s).ft = s.ft := rfl
@[simp] theorem setN_node (v : Count9) (s : State) : (setN v s).node = s.node := rfl
@[simp] theorem setN_nodeCnt (v : Count9) (s : State) : (setN v s).nodeCnt = s.nodeCnt := rfl
@[simp] theorem setN_heap (v : Count9) (s : State) : (setN v s).heap = s.heap := rfl
@[simp] theorem setN_pqSize (v : Count9) (s : State) : (setN v s).pqSize = s.pqSize := rfl
@[simp] theorem setN_pqCap (v : Count9) (s : State) : (setN v s).pqCap = s.pqCap := rfl
@[simp] theorem setN_root (v : Count9) (s : State) : (setN v s).root = s.root := rfl
@[simp] theorem setN_nleaf (v : Count9) (s : State) : (setN v s).nleaf = s.nleaf := rfl
@[simp] theorem setN_treeValid (v : Count9) (s : State) : (setN v s).treeValid = s.treeValid := rfl
@[simp] theorem setN_cw (v : Count9) (s : State) : (setN v s).cw = s.cw := rfl
@[simp] theorem setN_cwReady (v : Count9) (s : State) : (setN v s).cwReady = s.cwReady := rfl
@[simp] theorem setN_fatal (v : Count9) (s : State) : (setN v s).fatal = s.fatal := rfl
@[simp] theorem setN_errflags (v : Count9) (s : State) : (setN v s).errflags = s.errflags := rfl
@[simp] theorem setN_pqFsm (v : Count9) (s : State) : (setN v s).pqFsm = s.pqFsm := rfl
@[simp] theorem setN_tbFsm (v : Count9) (s : State) : (setN v s).tbFsm = s.tbFsm := rfl
@[simp] theorem setN_crFsm (v : Count9) (s : State) : (setN v s).crFsm = s.crFsm := rfl
@[simp] theorem setN_pq (v : Count9) (s : State) : (setN v s).pq = s.pq := rfl
@[simp] theorem setN_tb_S (v : Count9) (s : State) : (setN v s).tb.S = s.tb.S := rfl
@[simp] theorem setN_tb_N (v : Count9) (s : State) : (setN v s).tb.N = v := rfl
@[simp] theorem setN_tb_ACC (v : Count9) (s : State) : (setN v s).tb.ACC = s.tb.ACC := rfl
@[simp] theorem setN_tb_U (v : Count9) (s : State) : (setN v s).tb.U = s.tb.U := rfl
@[simp] theorem setN_tb_V (v : Count9) (s : State) : (setN v s).tb.V = s.tb.V := rfl
@[simp] theorem setN_tb_W (v : Count9) (s : State) : (setN v s).tb.W = s.tb.W := rfl
@[simp] theorem setN_cr (v : Count9) (s : State) : (setN v s).cr = s.cr := rfl
@[simp] theorem setN_tstk (v : Count9) (s : State) : (setN v s).tstk = s.tstk := rfl
@[simp] theorem setN_rsp (v : Count9) (s : State) : (setN v s).rsp = s.rsp := rfl
@[simp] theorem setN_host (v : Count9) (s : State) : (setN v s).host = s.host := rfl

/-! ### setACC -/

@[simp] theorem setACC_params (v : Sum) (s : State) : (setACC v s).params = s.params := rfl
@[simp] theorem setACC_ft (v : Sum) (s : State) : (setACC v s).ft = s.ft := rfl
@[simp] theorem setACC_node (v : Sum) (s : State) : (setACC v s).node = s.node := rfl
@[simp] theorem setACC_nodeCnt (v : Sum) (s : State) : (setACC v s).nodeCnt = s.nodeCnt := rfl
@[simp] theorem setACC_heap (v : Sum) (s : State) : (setACC v s).heap = s.heap := rfl
@[simp] theorem setACC_pqSize (v : Sum) (s : State) : (setACC v s).pqSize = s.pqSize := rfl
@[simp] theorem setACC_pqCap (v : Sum) (s : State) : (setACC v s).pqCap = s.pqCap := rfl
@[simp] theorem setACC_root (v : Sum) (s : State) : (setACC v s).root = s.root := rfl
@[simp] theorem setACC_nleaf (v : Sum) (s : State) : (setACC v s).nleaf = s.nleaf := rfl
@[simp] theorem setACC_treeValid (v : Sum) (s : State) : (setACC v s).treeValid = s.treeValid := rfl
@[simp] theorem setACC_cw (v : Sum) (s : State) : (setACC v s).cw = s.cw := rfl
@[simp] theorem setACC_cwReady (v : Sum) (s : State) : (setACC v s).cwReady = s.cwReady := rfl
@[simp] theorem setACC_fatal (v : Sum) (s : State) : (setACC v s).fatal = s.fatal := rfl
@[simp] theorem setACC_errflags (v : Sum) (s : State) : (setACC v s).errflags = s.errflags := rfl
@[simp] theorem setACC_pqFsm (v : Sum) (s : State) : (setACC v s).pqFsm = s.pqFsm := rfl
@[simp] theorem setACC_tbFsm (v : Sum) (s : State) : (setACC v s).tbFsm = s.tbFsm := rfl
@[simp] theorem setACC_crFsm (v : Sum) (s : State) : (setACC v s).crFsm = s.crFsm := rfl
@[simp] theorem setACC_pq (v : Sum) (s : State) : (setACC v s).pq = s.pq := rfl
@[simp] theorem setACC_tb_S (v : Sum) (s : State) : (setACC v s).tb.S = s.tb.S := rfl
@[simp] theorem setACC_tb_N (v : Sum) (s : State) : (setACC v s).tb.N = s.tb.N := rfl
@[simp] theorem setACC_tb_ACC (v : Sum) (s : State) : (setACC v s).tb.ACC = v := rfl
@[simp] theorem setACC_tb_U (v : Sum) (s : State) : (setACC v s).tb.U = s.tb.U := rfl
@[simp] theorem setACC_tb_V (v : Sum) (s : State) : (setACC v s).tb.V = s.tb.V := rfl
@[simp] theorem setACC_tb_W (v : Sum) (s : State) : (setACC v s).tb.W = s.tb.W := rfl
@[simp] theorem setACC_cr (v : Sum) (s : State) : (setACC v s).cr = s.cr := rfl
@[simp] theorem setACC_tstk (v : Sum) (s : State) : (setACC v s).tstk = s.tstk := rfl
@[simp] theorem setACC_rsp (v : Sum) (s : State) : (setACC v s).rsp = s.rsp := rfl
@[simp] theorem setACC_host (v : Sum) (s : State) : (setACC v s).host = s.host := rfl

/-! ### setU -/

@[simp] theorem setU_params (v : NodeRef) (s : State) : (setU v s).params = s.params := rfl
@[simp] theorem setU_ft (v : NodeRef) (s : State) : (setU v s).ft = s.ft := rfl
@[simp] theorem setU_node (v : NodeRef) (s : State) : (setU v s).node = s.node := rfl
@[simp] theorem setU_nodeCnt (v : NodeRef) (s : State) : (setU v s).nodeCnt = s.nodeCnt := rfl
@[simp] theorem setU_heap (v : NodeRef) (s : State) : (setU v s).heap = s.heap := rfl
@[simp] theorem setU_pqSize (v : NodeRef) (s : State) : (setU v s).pqSize = s.pqSize := rfl
@[simp] theorem setU_pqCap (v : NodeRef) (s : State) : (setU v s).pqCap = s.pqCap := rfl
@[simp] theorem setU_root (v : NodeRef) (s : State) : (setU v s).root = s.root := rfl
@[simp] theorem setU_nleaf (v : NodeRef) (s : State) : (setU v s).nleaf = s.nleaf := rfl
@[simp] theorem setU_treeValid (v : NodeRef) (s : State) : (setU v s).treeValid = s.treeValid := rfl
@[simp] theorem setU_cw (v : NodeRef) (s : State) : (setU v s).cw = s.cw := rfl
@[simp] theorem setU_cwReady (v : NodeRef) (s : State) : (setU v s).cwReady = s.cwReady := rfl
@[simp] theorem setU_fatal (v : NodeRef) (s : State) : (setU v s).fatal = s.fatal := rfl
@[simp] theorem setU_errflags (v : NodeRef) (s : State) : (setU v s).errflags = s.errflags := rfl
@[simp] theorem setU_pqFsm (v : NodeRef) (s : State) : (setU v s).pqFsm = s.pqFsm := rfl
@[simp] theorem setU_tbFsm (v : NodeRef) (s : State) : (setU v s).tbFsm = s.tbFsm := rfl
@[simp] theorem setU_crFsm (v : NodeRef) (s : State) : (setU v s).crFsm = s.crFsm := rfl
@[simp] theorem setU_pq (v : NodeRef) (s : State) : (setU v s).pq = s.pq := rfl
@[simp] theorem setU_tb_S (v : NodeRef) (s : State) : (setU v s).tb.S = s.tb.S := rfl
@[simp] theorem setU_tb_N (v : NodeRef) (s : State) : (setU v s).tb.N = s.tb.N := rfl
@[simp] theorem setU_tb_ACC (v : NodeRef) (s : State) : (setU v s).tb.ACC = s.tb.ACC := rfl
@[simp] theorem setU_tb_U (v : NodeRef) (s : State) : (setU v s).tb.U = v := rfl
@[simp] theorem setU_tb_V (v : NodeRef) (s : State) : (setU v s).tb.V = s.tb.V := rfl
@[simp] theorem setU_tb_W (v : NodeRef) (s : State) : (setU v s).tb.W = s.tb.W := rfl
@[simp] theorem setU_cr (v : NodeRef) (s : State) : (setU v s).cr = s.cr := rfl
@[simp] theorem setU_tstk (v : NodeRef) (s : State) : (setU v s).tstk = s.tstk := rfl
@[simp] theorem setU_rsp (v : NodeRef) (s : State) : (setU v s).rsp = s.rsp := rfl
@[simp] theorem setU_host (v : NodeRef) (s : State) : (setU v s).host = s.host := rfl

/-! ### setV -/

@[simp] theorem setV_params (v : NodeRef) (s : State) : (setV v s).params = s.params := rfl
@[simp] theorem setV_ft (v : NodeRef) (s : State) : (setV v s).ft = s.ft := rfl
@[simp] theorem setV_node (v : NodeRef) (s : State) : (setV v s).node = s.node := rfl
@[simp] theorem setV_nodeCnt (v : NodeRef) (s : State) : (setV v s).nodeCnt = s.nodeCnt := rfl
@[simp] theorem setV_heap (v : NodeRef) (s : State) : (setV v s).heap = s.heap := rfl
@[simp] theorem setV_pqSize (v : NodeRef) (s : State) : (setV v s).pqSize = s.pqSize := rfl
@[simp] theorem setV_pqCap (v : NodeRef) (s : State) : (setV v s).pqCap = s.pqCap := rfl
@[simp] theorem setV_root (v : NodeRef) (s : State) : (setV v s).root = s.root := rfl
@[simp] theorem setV_nleaf (v : NodeRef) (s : State) : (setV v s).nleaf = s.nleaf := rfl
@[simp] theorem setV_treeValid (v : NodeRef) (s : State) : (setV v s).treeValid = s.treeValid := rfl
@[simp] theorem setV_cw (v : NodeRef) (s : State) : (setV v s).cw = s.cw := rfl
@[simp] theorem setV_cwReady (v : NodeRef) (s : State) : (setV v s).cwReady = s.cwReady := rfl
@[simp] theorem setV_fatal (v : NodeRef) (s : State) : (setV v s).fatal = s.fatal := rfl
@[simp] theorem setV_errflags (v : NodeRef) (s : State) : (setV v s).errflags = s.errflags := rfl
@[simp] theorem setV_pqFsm (v : NodeRef) (s : State) : (setV v s).pqFsm = s.pqFsm := rfl
@[simp] theorem setV_tbFsm (v : NodeRef) (s : State) : (setV v s).tbFsm = s.tbFsm := rfl
@[simp] theorem setV_crFsm (v : NodeRef) (s : State) : (setV v s).crFsm = s.crFsm := rfl
@[simp] theorem setV_pq (v : NodeRef) (s : State) : (setV v s).pq = s.pq := rfl
@[simp] theorem setV_tb_S (v : NodeRef) (s : State) : (setV v s).tb.S = s.tb.S := rfl
@[simp] theorem setV_tb_N (v : NodeRef) (s : State) : (setV v s).tb.N = s.tb.N := rfl
@[simp] theorem setV_tb_ACC (v : NodeRef) (s : State) : (setV v s).tb.ACC = s.tb.ACC := rfl
@[simp] theorem setV_tb_U (v : NodeRef) (s : State) : (setV v s).tb.U = s.tb.U := rfl
@[simp] theorem setV_tb_V (v : NodeRef) (s : State) : (setV v s).tb.V = v := rfl
@[simp] theorem setV_tb_W (v : NodeRef) (s : State) : (setV v s).tb.W = s.tb.W := rfl
@[simp] theorem setV_cr (v : NodeRef) (s : State) : (setV v s).cr = s.cr := rfl
@[simp] theorem setV_tstk (v : NodeRef) (s : State) : (setV v s).tstk = s.tstk := rfl
@[simp] theorem setV_rsp (v : NodeRef) (s : State) : (setV v s).rsp = s.rsp := rfl
@[simp] theorem setV_host (v : NodeRef) (s : State) : (setV v s).host = s.host := rfl

/-! ### setW -/

@[simp] theorem setW_params (v : NodeRef) (s : State) : (setW v s).params = s.params := rfl
@[simp] theorem setW_ft (v : NodeRef) (s : State) : (setW v s).ft = s.ft := rfl
@[simp] theorem setW_node (v : NodeRef) (s : State) : (setW v s).node = s.node := rfl
@[simp] theorem setW_nodeCnt (v : NodeRef) (s : State) : (setW v s).nodeCnt = s.nodeCnt := rfl
@[simp] theorem setW_heap (v : NodeRef) (s : State) : (setW v s).heap = s.heap := rfl
@[simp] theorem setW_pqSize (v : NodeRef) (s : State) : (setW v s).pqSize = s.pqSize := rfl
@[simp] theorem setW_pqCap (v : NodeRef) (s : State) : (setW v s).pqCap = s.pqCap := rfl
@[simp] theorem setW_root (v : NodeRef) (s : State) : (setW v s).root = s.root := rfl
@[simp] theorem setW_nleaf (v : NodeRef) (s : State) : (setW v s).nleaf = s.nleaf := rfl
@[simp] theorem setW_treeValid (v : NodeRef) (s : State) : (setW v s).treeValid = s.treeValid := rfl
@[simp] theorem setW_cw (v : NodeRef) (s : State) : (setW v s).cw = s.cw := rfl
@[simp] theorem setW_cwReady (v : NodeRef) (s : State) : (setW v s).cwReady = s.cwReady := rfl
@[simp] theorem setW_fatal (v : NodeRef) (s : State) : (setW v s).fatal = s.fatal := rfl
@[simp] theorem setW_errflags (v : NodeRef) (s : State) : (setW v s).errflags = s.errflags := rfl
@[simp] theorem setW_pqFsm (v : NodeRef) (s : State) : (setW v s).pqFsm = s.pqFsm := rfl
@[simp] theorem setW_tbFsm (v : NodeRef) (s : State) : (setW v s).tbFsm = s.tbFsm := rfl
@[simp] theorem setW_crFsm (v : NodeRef) (s : State) : (setW v s).crFsm = s.crFsm := rfl
@[simp] theorem setW_pq (v : NodeRef) (s : State) : (setW v s).pq = s.pq := rfl
@[simp] theorem setW_tb_S (v : NodeRef) (s : State) : (setW v s).tb.S = s.tb.S := rfl
@[simp] theorem setW_tb_N (v : NodeRef) (s : State) : (setW v s).tb.N = s.tb.N := rfl
@[simp] theorem setW_tb_ACC (v : NodeRef) (s : State) : (setW v s).tb.ACC = s.tb.ACC := rfl
@[simp] theorem setW_tb_U (v : NodeRef) (s : State) : (setW v s).tb.U = s.tb.U := rfl
@[simp] theorem setW_tb_V (v : NodeRef) (s : State) : (setW v s).tb.V = s.tb.V := rfl
@[simp] theorem setW_tb_W (v : NodeRef) (s : State) : (setW v s).tb.W = v := rfl
@[simp] theorem setW_cr (v : NodeRef) (s : State) : (setW v s).cr = s.cr := rfl
@[simp] theorem setW_tstk (v : NodeRef) (s : State) : (setW v s).tstk = s.tstk := rfl
@[simp] theorem setW_rsp (v : NodeRef) (s : State) : (setW v s).rsp = s.rsp := rfl
@[simp] theorem setW_host (v : NodeRef) (s : State) : (setW v s).host = s.host := rfl

/-! ### setCUR -/

@[simp] theorem setCUR_params (v : NodeRef) (s : State) : (setCUR v s).params = s.params := rfl
@[simp] theorem setCUR_ft (v : NodeRef) (s : State) : (setCUR v s).ft = s.ft := rfl
@[simp] theorem setCUR_node (v : NodeRef) (s : State) : (setCUR v s).node = s.node := rfl
@[simp] theorem setCUR_nodeCnt (v : NodeRef) (s : State) : (setCUR v s).nodeCnt = s.nodeCnt := rfl
@[simp] theorem setCUR_heap (v : NodeRef) (s : State) : (setCUR v s).heap = s.heap := rfl
@[simp] theorem setCUR_pqSize (v : NodeRef) (s : State) : (setCUR v s).pqSize = s.pqSize := rfl
@[simp] theorem setCUR_pqCap (v : NodeRef) (s : State) : (setCUR v s).pqCap = s.pqCap := rfl
@[simp] theorem setCUR_root (v : NodeRef) (s : State) : (setCUR v s).root = s.root := rfl
@[simp] theorem setCUR_nleaf (v : NodeRef) (s : State) : (setCUR v s).nleaf = s.nleaf := rfl
@[simp] theorem setCUR_treeValid (v : NodeRef) (s : State) : (setCUR v s).treeValid = s.treeValid := rfl
@[simp] theorem setCUR_cw (v : NodeRef) (s : State) : (setCUR v s).cw = s.cw := rfl
@[simp] theorem setCUR_cwReady (v : NodeRef) (s : State) : (setCUR v s).cwReady = s.cwReady := rfl
@[simp] theorem setCUR_fatal (v : NodeRef) (s : State) : (setCUR v s).fatal = s.fatal := rfl
@[simp] theorem setCUR_errflags (v : NodeRef) (s : State) : (setCUR v s).errflags = s.errflags := rfl
@[simp] theorem setCUR_pqFsm (v : NodeRef) (s : State) : (setCUR v s).pqFsm = s.pqFsm := rfl
@[simp] theorem setCUR_tbFsm (v : NodeRef) (s : State) : (setCUR v s).tbFsm = s.tbFsm := rfl
@[simp] theorem setCUR_crFsm (v : NodeRef) (s : State) : (setCUR v s).crFsm = s.crFsm := rfl
@[simp] theorem setCUR_pq (v : NodeRef) (s : State) : (setCUR v s).pq = s.pq := rfl
@[simp] theorem setCUR_tb (v : NodeRef) (s : State) : (setCUR v s).tb = s.tb := rfl
@[simp] theorem setCUR_cr_CUR (v : NodeRef) (s : State) : (setCUR v s).cr.CUR = v := rfl
@[simp] theorem setCUR_cr_DEPTH (v : NodeRef) (s : State) : (setCUR v s).cr.DEPTH = s.cr.DEPTH := rfl
@[simp] theorem setCUR_cr_PATH (v : NodeRef) (s : State) : (setCUR v s).cr.PATH = s.cr.PATH := rfl
@[simp] theorem setCUR_cr_CNT (v : NodeRef) (s : State) : (setCUR v s).cr.CNT = s.cr.CNT := rfl
@[simp] theorem setCUR_tstk (v : NodeRef) (s : State) : (setCUR v s).tstk = s.tstk := rfl
@[simp] theorem setCUR_rsp (v : NodeRef) (s : State) : (setCUR v s).rsp = s.rsp := rfl
@[simp] theorem setCUR_host (v : NodeRef) (s : State) : (setCUR v s).host = s.host := rfl

/-! ### setDEPTH -/

@[simp] theorem setDEPTH_params (v : Len) (s : State) : (setDEPTH v s).params = s.params := rfl
@[simp] theorem setDEPTH_ft (v : Len) (s : State) : (setDEPTH v s).ft = s.ft := rfl
@[simp] theorem setDEPTH_node (v : Len) (s : State) : (setDEPTH v s).node = s.node := rfl
@[simp] theorem setDEPTH_nodeCnt (v : Len) (s : State) : (setDEPTH v s).nodeCnt = s.nodeCnt := rfl
@[simp] theorem setDEPTH_heap (v : Len) (s : State) : (setDEPTH v s).heap = s.heap := rfl
@[simp] theorem setDEPTH_pqSize (v : Len) (s : State) : (setDEPTH v s).pqSize = s.pqSize := rfl
@[simp] theorem setDEPTH_pqCap (v : Len) (s : State) : (setDEPTH v s).pqCap = s.pqCap := rfl
@[simp] theorem setDEPTH_root (v : Len) (s : State) : (setDEPTH v s).root = s.root := rfl
@[simp] theorem setDEPTH_nleaf (v : Len) (s : State) : (setDEPTH v s).nleaf = s.nleaf := rfl
@[simp] theorem setDEPTH_treeValid (v : Len) (s : State) : (setDEPTH v s).treeValid = s.treeValid := rfl
@[simp] theorem setDEPTH_cw (v : Len) (s : State) : (setDEPTH v s).cw = s.cw := rfl
@[simp] theorem setDEPTH_cwReady (v : Len) (s : State) : (setDEPTH v s).cwReady = s.cwReady := rfl
@[simp] theorem setDEPTH_fatal (v : Len) (s : State) : (setDEPTH v s).fatal = s.fatal := rfl
@[simp] theorem setDEPTH_errflags (v : Len) (s : State) : (setDEPTH v s).errflags = s.errflags := rfl
@[simp] theorem setDEPTH_pqFsm (v : Len) (s : State) : (setDEPTH v s).pqFsm = s.pqFsm := rfl
@[simp] theorem setDEPTH_tbFsm (v : Len) (s : State) : (setDEPTH v s).tbFsm = s.tbFsm := rfl
@[simp] theorem setDEPTH_crFsm (v : Len) (s : State) : (setDEPTH v s).crFsm = s.crFsm := rfl
@[simp] theorem setDEPTH_pq (v : Len) (s : State) : (setDEPTH v s).pq = s.pq := rfl
@[simp] theorem setDEPTH_tb (v : Len) (s : State) : (setDEPTH v s).tb = s.tb := rfl
@[simp] theorem setDEPTH_cr_CUR (v : Len) (s : State) : (setDEPTH v s).cr.CUR = s.cr.CUR := rfl
@[simp] theorem setDEPTH_cr_DEPTH (v : Len) (s : State) : (setDEPTH v s).cr.DEPTH = v := rfl
@[simp] theorem setDEPTH_cr_PATH (v : Len) (s : State) : (setDEPTH v s).cr.PATH = s.cr.PATH := rfl
@[simp] theorem setDEPTH_cr_CNT (v : Len) (s : State) : (setDEPTH v s).cr.CNT = s.cr.CNT := rfl
@[simp] theorem setDEPTH_tstk (v : Len) (s : State) : (setDEPTH v s).tstk = s.tstk := rfl
@[simp] theorem setDEPTH_rsp (v : Len) (s : State) : (setDEPTH v s).rsp = s.rsp := rfl
@[simp] theorem setDEPTH_host (v : Len) (s : State) : (setDEPTH v s).host = s.host := rfl

/-! ### setPATH -/

@[simp] theorem setPATH_params (v : Bits) (s : State) : (setPATH v s).params = s.params := rfl
@[simp] theorem setPATH_ft (v : Bits) (s : State) : (setPATH v s).ft = s.ft := rfl
@[simp] theorem setPATH_node (v : Bits) (s : State) : (setPATH v s).node = s.node := rfl
@[simp] theorem setPATH_nodeCnt (v : Bits) (s : State) : (setPATH v s).nodeCnt = s.nodeCnt := rfl
@[simp] theorem setPATH_heap (v : Bits) (s : State) : (setPATH v s).heap = s.heap := rfl
@[simp] theorem setPATH_pqSize (v : Bits) (s : State) : (setPATH v s).pqSize = s.pqSize := rfl
@[simp] theorem setPATH_pqCap (v : Bits) (s : State) : (setPATH v s).pqCap = s.pqCap := rfl
@[simp] theorem setPATH_root (v : Bits) (s : State) : (setPATH v s).root = s.root := rfl
@[simp] theorem setPATH_nleaf (v : Bits) (s : State) : (setPATH v s).nleaf = s.nleaf := rfl
@[simp] theorem setPATH_treeValid (v : Bits) (s : State) : (setPATH v s).treeValid = s.treeValid := rfl
@[simp] theorem setPATH_cw (v : Bits) (s : State) : (setPATH v s).cw = s.cw := rfl
@[simp] theorem setPATH_cwReady (v : Bits) (s : State) : (setPATH v s).cwReady = s.cwReady := rfl
@[simp] theorem setPATH_fatal (v : Bits) (s : State) : (setPATH v s).fatal = s.fatal := rfl
@[simp] theorem setPATH_errflags (v : Bits) (s : State) : (setPATH v s).errflags = s.errflags := rfl
@[simp] theorem setPATH_pqFsm (v : Bits) (s : State) : (setPATH v s).pqFsm = s.pqFsm := rfl
@[simp] theorem setPATH_tbFsm (v : Bits) (s : State) : (setPATH v s).tbFsm = s.tbFsm := rfl
@[simp] theorem setPATH_crFsm (v : Bits) (s : State) : (setPATH v s).crFsm = s.crFsm := rfl
@[simp] theorem setPATH_pq (v : Bits) (s : State) : (setPATH v s).pq = s.pq := rfl
@[simp] theorem setPATH_tb (v : Bits) (s : State) : (setPATH v s).tb = s.tb := rfl
@[simp] theorem setPATH_cr_CUR (v : Bits) (s : State) : (setPATH v s).cr.CUR = s.cr.CUR := rfl
@[simp] theorem setPATH_cr_DEPTH (v : Bits) (s : State) : (setPATH v s).cr.DEPTH = s.cr.DEPTH := rfl
@[simp] theorem setPATH_cr_PATH (v : Bits) (s : State) : (setPATH v s).cr.PATH = v := rfl
@[simp] theorem setPATH_cr_CNT (v : Bits) (s : State) : (setPATH v s).cr.CNT = s.cr.CNT := rfl
@[simp] theorem setPATH_tstk (v : Bits) (s : State) : (setPATH v s).tstk = s.tstk := rfl
@[simp] theorem setPATH_rsp (v : Bits) (s : State) : (setPATH v s).rsp = s.rsp := rfl
@[simp] theorem setPATH_host (v : Bits) (s : State) : (setPATH v s).host = s.host := rfl

/-! ### setCNT -/

@[simp] theorem setCNT_params (v : Count9) (s : State) : (setCNT v s).params = s.params := rfl
@[simp] theorem setCNT_ft (v : Count9) (s : State) : (setCNT v s).ft = s.ft := rfl
@[simp] theorem setCNT_node (v : Count9) (s : State) : (setCNT v s).node = s.node := rfl
@[simp] theorem setCNT_nodeCnt (v : Count9) (s : State) : (setCNT v s).nodeCnt = s.nodeCnt := rfl
@[simp] theorem setCNT_heap (v : Count9) (s : State) : (setCNT v s).heap = s.heap := rfl
@[simp] theorem setCNT_pqSize (v : Count9) (s : State) : (setCNT v s).pqSize = s.pqSize := rfl
@[simp] theorem setCNT_pqCap (v : Count9) (s : State) : (setCNT v s).pqCap = s.pqCap := rfl
@[simp] theorem setCNT_root (v : Count9) (s : State) : (setCNT v s).root = s.root := rfl
@[simp] theorem setCNT_nleaf (v : Count9) (s : State) : (setCNT v s).nleaf = s.nleaf := rfl
@[simp] theorem setCNT_treeValid (v : Count9) (s : State) : (setCNT v s).treeValid = s.treeValid := rfl
@[simp] theorem setCNT_cw (v : Count9) (s : State) : (setCNT v s).cw = s.cw := rfl
@[simp] theorem setCNT_cwReady (v : Count9) (s : State) : (setCNT v s).cwReady = s.cwReady := rfl
@[simp] theorem setCNT_fatal (v : Count9) (s : State) : (setCNT v s).fatal = s.fatal := rfl
@[simp] theorem setCNT_errflags (v : Count9) (s : State) : (setCNT v s).errflags = s.errflags := rfl
@[simp] theorem setCNT_pqFsm (v : Count9) (s : State) : (setCNT v s).pqFsm = s.pqFsm := rfl
@[simp] theorem setCNT_tbFsm (v : Count9) (s : State) : (setCNT v s).tbFsm = s.tbFsm := rfl
@[simp] theorem setCNT_crFsm (v : Count9) (s : State) : (setCNT v s).crFsm = s.crFsm := rfl
@[simp] theorem setCNT_pq (v : Count9) (s : State) : (setCNT v s).pq = s.pq := rfl
@[simp] theorem setCNT_tb (v : Count9) (s : State) : (setCNT v s).tb = s.tb := rfl
@[simp] theorem setCNT_cr_CUR (v : Count9) (s : State) : (setCNT v s).cr.CUR = s.cr.CUR := rfl
@[simp] theorem setCNT_cr_DEPTH (v : Count9) (s : State) : (setCNT v s).cr.DEPTH = s.cr.DEPTH := rfl
@[simp] theorem setCNT_cr_PATH (v : Count9) (s : State) : (setCNT v s).cr.PATH = s.cr.PATH := rfl
@[simp] theorem setCNT_cr_CNT (v : Count9) (s : State) : (setCNT v s).cr.CNT = v := rfl
@[simp] theorem setCNT_tstk (v : Count9) (s : State) : (setCNT v s).tstk = s.tstk := rfl
@[simp] theorem setCNT_rsp (v : Count9) (s : State) : (setCNT v s).rsp = s.rsp := rfl
@[simp] theorem setCNT_host (v : Count9) (s : State) : (setCNT v s).host = s.host := rfl

/-! ### State.reset -/

@[simp] theorem resetAt_params (p : Params) (h : List HostPins) : (State.resetAt p h).params = p := rfl
@[simp] theorem resetAt_ft (p : Params) (h : List HostPins) : (State.resetAt p h).ft = [] := rfl
@[simp] theorem resetAt_node (p : Params) (h : List HostPins) : (State.resetAt p h).node = [] := rfl
@[simp] theorem resetAt_nodeCnt (p : Params) (h : List HostPins) : (State.resetAt p h).nodeCnt = 0 := rfl
@[simp] theorem resetAt_heap (p : Params) (h : List HostPins) : (State.resetAt p h).heap = [] := rfl
@[simp] theorem resetAt_pqSize (p : Params) (h : List HostPins) : (State.resetAt p h).pqSize = 0 := rfl
@[simp] theorem resetAt_pqCap (p : Params) (h : List HostPins) : (State.resetAt p h).pqCap = 0 := rfl
@[simp] theorem resetAt_root (p : Params) (h : List HostPins) : (State.resetAt p h).root = 0 := rfl
@[simp] theorem resetAt_nleaf (p : Params) (h : List HostPins) : (State.resetAt p h).nleaf = 0 := rfl
@[simp] theorem resetAt_treeValid (p : Params) (h : List HostPins) : (State.resetAt p h).treeValid = false := rfl
@[simp] theorem resetAt_cw (p : Params) (h : List HostPins) : (State.resetAt p h).cw = [] := rfl
@[simp] theorem resetAt_cwReady (p : Params) (h : List HostPins) : (State.resetAt p h).cwReady = false := rfl
@[simp] theorem resetAt_fatal (p : Params) (h : List HostPins) : (State.resetAt p h).fatal = false := rfl
@[simp] theorem resetAt_errflags (p : Params) (h : List HostPins) : (State.resetAt p h).errflags = 0 := rfl
@[simp] theorem resetAt_pqFsm (p : Params) (h : List HostPins) : (State.resetAt p h).pqFsm = .pIdle := rfl
@[simp] theorem resetAt_tbFsm (p : Params) (h : List HostPins) : (State.resetAt p h).tbFsm = .bIdle := rfl
@[simp] theorem resetAt_crFsm (p : Params) (h : List HostPins) : (State.resetAt p h).crFsm = .gIdle := rfl
@[simp] theorem resetAt_tstk (p : Params) (h : List HostPins) : (State.resetAt p h).tstk = [] := rfl
@[simp] theorem resetAt_rsp (p : Params) (h : List HostPins) : (State.resetAt p h).rsp = none := rfl
@[simp] theorem resetAt_host (p : Params) (h : List HostPins) : (State.resetAt p h).host = h := rfl
@[simp] theorem reset_params : State.reset.params = Params.standard := rfl
@[simp] theorem reset_ft : State.reset.ft = [] := rfl
@[simp] theorem reset_node : State.reset.node = [] := rfl
@[simp] theorem reset_nodeCnt : State.reset.nodeCnt = 0 := rfl
@[simp] theorem reset_heap : State.reset.heap = [] := rfl
@[simp] theorem reset_pqSize : State.reset.pqSize = 0 := rfl
@[simp] theorem reset_pqCap : State.reset.pqCap = 0 := rfl
@[simp] theorem reset_root : State.reset.root = 0 := rfl
@[simp] theorem reset_nleaf : State.reset.nleaf = 0 := rfl
@[simp] theorem reset_treeValid : State.reset.treeValid = false := rfl
@[simp] theorem reset_cw : State.reset.cw = [] := rfl
@[simp] theorem reset_cwReady : State.reset.cwReady = false := rfl
@[simp] theorem reset_fatal : State.reset.fatal = false := rfl
@[simp] theorem reset_errflags : State.reset.errflags = 0 := rfl
@[simp] theorem reset_pqFsm : State.reset.pqFsm = .pIdle := rfl
@[simp] theorem reset_tbFsm : State.reset.tbFsm = .bIdle := rfl
@[simp] theorem reset_crFsm : State.reset.crFsm = .gIdle := rfl
@[simp] theorem reset_tstk : State.reset.tstk = [] := rfl
@[simp] theorem reset_rsp : State.reset.rsp = none := rfl
@[simp] theorem reset_host : State.reset.host = [] := rfl

/-! ### Reads after updates -/

@[simp] theorem nodeAt_writeFt (s : State) (i : Symbol) (v : Key) (j : Nat) : nodeAt (writeFt s i v) j = nodeAt s j := rfl
@[simp] theorem slotAt_writeFt (s : State) (i : Symbol) (v : Key) (j : Nat) : slotAt (writeFt s i v) j = slotAt s j := rfl
@[simp] theorem cwAt_writeFt (s : State) (i : Symbol) (v : Key) (j : Nat) : cwAt (writeFt s i v) j = cwAt s j := rfl
@[simp] theorem tstkAt_writeFt (s : State) (i : Symbol) (v : Key) (j : Nat) : tstkAt (writeFt s i v) j = tstkAt s j := rfl
@[simp] theorem keyAt_writeFt (s : State) (i : Symbol) (v : Key) (j : Nat) : keyAt (writeFt s i v) j = keyAt s j := rfl
@[simp] theorem ftAt_putCw (s : State) (i : Symbol) (l : Len) (b : Bits) (j : Nat) : ftAt (putCw s i l b) j = ftAt s j := rfl
@[simp] theorem nodeAt_putCw (s : State) (i : Symbol) (l : Len) (b : Bits) (j : Nat) : nodeAt (putCw s i l b) j = nodeAt s j := rfl
@[simp] theorem slotAt_putCw (s : State) (i : Symbol) (l : Len) (b : Bits) (j : Nat) : slotAt (putCw s i l b) j = slotAt s j := rfl
@[simp] theorem tstkAt_putCw (s : State) (i : Symbol) (l : Len) (b : Bits) (j : Nat) : tstkAt (putCw s i l b) j = tstkAt s j := rfl
@[simp] theorem keyAt_putCw (s : State) (i : Symbol) (l : Len) (b : Bits) (j : Nat) : keyAt (putCw s i l b) j = keyAt s j := rfl
@[simp] theorem ftAt_invalidateCw (s : State) (j : Nat) : ftAt (invalidateCw s) j = ftAt s j := rfl
@[simp] theorem nodeAt_invalidateCw (s : State) (j : Nat) : nodeAt (invalidateCw s) j = nodeAt s j := rfl
@[simp] theorem slotAt_invalidateCw (s : State) (j : Nat) : slotAt (invalidateCw s) j = slotAt s j := rfl
@[simp] theorem tstkAt_invalidateCw (s : State) (j : Nat) : tstkAt (invalidateCw s) j = tstkAt s j := rfl
@[simp] theorem keyAt_invalidateCw (s : State) (j : Nat) : keyAt (invalidateCw s) j = keyAt s j := rfl
@[simp] theorem ftAt_dropSlot (s : State) (k : Nat) (j : Nat) : ftAt (dropSlot s k) j = ftAt s j := rfl
@[simp] theorem nodeAt_dropSlot (s : State) (k : Nat) (j : Nat) : nodeAt (dropSlot s k) j = nodeAt s j := rfl
@[simp] theorem cwAt_dropSlot (s : State) (k : Nat) (j : Nat) : cwAt (dropSlot s k) j = cwAt s j := rfl
@[simp] theorem tstkAt_dropSlot (s : State) (k : Nat) (j : Nat) : tstkAt (dropSlot s k) j = tstkAt s j := rfl
@[simp] theorem ftAt_createQueue (s : State) (c : Count9) (j : Nat) : ftAt (createQueue s c) j = ftAt s j := rfl
@[simp] theorem nodeAt_createQueue (s : State) (c : Count9) (j : Nat) : nodeAt (createQueue s c) j = nodeAt s j := rfl
@[simp] theorem cwAt_createQueue (s : State) (c : Count9) (j : Nat) : cwAt (createQueue s c) j = cwAt s j := rfl
@[simp] theorem tstkAt_createQueue (s : State) (c : Count9) (j : Nat) : tstkAt (createQueue s c) j = tstkAt s j := rfl
@[simp] theorem ftAt_emptyArena (s : State) (j : Nat) : ftAt (emptyArena s) j = ftAt s j := rfl
@[simp] theorem slotAt_emptyArena (s : State) (j : Nat) : slotAt (emptyArena s) j = slotAt s j := rfl
@[simp] theorem cwAt_emptyArena (s : State) (j : Nat) : cwAt (emptyArena s) j = cwAt s j := rfl
@[simp] theorem tstkAt_emptyArena (s : State) (j : Nat) : tstkAt (emptyArena s) j = tstkAt s j := rfl
@[simp] theorem ftAt_dropTstk (s : State) (d : Nat) (j : Nat) : ftAt (dropTstk s d) j = ftAt s j := rfl
@[simp] theorem nodeAt_dropTstk (s : State) (d : Nat) (j : Nat) : nodeAt (dropTstk s d) j = nodeAt s j := rfl
@[simp] theorem slotAt_dropTstk (s : State) (d : Nat) (j : Nat) : slotAt (dropTstk s d) j = slotAt s j := rfl
@[simp] theorem cwAt_dropTstk (s : State) (d : Nat) (j : Nat) : cwAt (dropTstk s d) j = cwAt s j := rfl
@[simp] theorem keyAt_dropTstk (s : State) (d : Nat) (j : Nat) : keyAt (dropTstk s d) j = keyAt s j := rfl
@[simp] theorem ftAt_respond (st : BitVec 8) (a : BitVec 24) (b : BitVec 32) (s : State) (j : Nat) : ftAt (respond st a b s) j = ftAt s j := rfl
@[simp] theorem nodeAt_respond (st : BitVec 8) (a : BitVec 24) (b : BitVec 32) (s : State) (j : Nat) : nodeAt (respond st a b s) j = nodeAt s j := rfl
@[simp] theorem slotAt_respond (st : BitVec 8) (a : BitVec 24) (b : BitVec 32) (s : State) (j : Nat) : slotAt (respond st a b s) j = slotAt s j := rfl
@[simp] theorem cwAt_respond (st : BitVec 8) (a : BitVec 24) (b : BitVec 32) (s : State) (j : Nat) : cwAt (respond st a b s) j = cwAt s j := rfl
@[simp] theorem tstkAt_respond (st : BitVec 8) (a : BitVec 24) (b : BitVec 32) (s : State) (j : Nat) : tstkAt (respond st a b s) j = tstkAt s j := rfl
@[simp] theorem keyAt_respond (st : BitVec 8) (a : BitVec 24) (b : BitVec 32) (s : State) (j : Nat) : keyAt (respond st a b s) j = keyAt s j := rfl
@[simp] theorem ftAt_respondOk (a : BitVec 24) (b : BitVec 32) (s : State) (j : Nat) : ftAt (respondOk a b s) j = ftAt s j := rfl
@[simp] theorem nodeAt_respondOk (a : BitVec 24) (b : BitVec 32) (s : State) (j : Nat) : nodeAt (respondOk a b s) j = nodeAt s j := rfl
@[simp] theorem slotAt_respondOk (a : BitVec 24) (b : BitVec 32) (s : State) (j : Nat) : slotAt (respondOk a b s) j = slotAt s j := rfl
@[simp] theorem cwAt_respondOk (a : BitVec 24) (b : BitVec 32) (s : State) (j : Nat) : cwAt (respondOk a b s) j = cwAt s j := rfl
@[simp] theorem tstkAt_respondOk (a : BitVec 24) (b : BitVec 32) (s : State) (j : Nat) : tstkAt (respondOk a b s) j = tstkAt s j := rfl
@[simp] theorem keyAt_respondOk (a : BitVec 24) (b : BitVec 32) (s : State) (j : Nat) : keyAt (respondOk a b s) j = keyAt s j := rfl
@[simp] theorem ftAt_raise (e : ErrKind) (s : State) (j : Nat) : ftAt (raise e s) j = ftAt s j := rfl
@[simp] theorem nodeAt_raise (e : ErrKind) (s : State) (j : Nat) : nodeAt (raise e s) j = nodeAt s j := rfl
@[simp] theorem slotAt_raise (e : ErrKind) (s : State) (j : Nat) : slotAt (raise e s) j = slotAt s j := rfl
@[simp] theorem cwAt_raise (e : ErrKind) (s : State) (j : Nat) : cwAt (raise e s) j = cwAt s j := rfl
@[simp] theorem tstkAt_raise (e : ErrKind) (s : State) (j : Nat) : tstkAt (raise e s) j = tstkAt s j := rfl
@[simp] theorem keyAt_raise (e : ErrKind) (s : State) (j : Nat) : keyAt (raise e s) j = keyAt s j := rfl
@[simp] theorem ftAt_dropWorking (s : State) (j : Nat) : ftAt (dropWorking s) j = ftAt s j := rfl
@[simp] theorem nodeAt_dropWorking (s : State) (j : Nat) : nodeAt (dropWorking s) j = nodeAt s j := rfl
@[simp] theorem slotAt_dropWorking (s : State) (j : Nat) : slotAt (dropWorking s) j = slotAt s j := rfl
@[simp] theorem cwAt_dropWorking (s : State) (j : Nat) : cwAt (dropWorking s) j = cwAt s j := rfl
@[simp] theorem keyAt_dropWorking (s : State) (j : Nat) : keyAt (dropWorking s) j = keyAt s j := rfl
@[simp] theorem ftAt_builderStart (s : State) (j : Nat) : ftAt (builderStart s) j = ftAt s j := rfl
@[simp] theorem nodeAt_builderStart (s : State) (j : Nat) : nodeAt (builderStart s) j = nodeAt s j := rfl
@[simp] theorem slotAt_builderStart (s : State) (j : Nat) : slotAt (builderStart s) j = slotAt s j := rfl
@[simp] theorem cwAt_builderStart (s : State) (j : Nat) : cwAt (builderStart s) j = cwAt s j := rfl
@[simp] theorem tstkAt_builderStart (s : State) (j : Nat) : tstkAt (builderStart s) j = tstkAt s j := rfl
@[simp] theorem keyAt_builderStart (s : State) (j : Nat) : keyAt (builderStart s) j = keyAt s j := rfl
@[simp] theorem ftAt_afterEdge (s : State) (j : Nat) : ftAt (afterEdge s) j = ftAt s j := rfl
@[simp] theorem nodeAt_afterEdge (s : State) (j : Nat) : nodeAt (afterEdge s) j = nodeAt s j := rfl
@[simp] theorem slotAt_afterEdge (s : State) (j : Nat) : slotAt (afterEdge s) j = slotAt s j := rfl
@[simp] theorem cwAt_afterEdge (s : State) (j : Nat) : cwAt (afterEdge s) j = cwAt s j := rfl
@[simp] theorem tstkAt_afterEdge (s : State) (j : Nat) : tstkAt (afterEdge s) j = tstkAt s j := rfl
@[simp] theorem keyAt_afterEdge (s : State) (j : Nat) : keyAt (afterEdge s) j = keyAt s j := rfl
@[simp] theorem ftAt_setPqFsm (f : PqState) (s : State) (j : Nat) : ftAt (setPqFsm f s) j = ftAt s j := rfl
@[simp] theorem nodeAt_setPqFsm (f : PqState) (s : State) (j : Nat) : nodeAt (setPqFsm f s) j = nodeAt s j := rfl
@[simp] theorem slotAt_setPqFsm (f : PqState) (s : State) (j : Nat) : slotAt (setPqFsm f s) j = slotAt s j := rfl
@[simp] theorem cwAt_setPqFsm (f : PqState) (s : State) (j : Nat) : cwAt (setPqFsm f s) j = cwAt s j := rfl
@[simp] theorem tstkAt_setPqFsm (f : PqState) (s : State) (j : Nat) : tstkAt (setPqFsm f s) j = tstkAt s j := rfl
@[simp] theorem keyAt_setPqFsm (f : PqState) (s : State) (j : Nat) : keyAt (setPqFsm f s) j = keyAt s j := rfl
@[simp] theorem ftAt_setTbFsm (f : TbState) (s : State) (j : Nat) : ftAt (setTbFsm f s) j = ftAt s j := rfl
@[simp] theorem nodeAt_setTbFsm (f : TbState) (s : State) (j : Nat) : nodeAt (setTbFsm f s) j = nodeAt s j := rfl
@[simp] theorem slotAt_setTbFsm (f : TbState) (s : State) (j : Nat) : slotAt (setTbFsm f s) j = slotAt s j := rfl
@[simp] theorem cwAt_setTbFsm (f : TbState) (s : State) (j : Nat) : cwAt (setTbFsm f s) j = cwAt s j := rfl
@[simp] theorem tstkAt_setTbFsm (f : TbState) (s : State) (j : Nat) : tstkAt (setTbFsm f s) j = tstkAt s j := rfl
@[simp] theorem keyAt_setTbFsm (f : TbState) (s : State) (j : Nat) : keyAt (setTbFsm f s) j = keyAt s j := rfl
@[simp] theorem ftAt_setCrFsm (f : CrState) (s : State) (j : Nat) : ftAt (setCrFsm f s) j = ftAt s j := rfl
@[simp] theorem nodeAt_setCrFsm (f : CrState) (s : State) (j : Nat) : nodeAt (setCrFsm f s) j = nodeAt s j := rfl
@[simp] theorem slotAt_setCrFsm (f : CrState) (s : State) (j : Nat) : slotAt (setCrFsm f s) j = slotAt s j := rfl
@[simp] theorem cwAt_setCrFsm (f : CrState) (s : State) (j : Nat) : cwAt (setCrFsm f s) j = cwAt s j := rfl
@[simp] theorem tstkAt_setCrFsm (f : CrState) (s : State) (j : Nat) : tstkAt (setCrFsm f s) j = tstkAt s j := rfl
@[simp] theorem keyAt_setCrFsm (f : CrState) (s : State) (j : Nat) : keyAt (setCrFsm f s) j = keyAt s j := rfl
@[simp] theorem ftAt_setPqSize (v : Count9) (s : State) (j : Nat) : ftAt (setPqSize v s) j = ftAt s j := rfl
@[simp] theorem nodeAt_setPqSize (v : Count9) (s : State) (j : Nat) : nodeAt (setPqSize v s) j = nodeAt s j := rfl
@[simp] theorem slotAt_setPqSize (v : Count9) (s : State) (j : Nat) : slotAt (setPqSize v s) j = slotAt s j := rfl
@[simp] theorem cwAt_setPqSize (v : Count9) (s : State) (j : Nat) : cwAt (setPqSize v s) j = cwAt s j := rfl
@[simp] theorem tstkAt_setPqSize (v : Count9) (s : State) (j : Nat) : tstkAt (setPqSize v s) j = tstkAt s j := rfl
@[simp] theorem keyAt_setPqSize (v : Count9) (s : State) (j : Nat) : keyAt (setPqSize v s) j = keyAt s j := rfl
@[simp] theorem ftAt_setTree (r : NodeRef) (n : Count9) (v : Bool) (s : State) (j : Nat) : ftAt (setTree r n v s) j = ftAt s j := rfl
@[simp] theorem nodeAt_setTree (r : NodeRef) (n : Count9) (v : Bool) (s : State) (j : Nat) : nodeAt (setTree r n v s) j = nodeAt s j := rfl
@[simp] theorem slotAt_setTree (r : NodeRef) (n : Count9) (v : Bool) (s : State) (j : Nat) : slotAt (setTree r n v s) j = slotAt s j := rfl
@[simp] theorem cwAt_setTree (r : NodeRef) (n : Count9) (v : Bool) (s : State) (j : Nat) : cwAt (setTree r n v s) j = cwAt s j := rfl
@[simp] theorem tstkAt_setTree (r : NodeRef) (n : Count9) (v : Bool) (s : State) (j : Nat) : tstkAt (setTree r n v s) j = tstkAt s j := rfl
@[simp] theorem keyAt_setTree (r : NodeRef) (n : Count9) (v : Bool) (s : State) (j : Nat) : keyAt (setTree r n v s) j = keyAt s j := rfl
@[simp] theorem ftAt_setCwReady (v : Bool) (s : State) (j : Nat) : ftAt (setCwReady v s) j = ftAt s j := rfl
@[simp] theorem nodeAt_setCwReady (v : Bool) (s : State) (j : Nat) : nodeAt (setCwReady v s) j = nodeAt s j := rfl
@[simp] theorem slotAt_setCwReady (v : Bool) (s : State) (j : Nat) : slotAt (setCwReady v s) j = slotAt s j := rfl
@[simp] theorem cwAt_setCwReady (v : Bool) (s : State) (j : Nat) : cwAt (setCwReady v s) j = cwAt s j := rfl
@[simp] theorem tstkAt_setCwReady (v : Bool) (s : State) (j : Nat) : tstkAt (setCwReady v s) j = tstkAt s j := rfl
@[simp] theorem keyAt_setCwReady (v : Bool) (s : State) (j : Nat) : keyAt (setCwReady v s) j = keyAt s j := rfl
@[simp] theorem ftAt_setFatal (v : Bool) (s : State) (j : Nat) : ftAt (setFatal v s) j = ftAt s j := rfl
@[simp] theorem nodeAt_setFatal (v : Bool) (s : State) (j : Nat) : nodeAt (setFatal v s) j = nodeAt s j := rfl
@[simp] theorem slotAt_setFatal (v : Bool) (s : State) (j : Nat) : slotAt (setFatal v s) j = slotAt s j := rfl
@[simp] theorem cwAt_setFatal (v : Bool) (s : State) (j : Nat) : cwAt (setFatal v s) j = cwAt s j := rfl
@[simp] theorem tstkAt_setFatal (v : Bool) (s : State) (j : Nat) : tstkAt (setFatal v s) j = tstkAt s j := rfl
@[simp] theorem keyAt_setFatal (v : Bool) (s : State) (j : Nat) : keyAt (setFatal v s) j = keyAt s j := rfl
@[simp] theorem ftAt_setErrflags (v : ErrBits) (s : State) (j : Nat) : ftAt (setErrflags v s) j = ftAt s j := rfl
@[simp] theorem nodeAt_setErrflags (v : ErrBits) (s : State) (j : Nat) : nodeAt (setErrflags v s) j = nodeAt s j := rfl
@[simp] theorem slotAt_setErrflags (v : ErrBits) (s : State) (j : Nat) : slotAt (setErrflags v s) j = slotAt s j := rfl
@[simp] theorem cwAt_setErrflags (v : ErrBits) (s : State) (j : Nat) : cwAt (setErrflags v s) j = cwAt s j := rfl
@[simp] theorem tstkAt_setErrflags (v : ErrBits) (s : State) (j : Nat) : tstkAt (setErrflags v s) j = tstkAt s j := rfl
@[simp] theorem keyAt_setErrflags (v : ErrBits) (s : State) (j : Nat) : keyAt (setErrflags v s) j = keyAt s j := rfl
@[simp] theorem ftAt_emptyTstk (s : State) (j : Nat) : ftAt (emptyTstk s) j = ftAt s j := rfl
@[simp] theorem nodeAt_emptyTstk (s : State) (j : Nat) : nodeAt (emptyTstk s) j = nodeAt s j := rfl
@[simp] theorem slotAt_emptyTstk (s : State) (j : Nat) : slotAt (emptyTstk s) j = slotAt s j := rfl
@[simp] theorem cwAt_emptyTstk (s : State) (j : Nat) : cwAt (emptyTstk s) j = cwAt s j := rfl
@[simp] theorem keyAt_emptyTstk (s : State) (j : Nat) : keyAt (emptyTstk s) j = keyAt s j := rfl
@[simp] theorem nodeAt_clearFt (s : State) (j : Nat) : nodeAt (clearFt s) j = nodeAt s j := rfl
@[simp] theorem slotAt_clearFt (s : State) (j : Nat) : slotAt (clearFt s) j = slotAt s j := rfl
@[simp] theorem cwAt_clearFt (s : State) (j : Nat) : cwAt (clearFt s) j = cwAt s j := rfl
@[simp] theorem tstkAt_clearFt (s : State) (j : Nat) : tstkAt (clearFt s) j = tstkAt s j := rfl
@[simp] theorem keyAt_clearFt (s : State) (j : Nat) : keyAt (clearFt s) j = keyAt s j := rfl
@[simp] theorem ftAt_putSlot (s : State) (k : Nat) (x : NodeRef) (j : Nat) : ftAt (putSlot s k x) j = ftAt s j := rfl
@[simp] theorem nodeAt_putSlot (s : State) (k : Nat) (x : NodeRef) (j : Nat) : nodeAt (putSlot s k x) j = nodeAt s j := rfl
@[simp] theorem cwAt_putSlot (s : State) (k : Nat) (x : NodeRef) (j : Nat) : cwAt (putSlot s k x) j = cwAt s j := rfl
@[simp] theorem tstkAt_putSlot (s : State) (k : Nat) (x : NodeRef) (j : Nat) : tstkAt (putSlot s k x) j = tstkAt s j := rfl
@[simp] theorem ftAt_putNode (s : State) (n : NodeRec) (j : Nat) : ftAt (putNode s n) j = ftAt s j := rfl
@[simp] theorem slotAt_putNode (s : State) (n : NodeRec) (j : Nat) : slotAt (putNode s n) j = slotAt s j := rfl
@[simp] theorem cwAt_putNode (s : State) (n : NodeRec) (j : Nat) : cwAt (putNode s n) j = cwAt s j := rfl
@[simp] theorem tstkAt_putNode (s : State) (n : NodeRec) (j : Nat) : tstkAt (putNode s n) j = tstkAt s j := rfl
@[simp] theorem ftAt_putTstk (s : State) (d : Nat) (x : NodeRef) (j : Nat) : ftAt (putTstk s d x) j = ftAt s j := rfl
@[simp] theorem nodeAt_putTstk (s : State) (d : Nat) (x : NodeRef) (j : Nat) : nodeAt (putTstk s d x) j = nodeAt s j := rfl
@[simp] theorem slotAt_putTstk (s : State) (d : Nat) (x : NodeRef) (j : Nat) : slotAt (putTstk s d x) j = slotAt s j := rfl
@[simp] theorem cwAt_putTstk (s : State) (d : Nat) (x : NodeRef) (j : Nat) : cwAt (putTstk s d x) j = cwAt s j := rfl
@[simp] theorem keyAt_putTstk (s : State) (d : Nat) (x : NodeRef) (j : Nat) : keyAt (putTstk s d x) j = keyAt s j := rfl
@[simp] theorem ftAt_visible (s : State) (j : Nat) : ftAt (visible s) j = ftAt s j := rfl
@[simp] theorem nodeAt_visible (s : State) (j : Nat) : nodeAt (visible s) j = nodeAt s j := rfl
@[simp] theorem slotAt_visible (s : State) (j : Nat) : slotAt (visible s) j = slotAt s j := rfl
@[simp] theorem cwAt_visible (s : State) (j : Nat) : cwAt (visible s) j = cwAt s j := rfl
@[simp] theorem tstkAt_visible (s : State) (j : Nat) : tstkAt (visible s) j = tstkAt s j := rfl
@[simp] theorem keyAt_visible (s : State) (j : Nat) : keyAt (visible s) j = keyAt s j := rfl
@[simp] theorem ftAt_setI (v : Count9) (s : State) (j : Nat) : ftAt (setI v s) j = ftAt s j := rfl
@[simp] theorem nodeAt_setI (v : Count9) (s : State) (j : Nat) : nodeAt (setI v s) j = nodeAt s j := rfl
@[simp] theorem slotAt_setI (v : Count9) (s : State) (j : Nat) : slotAt (setI v s) j = slotAt s j := rfl
@[simp] theorem cwAt_setI (v : Count9) (s : State) (j : Nat) : cwAt (setI v s) j = cwAt s j := rfl
@[simp] theorem tstkAt_setI (v : Count9) (s : State) (j : Nat) : tstkAt (setI v s) j = tstkAt s j := rfl
@[simp] theorem keyAt_setI (v : Count9) (s : State) (j : Nat) : keyAt (setI v s) j = keyAt s j := rfl
@[simp] theorem ftAt_setM (v : Count9) (s : State) (j : Nat) : ftAt (setM v s) j = ftAt s j := rfl
@[simp] theorem nodeAt_setM (v : Count9) (s : State) (j : Nat) : nodeAt (setM v s) j = nodeAt s j := rfl
@[simp] theorem slotAt_setM (v : Count9) (s : State) (j : Nat) : slotAt (setM v s) j = slotAt s j := rfl
@[simp] theorem cwAt_setM (v : Count9) (s : State) (j : Nat) : cwAt (setM v s) j = cwAt s j := rfl
@[simp] theorem tstkAt_setM (v : Count9) (s : State) (j : Nat) : tstkAt (setM v s) j = tstkAt s j := rfl
@[simp] theorem keyAt_setM (v : Count9) (s : State) (j : Nat) : keyAt (setM v s) j = keyAt s j := rfl
@[simp] theorem ftAt_setXN (v : NodeRef) (s : State) (j : Nat) : ftAt (setXN v s) j = ftAt s j := rfl
@[simp] theorem nodeAt_setXN (v : NodeRef) (s : State) (j : Nat) : nodeAt (setXN v s) j = nodeAt s j := rfl
@[simp] theorem slotAt_setXN (v : NodeRef) (s : State) (j : Nat) : slotAt (setXN v s) j = slotAt s j := rfl
@[simp] theorem cwAt_setXN (v : NodeRef) (s : State) (j : Nat) : cwAt (setXN v s) j = cwAt s j := rfl
@[simp] theorem tstkAt_setXN (v : NodeRef) (s : State) (j : Nat) : tstkAt (setXN v s) j = tstkAt s j := rfl
@[simp] theorem keyAt_setXN (v : NodeRef) (s : State) (j : Nat) : keyAt (setXN v s) j = keyAt s j := rfl
@[simp] theorem ftAt_setS (v : Count9) (s : State) (j : Nat) : ftAt (setS v s) j = ftAt s j := rfl
@[simp] theorem nodeAt_setS (v : Count9) (s : State) (j : Nat) : nodeAt (setS v s) j = nodeAt s j := rfl
@[simp] theorem slotAt_setS (v : Count9) (s : State) (j : Nat) : slotAt (setS v s) j = slotAt s j := rfl
@[simp] theorem cwAt_setS (v : Count9) (s : State) (j : Nat) : cwAt (setS v s) j = cwAt s j := rfl
@[simp] theorem tstkAt_setS (v : Count9) (s : State) (j : Nat) : tstkAt (setS v s) j = tstkAt s j := rfl
@[simp] theorem keyAt_setS (v : Count9) (s : State) (j : Nat) : keyAt (setS v s) j = keyAt s j := rfl
@[simp] theorem ftAt_setN (v : Count9) (s : State) (j : Nat) : ftAt (setN v s) j = ftAt s j := rfl
@[simp] theorem nodeAt_setN (v : Count9) (s : State) (j : Nat) : nodeAt (setN v s) j = nodeAt s j := rfl
@[simp] theorem slotAt_setN (v : Count9) (s : State) (j : Nat) : slotAt (setN v s) j = slotAt s j := rfl
@[simp] theorem cwAt_setN (v : Count9) (s : State) (j : Nat) : cwAt (setN v s) j = cwAt s j := rfl
@[simp] theorem tstkAt_setN (v : Count9) (s : State) (j : Nat) : tstkAt (setN v s) j = tstkAt s j := rfl
@[simp] theorem keyAt_setN (v : Count9) (s : State) (j : Nat) : keyAt (setN v s) j = keyAt s j := rfl
@[simp] theorem ftAt_setACC (v : Sum) (s : State) (j : Nat) : ftAt (setACC v s) j = ftAt s j := rfl
@[simp] theorem nodeAt_setACC (v : Sum) (s : State) (j : Nat) : nodeAt (setACC v s) j = nodeAt s j := rfl
@[simp] theorem slotAt_setACC (v : Sum) (s : State) (j : Nat) : slotAt (setACC v s) j = slotAt s j := rfl
@[simp] theorem cwAt_setACC (v : Sum) (s : State) (j : Nat) : cwAt (setACC v s) j = cwAt s j := rfl
@[simp] theorem tstkAt_setACC (v : Sum) (s : State) (j : Nat) : tstkAt (setACC v s) j = tstkAt s j := rfl
@[simp] theorem keyAt_setACC (v : Sum) (s : State) (j : Nat) : keyAt (setACC v s) j = keyAt s j := rfl
@[simp] theorem ftAt_setU (v : NodeRef) (s : State) (j : Nat) : ftAt (setU v s) j = ftAt s j := rfl
@[simp] theorem nodeAt_setU (v : NodeRef) (s : State) (j : Nat) : nodeAt (setU v s) j = nodeAt s j := rfl
@[simp] theorem slotAt_setU (v : NodeRef) (s : State) (j : Nat) : slotAt (setU v s) j = slotAt s j := rfl
@[simp] theorem cwAt_setU (v : NodeRef) (s : State) (j : Nat) : cwAt (setU v s) j = cwAt s j := rfl
@[simp] theorem tstkAt_setU (v : NodeRef) (s : State) (j : Nat) : tstkAt (setU v s) j = tstkAt s j := rfl
@[simp] theorem keyAt_setU (v : NodeRef) (s : State) (j : Nat) : keyAt (setU v s) j = keyAt s j := rfl
@[simp] theorem ftAt_setV (v : NodeRef) (s : State) (j : Nat) : ftAt (setV v s) j = ftAt s j := rfl
@[simp] theorem nodeAt_setV (v : NodeRef) (s : State) (j : Nat) : nodeAt (setV v s) j = nodeAt s j := rfl
@[simp] theorem slotAt_setV (v : NodeRef) (s : State) (j : Nat) : slotAt (setV v s) j = slotAt s j := rfl
@[simp] theorem cwAt_setV (v : NodeRef) (s : State) (j : Nat) : cwAt (setV v s) j = cwAt s j := rfl
@[simp] theorem tstkAt_setV (v : NodeRef) (s : State) (j : Nat) : tstkAt (setV v s) j = tstkAt s j := rfl
@[simp] theorem keyAt_setV (v : NodeRef) (s : State) (j : Nat) : keyAt (setV v s) j = keyAt s j := rfl
@[simp] theorem ftAt_setW (v : NodeRef) (s : State) (j : Nat) : ftAt (setW v s) j = ftAt s j := rfl
@[simp] theorem nodeAt_setW (v : NodeRef) (s : State) (j : Nat) : nodeAt (setW v s) j = nodeAt s j := rfl
@[simp] theorem slotAt_setW (v : NodeRef) (s : State) (j : Nat) : slotAt (setW v s) j = slotAt s j := rfl
@[simp] theorem cwAt_setW (v : NodeRef) (s : State) (j : Nat) : cwAt (setW v s) j = cwAt s j := rfl
@[simp] theorem tstkAt_setW (v : NodeRef) (s : State) (j : Nat) : tstkAt (setW v s) j = tstkAt s j := rfl
@[simp] theorem keyAt_setW (v : NodeRef) (s : State) (j : Nat) : keyAt (setW v s) j = keyAt s j := rfl
@[simp] theorem ftAt_setCUR (v : NodeRef) (s : State) (j : Nat) : ftAt (setCUR v s) j = ftAt s j := rfl
@[simp] theorem nodeAt_setCUR (v : NodeRef) (s : State) (j : Nat) : nodeAt (setCUR v s) j = nodeAt s j := rfl
@[simp] theorem slotAt_setCUR (v : NodeRef) (s : State) (j : Nat) : slotAt (setCUR v s) j = slotAt s j := rfl
@[simp] theorem cwAt_setCUR (v : NodeRef) (s : State) (j : Nat) : cwAt (setCUR v s) j = cwAt s j := rfl
@[simp] theorem tstkAt_setCUR (v : NodeRef) (s : State) (j : Nat) : tstkAt (setCUR v s) j = tstkAt s j := rfl
@[simp] theorem keyAt_setCUR (v : NodeRef) (s : State) (j : Nat) : keyAt (setCUR v s) j = keyAt s j := rfl
@[simp] theorem ftAt_setDEPTH (v : Len) (s : State) (j : Nat) : ftAt (setDEPTH v s) j = ftAt s j := rfl
@[simp] theorem nodeAt_setDEPTH (v : Len) (s : State) (j : Nat) : nodeAt (setDEPTH v s) j = nodeAt s j := rfl
@[simp] theorem slotAt_setDEPTH (v : Len) (s : State) (j : Nat) : slotAt (setDEPTH v s) j = slotAt s j := rfl
@[simp] theorem cwAt_setDEPTH (v : Len) (s : State) (j : Nat) : cwAt (setDEPTH v s) j = cwAt s j := rfl
@[simp] theorem tstkAt_setDEPTH (v : Len) (s : State) (j : Nat) : tstkAt (setDEPTH v s) j = tstkAt s j := rfl
@[simp] theorem keyAt_setDEPTH (v : Len) (s : State) (j : Nat) : keyAt (setDEPTH v s) j = keyAt s j := rfl
@[simp] theorem ftAt_setPATH (v : Bits) (s : State) (j : Nat) : ftAt (setPATH v s) j = ftAt s j := rfl
@[simp] theorem nodeAt_setPATH (v : Bits) (s : State) (j : Nat) : nodeAt (setPATH v s) j = nodeAt s j := rfl
@[simp] theorem slotAt_setPATH (v : Bits) (s : State) (j : Nat) : slotAt (setPATH v s) j = slotAt s j := rfl
@[simp] theorem cwAt_setPATH (v : Bits) (s : State) (j : Nat) : cwAt (setPATH v s) j = cwAt s j := rfl
@[simp] theorem tstkAt_setPATH (v : Bits) (s : State) (j : Nat) : tstkAt (setPATH v s) j = tstkAt s j := rfl
@[simp] theorem keyAt_setPATH (v : Bits) (s : State) (j : Nat) : keyAt (setPATH v s) j = keyAt s j := rfl
@[simp] theorem ftAt_setCNT (v : Count9) (s : State) (j : Nat) : ftAt (setCNT v s) j = ftAt s j := rfl
@[simp] theorem nodeAt_setCNT (v : Count9) (s : State) (j : Nat) : nodeAt (setCNT v s) j = nodeAt s j := rfl
@[simp] theorem slotAt_setCNT (v : Count9) (s : State) (j : Nat) : slotAt (setCNT v s) j = slotAt s j := rfl
@[simp] theorem cwAt_setCNT (v : Count9) (s : State) (j : Nat) : cwAt (setCNT v s) j = cwAt s j := rfl
@[simp] theorem tstkAt_setCNT (v : Count9) (s : State) (j : Nat) : tstkAt (setCNT v s) j = tstkAt s j := rfl
@[simp] theorem keyAt_setCNT (v : Count9) (s : State) (j : Nat) : keyAt (setCNT v s) j = keyAt s j := rfl

/-! ### The canonical form and the idle units under updates of other state -/

/-- The canonical form is a property of the five arrays and the parameters alone. -/
theorem wf_congr {s t : State} (hp : t.params = s.params) (hf : t.ft = s.ft) (hn : t.node = s.node) (hh : t.heap = s.heap) (hc : t.cw = s.cw)
    (ht : t.tstk = s.tstk) : Memory.wf t = Memory.wf s := by
  simp [Memory.wf, hp, hf, hn, hh, hc, ht]

@[simp] theorem unitsIdle_writeFt (s : State) (i : Symbol) (v : Key) : unitsIdle (writeFt s i v) = unitsIdle s := rfl
@[simp] theorem unitsIdle_putCw (s : State) (i : Symbol) (l : Len) (b : Bits) : unitsIdle (putCw s i l b) = unitsIdle s := rfl
@[simp] theorem unitsIdle_invalidateCw (s : State) : unitsIdle (invalidateCw s) = unitsIdle s := rfl
@[simp] theorem unitsIdle_dropSlot (s : State) (k : Nat) : unitsIdle (dropSlot s k) = unitsIdle s := rfl
@[simp] theorem unitsIdle_createQueue (s : State) (c : Count9) : unitsIdle (createQueue s c) = unitsIdle s := rfl
@[simp] theorem unitsIdle_emptyArena (s : State) : unitsIdle (emptyArena s) = unitsIdle s := rfl
@[simp] theorem unitsIdle_dropTstk (s : State) (d : Nat) : unitsIdle (dropTstk s d) = unitsIdle s := rfl
@[simp] theorem wf_respond (st : BitVec 8) (a : BitVec 24) (b : BitVec 32) (s : State) : Memory.wf (respond st a b s) = Memory.wf s :=
  wf_congr rfl rfl rfl rfl rfl rfl
@[simp] theorem unitsIdle_respond (st : BitVec 8) (a : BitVec 24) (b : BitVec 32) (s : State) : unitsIdle (respond st a b s) = unitsIdle s := rfl
@[simp] theorem wf_respondOk (a : BitVec 24) (b : BitVec 32) (s : State) : Memory.wf (respondOk a b s) = Memory.wf s :=
  wf_congr rfl rfl rfl rfl rfl rfl
@[simp] theorem unitsIdle_respondOk (a : BitVec 24) (b : BitVec 32) (s : State) : unitsIdle (respondOk a b s) = unitsIdle s := rfl
@[simp] theorem wf_raise (e : ErrKind) (s : State) : Memory.wf (raise e s) = Memory.wf s :=
  wf_congr rfl rfl rfl rfl rfl rfl
@[simp] theorem unitsIdle_raise (e : ErrKind) (s : State) : unitsIdle (raise e s) = unitsIdle s := rfl
@[simp] theorem unitsIdle_dropWorking (s : State) : unitsIdle (dropWorking s) = unitsIdle s := rfl
@[simp] theorem wf_afterEdge (s : State) : Memory.wf (afterEdge s) = Memory.wf s :=
  wf_congr rfl rfl rfl rfl rfl rfl
@[simp] theorem unitsIdle_afterEdge (s : State) : unitsIdle (afterEdge s) = unitsIdle s := rfl
@[simp] theorem wf_setPqFsm (f : PqState) (s : State) : Memory.wf (setPqFsm f s) = Memory.wf s :=
  wf_congr rfl rfl rfl rfl rfl rfl
@[simp] theorem wf_setTbFsm (f : TbState) (s : State) : Memory.wf (setTbFsm f s) = Memory.wf s :=
  wf_congr rfl rfl rfl rfl rfl rfl
@[simp] theorem wf_setCrFsm (f : CrState) (s : State) : Memory.wf (setCrFsm f s) = Memory.wf s :=
  wf_congr rfl rfl rfl rfl rfl rfl
@[simp] theorem wf_setPqSize (v : Count9) (s : State) : Memory.wf (setPqSize v s) = Memory.wf s :=
  wf_congr rfl rfl rfl rfl rfl rfl
@[simp] theorem unitsIdle_setPqSize (v : Count9) (s : State) : unitsIdle (setPqSize v s) = unitsIdle s := rfl
@[simp] theorem wf_setTree (r : NodeRef) (n : Count9) (v : Bool) (s : State) : Memory.wf (setTree r n v s) = Memory.wf s :=
  wf_congr rfl rfl rfl rfl rfl rfl
@[simp] theorem unitsIdle_setTree (r : NodeRef) (n : Count9) (v : Bool) (s : State) : unitsIdle (setTree r n v s) = unitsIdle s := rfl
@[simp] theorem wf_setCwReady (v : Bool) (s : State) : Memory.wf (setCwReady v s) = Memory.wf s :=
  wf_congr rfl rfl rfl rfl rfl rfl
@[simp] theorem unitsIdle_setCwReady (v : Bool) (s : State) : unitsIdle (setCwReady v s) = unitsIdle s := rfl
@[simp] theorem wf_setFatal (v : Bool) (s : State) : Memory.wf (setFatal v s) = Memory.wf s :=
  wf_congr rfl rfl rfl rfl rfl rfl
@[simp] theorem unitsIdle_setFatal (v : Bool) (s : State) : unitsIdle (setFatal v s) = unitsIdle s := rfl
@[simp] theorem wf_setErrflags (v : ErrBits) (s : State) : Memory.wf (setErrflags v s) = Memory.wf s :=
  wf_congr rfl rfl rfl rfl rfl rfl
@[simp] theorem unitsIdle_setErrflags (v : ErrBits) (s : State) : unitsIdle (setErrflags v s) = unitsIdle s := rfl
@[simp] theorem unitsIdle_emptyTstk (s : State) : unitsIdle (emptyTstk s) = unitsIdle s := rfl
@[simp] theorem unitsIdle_clearFt (s : State) : unitsIdle (clearFt s) = unitsIdle s := rfl
@[simp] theorem unitsIdle_putSlot (s : State) (k : Nat) (x : NodeRef) : unitsIdle (putSlot s k x) = unitsIdle s := rfl
@[simp] theorem unitsIdle_putNode (s : State) (n : NodeRec) : unitsIdle (putNode s n) = unitsIdle s := rfl
@[simp] theorem unitsIdle_putTstk (s : State) (d : Nat) (x : NodeRef) : unitsIdle (putTstk s d x) = unitsIdle s := rfl
@[simp] theorem wf_visible (s : State) : Memory.wf (visible s) = Memory.wf s :=
  wf_congr rfl rfl rfl rfl rfl rfl
@[simp] theorem unitsIdle_visible (s : State) : unitsIdle (visible s) = unitsIdle s := rfl
@[simp] theorem wf_setI (v : Count9) (s : State) : Memory.wf (setI v s) = Memory.wf s :=
  wf_congr rfl rfl rfl rfl rfl rfl
@[simp] theorem unitsIdle_setI (v : Count9) (s : State) : unitsIdle (setI v s) = unitsIdle s := rfl
@[simp] theorem wf_setM (v : Count9) (s : State) : Memory.wf (setM v s) = Memory.wf s :=
  wf_congr rfl rfl rfl rfl rfl rfl
@[simp] theorem unitsIdle_setM (v : Count9) (s : State) : unitsIdle (setM v s) = unitsIdle s := rfl
@[simp] theorem wf_setXN (v : NodeRef) (s : State) : Memory.wf (setXN v s) = Memory.wf s :=
  wf_congr rfl rfl rfl rfl rfl rfl
@[simp] theorem unitsIdle_setXN (v : NodeRef) (s : State) : unitsIdle (setXN v s) = unitsIdle s := rfl
@[simp] theorem wf_setS (v : Count9) (s : State) : Memory.wf (setS v s) = Memory.wf s :=
  wf_congr rfl rfl rfl rfl rfl rfl
@[simp] theorem unitsIdle_setS (v : Count9) (s : State) : unitsIdle (setS v s) = unitsIdle s := rfl
@[simp] theorem wf_setN (v : Count9) (s : State) : Memory.wf (setN v s) = Memory.wf s :=
  wf_congr rfl rfl rfl rfl rfl rfl
@[simp] theorem unitsIdle_setN (v : Count9) (s : State) : unitsIdle (setN v s) = unitsIdle s := rfl
@[simp] theorem wf_setACC (v : Sum) (s : State) : Memory.wf (setACC v s) = Memory.wf s :=
  wf_congr rfl rfl rfl rfl rfl rfl
@[simp] theorem unitsIdle_setACC (v : Sum) (s : State) : unitsIdle (setACC v s) = unitsIdle s := rfl
@[simp] theorem wf_setU (v : NodeRef) (s : State) : Memory.wf (setU v s) = Memory.wf s :=
  wf_congr rfl rfl rfl rfl rfl rfl
@[simp] theorem unitsIdle_setU (v : NodeRef) (s : State) : unitsIdle (setU v s) = unitsIdle s := rfl
@[simp] theorem wf_setV (v : NodeRef) (s : State) : Memory.wf (setV v s) = Memory.wf s :=
  wf_congr rfl rfl rfl rfl rfl rfl
@[simp] theorem unitsIdle_setV (v : NodeRef) (s : State) : unitsIdle (setV v s) = unitsIdle s := rfl
@[simp] theorem wf_setW (v : NodeRef) (s : State) : Memory.wf (setW v s) = Memory.wf s :=
  wf_congr rfl rfl rfl rfl rfl rfl
@[simp] theorem unitsIdle_setW (v : NodeRef) (s : State) : unitsIdle (setW v s) = unitsIdle s := rfl
@[simp] theorem wf_setCUR (v : NodeRef) (s : State) : Memory.wf (setCUR v s) = Memory.wf s :=
  wf_congr rfl rfl rfl rfl rfl rfl
@[simp] theorem unitsIdle_setCUR (v : NodeRef) (s : State) : unitsIdle (setCUR v s) = unitsIdle s := rfl
@[simp] theorem wf_setDEPTH (v : Len) (s : State) : Memory.wf (setDEPTH v s) = Memory.wf s :=
  wf_congr rfl rfl rfl rfl rfl rfl
@[simp] theorem unitsIdle_setDEPTH (v : Len) (s : State) : unitsIdle (setDEPTH v s) = unitsIdle s := rfl
@[simp] theorem wf_setPATH (v : Bits) (s : State) : Memory.wf (setPATH v s) = Memory.wf s :=
  wf_congr rfl rfl rfl rfl rfl rfl
@[simp] theorem unitsIdle_setPATH (v : Bits) (s : State) : unitsIdle (setPATH v s) = unitsIdle s := rfl
@[simp] theorem wf_setCNT (v : Count9) (s : State) : Memory.wf (setCNT v s) = Memory.wf s :=
  wf_congr rfl rfl rfl rfl rfl rfl
@[simp] theorem unitsIdle_setCNT (v : Count9) (s : State) : unitsIdle (setCNT v s) = unitsIdle s := rfl
@[simp] theorem wf_builderStart (s : State) : Memory.wf (builderStart s) = Memory.wf s := by simp [builderStart]

theorem slotAt_putSlot (s : State) (k j : Nat) (x : NodeRef) :
    slotAt (putSlot s k x) j = if j = k then some x else slotAt s j := arrGet_set ..

theorem nodeAt_putNode (s : State) (n : NodeRec) (j : Nat) :
    nodeAt (putNode s n) j = if j = s.nodeCnt.toNat then some n else nodeAt s j := arrGet_set ..

theorem tstkAt_putTstk (s : State) (d j : Nat) (x : NodeRef) :
    tstkAt (putTstk s d x) j = if j = d then some x else tstkAt s j := arrGet_set ..

@[simp] theorem ftAt_clearFt (s : State) (j : Nat) : ftAt (clearFt s) j = 0 := rfl

@[simp] theorem tstkAt_emptyTstk (s : State) (d : Nat) : tstkAt (emptyTstk s) d = none := rfl

theorem ftAt_writeFt (s : State) (i : Symbol) (v : Key) (j : Nat) :
    ftAt (writeFt s i v) j = if j = i.toNat then v else ftAt s j := by
  unfold ftAt writeFt
  by_cases hv : v = 0
  · subst hv
    simp only [if_true, arrGet_erase]
    split <;> simp
  · simp only [hv, if_false, arrGet_set]
    split <;> simp

theorem cwAt_putCw (s : State) (i : Symbol) (l : Len) (b : Bits) (j : Nat) :
    cwAt (putCw s i l b) j = if j = i.toNat then some { len := l, bits := b } else cwAt s j := arrGet_set ..

@[simp] theorem cwAt_invalidateCw (s : State) (j : Nat) : cwAt (invalidateCw s) j = none := rfl

theorem slotAt_dropSlot (s : State) (k j : Nat) : slotAt (dropSlot s k) j = if j = k then none else slotAt s j :=
  arrGet_erase ..

@[simp] theorem slotAt_createQueue (s : State) (c : Count9) (k : Nat) : slotAt (createQueue s c) k = none := rfl

@[simp] theorem nodeAt_emptyArena (s : State) (i : Nat) : nodeAt (emptyArena s) i = none := rfl

theorem tstkAt_dropTstk (s : State) (d j : Nat) : tstkAt (dropTstk s d) j = if j = d then none else tstkAt s j :=
  arrGet_erase ..

end Sys2Proof.Machine
end

