-- ==== Sys2Proof/Laws/Ops.lean ====
section
/-!
SUPPORT. For each shared operation of Machine/Ops.lean and Machine/Operands.lean, what it can answer; and that every memory operation
keeps the canonical form.
-/

namespace Sys2Proof.Machine

/-! ### Outcomes in sequence -/

@[simp] theorem andThen_next (s : State) (f : State → Result) : andThen (.next s) f = f s := rfl
@[simp] theorem andThen_fault (e : Fault) (f : State → Result) : andThen (.fault e) f = .fault e := rfl
@[simp] theorem andThen_refused (e : Refusal) (f : State → Result) : andThen (.refused e) f = .refused e := rfl

theorem andThen_eq_next {r : Result} {f : State → Result} {t : State} :
    andThen r f = .next t ↔ ∃ s, r = .next s ∧ f s = .next t := by
  cases r <;> simp

theorem andThen_assoc (r : Result) (f g : State → Result) :
    andThen (andThen r f) g = andThen r fun s => andThen (f s) g := by
  cases r <;> simp

/-! ### Reads -/

theorem readNode_eq_next {s : State} {i : Nat} {f : NodeRec → Result} {t : State} :
    readNode s i f = .next t ↔ ∃ n, nodeAt s i = some n ∧ f n = .next t := by
  unfold readNode
  cases nodeAt s i <;> simp

theorem readSlot_eq_next {s : State} {k : Nat} {f : NodeRef → Result} {t : State} :
    readSlot s k f = .next t ↔ ∃ x, slotAt s k = some x ∧ f x = .next t := by
  unfold readSlot
  cases slotAt s k <;> simp

theorem readTstk_eq_next {s : State} {d : Nat} {f : NodeRef → Result} {t : State} :
    readTstk s d f = .next t ↔ ∃ x, tstkAt s d = some x ∧ f x = .next t := by
  unfold readTstk
  cases tstkAt s d <;> simp

theorem keyAt_eq_some {s : State} {k : Nat} {v : Key} :
    keyAt s k = some v ↔ ∃ x n, slotAt s k = some x ∧ nodeAt s x.toNat = some n ∧ n.freq = v := by
  unfold keyAt
  cases slotAt s k with
  | none => simp
  | some x =>
    cases h : nodeAt s x.toNat with
    | none => simp [h]
    | some n => simp [h]

theorem readNode_some {s : State} {i : Nat} {n : NodeRec} (f : NodeRec → Result) (h : nodeAt s i = some n) :
    readNode s i f = f n := by simp [readNode, h]

theorem readSlot_some {s : State} {k : Nat} {x : NodeRef} (f : NodeRef → Result) (h : slotAt s k = some x) :
    readSlot s k f = f x := by simp [readSlot, h]

theorem readTstk_some {s : State} {d : Nat} {x : NodeRef} (f : NodeRef → Result) (h : tstkAt s d = some x) :
    readTstk s d f = f x := by simp [readTstk, h]

theorem readKey_some {s : State} {k : Nat} {v : Key} (f : Key → Result) (h : keyAt s k = some v) :
    readKey s k f = f v := by
  obtain ⟨x, n, hx, hn, rfl⟩ := keyAt_eq_some.1 h
  simp [readKey, readSlot_some _ hx, readNode_some _ hn]

theorem readKey_eq_next {s : State} {k : Nat} {f : Key → Result} {t : State} :
    readKey s k f = .next t ↔ ∃ v, keyAt s k = some v ∧ f v = .next t := by
  constructor
  · intro h
    obtain ⟨x, hx, h⟩ := readSlot_eq_next.1 h
    obtain ⟨n, hn, h⟩ := readNode_eq_next.1 h
    exact ⟨n.freq, keyAt_eq_some.2 ⟨x, n, hx, hn, rfl⟩, h⟩
  · rintro ⟨v, hv, h⟩
    rwa [readKey_some _ hv]

/-! ### Writes -/

theorem writeSlot_eq_next {s t : State} {k : Nat} {x : NodeRef} :
    writeSlot s k x = .next t ↔ k < s.params.nsym ∧ t = putSlot s k x := by
  unfold writeSlot
  by_cases h : k < s.params.nsym <;> simp [h, eq_comm]

theorem writeTstk_eq_next {s t : State} {d : Nat} {x : NodeRef} :
    writeTstk s d x = .next t ↔ d < s.params.codeMax ∧ t = putTstk s d x := by
  unfold writeTstk
  by_cases h : d < s.params.codeMax <;> simp [h, eq_comm]

theorem writeCw_eq_next {s t : State} {i : Symbol} {l : Len} {b : Bits} :
    writeCw s i l b = .next t ↔ i.toNat < s.params.nsym ∧ t = putCw s i l b := by
  unfold writeCw
  by_cases h : i.toNat < s.params.nsym <;> simp [h, eq_comm]

theorem allocNode_eq_next {s t : State} {n : NodeRec} :
    allocNode s n = .next t ↔
      s.nodeCnt.toNat < s.params.nodeMax ∧ t = putNode s n := by
  unfold allocNode
  by_cases h : s.nodeCnt.toNat < s.params.nodeMax <;> simp [h, eq_comm]

/-! ### Digits -/

theorem digitAt_setDigit (p : Bits) (i j : Nat) (d : Bool) (hj : j < 256) :
    digitAt (setDigit p i d) j = if j = i then d else digitAt p j := by
  have hbit : (1#256 <<< i).getLsbD j = decide (j = i) := by
    rw [BitVec.getLsbD_shiftLeft, BitVec.getLsbD_one]
    rcases Nat.lt_trichotomy j i with h | h | h
    · simp [h, Nat.ne_of_lt h]
    · subst h; simp [hj]
    · have h1 : j - i ≠ 0 := by omega
      simp [h1, Nat.ne_of_gt h]
  unfold digitAt setDigit
  cases d
  · rw [if_neg (by simp), BitVec.getLsbD_and, BitVec.getLsbD_not, hbit]
    by_cases h : j = i <;> simp [h, hj]
  · rw [if_pos rfl, BitVec.getLsbD_or, hbit]
    by_cases h : j = i <;> simp [h]

/-! ### Errors and dispatch -/

theorem unitsIdle_iff {s : State} :
    unitsIdle s = true ↔ s.pqFsm = .pIdle ∧ s.tbFsm = .bIdle ∧ s.crFsm = .gIdle := by
  simp [unitsIdle, and_assoc]

/-- The sticky bit of `e` is set and every other bit is as before (10_state.md R34). -/
theorem setErrBit_bit (f : ErrBits) (e : ErrKind) (i : Nat) :
    (setErrBit f e).getLsbD i = (f.getLsbD i || decide (i = errCode e)) := by
  have hc : errCode e < 10 := by cases e <;> decide
  unfold setErrBit
  by_cases h : i = errCode e
  · subst h; simp [hc]
  · rcases Nat.lt_or_gt_of_ne h with hlt | hlt
    · simp [h, hlt]
    · have h0 : (1#10).getLsbD (i - errCode e) = false := by
        rw [BitVec.getLsbD_one]; simp; omega
      simp [h, h0]

theorem errCode_injective {e f : ErrKind} (h : errCode e = errCode f) : e = f := by
  cases e <;> cases f <;> first | rfl | exact absurd h (by decide)

theorem unlessHalted_eq_next {s t : State} {k : Result} :
    unlessHalted s k = .next t ↔ (s.fatal = true ∧ t = raise .halted s) ∨ (s.fatal = false ∧ k = .next t) := by
  unfold unlessHalted
  cases s.fatal <;> simp [eq_comm]

theorem unlessHalted_running {s : State} (k : Result) (h : s.fatal = false) : unlessHalted s k = k := by
  simp [unlessHalted, h]

theorem withOperand_eq_next {α : Type} {o : Option α} {s t : State} {k : α → Result} :
    withOperand o s k = .next t ↔ (o = none ∧ t = raise .badOperand s) ∨ ∃ v, o = some v ∧ k v = .next t := by
  unfold withOperand
  cases o <;> simp [eq_comm]

/-! ### The fields of a response word (30_encoding.md R95) -/

/-- `st` of a response word. -/
theorem responseWord_st (st : BitVec 8) (a : BitVec 24) (b : BitVec 32) : (responseWord st a b).extractLsb' 56 8 = st := by
  apply BitVec.eq_of_getLsbD_eq
  intro i hi
  simp only [responseWord, BitVec.getLsbD_extractLsb', BitVec.getLsbD_append, hi, decide_true, Bool.true_and]
  rw [if_neg (by omega), if_neg (by omega)]
  congr 1
  omega

/-- `a` of a response word. -/
theorem responseWord_a (st : BitVec 8) (a : BitVec 24) (b : BitVec 32) : (responseWord st a b).extractLsb' 32 24 = a := by
  apply BitVec.eq_of_getLsbD_eq
  intro i hi
  simp only [responseWord, BitVec.getLsbD_extractLsb', BitVec.getLsbD_append, hi, decide_true, Bool.true_and]
  rw [if_neg (by omega), if_pos (by omega)]
  congr 1
  omega

/-- `b` of a response word. -/
theorem responseWord_b (st : BitVec 8) (a : BitVec 24) (b : BitVec 32) : (responseWord st a b).extractLsb' 0 32 = b := by
  apply BitVec.eq_of_getLsbD_eq
  intro i hi
  simp only [responseWord, BitVec.getLsbD_extractLsb', BitVec.getLsbD_append, hi, decide_true, Bool.true_and]
  rw [if_pos (by omega)]
  congr 1
  omega

theorem responseWord_inj {st st' : BitVec 8} {a a' : BitVec 24} {b b' : BitVec 32}
    (h : responseWord st a b = responseWord st' a' b') : st = st' ∧ a = a' ∧ b = b' :=
  ⟨by rw [← responseWord_st st a b, h, responseWord_st], by rw [← responseWord_a st a b, h, responseWord_a],
    by rw [← responseWord_b st a b, h, responseWord_b]⟩

/-! ### The canonical form of memory -/

/-- The parts of the canonical form. -/
theorem wf_iff {s : State} :
    Memory.wf s = true ↔ arrWf s.params.nsym s.ft = true ∧ (∀ e ∈ s.ft, e.2 ≠ 0) ∧ arrWf s.params.nodeMax s.node = true ∧
      arrWf s.params.nsym s.heap = true ∧ arrWf s.params.nsym s.cw = true ∧ arrWf s.params.codeMax s.tstk = true := by
  simp only [Memory.wf, Bool.and_eq_true, List.all_eq_true, bne_iff_ne]
  tauto

theorem wf_resetAt (p : Params) (h : List HostPins) : Memory.wf (State.resetAt p h) = true := rfl

theorem wf_writeFt {s : State} (i : Symbol) (v : Key) (hi : i.toNat < s.params.nsym) (h : Memory.wf s = true) :
    Memory.wf (writeFt s i v) = true := by
  obtain ⟨hf, hz, rest⟩ := wf_iff.1 h
  refine wf_iff.2 ⟨?_, ?_, rest⟩
  · simp only [writeFt]
    split
    · exact arrWf_erase _ hf
    · exact arrWf_set v hi hf
  · intro e he
    simp only [writeFt] at he
    split at he
    · exact hz e (mem_of_mem_arrErase he)
    · rcases mem_arrSet he with he | he
      · simp_all
      · exact hz e he

theorem wf_writeCw {s t : State} {i : Symbol} {l : Len} {b : Bits} (h : Memory.wf s = true) (hw : writeCw s i l b = .next t) :
    Memory.wf t = true := by
  obtain ⟨hi, rfl⟩ := writeCw_eq_next.1 hw
  obtain ⟨hf, hz, hn, hh, hc, ht⟩ := wf_iff.1 h
  exact wf_iff.2 ⟨hf, hz, hn, hh, arrWf_set _ hi hc, ht⟩

theorem wf_invalidateCw {s : State} (h : Memory.wf s = true) : Memory.wf (invalidateCw s) = true := by
  obtain ⟨hf, hz, hn, hh, -, ht⟩ := wf_iff.1 h
  exact wf_iff.2 ⟨hf, hz, hn, hh, arrWf_nil _, ht⟩

theorem wf_writeSlot {s t : State} {k : Nat} {x : NodeRef} (h : Memory.wf s = true) (hw : writeSlot s k x = .next t) :
    Memory.wf t = true := by
  obtain ⟨hk, rfl⟩ := writeSlot_eq_next.1 hw
  obtain ⟨hf, hz, hn, hh, hc, ht⟩ := wf_iff.1 h
  exact wf_iff.2 ⟨hf, hz, hn, arrWf_set x hk hh, hc, ht⟩

theorem wf_dropSlot {s : State} (k : Nat) (h : Memory.wf s = true) : Memory.wf (dropSlot s k) = true := by
  obtain ⟨hf, hz, hn, hh, hc, ht⟩ := wf_iff.1 h
  exact wf_iff.2 ⟨hf, hz, hn, arrWf_erase k hh, hc, ht⟩

theorem wf_createQueue {s : State} (c : Count9) (h : Memory.wf s = true) : Memory.wf (createQueue s c) = true := by
  obtain ⟨hf, hz, hn, -, hc, ht⟩ := wf_iff.1 h
  exact wf_iff.2 ⟨hf, hz, hn, arrWf_nil _, hc, ht⟩

theorem wf_emptyArena {s : State} (h : Memory.wf s = true) : Memory.wf (emptyArena s) = true := by
  obtain ⟨hf, hz, -, hh, hc, ht⟩ := wf_iff.1 h
  exact wf_iff.2 ⟨hf, hz, arrWf_nil _, hh, hc, ht⟩

theorem wf_allocNode {s t : State} {n : NodeRec} (h : Memory.wf s = true) (ha : allocNode s n = .next t) :
    Memory.wf t = true := by
  obtain ⟨hk, rfl⟩ := allocNode_eq_next.1 ha
  obtain ⟨hf, hz, hn, hh, hc, ht⟩ := wf_iff.1 h
  exact wf_iff.2 ⟨hf, hz, arrWf_set n hk hn, hh, hc, ht⟩

theorem wf_writeTstk {s t : State} {d : Nat} {x : NodeRef} (h : Memory.wf s = true) (hw : writeTstk s d x = .next t) :
    Memory.wf t = true := by
  obtain ⟨hd, rfl⟩ := writeTstk_eq_next.1 hw
  obtain ⟨hf, hz, hn, hh, hc, ht⟩ := wf_iff.1 h
  exact wf_iff.2 ⟨hf, hz, hn, hh, hc, arrWf_set x hd ht⟩

theorem wf_dropTstk {s : State} (d : Nat) (h : Memory.wf s = true) : Memory.wf (dropTstk s d) = true := by
  obtain ⟨hf, hz, hn, hh, hc, ht⟩ := wf_iff.1 h
  exact wf_iff.2 ⟨hf, hz, hn, hh, hc, arrWf_erase d ht⟩

end Sys2Proof.Machine
end

