-- ==== Sys2Proof/Laws/PerInstr.lean ====
section
/-!
SUPPORT. One lemma per command about its word (LAWS.json's family `FieldsOfWord`): the word carries the command's opcode and, modulo their
field widths, its operands (30_encoding.md R94, R105).
-/

namespace Sys2Proof.Laws.FieldsOfWord

/-- The fields of a command's word are its opcode and its operands. -/
def Statement (i : Instr) : Prop :=
  opField (encode i) = opcodeValue i.opcode ∧ aField (encode i) = BitVec.ofNat 24 i.operandA ∧
    bField (encode i) = BitVec.ofNat 32 i.operandB

theorem all (i : Instr) : Statement i :=
  ⟨opField_commandWord _ _ _, aField_commandWord _ _ _, bField_commandWord _ _ _⟩

theorem clear : Statement (.clear) := all _
theorem csrRd (a : Nat) : Statement (.csrRd a) := all _
theorem ftWr (a b : Nat) : Statement (.ftWr a b) := all _
theorem ftRd (a : Nat) : Statement (.ftRd a) := all _
theorem leaf (a b : Nat) : Statement (.leaf a b) := all _
theorem nodeRd (a : Nat) : Statement (.nodeRd a) := all _
theorem nodeCh (a : Nat) : Statement (.nodeCh a) := all _
theorem pqInit (a : Nat) : Statement (.pqInit a) := all _
theorem pqIns (a : Nat) : Statement (.pqIns a) := all _
theorem pqExt : Statement (.pqExt) := all _
theorem heapRd (a : Nat) : Statement (.heapRd a) := all _
theorem build : Statement (.build) := all _
theorem genCode : Statement (.genCode) := all _
theorem cwRd (a b : Nat) : Statement (.cwRd a b) := all _

end Sys2Proof.Laws.FieldsOfWord
end

