-- ==== Sys2Proof/Laws/Safety.lean ====
section
/-!
SUPPORT. The invariant on records as a plain conjunction, so that it can be decided of a concrete state.
-/

namespace Sys2Proof.Machine

theorem innerOk_iff {s : State} {i : Nat} {n : NodeRec} :
    InnerOk s i n ↔
      n.sym = 0 ∧ n.left.toNat < i ∧ n.right.toNat < i ∧ n.left ≠ n.right ∧
        ∀ l ∈ nodeAt s n.left.toNat, ∀ r ∈ nodeAt s n.right.toNat, n.freq.toNat = l.freq.toNat + r.freq.toNat :=
  ⟨fun h => ⟨h.sentinel, h.leftBelow, h.rightBelow, h.distinct, h.exactSum⟩, fun ⟨a, b, c, d, e⟩ => ⟨a, b, c, d, e⟩⟩

/-- What two idle blocks alike in everything but the working registers have in common. -/
theorem visible_eq {s t : State} (h : visible s = visible t) :
    s = { t with pq := s.pq, tb := s.tb, cr := s.cr } := by
  obtain ⟨⟩ := s
  obtain ⟨⟩ := t
  simp only [visible, State.mk.injEq] at h ⊢
  simp [h]

end Sys2Proof.Machine
end

