-- ==== Sys2Proof/Laws/Units.lean ====
section
/-!
SUPPORT. What one state-machine step can do, one inversion lemma per step of PQ_FSM, TB_FSM and CR_FSM; that every step keeps the
canonical form of memory; and the induction over a command's steps.
-/

namespace Sys2Proof.Machine

/-! ### PQ_FSM -/

theorem swapSlots_eq_next {s t : State} {i j : Nat} :
    swapSlots s i j = .next t ↔
      ∃ x y, slotAt s i = some x ∧ slotAt s j = some y ∧ i < s.params.nsym ∧ j < s.params.nsym ∧
        t = putSlot (putSlot s i y) j x := by
  simp only [swapSlots, readSlot_eq_next, andThen_eq_next, writeSlot_eq_next]
  constructor
  · rintro ⟨x, hx, y, hy, u, ⟨hi, rfl⟩, hj, rfl⟩
    exact ⟨x, y, hx, hy, hi, hj, rfl⟩
  · rintro ⟨x, y, hx, hy, hi, hj, rfl⟩
    exact ⟨x, hx, y, hy, _, ⟨hi, rfl⟩, hj, rfl⟩

/-- R122 step 0. -/
theorem insertStart_eq_next {x : NodeRef} {s t : State} :
    insertStart x s = .next t ↔
      s.pqSize.toNat < s.params.nsym ∧
        t = setPqFsm .pUp (setPqSize (s.pqSize + 1) (putSlot (setI s.pqSize (setXN x s)) s.pqSize.toNat x)) := by
  simp only [insertStart, andThen_eq_next, writeSlot_eq_next]
  constructor
  · rintro ⟨u, ⟨h, rfl⟩, ht⟩
    cases ht
    exact ⟨h, rfl⟩
  · rintro ⟨h, rfl⟩
    exact ⟨_, ⟨h, rfl⟩, rfl⟩

/-- R122 step P_UP: at the root or below a parent that is not greater, PQ_FSM ends; else parent and element swap. -/
theorem upStep_eq_next {s t : State} :
    upStep s = .next t ↔
      (s.pq.I = 0 ∧ t = setPqFsm .pIdle s) ∨
      (s.pq.I ≠ 0 ∧ ∃ kp ki, keyAt s (parentSlot s.pq.I.toNat) = some kp ∧ keyAt s s.pq.I.toNat = some ki ∧
        ((¬ ki < kp ∧ t = setPqFsm .pIdle s) ∨
         (ki < kp ∧ ∃ u, swapSlots s (parentSlot s.pq.I.toNat) s.pq.I.toNat = .next u ∧
            t = setI (BitVec.ofNat 9 (parentSlot s.pq.I.toNat)) u))) := by
  unfold upStep
  by_cases h : s.pq.I = 0
  · rw [if_pos h]
    constructor
    · intro ht; cases ht; exact .inl ⟨h, rfl⟩
    · rintro (⟨-, rfl⟩ | ⟨hn, -⟩)
      · rfl
      · exact absurd h hn
  · simp only [h, if_false, readKey_eq_next, false_and, not_false_eq_true, true_and, false_or, ne_eq]
    have same : ∀ u, swapSlots s (parentSlot s.pq.I.toNat) s.pq.I.toNat = .next u → u.pq = s.pq := by
      intro u hu
      obtain ⟨x, y, -, -, -, -, rfl⟩ := swapSlots_eq_next.1 hu
      rfl
    constructor
    · rintro ⟨kp, hkp, ki, hki, ht⟩
      refine ⟨kp, ki, hkp, hki, ?_⟩
      by_cases hlt : ki < kp
      · rw [if_pos hlt] at ht
        obtain ⟨u, hu, ht⟩ := andThen_eq_next.1 ht
        rw [same u hu] at ht
        cases ht
        exact .inr ⟨hlt, u, hu, rfl⟩
      · rw [if_neg hlt] at ht
        cases ht
        exact .inl ⟨hlt, rfl⟩
    · rintro ⟨kp, ki, hkp, hki, h⟩
      refine ⟨kp, hkp, ki, hki, ?_⟩
      rcases h with ⟨hlt, rfl⟩ | ⟨hlt, u, hu, rfl⟩
      · rw [if_neg hlt]
      · rw [if_pos hlt]
        exact andThen_eq_next.2 ⟨u, hu, by rw [same u hu]⟩

theorem moveLast_eq_next {s t : State} :
    moveLast s = .next t ↔
      (s.pqSize = 0 ∧ t = dropSlot s 0) ∨
      (s.pqSize ≠ 0 ∧ ∃ y u, slotAt s s.pqSize.toNat = some y ∧ writeSlot s 0 y = .next u ∧
        t = dropSlot u s.pqSize.toNat) := by
  unfold moveLast
  by_cases h : s.pqSize = 0
  · simp [h, eq_comm]
  · simp only [h, if_false, readSlot_eq_next, andThen_eq_next, writeSlot_eq_next, false_and, ne_eq, not_false_eq_true, true_and,
      false_or]
    constructor
    · rintro ⟨y, hy, u, ⟨h0, rfl⟩, ht⟩
      cases ht
      exact ⟨y, _, hy, ⟨h0, rfl⟩, rfl⟩
    · rintro ⟨y, u, hy, ⟨h0, rfl⟩, rfl⟩
      exact ⟨y, hy, _, ⟨h0, rfl⟩, rfl⟩

/-- R124 step 0. -/
theorem extractStart_eq_next {s t : State} :
    extractStart s = .next t ↔
      ∃ x u, slotAt s 0 = some x ∧ moveLast (setPqSize (s.pqSize - 1) (setXN x s)) = .next u ∧
        t = setPqFsm .pDown (setI 0 u) := by
  simp only [extractStart, readSlot_eq_next, andThen_eq_next]
  constructor
  · rintro ⟨x, hx, u, hu, ht⟩
    cases ht
    exact ⟨x, u, hx, hu, rfl⟩
  · rintro ⟨x, u, hx, hu, rfl⟩
    exact ⟨x, hx, u, hu, rfl⟩

/-- One `if` line of R124 step P_DOWN: the child only when present and strictly smaller. -/
theorem lesserSlot_eq_next {s t : State} {m c : Nat} {f : Nat → Result} :
    lesserSlot s m c f = .next t ↔
      (c < s.pqSize.toNat ∧ ∃ kc km, keyAt s c = some kc ∧ keyAt s m = some km ∧
        ((kc < km ∧ f c = .next t) ∨ (¬ kc < km ∧ f m = .next t))) ∨
      (s.pqSize.toNat ≤ c ∧ f m = .next t) := by
  unfold lesserSlot
  by_cases h : c < s.pqSize.toNat
  · simp only [h, if_true, readKey_eq_next, true_and, Nat.not_le.2 h, false_and, or_false]
    constructor
    · rintro ⟨kc, hkc, km, hkm, ht⟩
      refine ⟨kc, km, hkc, hkm, ?_⟩
      split at ht
      · next hlt => exact .inl ⟨hlt, ht⟩
      · next hlt => exact .inr ⟨hlt, ht⟩
    · rintro ⟨kc, km, hkc, hkm, ht⟩
      refine ⟨kc, hkc, km, hkm, ?_⟩
      rcases ht with ⟨hlt, ht⟩ | ⟨hlt, ht⟩
      · rwa [if_pos hlt]
      · rwa [if_neg hlt]
  · simp [h, Nat.not_lt.1 h]

/-- Child slot `m` of the element's slot is present and its key is strictly below the element's. -/
def BetterChild (s : State) (m : Nat) : Prop :=
  (m = 2 * s.pq.I.toNat + 1 ∨ m = 2 * s.pq.I.toNat + 2) ∧ m < s.pqSize.toNat ∧
    ∃ km ki, keyAt s m = some km ∧ keyAt s s.pq.I.toNat = some ki ∧ km < ki

/-- What R124 step P_DOWN does with the slot `m` its two comparisons chose. -/
def downMove (s : State) (m : Nat) : Result :=
  if m = s.pq.I.toNat then .next (setPqFsm .pIdle (setM (BitVec.ofNat 9 m) s))
  else andThen (swapSlots s s.pq.I.toNat m) fun s => .next (setI (BitVec.ofNat 9 m) (setM (BitVec.ofNat 9 m) s))

theorem downStep_choice {s t : State} (h : downStep s = .next t) :
    ∃ m, downMove s m = .next t ∧ (m = s.pq.I.toNat ∨ BetterChild s m) := by
  change lesserSlot s s.pq.I.toNat (2 * s.pq.I.toNat + 1) (fun m => lesserSlot s m (2 * s.pq.I.toNat + 2) (downMove s)) =
    .next t at h
  rcases lesserSlot_eq_next.1 h with ⟨hl, kl, ki, hkl, hki, ⟨hlt, h⟩ | ⟨-, h⟩⟩ | ⟨-, h⟩
  · have left : BetterChild s (2 * s.pq.I.toNat + 1) := ⟨.inl rfl, hl, kl, ki, hkl, hki, hlt⟩
    rcases lesserSlot_eq_next.1 h with ⟨hr, kr, km, hkr, hkm, ⟨hlt', h⟩ | ⟨-, h⟩⟩ | ⟨-, h⟩
    · obtain rfl : km = kl := by simpa [hkl] using hkm.symm
      exact ⟨_, h, .inr ⟨.inr rfl, hr, kr, ki, hkr, hki, BitVec.lt_trans hlt' hlt⟩⟩
    · exact ⟨_, h, .inr left⟩
    · exact ⟨_, h, .inr left⟩
  all_goals
    rcases lesserSlot_eq_next.1 h with ⟨hr, kr, km, hkr, hkm, ⟨hlt', h⟩ | ⟨-, h⟩⟩ | ⟨-, h⟩
    · exact ⟨_, h, .inr ⟨.inr rfl, hr, kr, km, hkr, hkm, hlt'⟩⟩
    · exact ⟨_, h, .inl rfl⟩
    · exact ⟨_, h, .inl rfl⟩

/-- R124 step P_DOWN: PQ_FSM ends, or the element swaps with a present child of strictly smaller key. -/
theorem downStep_next {s t : State} (h : downStep s = .next t) :
    t = setPqFsm .pIdle (setM s.pq.I s) ∨
    ∃ m u, BetterChild s m ∧ swapSlots s s.pq.I.toNat m = .next u ∧
      t = setI (BitVec.ofNat 9 m) (setM (BitVec.ofNat 9 m) u) := by
  obtain ⟨m, hm, hc⟩ := downStep_choice h
  unfold downMove at hm
  by_cases he : m = s.pq.I.toNat
  · rw [if_pos he] at hm
    cases hm
    left
    rw [he, BitVec.ofNat_toNat, BitVec.setWidth_eq]
  · rw [if_neg he] at hm
    obtain ⟨u, hu, ht⟩ := andThen_eq_next.1 hm
    cases ht
    exact .inr ⟨m, u, hc.resolve_left he, hu, rfl⟩

theorem whenPqIdle_eq_next {f : State → Result} {s t : State} :
    whenPqIdle f s = .next t ↔ (s.pqFsm = .pIdle ∧ f s = .next t) ∨ (s.pqFsm ≠ .pIdle ∧ t = s) := by
  unfold whenPqIdle
  by_cases h : s.pqFsm = .pIdle <;> simp [h, eq_comm]

/-- What the caller of `pq_insert` can do when it goes on: respond (PQ_INS), move S on (B_LEAVES), go to B_LOOP (B_INS_W), or, in a state
in which no insertion ever runs, nothing. -/
theorem afterInsert_next {s t : State} (h : afterInsert s = .next t) :
    (s.tbFsm = .bIdle ∧ t = respondOk (s.pq.I.setWidth 24) 0 s) ∨
    (s.tbFsm = .bLeaves ∧ t = setS (s.tb.S + 1) s) ∨
    (s.tbFsm = .bInsW ∧ t = setTbFsm .bLoop s) ∨
    (s.tbFsm ≠ .bIdle ∧ s.tbFsm ≠ .bLeaves ∧ s.tbFsm ≠ .bInsW ∧ t = s) := by
  unfold afterInsert at h
  split at h <;> cases h <;> simp_all

/-- What the caller of `pq_extract` can do when it goes on. -/
theorem afterExtract_next {s t : State} (h : afterExtract s = .next t) :
    (s.tbFsm = .bIdle ∧ ∃ n, nodeAt s s.pq.XN.toNat = some n ∧ t = respondOk (s.pq.XN.setWidth 24) n.freq s) ∨
    (s.tbFsm = .bExtU ∧ t = setTbFsm .bExtV (setU s.pq.XN s)) ∨
    (s.tbFsm = .bExtV ∧ t = setTbFsm .bMerge (setV s.pq.XN s)) ∨
    (s.tbFsm ≠ .bIdle ∧ s.tbFsm ≠ .bExtU ∧ s.tbFsm ≠ .bExtV ∧ t = s) := by
  unfold afterExtract at h
  split at h
  · next hb =>
    obtain ⟨n, hn, h⟩ := readNode_eq_next.1 h
    cases h
    exact .inl ⟨hb, n, hn, rfl⟩
  all_goals cases h; simp_all

/-- Which unit a step belongs to. -/
theorem tick_next {s t : State} (h : tick s = .next t) :
    (s.pqFsm = .pUp ∧ ∃ u, upStep s = .next u ∧ whenPqIdle afterInsert u = .next t) ∨
    (s.pqFsm = .pDown ∧ ∃ u, downStep s = .next u ∧ whenPqIdle afterExtract u = .next t) ∨
    (s.pqFsm = .pIdle ∧ s.tbFsm = .bIdle ∧ recorderStep s = .next t) ∨
    (s.pqFsm = .pIdle ∧ s.tbFsm ≠ .bIdle ∧ builderStep s = .next t) := by
  unfold tick at h
  split at h
  · next hp => exact .inl ⟨hp, andThen_eq_next.1 h⟩
  · next hp => exact .inr (.inl ⟨hp, andThen_eq_next.1 h⟩)
  · next hp =>
    by_cases hb : s.tbFsm = .bIdle
    · rw [if_pos hb] at h
      exact .inr (.inr (.inl ⟨hp, hb, h⟩))
    · rw [if_neg hb] at h
      exact .inr (.inr (.inr ⟨hp, hb, h⟩))

/-! ### TB_FSM -/

/-- R167 B_SCAN. -/
theorem scanStep_next {s t : State} (h : scanStep s = .next t) :
    (s.tb.S.toNat < s.params.nsym ∧ ftAt s s.tb.S.toNat = 0 ∧ t = setS (s.tb.S + 1) s) ∨
    (s.tb.S.toNat < s.params.nsym ∧ ftAt s s.tb.S.toNat ≠ 0 ∧ t = setS (s.tb.S + 1) (countSymbol s)) ∨
    (s.params.nsym ≤ s.tb.S.toNat ∧ t = setTbFsm .bCheck s) := by
  unfold scanStep at h
  split at h
  · next hs =>
    split at h
    · next hz => cases h; exact .inl ⟨hs, hz, rfl⟩
    · next hz => cases h; exact .inr (.inl ⟨hs, hz, rfl⟩)
  · next hs => cases h; exact .inr (.inr ⟨by omega, rfl⟩)

/-- R167 B_CHECK. -/
theorem checkStep_next {s t : State} (h : checkStep s = .next t) :
    (s.tb.N = 0 ∧ t = setTbFsm (.bFail .emptyAlphabet) s) ∨
    (s.tb.N ≠ 0 ∧ s.params.kmax < s.tb.ACC.toNat ∧ t = setTbFsm (.bFail .freqOverflow) s) ∨
    (s.tb.N ≠ 0 ∧ s.tb.ACC.toNat ≤ s.params.kmax ∧ t = setTbFsm .bInit s) := by
  unfold checkStep at h
  split at h
  · next hn => cases h; exact .inl ⟨hn, rfl⟩
  · next hn =>
    split at h
    · next ha => cases h; exact .inr (.inl ⟨hn, ha, rfl⟩)
    · next ha => cases h; exact .inr (.inr ⟨hn, by omega, rfl⟩)

/-- R168 B_INIT. -/
theorem initStep_eq (s : State) :
    initStep s = .next (setTbFsm .bLeaves (setS 0
      (invalidateCw (setCwReady false (setTree 0 0 false (createQueue (emptyArena s) s.tb.N)))))) := rfl

/-- R169 B_LEAVES. -/
theorem leavesStep_next {s t : State} (h : leavesStep s = .next t) :
    (s.tb.S.toNat < s.params.nsym ∧ ftAt s s.tb.S.toNat = 0 ∧ t = setS (s.tb.S + 1) s) ∨
    (s.tb.S.toNat < s.params.nsym ∧ ftAt s s.tb.S.toNat ≠ 0 ∧ s.pqSize = s.pqCap ∧
      t = setS (s.tb.S + 1) (setTbFsm (.bFault .queueFull) s)) ∨
    (s.tb.S.toNat < s.params.nsym ∧ ftAt s s.tb.S.toNat ≠ 0 ∧ s.pqSize ≠ s.pqCap ∧
      ∃ u, allocNode s (leafRec s.params (BitVec.ofNat 8 s.tb.S.toNat) (ftAt s s.tb.S.toNat)) = .next u ∧
        insertStart (s.nodeCnt.setWidth 9) u = .next t) ∨
    (s.params.nsym ≤ s.tb.S.toNat ∧ t = setTbFsm .bLoop s) := by
  unfold leavesStep at h
  split at h
  · next hs =>
    split at h
    · next hz => cases h; exact .inl ⟨hs, hz, rfl⟩
    · next hz =>
      split at h
      · next hf => cases h; exact .inr (.inl ⟨hs, hz, hf, rfl⟩)
      · next hf =>
        obtain ⟨u, hu, ht⟩ := andThen_eq_next.1 h
        exact .inr (.inr (.inl ⟨hs, hz, hf, u, hu, ht⟩))
  · next hs => cases h; exact .inr (.inr (.inr ⟨by omega, rfl⟩))

/-- R170 B_LOOP. -/
theorem loopStep_next {s t : State} (h : loopStep s = .next t) :
    (1 < s.pqSize.toNat ∧ t = setTbFsm .bExtU s) ∨ (s.pqSize.toNat ≤ 1 ∧ t = setTbFsm .bDone s) := by
  unfold loopStep at h
  split at h
  · next hs => cases h; exact .inl ⟨hs, rfl⟩
  · next hs => cases h; exact .inr ⟨by omega, rfl⟩

/-- R170 B_EXT_U, B_EXT_V. -/
theorem extractOrFault_next {s t : State} (h : extractOrFault s = .next t) :
    (s.pqSize = 0 ∧ t = setTbFsm (.bFault .emptyQueue) s) ∨ (s.pqSize ≠ 0 ∧ extractStart s = .next t) := by
  unfold extractOrFault at h
  split at h
  · next hs => cases h; exact .inl ⟨hs, rfl⟩
  · next hs => exact .inr ⟨hs, h⟩

/-- R171 B_MERGE. -/
theorem mergeStep_next {s t : State} (h : mergeStep s = .next t) :
    ∃ u v a, nodeAt s s.tb.U.toNat = some u ∧ nodeAt s s.tb.V.toNat = some v ∧
      allocNode (setW (s.nodeCnt.setWidth 9) s) (innerRec (u.freq + v.freq) s.tb.U s.tb.V) = .next a ∧
      t = setTbFsm .bInsW a := by
  unfold mergeStep at h
  obtain ⟨u, hu, h⟩ := readNode_eq_next.1 h
  obtain ⟨v, hv, h⟩ := readNode_eq_next.1 h
  obtain ⟨a, ha, h⟩ := andThen_eq_next.1 h
  cases h
  exact ⟨u, v, a, hu, hv, ha, rfl⟩

/-- R172 B_INS_W. -/
theorem insertMerged_next {s t : State} (h : insertMerged s = .next t) :
    (s.pqSize = s.pqCap ∧ t = setTbFsm (.bFault .queueFull) s) ∨ (s.pqSize ≠ s.pqCap ∧ insertStart s.tb.W s = .next t) := by
  unfold insertMerged at h
  split at h
  · next hs => cases h; exact .inl ⟨hs, rfl⟩
  · next hs => exact .inr ⟨hs, h⟩

/-- R173 B_DONE. -/
theorem doneStep_next {s t : State} (h : doneStep s = .next t) :
    ∃ r n, slotAt s 0 = some r ∧ nodeAt s r.toNat = some n ∧
      t = respondOk (r.setWidth 24) n.freq (setTbFsm .bIdle (setTree r s.tb.N true s)) := by
  unfold doneStep at h
  obtain ⟨r, hr, h⟩ := readSlot_eq_next.1 h
  obtain ⟨n, hn, h⟩ := readNode_eq_next.1 h
  cases h
  exact ⟨r, n, hr, hn, rfl⟩

/-! ### CR_FSM -/

/-- R193 G_START. -/
theorem recorderStart_next {s t : State} (h : recorderStart s = .next t) :
    ∃ n, nodeAt s s.root.toNat = some n ∧
      ((n.leaf = true ∧ ∃ u, writeCw (freshTable s) n.sym 1 0 = .next u ∧ t = setCrFsm .gDone (setCNT 1 u)) ∨
       (n.leaf = false ∧ t = setCrFsm .gDescend (setCUR s.root (freshTable s)))) := by
  unfold recorderStart at h
  obtain ⟨n, hn, h⟩ := readNode_eq_next.1 h
  refine ⟨n, hn, ?_⟩
  cases hl : n.leaf
  · rw [hl, if_neg (by simp)] at h
    cases h
    exact .inr ⟨rfl, rfl⟩
  · rw [hl, if_pos rfl] at h
    obtain ⟨u, hu, h⟩ := andThen_eq_next.1 h
    cases h
    exact .inl ⟨rfl, u, hu, rfl⟩

/-- R194, R195 G_DESCEND. -/
theorem descendStep_next {s t : State} (h : descendStep s = .next t) :
    ∃ n, nodeAt s s.cr.CUR.toNat = some n ∧
      ((n.leaf = true ∧ ∃ u, writeCw s n.sym s.cr.DEPTH s.cr.PATH = .next u ∧
        t = setCrFsm .gAscend (setCNT (s.cr.CNT + 1) u)) ∨
       (n.leaf = false ∧ ∃ u, writeTstk s s.cr.DEPTH.toNat s.cr.CUR = .next u ∧
        t = setCUR n.left (setDEPTH (s.cr.DEPTH + 1) (setPATH (setDigit s.cr.PATH s.cr.DEPTH.toNat false) u)))) := by
  unfold descendStep at h
  obtain ⟨n, hn, h⟩ := readNode_eq_next.1 h
  refine ⟨n, hn, ?_⟩
  cases hl : n.leaf
  · rw [hl, if_neg (by simp)] at h
    obtain ⟨u, hu, h⟩ := andThen_eq_next.1 h
    obtain ⟨hd, rfl⟩ := writeTstk_eq_next.1 hu
    cases h
    exact .inr ⟨rfl, _, hu, rfl⟩
  · rw [hl, if_pos rfl] at h
    obtain ⟨u, hu, h⟩ := andThen_eq_next.1 h
    obtain ⟨hi, rfl⟩ := writeCw_eq_next.1 hu
    cases h
    exact .inl ⟨rfl, _, hu, rfl⟩

/-- R196 G_ASCEND. -/
theorem ascendStep_next {s t : State} (h : ascendStep s = .next t) :
    (s.cr.DEPTH = 0 ∧ t = setCrFsm .gDone s) ∨
    (s.cr.DEPTH ≠ 0 ∧ digitAt s.cr.PATH (s.cr.DEPTH.toNat - 1) = false ∧
      ∃ x n, tstkAt s (s.cr.DEPTH.toNat - 1) = some x ∧ nodeAt s x.toNat = some n ∧
        t = setCrFsm .gDescend (setCUR n.right (setPATH (setDigit s.cr.PATH (s.cr.DEPTH.toNat - 1) true) s))) ∨
    (s.cr.DEPTH ≠ 0 ∧ digitAt s.cr.PATH (s.cr.DEPTH.toNat - 1) = true ∧
      t = setDEPTH (s.cr.DEPTH - 1) (setPATH (setDigit s.cr.PATH (s.cr.DEPTH.toNat - 1) false)
        (dropTstk s (s.cr.DEPTH.toNat - 1)))) := by
  unfold ascendStep at h
  by_cases hd : s.cr.DEPTH = 0
  · rw [if_pos hd] at h
    cases h
    exact .inl ⟨hd, rfl⟩
  · rw [if_neg hd] at h
    cases hb : digitAt s.cr.PATH (s.cr.DEPTH.toNat - 1)
    · rw [hb, if_neg (by simp)] at h
      obtain ⟨x, hx, h⟩ := readTstk_eq_next.1 h
      obtain ⟨n, hn, h⟩ := readNode_eq_next.1 h
      cases h
      exact .inr (.inl ⟨hd, rfl, x, n, hx, hn, rfl⟩)
    · rw [hb, if_pos rfl] at h
      cases h
      exact .inr (.inr ⟨hd, rfl, rfl⟩)

/-! ### The canonical form along the steps -/

theorem wf_emptyTstk {s : State} (h : Memory.wf s = true) : Memory.wf (emptyTstk s) = true := by
  obtain ⟨hf, hz, hn, hh, hc, -⟩ := wf_iff.1 h
  exact wf_iff.2 ⟨hf, hz, hn, hh, hc, arrWf_nil _⟩

theorem wf_swapSlots {s t : State} {i j : Nat} (h : Memory.wf s = true) (hs : swapSlots s i j = .next t) :
    Memory.wf t = true := by
  simp only [swapSlots, readSlot_eq_next, andThen_eq_next] at hs
  obtain ⟨x, -, y, -, u, hu, ht⟩ := hs
  exact wf_writeSlot (wf_writeSlot h hu) ht

theorem wf_insertStart {x : NodeRef} {s t : State} (h : Memory.wf s = true) (hs : insertStart x s = .next t) :
    Memory.wf t = true := by
  obtain ⟨u, hu, ht⟩ := andThen_eq_next.1 hs
  cases ht
  simpa using wf_writeSlot (by simpa using h) hu

theorem wf_upStep {s t : State} (h : Memory.wf s = true) (hs : upStep s = .next t) : Memory.wf t = true := by
  rcases upStep_eq_next.1 hs with ⟨-, rfl⟩ | ⟨-, kp, ki, -, -, ⟨-, rfl⟩ | ⟨-, u, hu, rfl⟩⟩
  · simpa using h
  · simpa using h
  · simpa using wf_swapSlots h hu

theorem wf_moveLast {s t : State} (h : Memory.wf s = true) (hs : moveLast s = .next t) : Memory.wf t = true := by
  rcases moveLast_eq_next.1 hs with ⟨-, rfl⟩ | ⟨-, y, u, -, hu, rfl⟩
  · exact wf_dropSlot 0 h
  · exact wf_dropSlot _ (wf_writeSlot h hu)

theorem wf_extractStart {s t : State} (h : Memory.wf s = true) (hs : extractStart s = .next t) : Memory.wf t = true := by
  obtain ⟨x, u, -, hu, rfl⟩ := extractStart_eq_next.1 hs
  simpa using wf_moveLast (by simpa using h) hu

theorem wf_downStep {s t : State} (h : Memory.wf s = true) (hs : downStep s = .next t) : Memory.wf t = true := by
  rcases downStep_next hs with rfl | ⟨m, u, -, hu, rfl⟩
  · simpa using h
  · simpa using wf_swapSlots h hu

theorem wf_builderStep {s t : State} (h : Memory.wf s = true) (hs : builderStep s = .next t) : Memory.wf t = true := by
  unfold builderStep at hs
  split at hs
  · cases hs; exact h
  · rcases scanStep_next hs with ⟨-, -, rfl⟩ | ⟨-, -, rfl⟩ | ⟨-, rfl⟩ <;> simpa [countSymbol] using h
  · rcases checkStep_next hs with ⟨-, rfl⟩ | ⟨-, -, rfl⟩ | ⟨-, -, rfl⟩ <;> simpa using h
  · rw [initStep_eq] at hs
    cases hs
    simpa using wf_invalidateCw (by simpa using wf_createQueue s.tb.N (wf_emptyArena h))
  · rcases leavesStep_next hs with ⟨-, -, rfl⟩ | ⟨-, -, -, rfl⟩ | ⟨-, -, -, u, hu, ht⟩ | ⟨-, rfl⟩
    · simpa using h
    · simpa using h
    · exact wf_insertStart (wf_allocNode h hu) ht
    · simpa using h
  · rcases loopStep_next hs with ⟨-, rfl⟩ | ⟨-, rfl⟩ <;> simpa using h
  · rcases extractOrFault_next hs with ⟨-, rfl⟩ | ⟨-, hs⟩
    · simpa using h
    · exact wf_extractStart h hs
  · rcases extractOrFault_next hs with ⟨-, rfl⟩ | ⟨-, hs⟩
    · simpa using h
    · exact wf_extractStart h hs
  · obtain ⟨u, v, a, -, -, ha, rfl⟩ := mergeStep_next hs
    simpa using wf_allocNode (by simpa using h) ha
  · rcases insertMerged_next hs with ⟨-, rfl⟩ | ⟨-, hs⟩
    · simpa using h
    · exact wf_insertStart h hs
  · obtain ⟨r, n, -, -, rfl⟩ := doneStep_next hs
    simpa using h
  · cases hs; simpa using h
  · cases hs; simpa using h

theorem wf_recorderStep {s t : State} (h : Memory.wf s = true) (hs : recorderStep s = .next t) : Memory.wf t = true := by
  have fresh : Memory.wf (freshTable s) = true :=
    wf_emptyTstk (wf_invalidateCw (by simpa using h))
  unfold recorderStep at hs
  split at hs
  · cases hs; exact h
  · obtain ⟨n, -, ⟨-, u, hu, rfl⟩ | ⟨-, rfl⟩⟩ := recorderStart_next hs
    · simpa using wf_writeCw fresh hu
    · simpa using fresh
  · obtain ⟨n, -, ⟨-, u, hu, rfl⟩ | ⟨-, u, hu, rfl⟩⟩ := descendStep_next hs
    · simpa using wf_writeCw h hu
    · simpa using wf_writeTstk h hu
  · rcases ascendStep_next hs with ⟨-, rfl⟩ | ⟨-, -, x, n, -, -, rfl⟩ | ⟨-, -, rfl⟩
    · simpa using h
    · simpa using h
    · simpa using wf_dropTstk _ h
  · cases hs; simpa using h

theorem wf_afterInsert {s t : State} (h : Memory.wf s = true) (hs : afterInsert s = .next t) : Memory.wf t = true := by
  rcases afterInsert_next hs with ⟨-, rfl⟩ | ⟨-, rfl⟩ | ⟨-, rfl⟩ | ⟨-, -, -, rfl⟩ <;> simpa using h

theorem wf_afterExtract {s t : State} (h : Memory.wf s = true) (hs : afterExtract s = .next t) : Memory.wf t = true := by
  rcases afterExtract_next hs with ⟨-, n, -, rfl⟩ | ⟨-, rfl⟩ | ⟨-, rfl⟩ | ⟨-, -, -, rfl⟩ <;> simpa using h

/-- Every state-machine step keeps the canonical form of the arrays. -/
theorem wf_tick {s t : State} (h : Memory.wf s = true) (hs : tick s = .next t) : Memory.wf t = true := by
  rcases tick_next hs with ⟨-, u, hu, ht⟩ | ⟨-, u, hu, ht⟩ | ⟨-, -, ht⟩ | ⟨-, -, ht⟩
  · rcases whenPqIdle_eq_next.1 ht with ⟨-, ht⟩ | ⟨-, rfl⟩
    · exact wf_afterInsert (wf_upStep h hu) ht
    · exact wf_upStep h hu
  · rcases whenPqIdle_eq_next.1 ht with ⟨-, ht⟩ | ⟨-, rfl⟩
    · exact wf_afterExtract (wf_downStep h hu) ht
    · exact wf_downStep h hu
  · exact wf_recorderStep h ht
  · exact wf_builderStep h ht

/-! ### A command's steps -/

theorem runUnits_idle {n : Nat} {s : State} (h : unitsIdle s = true) : runUnits n s = .next s := by
  cases n <;> simp [runUnits, h]

theorem runUnits_step {n : Nat} {s : State} (h : unitsIdle s = false) :
    runUnits (n + 1) s = andThen (tick s) (runUnits n) := by
  simp [runUnits, h]

/-- A command that ends leaves all units idle (30_encoding.md R91). -/
theorem runUnits_ends_idle {n : Nat} {s t : State} (h : runUnits n s = .next t) : unitsIdle t = true := by
  induction n generalizing s with
  | zero =>
    unfold runUnits at h
    split at h <;> cases h
    assumption
  | succ n ih =>
    by_cases hi : unitsIdle s = true
    · rw [runUnits_idle hi] at h
      cases h
      exact hi
    · rw [runUnits_step (by simpa using hi)] at h
      obtain ⟨u, -, hu⟩ := andThen_eq_next.1 h
      exact ih hu

/-- Induction over a command's steps: a property that every step of a busy block keeps holds at the command's end. -/
theorem runUnits_induct {P : State → Prop} (hstep : ∀ s t, P s → unitsIdle s = false → tick s = .next t → P t)
    {n : Nat} {s t : State} (hs : P s) (h : runUnits n s = .next t) : P t := by
  induction n generalizing s with
  | zero =>
    unfold runUnits at h
    split at h <;> cases h
    exact hs
  | succ n ih =>
    by_cases hi : unitsIdle s = true
    · rw [runUnits_idle hi] at h
      cases h
      exact hs
    · rw [runUnits_step (by simpa using hi)] at h
      obtain ⟨u, hu, h⟩ := andThen_eq_next.1 h
      exact ih (hstep s u hs (by simpa using hi) hu) h

/-- More fuel changes nothing once a command ends. -/
theorem runUnits_mono {n m : Nat} {s t : State} (hnm : n ≤ m) (h : runUnits n s = .next t) : runUnits m s = .next t := by
  induction n generalizing s m with
  | zero =>
    have : unitsIdle s = true ∧ s = t := by
      unfold runUnits at h
      split at h <;> cases h
      exact ⟨by assumption, rfl⟩
    rw [runUnits_idle this.1, this.2]
  | succ n ih =>
    obtain ⟨m, rfl⟩ : ∃ k, m = k + 1 := ⟨m - 1, by omega⟩
    by_cases hi : unitsIdle s = true
    · rw [runUnits_idle hi] at h ⊢
      exact h
    · rw [runUnits_step (by simpa using hi)] at h ⊢
      obtain ⟨u, hu, h⟩ := andThen_eq_next.1 h
      exact andThen_eq_next.2 ⟨u, hu, ih (by omega) h⟩

/-- A block that reaches an idle state in `n` steps whose every intermediate is busy ends there. -/
theorem runUnits_of_tick {n : Nat} {s u t : State} (hb : unitsIdle s = false) (hs : tick s = .next u)
    (h : runUnits n u = .next t) : runUnits (n + 1) s = .next t := by
  rw [runUnits_step hb]
  exact andThen_eq_next.2 ⟨u, hs, h⟩

end Sys2Proof.Machine
end

