-- ==== Sys2Proof/Tests/Slice0.lean ====
section
/-!
SUPPORT. Tests: terms that WellFormed refuses, decoding of words written out from 30_encoding.md R94 and R100, one step per command with the
answers the spec prints, and for every obligation with hypotheses a state that meets them. Expected results are the spec's examples and
test vectors, or hand calculation from its rules.
-/

namespace Sys2Proof.Tests

open Sys2Proof Sys2Proof.Machine Sys2Proof.Summary

/-! ### WellFormed refuses an operand that does not fit its field (R105) -/

theorem test_wf_csrRd : (Instr.csrRd (2 ^ 24)).wellFormed = false := by decide
theorem test_wf_ftWr_a : (Instr.ftWr (2 ^ 24) 0).wellFormed = false := by decide
theorem test_wf_ftWr_b : (Instr.ftWr 0 (2 ^ 32)).wellFormed = false := by decide
theorem test_wf_ftRd : (Instr.ftRd (2 ^ 24)).wellFormed = false := by decide
theorem test_wf_leaf_a : (Instr.leaf (2 ^ 24) 0).wellFormed = false := by decide
theorem test_wf_leaf_b : (Instr.leaf 0 (2 ^ 32)).wellFormed = false := by decide
theorem test_wf_nodeRd : (Instr.nodeRd (2 ^ 24)).wellFormed = false := by decide
theorem test_wf_nodeCh : (Instr.nodeCh (2 ^ 24)).wellFormed = false := by decide
theorem test_wf_pqInit : (Instr.pqInit (2 ^ 24)).wellFormed = false := by decide
theorem test_wf_pqIns : (Instr.pqIns (2 ^ 24)).wellFormed = false := by decide
theorem test_wf_heapRd : (Instr.heapRd (2 ^ 24)).wellFormed = false := by decide
theorem test_wf_cwRd_a : (Instr.cwRd (2 ^ 24) 0).wellFormed = false := by decide
theorem test_wf_cwRd_b : (Instr.cwRd 0 (2 ^ 32)).wellFormed = false := by decide
/-- An operand outside the command's range that fits its field is a run-time BadOperand, so it is well formed (R105). -/
theorem test_wf_out_of_range : (Instr.ftRd 256).wellFormed = true := by decide

/-! ### Decoding: op, a and b written out (R94, R100) -/

theorem test_decode_clear : decode (0x01#8 ++ 0#24 ++ 0#32) = .ok .clear := by decide
theorem test_decode_csrRd : decode (0b00000010#8 ++ 0x000007#24 ++ 0#32) = .ok (.csrRd 7) := by decide
theorem test_decode_ftWr : decode (0b00010000#8 ++ 0x0000FF#24 ++ 0xFFFFFFFF#32) = .ok (.ftWr 255 4294967295) := by decide
theorem test_decode_ftRd : decode (0b00010001#8 ++ 0x800000#24 ++ 0#32) = .ok (.ftRd 0x800000) := by decide
theorem test_decode_leaf : decode (0b00100000#8 ++ 0x000001#24 ++ 0x80000000#32) = .ok (.leaf 1 0x80000000) := by decide
theorem test_decode_nodeRd : decode (0b00100001#8 ++ 0x0001FE#24 ++ 0#32) = .ok (.nodeRd 510) := by decide
theorem test_decode_nodeCh : decode (0b00100010#8 ++ 0x000100#24 ++ 0#32) = .ok (.nodeCh 256) := by decide
theorem test_decode_pqInit : decode (0b00110000#8 ++ 0x000100#24 ++ 0#32) = .ok (.pqInit 256) := by decide
theorem test_decode_pqIns : decode (0b00110001#8 ++ 0x000002#24 ++ 0#32) = .ok (.pqIns 2) := by decide
theorem test_decode_pqExt : decode (0b00110010#8 ++ 0#24 ++ 0#32) = .ok .pqExt := by decide
theorem test_decode_heapRd : decode (0b00110011#8 ++ 0x0000FF#24 ++ 0#32) = .ok (.heapRd 255) := by decide
theorem test_decode_build : decode (0b01000000#8 ++ 0#24 ++ 0#32) = .ok .build := by decide
theorem test_decode_genCode : decode (0b01010000#8 ++ 0#24 ++ 0#32) = .ok .genCode := by decide
theorem test_decode_cwRd : decode (0b01010001#8 ++ 0x000063#24 ++ 0x00000007#32) = .ok (.cwRd 0x63 7) := by decide
/-- R101 (a): the all-zero word. -/
theorem test_decode_zero_word : decode 0#64 = .error (.unknownOpcode 0) := by decide
/-- R101 (b): a field that the format does not use. -/
theorem test_decode_unused_b : decode 0x0200000000000001#64 = .error (.unusedFieldNotZero .csrRd) := by decide
theorem test_decode_unused_a : decode 0x4000000100000000#64 = .error (.unusedFieldNotZero .build) := by decide
theorem test_decodeTableWord : decodeTableWord 64 0x3000000300000000 = some (.pqInit 3) := by decide

/-! ### Small states -/

/-- FT of "aabbbcc" (41_tree_builder.md R164, example). -/
def counted : State := { State.reset with ft := [(0x61, 2), (0x62, 3), (0x63, 2)] }

/-- The state of 40_priority_queue.md R131's example: three leaves of frequencies 2, 3, 2, references 0 and 1 in the queue. -/
def queued : State :=
  { State.reset with
    node := [(0, leafRec .standard 0x61 2), (1, leafRec .standard 0x62 3), (2, leafRec .standard 0x63 2)]
    nodeCnt := 3
    heap := [(0, 0), (1, 1)]
    pqSize := 2
    pqCap := 3 }

/-- After BUILD on "aabbbcc" (R164's example, 95_test_vectors.md P1). -/
def built : State :=
  { counted with
    node := [(0, leafRec .standard 0x61 2), (1, leafRec .standard 0x62 3), (2, leafRec .standard 0x63 2), (3, innerRec 4 0 2), (4, innerRec 7 1 3)]
    nodeCnt := 5
    heap := [(0, 4)]
    pqSize := 1
    pqCap := 3
    root := 4
    nleaf := 3
    treeValid := true }

/-- After the GENCODE that follows (42_codeword_recorder.md R190's example). -/
def coded : State :=
  { built with
    cw := [(0x61, { len := 2, bits := 0b01 }), (0x62, { len := 1, bits := 0b0 }), (0x63, { len := 2, bits := 0b11 })]
    cwReady := true }

/-- A block with SYM_W = 6 and KW = 16 (U27), holding the leaf of symbol 0x2A with frequency 9. -/
def small : State :=
  { State.resetAt { symW := 6, kw := 16 } [] with node := [(0, leafRec { symW := 6, kw := 16 } 0x2A 9)], nodeCnt := 1 }

/-- A halted block, a state no run reaches (60_exceptions.md R234). -/
def stuck : State := { State.reset with fatal := true }

/-- What a step leaves on the response port. -/
def answer (r : Result) : Option Word64 :=
  match r with
  | .next s => s.rsp
  | _ => none

/-- What a step leaves in a part of the state. -/
def after {α : Type} (r : Result) (f : State → α) : Option α :=
  match r with
  | .next s => some (f s)
  | _ => none

/-- The step that runs the command of a word. -/
def run (w : Word64) (s : State) : Result := step (presentWord w s)

/-! ### One step per command -/

theorem test_clear : after (run 0x0100000000000000#64 coded) (fun t => (t.rsp, t.ft, t.cw)) =
    some (some 0#64, [], []) := by decide
theorem test_clear_halted : after (run 0x0100000000000000#64 stuck) (fun t => t.fatal) = some false := by decide
theorem test_csrRd_id : answer (run 0x0200000000000000#64 State.reset) = some 0x0000000000012008#64 := by decide
theorem test_csrRd_status : answer (run 0x0200000100000000#64 coded) = some 0x0000000000000003#64 := by decide
theorem test_ftWr : after (run 0x1000006100000002#64 State.reset) (fun t => (t.rsp, t.ft)) = some (some 0#64, [(0x61, 2)]) := by decide
theorem test_ftWr_zero : after (run 0x1000006200000000#64 counted) (fun t => t.ft) = some [(0x61, 2), (0x63, 2)] := by decide
theorem test_ftRd : answer (run 0x1100006100000000#64 counted) = some 0x0000000000000002#64 := by decide
theorem test_ftRd_bad : after (run 0x1100010000000000#64 counted) (fun t => (t.rsp, t.errflags)) =
    some (some 0x0400000000000000#64, 0x010#10) := by decide
theorem test_leaf : after (run 0x2000007800000005#64 State.reset) (fun t => (t.rsp, t.nodeCnt, nodeAt t 0)) =
    some (some 0#64, 1, some { leaf := true, sym := 0x78, freq := 5, left := 511, right := 511 }) := by decide
theorem test_leaf_after_build : answer (run 0x2000007800000005#64 built) = some 0x0000000500000000#64 := by decide
theorem test_nodeRd_leaf : answer (run 0x2100000000000000#64 queued) = some 0x0000016100000002#64 := by decide
theorem test_nodeRd_inner : answer (run 0x2100000400000000#64 built) = some 0x0000000000000007#64 := by decide
theorem test_nodeCh : answer (run 0x2200000400000000#64 built) = some 0x0000000100000003#64 := by decide
theorem test_nodeCh_leaf : answer (run 0x2200000000000000#64 built) = some 0x000001FF000001FF#64 := by decide
theorem test_pqInit : after (run 0x3000000300000000#64 queued) (fun t => (t.rsp, t.pqSize, t.pqCap)) = some (some 0#64, 0, 3) := by
  decide
theorem test_pqInit_bad : answer (run 0x3000010100000000#64 queued) = some 0x0400000000000000#64 := by decide
theorem test_pqIns : after (run 0x3100000200000000#64 queued) (fun t => (t.rsp, t.heap, t.pqSize)) =
    some (some 0x0000000200000000#64, [(0, 0), (1, 1), (2, 2)], 3) := by decide +kernel
/-- A strictly smaller key passes its parent: reference 0 (key 2) under a queue that holds only reference 1 (key 3). -/
theorem test_pqIns_up : after (run 0x3100000000000000#64 { queued with heap := [(0, 1)], pqSize := 1 }) (fun t => (t.rsp, t.heap)) =
    some (some 0#64, [(0, 0), (1, 1)]) := by decide +kernel
theorem test_pqExt : after (run 0x3200000000000000#64 { queued with heap := [(0, 0), (1, 1), (2, 2)], pqSize := 3 })
    (fun t => (t.rsp, t.heap, t.pqSize)) = some (some 0x0000000000000002#64, [(0, 2), (1, 1)], 2) := by decide +kernel
theorem test_pqExt_empty : answer (run 0x3200000000000000#64 State.reset) = some 0x0100000000000000#64 := by decide
theorem test_heapRd : answer (run 0x3300000100000000#64 queued) = some 0x0000000100000003#64 := by decide
theorem test_heapRd_bad : answer (run 0x3300000200000000#64 queued) = some 0x0400000000000000#64 := by decide
/-- R164's example, with the internal nodes of its two merges. -/
theorem test_build : after (run 0x4000000000000000#64 counted) (fun t => (t.rsp, nodeAt t 3, nodeAt t 4, t.heap)) =
    some (some 0x0000000400000007#64, some (innerRec 4 0 2), some (innerRec 7 1 3), [(0, 4)]) := by decide +kernel
theorem test_build_empty : after (run 0x4000000000000000#64 State.reset) (fun t => (t.rsp, t.errflags)) =
    some (some 0x0200000000000000#64, 0x004#10) := by decide +kernel
theorem test_genCode : after (run 0x5000000000000000#64 built) (fun t => (t.rsp, t.cw, t.cwReady)) =
    some (some 0x0000000300000000#64, coded.cw, true) := by decide +kernel
theorem test_genCode_no_tree : answer (run 0x5000000000000000#64 counted) = some 0x0800000000000000#64 := by decide
theorem test_cwRd : answer (run 0x5100006300000000#64 coded) = some 0x0000010200000003#64 := by decide
theorem test_cwRd_none : answer (run 0x5100007A00000000#64 coded) = some 0#64 := by decide

/-! ### Other parameters (00_scope.md R6, 10_state.md R33, 93_implementation_defined.md U27) -/

/-- R33: version 1, KW = 16, SYM_W = 6. -/
theorem test_small_id : answer (run 0x0200000000000000#64 small) = some 0x0000000000011006#64 := by decide
/-- `leaf` is at bit SYM_W = 6. -/
theorem test_small_nodeRd : answer (run 0x2100000000000000#64 small) = some 0x0000006A00000009#64 := by decide
/-- NIL = 2^7 − 1. -/
theorem test_small_nodeCh : answer (run 0x2200000000000000#64 small) = some 0x0000007F0000007F#64 := by decide
/-- KMAX = 65535. -/
theorem test_small_ftWr : answer (run 0x1000003F0000FFFF#64 small) = some 0#64 := by decide
theorem test_small_ftWr_bad : answer (run 0x1000003F00010000#64 small) = some 0x0400000000000000#64 := by decide
/-- NSYM = 64, CW_WORDS = 2. -/
theorem test_small_ftRd_bad : answer (run 0x1100004000000000#64 small) = some 0x0400000000000000#64 := by decide
theorem test_small_cwRd_bad : answer (run 0x5100003F00000002#64 small) = some 0x0400000000000000#64 := by decide
/-- The scan's total 65536 is above KMAX, so BUILD is FreqOverflow. -/
theorem test_small_build : answer (run 0x4000000000000000#64 { small with ft := [(0, 65535), (1, 1)] }) =
    some 0x0700000000000000#64 := by decide +kernel

/-! ### The port, and the notation -/

/-- R101: the word with op 0x00 is answered with code 0x03. -/
theorem test_illegal : after (run 0#64 State.reset) (fun t => (t.rsp, t.errflags)) = some (some 0x0300000000000000#64, 0x008#10) := by
  decide
/-- R169: on the way to B_FAULT the scan moves on. -/
theorem test_leaves_fault : after (tick { setS 0x61 counted with tbFsm := .bLeaves }) (fun t => (t.tbFsm, t.tb.S)) =
    some (.bFault .queueFull, 0x62) := by decide
/-- R233: a halted block answers 0x09. -/
theorem test_halted : answer (run 0x1100006100000000#64 stuck) = some 0x0900000000000000#64 := by decide
/-- R227: reset wins over a waiting response. -/
theorem test_reset_wins : after (step { coded with rsp := some 5, host := [{ quietPins with rst := true }] }) (fun t => (t.rsp, t.cw)) =
    some (none, []) := by decide
/-- R91: with a response waiting no command is taken. -/
theorem test_response_waits : after (step { counted with rsp := some 5, host := [presenting 0x0100000000000000#64] })
    (fun t => (t.rsp, t.ft)) = some (some 5, counted.ft) := by decide
theorem test_withFetchWord : answer (step (State.withFetchWord counted 64 0x1100006100000000)) = some 2#64 := by decide
/-- 20_memory.md R62 item 4: len = 3, bits = 0b011 is "110". -/
theorem test_digitString : digitString { len := 3, bits := 0b011 } = "110" := by decide +kernel
/-- R105's syntax on R150's example. -/
theorem test_asm : (assembleLine "FT_WR 'a', 2 ; two".toList).toOption = some (some 0x1000006100000002#64) := by decide
theorem test_asm_too_large : (assembleLine "FT_RD 0x1000000".toList).toOption = none := by decide
theorem test_response_text : responseText 0x0000017800000005#64 = some "-> OK a=376 b=5" := by decide +kernel

/-! ### Witnesses: for every obligation with hypotheses, states and operands that meet them, clause by clause -/

/-- A step that answers a next state. -/
def completes (r : Result) : Bool :=
  match r with
  | .next _ => true
  | _ => false

theorem next_of_completes {r : Result} (h : completes r = true) : ∃ t, r = .next t := by
  cases r with
  | next t => exact ⟨t, rfl⟩
  | fault e => cases h
  | refused e => cases h

theorem noCommand_zero (i : Instr) : decode 0#64 ≠ .ok i := by
  have h : decode 0#64 = .error (.unknownOpcode 0) := by decide
  rw [h]
  exact nofun

theorem noOpcode_zero (o : Opcode) : opField 0#64 ≠ opcodeValue o := by cases o <;> decide

theorem witness_DecodeOfEncodeIsTheCommand : (Instr.cwRd (2 ^ 24 - 1) (2 ^ 32 - 1)).wellFormed = true := by decide

theorem witness_DecodeFollowsItsRule :
    (∀ o, opField 0#64 ≠ opcodeValue o) ∧
    (opField 0x4000000000000001#64 = opcodeValue .build ∧ opcodeFormat .build = .Z ∧ bField 0x4000000000000001#64 ≠ 0) ∧
    (opField 0x0200000080000000#64 = opcodeValue .csrRd ∧ opcodeFormat .csrRd = .A ∧ bField 0x0200000080000000#64 ≠ 0) ∧
    (opField 0x02FFFFFF00000000#64 = opcodeValue .csrRd ∧ bField 0x02FFFFFF00000000#64 = 0) ∧
    decode 0x02FFFFFF00000000#64 = .ok (.csrRd 0xFFFFFF) ∧ (Instr.csrRd 0xFFFFFF).wellFormed = true :=
  ⟨noOpcode_zero, by decide, by decide, by decide, by decide, by decide⟩

theorem witness_WordSpellsItsTableRow : ∀ r ∈ opcodeTable, opField 0x5200000000000000#64 ≠ opField r.value := by decide

theorem witness_IllegalCommandInExactlyTwoCases :
    (∀ i, decode 0#64 ≠ .ok i) ∧
    ∃ t, decode 0x0200000000000000#64 = .ok (.csrRd 0) ∧ unitsIdle coded = true ∧ runWord 0x0200000000000000#64 coded = .next t :=
  ⟨noCommand_zero, _, by decide, by decide, rfl⟩

/-- A line of each format, with an operand of each kind. -/
theorem witness_AssembledWordsAreEncodings :
    CommandText "BUILD".toList .build 0 0 ∧ CommandText "FT_RD 256".toList .ftRd 256 0 ∧
    CommandText "FT_WR 'a', 0x1fF".toList .ftWr 0x61 0x1FF ∧ Blanks " \t".toList ∧ LineEnd "  ; two".toList ∧
    assembleLine "BUILD".toList = .ok (some 0x4000000000000000#64) := by
  refine ⟨.noOperand (o := .build) rfl, ?_, ?_, by simp [Blanks], .inr ⟨[' ', ' '], " two".toList, by simp [Blanks], rfl⟩, by decide⟩
  · exact .oneOperand (o := .ftRd) (gap := [' ']) rfl (by simp [Blanks]) nofun
      (.decimal (ds := [('2', 2), ('5', 5), ('6', 6)]) ⟨nofun, by simp [digitTable]⟩)
  · exact .twoOperands (o := .ftWr) (gap := [' ']) (gap1 := []) (gap2 := [' ']) rfl (by simp [Blanks]) nofun
      (.character (c := 'a') (by simp) (by simp)) nofun (by simp [Blanks])
      (.hex (ds := [('1', 1), ('f', 15), ('F', 15)]) ⟨nofun, by simp [digitTable]⟩)

theorem witness_StepRunsThePresentedCommand :
    (cmdReady { coded with host := [presenting 0x5100006300000007#64] } = true ∧
      decode 0x5100006300000007#64 = .ok (.cwRd 0x63 7)) ∧
    (cmdReady { coded with host := [presenting 0#64] } = true ∧ ∀ i, decode 0#64 ≠ .ok i) :=
  ⟨by decide, by decide, noCommand_zero⟩

theorem witness_EdgeWithoutACommand :
    ((pinsNow { coded with crFsm := .gStart }).rst = false ∧ unitsIdle { coded with crFsm := .gStart } = false) ∧
    ((pinsNow { coded with rsp := some 5 }).rst = false ∧ unitsIdle { coded with rsp := some 5 } = true ∧
      (pinsNow { coded with rsp := some 5 }).rspReady = false) ∧
    ((pinsNow { coded with rsp := some 5, host := [{ quietPins with rspReady := true }] }).rst = false ∧
      (pinsNow { coded with rsp := some 5, host := [{ quietPins with rspReady := true }] }).rspReady = true) ∧
    ((pinsNow coded).rst = false ∧ cmdReady coded = true ∧ (pinsNow coded).cmdValid = false) := by
  decide

theorem witness_ResetFromEveryState :
    (pinsNow { coded with tbFsm := .bMerge, host := [{ quietPins with rst := true }] }).rst = true := by decide

theorem witness_EveryCommandEndsWithOneResponse :
    ∃ t, unitsIdle coded = true ∧ runWord 0x0100000000000000#64 coded = .next t := ⟨_, by decide, rfl⟩

theorem witness_RaiseIsTheWholeErrorEntry : unitsIdle coded = true := by decide

/-- One state and command for each error kind that a check of R226 steps 2 to 4 decides. -/
theorem witness_FirstFailingCheckDecides :
    (∀ i, decode 0#64 ≠ .ok i) ∧ unitsIdle stuck = true ∧ unitsIdle coded = true ∧ unitsIdle State.reset = true ∧
    stuck.params.legal = true ∧ coded.params.legal = true ∧ State.reset.params.legal = true ∧
    checkError stuck .build = some .halted ∧ checkError coded (.ftRd 256) = some .badOperand ∧
    checkError { coded with nodeCnt := 511 } (.leaf 0 0) = some .arenaFull ∧
    checkError { coded with pqCap := 1 } (.pqIns 4) = some .queueFull ∧ checkError State.reset .pqExt = some .emptyQueue ∧
    checkError State.reset .build = some .emptyAlphabet ∧
    checkError { State.reset with ft := [(0, 4294967295), (1, 1)] } .build = some .freqOverflow ∧
    checkError State.reset .genCode = some .noTree :=
  ⟨noCommand_zero, by decide +kernel⟩

theorem witness_ErrorsLeaveNoPartialResult :
    ∃ t, unitsIdle coded = true ∧ runWord 0x1100010000000000#64 coded = .next t ∧ t.rsp = some (errorWord .badOperand) ∧
      t.fatal = coded.fatal := ⟨_, by decide, rfl, by decide, by decide⟩

theorem witness_ErrorsAreThoseOfTheMatrix :
    ∃ t, unitsIdle State.reset = true ∧ exec .pqExt State.reset = .next t ∧ t.rsp = some (errorWord .emptyQueue) :=
  ⟨_, by decide, rfl, by decide⟩

theorem queueOk_coded : QueueOk coded := ⟨by decide, by decide, by decide, by decide⟩

theorem arenaOk_coded : ArenaOk coded where
  cntLe := by decide
  records := by decide
  leaves := by decide
  inners := by
    simp only [innerOk_iff]
    decide

theorem widthsOk_coded : WidthsOk coded := ⟨by decide, by decide, by decide, by decide⟩

theorem coreInv_coded : CoreInv coded :=
  ⟨by decide, by decide, by decide, queueOk_coded, arenaOk_coded, widthsOk_coded, rfl, rfl⟩

theorem heapOrdered_coded : HeapOrdered coded := by
  intro k hk hk'
  have : coded.pqSize.toNat = 1 := by decide
  omega

theorem treeShape_coded : TreeShape coded where
  someLeaf := by decide
  rootIs := by decide
  inArena := by decide
  leavesFirst := by decide
  ascending := by
    intro i hi
    have hi' : i < 2 := by
      have : coded.nleaf.toNat = 3 := by decide
      omega
    clear hi
    revert i
    decide
  oneParent := by decide

theorem treeOk_coded : TreeOk coded := ⟨nofun, fun _ => treeShape_coded⟩

theorem codesOk_coded : CodesOk coded where
  notReady := nofun
  needsTree := fun _ => rfl
  covers := fun _ => by decide +kernel
  digits := by decide

/-- The state after BUILD and GENCODE on "aabbbcc" meets the invariants. -/
theorem blockInv_coded : BlockInv coded := ⟨coreInv_coded, heapOrdered_coded, treeOk_coded, codesOk_coded, by decide⟩

/-- One state that meets the invariants, and in it a command of each kind whose checks all pass. -/
theorem witness_PassedChecksAnswerOk :
    BlockInv coded ∧
      ∀ i ∈ [Instr.clear, .csrRd 7, .ftWr 255 4294967295, .ftRd 255, .leaf 255 0, .nodeRd 4, .nodeCh 4, .pqInit 256, .pqIns 4, .pqExt,
        .heapRd 0, .build, .genCode, .cwRd 255 7], checkError coded i = none :=
  ⟨blockInv_coded, by decide +kernel⟩

theorem witness_HaltedBlockServesTwoCommands :
    stuck.fatal = true ∧ (Instr.opcode .build ≠ .clear ∧ Instr.opcode .build ≠ .csrRd) ∧
    (pinsNow { stuck with host := [{ quietPins with rst := true }] }).rst = true ∧
    ∃ t, unitsIdle stuck = true ∧ (pinsNow stuck).rst = false ∧ (pinsNow stuck).cmdValid = false ∧ step stuck = .next t :=
  ⟨by decide, by decide, by decide, _, by decide, by decide, by decide, rfl⟩

theorem witness_InternalFaultHaltsTheBlock :
    ({ counted with tbFsm := .bFault .queueFull } : State).pqFsm = .pIdle ∧
    ({ counted with tbFsm := .bExtV } : State).pqSize = 0 ∧
    ({ counted with tbFsm := .bInsW } : State).pqSize = ({ counted with tbFsm := .bInsW } : State).pqCap ∧
    (ftAt { setS 0x61 counted with tbFsm := .bLeaves } (setS 0x61 counted).tb.S.toNat ≠ 0 ∧
      (setS 0x61 counted).tb.S.toNat < counted.params.nsym ∧ (setS 0x61 counted).pqSize = (setS 0x61 counted).pqCap) := by
  decide

theorem witness_HaltIsNeverObserved :
    (∃ t, tick { counted with tbFsm := .bFault .queueFull } = .next t ∧ counted.fatal = false ∧ t.fatal = true) ∧
    Reachable State.reset ∧ ∃ t, exec .pqExt State.reset = .next t :=
  ⟨⟨_, rfl, rfl, rfl⟩, .reset [] (by decide), _, rfl⟩

theorem witness_ErrflagsAreSticky :
    (∃ t, unitsIdle coded = true ∧ runWord 0x1100010000000000#64 coded = .next t ∧ decode 0x1100010000000000#64 ≠ .ok .clear) ∧
    (∃ t, exec .clear coded = .next t) ∧
    (∃ t, (pinsNow { coded with host := [{ quietPins with rst := true }] }).rst = true ∧
      step { coded with host := [{ quietPins with rst := true }] } = .next t) ∧
    (∃ t, (pinsNow coded).rst = false ∧ unitsIdle coded = true ∧ (cmdReady coded && (pinsNow coded).cmdValid) = false ∧
      step coded = .next t) ∧ Reachable State.reset :=
  ⟨⟨_, by decide, rfl, by decide⟩, ⟨_, rfl⟩, ⟨_, by decide, rfl⟩, ⟨_, by decide, by decide, by decide, rfl⟩, .reset [] (by decide)⟩

theorem witness_ResetLeavesTheTableOfValues : ∃ t, exec .clear coded = .next t ∧ unitsIdle coded = true := ⟨_, rfl, by decide⟩

theorem witness_ClearPutsTheBlockInItsResetState :
    unitsIdle stuck = true ∧ ∃ t, exec .build stuck = .next t ∧ Instr.build ≠ .clear ∧ stuck.fatal = true :=
  ⟨by decide, _, rfl, by decide, rfl⟩

theorem witness_CsrReadReturnsTheRegister : ∃ c d : Nat, c < 8 ∧ c = 7 ∧ 7 < d := ⟨7, 8, by decide⟩

theorem witness_FtWriteWritesOneEntry :
    (coded.params.legal = true ∧ coded.fatal = false ∧ 255 < coded.params.nsym ∧ 4294967295 ≤ coded.params.kmax) ∧
    (small.params.legal = true ∧ small.fatal = false ∧ 63 < small.params.nsym ∧ 65535 ≤ small.params.kmax ∧
      small.params.nsym ≤ 64 ∧ small.params.kmax < 65536) := by decide

theorem witness_FtReadReturnsTheEntry :
    (coded.params.legal = true ∧ coded.fatal = false ∧ 255 < coded.params.nsym ∧ coded.params.nsym ≤ 256) ∧
      0 < Params.standard.nsym ∧ ∃ t, exec .clear coded = .next t := ⟨by decide, by decide, _, rfl⟩

theorem witness_LeafAllocatesOneRecord :
    (coded.params.legal = true ∧ coded.params.nodeMax = 511 ∧ 255 < coded.params.nsym ∧ 4294967295 ≤ coded.params.kmax ∧
      ({ coded with nodeCnt := 510 } : State).fatal = false ∧ ({ coded with nodeCnt := 510 } : State).nodeCnt.toNat < 511) ∧
    ({ coded with nodeCnt := 511 } : State).fatal = false ∧ ({ coded with nodeCnt := 511 } : State).nodeCnt.toNat = 511 ∧
    coded.params.nsym ≤ 256 ∧ coded.params.kmax < 4294967296 := by
  decide

theorem witness_NodeReadsReturnTheRecord :
    coded.params.legal = true ∧ coded.params = .standard ∧ coded.fatal = false ∧ coded.nodeCnt.toNat ≤ coded.params.nodeMax ∧
      4 < coded.nodeCnt.toNat ∧ nodeAt coded 4 = some (innerRec 7 1 3) ∧ coded.nodeCnt.toNat ≤ 5 := by decide

theorem witness_QueueInitMakesAnEmptyQueue :
    coded.params.legal = true ∧ coded.fatal = false ∧ 256 ≤ coded.params.nsym ∧ coded.params.nsym < 257 := by decide

theorem witness_HeapReadReturnsTheSlot :
    coded.fatal = false ∧ 0 < coded.pqSize.toNat ∧ slotAt coded 0 = some 4 ∧ nodeAt coded 4 = some (innerRec 7 1 3) ∧
      coded.pqSize.toNat ≤ 1 := by decide

theorem witness_CodewordReadReturnsTheWord :
    coded.params.legal = true ∧ coded.fatal = false ∧ 0xFF < coded.params.nsym ∧ 7 < coded.params.cwWords ∧
      cwAt coded 0x63 = some { len := 2, bits := 0b11 } ∧ cwValid coded 0xFF = false ∧ coded.params.cwWords ≤ 8 := by decide

theorem coreInv_queued : CoreInv queued :=
  ⟨by decide, by decide, by decide, ⟨by decide, by decide, by decide, by decide⟩,
    ⟨by decide, by decide, by decide, by simp only [innerOk_iff]; decide⟩, ⟨by decide, by decide, by decide, by decide⟩, rfl, rfl⟩

theorem heapOrdered_queued : HeapOrdered queued := by
  intro k hk hk'
  have : queued.pqSize.toNat = 2 := by decide
  obtain rfl : k = 1 := by omega
  rw [show keyAt queued (parentSlot 1) = some 2 by decide, show keyAt queued 1 = some 3 by decide]
  simp

theorem witness_QueueInsertPlacesTheReference :
    CoreInv queued ∧ 2 < queued.nodeCnt.toNat ∧ queued.pqSize.toNat < queued.pqCap.toNat ∧
      (nodeAt queued 2).map NodeRec.freq = some 2 := ⟨coreInv_queued, by decide⟩

theorem witness_QueueInsertKeepsHeapOrder :
    CoreInv queued ∧ HeapOrdered queued ∧ ∃ t, exec (.pqIns 2) queued = .next t :=
  ⟨coreInv_queued, heapOrdered_queued, next_of_completes (by decide +kernel)⟩

theorem witness_QueueExtractRemovesTheRoot : CoreInv queued ∧ 0 < queued.pqSize.toNat := ⟨coreInv_queued, by decide⟩

theorem witness_QueueExtractReturnsALeastKey : CoreInv queued ∧ HeapOrdered queued ∧ 0 < queued.pqSize.toNat :=
  ⟨coreInv_queued, heapOrdered_queued, by decide⟩

/-- A sift-up whose element has its parent's key. -/
def upTie : State := setI 1 { queued with heap := [(0, 0), (1, 2)], pqFsm := .pUp }

/-- A sift-down whose element has its right child's key, the left child's being greater. -/
def downTie : State := { queued with heap := [(0, 0), (1, 1), (2, 2)], pqSize := 3, pqFsm := .pDown }

/-- A sift-down whose children have equal keys below the element's. -/
def downBoth : State := { queued with heap := [(0, 1), (1, 0), (2, 2)], pqSize := 3, pqFsm := .pDown }

theorem witness_LowerSlotWinsTies :
    (∃ t, upTie.pqFsm = .pUp ∧ upTie.pq.I ≠ 0 ∧ keyAt upTie (parentSlot 1) = some 2 ∧ keyAt upTie 1 = some 2 ∧
      tick upTie = .next t) ∧
    (∃ t, downTie.pqFsm = .pDown ∧ 2 < downTie.pqSize.toNat ∧ keyAt downTie 0 = some 2 ∧ keyAt downTie 2 = some 2 ∧
      tick downTie = .next t) ∧
    (∃ t, downBoth.pqFsm = .pDown ∧ 2 < downBoth.pqSize.toNat ∧ keyAt downBoth 0 = some 3 ∧ keyAt downBoth 1 = some 2 ∧
      keyAt downBoth 2 = some 2 ∧ tick downBoth = .next t) :=
  ⟨⟨_, by decide, by decide, by decide, by decide, rfl⟩, ⟨_, by decide, by decide, by decide, by decide, rfl⟩,
    ⟨_, by decide, by decide, by decide, by decide, by decide, rfl⟩⟩

theorem witness_QueueMachineTransitions :
    (∃ t, insertStart 2 queued = .next t) ∧ (∃ t, extractStart queued = .next t) ∧
    (∃ t, upTie.pqFsm = .pUp ∧ tick upTie = .next t) ∧ (∃ t, downBoth.pqFsm = .pDown ∧ tick downBoth = .next t) ∧
    ∃ t, tick { queued with tbFsm := .bExtU } = .next t ∧ t.pqFsm ≠ .pIdle :=
  ⟨⟨_, rfl⟩, ⟨_, rfl⟩, ⟨_, rfl, rfl⟩, ⟨_, rfl, rfl⟩, _, rfl, by decide⟩

theorem witness_QueueCommandsRunThePrimitives :
    unitsIdle queued = true ∧ queued.fatal = false ∧ 2 < queued.nodeCnt.toNat ∧
      queued.pqSize ≠ queued.pqCap ∧ queued.pqSize ≠ 0 := by decide

/-- The queue of `queued` over records of the same frequencies and other symbols. -/
def requeued : State := { queued with node := [(0, leafRec .standard 0x7A 2), (1, leafRec .standard 0x7A 3), (2, innerRec 2 1 0)] }

theorem witness_QueueReadsKeysOnly :
    queued.params = requeued.params ∧
      (∀ i, (nodeAt queued i).map NodeRec.freq = (nodeAt requeued i).map NodeRec.freq) ∧ queued.heap = requeued.heap ∧
      queued.nodeCnt = requeued.nodeCnt ∧ unitsIdle requeued = true ∧ requeued.fatal = false ∧
      (∃ t, exec (.pqIns 2) queued = .next t) ∧ ∃ t, exec .pqExt queued = .next t := by
  refine ⟨rfl, fun i => ?_, by decide, by decide, by decide, by decide, next_of_completes (by decide +kernel),
    next_of_completes (by decide +kernel)⟩
  simp only [nodeAt, requeued, queued, arrGet]
  split <;> [rfl; split <;> [rfl; split <;> rfl]]

theorem witness_BuilderMachineTransitions :
    (∃ t, tick { counted with tbFsm := .bScan } = .next t) ∧
    (∃ t, tick (setI 1 { queued with heap := [(0, 1), (1, 0)], pqFsm := .pUp, tbFsm := .bInsW }) = .next t ∧ t.pqFsm ≠ .pIdle) ∧
    (∃ t, tick { queued with pqFsm := .pUp, tbFsm := .bInsW } = .next t ∧ t.pqFsm = .pIdle) ∧
    (∃ t, tick { queued with pqFsm := .pDown, tbFsm := .bExtU } = .next t ∧ t.pqFsm = .pIdle) ∧
    (∃ t, tick { queued with tbFsm := .bInsW } = .next t ∧ t.pqFsm = .pUp) ∧
    (∃ t, tick { queued with tbFsm := .bExtU } = .next t ∧ t.pqFsm = .pDown) ∧ counted.fatal = false :=
  ⟨⟨_, rfl⟩, ⟨_, rfl, by decide⟩, ⟨_, rfl, by decide⟩, ⟨_, rfl, by decide⟩, ⟨_, rfl, by decide⟩, ⟨_, rfl, by decide⟩, rfl⟩

theorem witness_BuildComputesItsSummary : coded.params.legal = true ∧ unitsIdle coded = true ∧ coded.fatal = false := by decide

theorem witness_BuildLeavesTheTreeRegisters :
    counted.params.legal = true ∧ unitsIdle counted = true ∧ counted.fatal = false ∧ symbolCount counted = 3 ∧ totalCount counted = 7 ∧
      (occurring counted)[2]? = some 0x63 := by decide +kernel

theorem witness_BuildLeavesASingleTree :
    coded.params.legal = true ∧ unitsIdle coded = true ∧ coded.fatal = false ∧ 0 < symbolCount coded ∧ totalCount coded ≤ coded.params.kmax ∧
      (occurring coded)[0]? = some 0x61 := by decide +kernel

theorem witness_BuildAndGencodeMakeAPrefixCode :
    coded.params.legal = true ∧ unitsIdle coded = true ∧ coded.fatal = false ∧ 2 ≤ symbolCount coded ∧ totalCount coded ≤ coded.params.kmax := by decide +kernel

/-- `counted` and `coded` have the same FT and parameters. -/
theorem witness_BuildDependsOnFtAlone :
    coded.params.legal = true ∧ counted.params = coded.params ∧ unitsIdle coded = true ∧ coded.fatal = false ∧
      ∀ i, i < 256 → ftAt counted i = ftAt coded i :=
  ⟨by decide, rfl, by decide, by decide, fun _ _ => by simp [ftAt, coded, built]⟩

/-- Also the case `n` = 1 of BuildAndGencodeMakeAPrefixCode. -/
theorem witness_SingleSymbolGetsTheCodewordZero :
    unitsIdle State.reset = true ∧ occurring { State.reset with ft := [(0xFF, 4294967295)] } = [0xFF] ∧
      symbolCount { State.reset with ft := [(0xFF, 4294967295)] } = 1 ∧
      totalCount { State.reset with ft := [(0xFF, 4294967295)] } ≤ State.reset.params.kmax ∧
      State.reset.params.legal = true := by decide +kernel

theorem witness_RecorderMachineTransitions :
    (coded.fatal = false ∧ coded.treeValid = true) ∧ coded.pqFsm = .pIdle ∧ coded.tbFsm = .bIdle ∧
      ∃ t, tick { coded with crFsm := .gStart } = .next t := ⟨by decide, rfl, rfl, _, rfl⟩

theorem witness_GencodeRecordsTheWalk :
    (counted.fatal = false ∧ counted.treeValid = false) ∧ CoreInv coded ∧ TreeOk coded ∧ coded.treeValid = true ∧
      2 ≤ coded.nleaf.toNat := ⟨by decide, coreInv_coded, treeOk_coded, rfl, by decide⟩

theorem witness_GencodeCodesEveryLeaf : CoreInv coded ∧ TreeOk coded ∧ coded.treeValid = true ∧ 2 ≤ coded.nleaf.toNat :=
  ⟨coreInv_coded, treeOk_coded, rfl, by decide⟩

/-- Two distinct symbols with codewords, as the GENCODE of `test_genCode` leaves them. -/
theorem witness_CodewordsArePrefixFree :
    CoreInv coded ∧ TreeOk coded ∧ coded.treeValid = true ∧
      (after (exec .genCode coded) fun t => (cwAt t 0x61, cwAt t 0x62)) =
        some (some { len := 2, bits := 0b01 }, some { len := 1, bits := 0b0 }) :=
  ⟨coreInv_coded, treeOk_coded, rfl, by decide +kernel⟩

/-- A tree of one leaf, for the clause N = 1 of CodewordLengthIsBounded. -/
def single : State :=
  { State.reset with
    node := [(0, leafRec .standard 0x7A 9)], nodeCnt := 1, heap := [(0, 0)], pqSize := 1, pqCap := 1, root := 0, nleaf := 1, treeValid := true }

theorem witness_CodewordLengthIsBounded : CoreInv single ∧ TreeOk single ∧ single.treeValid = true ∧ single.nleaf = 1 :=
  ⟨⟨by decide, by decide, by decide, ⟨by decide, by decide, by decide, by decide⟩,
      ⟨by decide, by decide, by decide, by simp only [innerOk_iff]; decide⟩, ⟨by decide, by decide, by decide, by decide⟩, rfl, rfl⟩,
    ⟨nofun, fun _ => ⟨by decide, by decide, by decide, by decide, fun i hi => absurd hi (by simp [single]), by decide⟩⟩,
    rfl, rfl⟩

theorem witness_ReadsAreFreeOfSideEffects :
    ∃ t, isRead (Instr.opcode (.nodeRd 4)) = true ∧ exec (.nodeRd 4) coded = .next t ∧ t.rsp = some (okWord 0 7) :=
  ⟨_, by decide, rfl, by decide⟩

theorem witness_OnlyNamedCommandsWrite :
    ∃ t, unitsIdle coded = true ∧ exec (.cwRd 0x63 0) coded = .next t ∧
      Instr.opcode (.cwRd 0x63 0) ∉ [.clear, .ftWr, .leaf, .build, .pqInit, .pqIns, .pqExt, .genCode] :=
  ⟨_, by decide, rfl, by decide⟩

theorem witness_AllocatedRecordsNeverChange :
    (∃ t, CoreInv coded ∧ exec (.leaf 1 1) coded = .next t ∧ Instr.opcode (.leaf 1 1) ≠ .clear ∧
      Instr.opcode (.leaf 1 1) ≠ .build) := ⟨_, coreInv_coded, rfl, by decide, by decide⟩

theorem witness_WorkingRegistersAreDead :
    unitsIdle (setI 5 (setCUR 2 coded)) = true ∧ visible coded = visible (setI 5 (setCUR 2 coded)) ∧
      coded ≠ setI 5 (setCUR 2 coded) := ⟨by decide, rfl, by decide⟩

theorem witness_StepKeepsArraysCanonical : ∃ t, Memory.wf coded = true ∧ step coded = .next t := ⟨_, by decide, rfl⟩

theorem witness_StepKeepsTheCoreInvariants : ∃ t, CoreInv coded ∧ step coded = .next t := ⟨_, coreInv_coded, rfl⟩

theorem witness_StepKeepsTheInvariants : ∃ t, BlockInv coded ∧ step coded = .next t := ⟨_, blockInv_coded, rfl⟩

theorem witness_BlockNeverStops : BlockInv coded := blockInv_coded

/-- `queued` with PQ_INS 2 on the command port. -/
def inserting : State := { queued with host := [presenting 0x3100000200000000#64] }

theorem witness_StepKeepsHeapOrder : CoreInv inserting ∧ HeapOrdered inserting ∧ ∃ t, step inserting = .next t :=
  ⟨⟨by decide, by decide, by decide, ⟨by decide, by decide, by decide, by decide⟩,
      ⟨by decide, by decide, by decide, by simp only [innerOk_iff]; decide⟩, ⟨by decide, by decide, by decide, by decide⟩, rfl, rfl⟩,
    heapOrdered_queued, next_of_completes (by decide +kernel)⟩

theorem witness_ReachableStatesMeetTheInvariants :
    Reachable { State.reset with host := [presenting 0x2000007800000005#64] } := .drive _ (.reset [] (by decide))

end Sys2Proof.Tests
end

section
/-!
PROOFS. Dense arrays: NODE, HEAP and TSTK hold values exactly at the indices below a counter (10_state.md R40), so each is the list of its
values in index order.
-/

namespace Sys2Proof.Machine

variable {α : Type} {n lo i : Nat} {m : Arr α} {v : α}

/-- The array lists exactly the indices `0` to `n - 1`, in order. -/
def Dense (n : Nat) (m : Arr α) : Prop := m.map Prod.fst = List.range n

theorem dense_iff_range' : Dense n m ↔ m.map Prod.fst = List.range' 0 n := by
  rw [Dense, List.range_eq_range']

theorem Dense.length_eq (h : Dense n m) : m.length = n := by simpa using congrArg List.length h

theorem Dense.eq_nil (h : Dense 0 m) : m = [] := List.length_eq_zero_iff.1 h.length_eq

theorem arrGet_of_keys (h : m.map Prod.fst = List.range' lo n) : arrGet m (lo + i) = (m.map Prod.snd)[i]? := by
  induction m generalizing lo n i with
  | nil => simp
  | cons e t ih =>
    obtain ⟨n, rfl⟩ : ∃ k, n = k + 1 := ⟨t.length, by simpa using (congrArg List.length h).symm⟩
    simp only [List.map_cons, List.range'_succ, List.cons.injEq] at h
    obtain ⟨he, ht⟩ := h
    cases i with
    | zero => simp [arrGet, he]
    | succ i =>
      have hi := ih (i := i) ht
      rw [show lo + 1 + i = lo + (i + 1) by omega] at hi
      simp [arrGet, he, hi]

/-- A dense array reads as the list of its values. -/
theorem Dense.arrGet_eq (h : Dense n m) (i : Nat) : arrGet m i = (m.map Prod.snd)[i]? := by
  simpa using arrGet_of_keys (i := i) (dense_iff_range'.1 h)

theorem Dense.arrGet_some_iff (h : Dense n m) : (∃ v, arrGet m i = some v) ↔ i < n := by
  rw [h.arrGet_eq, ← h.length_eq, ← Option.isSome_iff_exists]
  simp

theorem Dense.lt_of_arrGet (h : Dense n m) (hg : arrGet m i = some v) : i < n := h.arrGet_some_iff.1 ⟨v, hg⟩

theorem Dense.mem_iff (h : Dense n m) : (i, v) ∈ m ↔ arrGet m i = some v := by
  refine ⟨fun hm => ?_, arrGet_mem⟩
  obtain ⟨j, hj, he⟩ := List.getElem_of_mem hm
  have hkey : i = j := by
    have hk : (m.map Prod.fst)[j]? = (List.range n)[j]? := by rw [show m.map Prod.fst = List.range n from h]
    rw [List.getElem?_map, List.getElem?_eq_getElem hj, he, List.getElem?_range (h.length_eq ▸ hj)] at hk
    simpa using hk
  rw [h.arrGet_eq, hkey, List.getElem?_map, List.getElem?_eq_getElem hj, he]
  rfl

theorem arrSet_of_keys_lt (h : ∀ e ∈ m, e.1 < n) : arrSet m n v = m ++ [(n, v)] := by
  induction m with
  | nil => rfl
  | cons e t ih =>
    have he := h e List.mem_cons_self
    rw [arrSet, if_neg (by omega), if_neg (by omega), ih fun e he => h e (List.mem_cons_of_mem _ he), List.cons_append]

theorem Dense.key_lt (h : Dense n m) {e : Nat × α} (he : e ∈ m) : e.1 < n :=
  List.mem_range.1 (h ▸ List.mem_map_of_mem he)

/-- Listing an entry at the counter appends it. -/
theorem Dense.arrSet_end (h : Dense n m) : arrSet m n v = m ++ [(n, v)] := arrSet_of_keys_lt fun _ => h.key_lt

theorem Dense.push (h : Dense n m) (v : α) : Dense (n + 1) (arrSet m n v) := by
  rw [h.arrSet_end, Dense, List.map_append, show m.map Prod.fst = _ from h, List.range_succ]
  rfl

theorem arrSet_of_keys (h : m.map Prod.fst = List.range' lo n) (hi : i < n) :
    (arrSet m (lo + i) v).map Prod.fst = List.range' lo n ∧
      (arrSet m (lo + i) v).map Prod.snd = (m.map Prod.snd).set i v := by
  induction m generalizing lo n i with
  | nil =>
    obtain rfl : n = 0 := by simpa using (congrArg List.length h).symm
    omega
  | cons e t ih =>
    obtain ⟨n, rfl⟩ : ∃ k, n = k + 1 := ⟨t.length, by simpa using (congrArg List.length h).symm⟩
    simp only [List.map_cons, List.range'_succ, List.cons.injEq] at h
    obtain ⟨he, ht⟩ := h
    cases i with
    | zero => simp [arrSet, he, ht, List.range'_succ]
    | succ i =>
      obtain ⟨h1, h2⟩ := ih (i := i) ht (by omega)
      rw [show lo + 1 + i = lo + (i + 1) by omega] at h1 h2
      rw [arrSet, if_neg (by omega), if_neg (by omega)]
      simp [he, h1, h2, List.range'_succ]

/-- Listing an entry below the counter replaces it. -/
theorem Dense.set (h : Dense n m) (hi : i < n) (v : α) : Dense n (arrSet m i v) := by
  have := (arrSet_of_keys (v := v) (dense_iff_range'.1 h) hi).1
  rw [Nat.zero_add] at this
  exact dense_iff_range'.2 this

theorem Dense.values_set (h : Dense n m) (hi : i < n) (v : α) :
    (arrSet m i v).map Prod.snd = (m.map Prod.snd).set i v := by
  have := (arrSet_of_keys (v := v) (dense_iff_range'.1 h) hi).2
  rwa [Nat.zero_add] at this

theorem Dense.values_push (h : Dense n m) (v : α) : (arrSet m n v).map Prod.snd = m.map Prod.snd ++ [v] := by
  rw [h.arrSet_end]
  simp

/-- A non-empty dense array is a dense array and its last entry, which erasing removes. -/
theorem Dense.pop (h : Dense (n + 1) m) :
    ∃ v, Dense n (arrErase m n) ∧ m.map Prod.snd = (arrErase m n).map Prod.snd ++ [v] := by
  obtain ⟨t, ⟨k, v⟩, rfl⟩ : ∃ t e, m = t ++ [e] := by
    have hne : m ≠ [] := by rintro rfl; simpa using h.length_eq
    exact ⟨_, _, (List.dropLast_append_getLast hne).symm⟩
  rw [Dense, List.range_succ, List.map_append] at h
  obtain ⟨ht, hk⟩ := List.append_inj' h rfl
  obtain rfl : k = n := by simpa using hk
  have ht : Dense k t := ht
  have herase : arrErase (t ++ [(k, v)]) k = t := by
    have hkeep : ∀ e ∈ t, (e.1 != k) = true := fun e he => by simpa using (ht.key_lt he).ne
    simp [arrErase, List.filter_append, List.filter_eq_self.2 hkeep]
  rw [herase]
  exact ⟨v, ht, by simp⟩

end Sys2Proof.Machine
end

section
/-!
PROOFS. The stored part of a state, which the invariants of 10_state.md R43 are about: everything but the working and sequencing
registers, the ports and ERRFLAGS. One congruence lemma per invariant.
-/

namespace Sys2Proof.Machine

/-- The state with its working and sequencing registers, its ports and ERRFLAGS as after reset. -/
def store (s : State) : State :=
  { s with
    errflags := 0, pqFsm := .pIdle, tbFsm := .bIdle, crFsm := .gIdle, pq := State.reset.pq, tb := State.reset.tb,
    cr := State.reset.cr, rsp := none, host := [] }

variable {s t : State}

theorem QueueOk.congr (h : QueueOk s) (hp : t.params = s.params) (hh : t.heap = s.heap) (hs : t.pqSize = s.pqSize)
    (hc : t.pqCap = s.pqCap) (hn : t.nodeCnt = s.nodeCnt) : QueueOk t := by
  obtain ⟨h1, h2, h3, h4⟩ := h
  constructor <;> simpa only [hp, hh, hs, hc, hn]

theorem HeapOrdered.congr (h : HeapOrdered s) (hh : t.heap = s.heap) (hs : t.pqSize = s.pqSize) (hn : t.node = s.node) :
    HeapOrdered t := by
  have hkey : keyAt t = keyAt s := by funext k; simp only [keyAt, slotAt, nodeAt, hh, hn]
  simpa only [HeapOrdered, hs, hkey] using h

theorem InnerOk.congr {i : Nat} {n : NodeRec} (h : InnerOk s i n) (hn : t.node = s.node) : InnerOk t i n := by
  obtain ⟨h1, h2, h3, h4, h5⟩ := h
  exact ⟨h1, h2, h3, h4, by simpa only [nodeAt, hn] using h5⟩

theorem ArenaOk.congr (h : ArenaOk s) (hp : t.params = s.params) (hn : t.node = s.node) (hc : t.nodeCnt = s.nodeCnt) :
    ArenaOk t := by
  obtain ⟨h1, h2, h3, h4⟩ := h
  refine ⟨by simpa only [hp, hc], by simpa only [hn, hc], by simpa only [hp, hn], fun e he hl => ?_⟩
  rw [hn] at he
  exact (h4 e he hl).congr hn

theorem WidthsOk.congr (h : WidthsOk s) (hp : t.params = s.params) (hf : t.ft = s.ft) (hn : t.node = s.node) : WidthsOk t := by
  obtain ⟨h1, h2, h3, h4⟩ := h
  constructor <;> simpa only [hp, hf, hn]

theorem TreeShape.congr (h : TreeShape s) (hn : t.node = s.node) (hc : t.nodeCnt = s.nodeCnt) (hr : t.root = s.root)
    (hl : t.nleaf = s.nleaf) : TreeShape t := by
  obtain ⟨h1, h2, h3, h4, h5, h6⟩ := h
  constructor <;> simpa only [nodeAt, parentsOf, hn, hc, hr, hl]

theorem TreeOk.congr (h : TreeOk s) (hn : t.node = s.node) (hc : t.nodeCnt = s.nodeCnt) (hr : t.root = s.root)
    (hl : t.nleaf = s.nleaf) (hv : t.treeValid = s.treeValid) : TreeOk t :=
  ⟨by simpa only [hr, hl, hv] using h.noTree, fun ht => (h.tree (hv ▸ ht)).congr hn hc hr hl⟩

theorem CodesOk.congr (h : CodesOk s) (hp : t.params = s.params) (hn : t.node = s.node) (hl : t.nleaf = s.nleaf)
    (hv : t.treeValid = s.treeValid) (hc : t.cw = s.cw) (hr : t.cwReady = s.cwReady) : CodesOk t := by
  obtain ⟨h1, h2, h3, h4⟩ := h
  constructor <;> simpa only [cwValid, cwAt, leafSymbol, nodeAt, hp, hn, hl, hv, hc, hr]

/-- `CoreInv` without the idle units: what also holds between the steps of the queue and of the builder. -/
structure Sound (s : State) : Prop where
  legal : s.params.legal = true
  canonical : Memory.wf s = true
  queue : QueueOk s
  arena : ArenaOk s
  widths : WidthsOk s
  stackEmpty : s.tstk = []
  notFatal : s.fatal = false

theorem CoreInv.sound (h : CoreInv s) : Sound s :=
  ⟨h.legal, h.canonical, h.queue, h.arena, h.widths, h.stackEmpty, h.notFatal⟩

theorem Sound.core (h : Sound s) (hi : unitsIdle s = true) : CoreInv s :=
  ⟨h.legal, hi, h.canonical, h.queue, h.arena, h.widths, h.stackEmpty, h.notFatal⟩

/-- A field that a view of the state keeps is the same in two states with the same view. -/
theorem field_of_view {β : Type} {view : State → State} (f : State → β) (h : view t = view s) (hf : ∀ u, f (view u) = f u) :
    f t = f s := by
  rw [← hf t, h, hf]

section
variable (h : store t = store s)
include h

theorem params_of_store : t.params = s.params := field_of_view State.params h fun _ => rfl
theorem ft_of_store : t.ft = s.ft := field_of_view State.ft h fun _ => rfl
theorem node_of_store : t.node = s.node := field_of_view State.node h fun _ => rfl
theorem nodeCnt_of_store : t.nodeCnt = s.nodeCnt := field_of_view State.nodeCnt h fun _ => rfl
theorem heap_of_store : t.heap = s.heap := field_of_view State.heap h fun _ => rfl
theorem pqSize_of_store : t.pqSize = s.pqSize := field_of_view State.pqSize h fun _ => rfl
theorem pqCap_of_store : t.pqCap = s.pqCap := field_of_view State.pqCap h fun _ => rfl
theorem root_of_store : t.root = s.root := field_of_view State.root h fun _ => rfl
theorem nleaf_of_store : t.nleaf = s.nleaf := field_of_view State.nleaf h fun _ => rfl
theorem treeValid_of_store : t.treeValid = s.treeValid := field_of_view State.treeValid h fun _ => rfl
theorem cw_of_store : t.cw = s.cw := field_of_view State.cw h fun _ => rfl
theorem cwReady_of_store : t.cwReady = s.cwReady := field_of_view State.cwReady h fun _ => rfl
theorem fatal_of_store : t.fatal = s.fatal := field_of_view State.fatal h fun _ => rfl
theorem tstk_of_store : t.tstk = s.tstk := field_of_view State.tstk h fun _ => rfl

theorem Sound.of_store (hs : Sound s) : Sound t where
  legal := params_of_store h ▸ hs.legal
  canonical := by
    rw [wf_congr (params_of_store h) (ft_of_store h) (node_of_store h) (heap_of_store h) (cw_of_store h)
      (tstk_of_store h)]
    exact hs.canonical
  queue := hs.queue.congr (params_of_store h) (heap_of_store h) (pqSize_of_store h) (pqCap_of_store h)
    (nodeCnt_of_store h)
  arena := hs.arena.congr (params_of_store h) (node_of_store h) (nodeCnt_of_store h)
  widths := hs.widths.congr (params_of_store h) (ft_of_store h) (node_of_store h)
  stackEmpty := (tstk_of_store h).trans hs.stackEmpty
  notFatal := (fatal_of_store h).trans hs.notFatal

theorem HeapOrdered.of_store (hs : HeapOrdered s) : HeapOrdered t :=
  hs.congr (heap_of_store h) (pqSize_of_store h) (node_of_store h)

theorem TreeOk.of_store (hs : TreeOk s) : TreeOk t :=
  hs.congr (node_of_store h) (nodeCnt_of_store h) (root_of_store h) (nleaf_of_store h)
    (treeValid_of_store h)

theorem CodesOk.of_store (hs : CodesOk s) : CodesOk t :=
  hs.congr (params_of_store h) (node_of_store h) (nleaf_of_store h) (treeValid_of_store h)
    (cw_of_store h) (cwReady_of_store h)

end

end Sys2Proof.Machine
end

section
/-!
PROOFS. The queue (40_priority_queue.md): what the steps of `pq_insert` and `pq_extract` do to the references in HEAP, and that they keep
the queue in bounds and, with the element that moves set apart, in heap order (R123, R125).
-/

namespace Sys2Proof.Machine

open Sys2Proof.Summary

variable {s t u : State} {x y : NodeRef} {i j k : Nat}

/-! ### The references in the queue -/

/-- The references in HEAP, by slot. -/
def queueRefs (s : State) : List NodeRef := s.heap.map Prod.snd

theorem queueOk_iff :
    QueueOk s ↔ s.pqSize.toNat ≤ s.pqCap.toNat ∧ s.pqCap.toNat ≤ s.params.nsym ∧ Dense s.pqSize.toNat s.heap ∧
      ∀ x ∈ queueRefs s, x.toNat < s.nodeCnt.toNat := by
  constructor
  · rintro ⟨h1, h2, h3, h4⟩
    exact ⟨h1, h2, h3, by simpa [queueRefs] using fun x i h => h4 (i, x) h⟩
  · rintro ⟨h1, h2, h3, h4⟩
    exact ⟨h1, h2, h3, fun e he => h4 _ (List.mem_map_of_mem he)⟩

theorem QueueOk.dense (h : QueueOk s) : Dense s.pqSize.toNat s.heap := h.slots

theorem QueueOk.slotAt_eq (h : QueueOk s) (k : Nat) : slotAt s k = (queueRefs s)[k]? := h.dense.arrGet_eq k

theorem QueueOk.slot_lt (h : QueueOk s) (hk : slotAt s k = some x) : k < s.pqSize.toNat := h.dense.lt_of_arrGet hk

theorem QueueOk.length_refs (h : QueueOk s) : (queueRefs s).length = s.pqSize.toNat := by
  simpa [queueRefs] using h.dense.length_eq

theorem QueueOk.mem_refs (h : QueueOk s) (hk : slotAt s k = some x) : x ∈ queueRefs s :=
  List.mem_of_getElem? (h.slotAt_eq k ▸ hk)

theorem QueueOk.ref_lt (h : QueueOk s) (hx : x ∈ queueRefs s) : x.toNat < s.nodeCnt.toNat := (queueOk_iff.1 h).2.2.2 x hx

/-- PQ_SIZE is far from the end of its nine bits. -/
theorem QueueOk.size_le (h : QueueOk s) (hp : s.params.legal = true) : s.pqSize.toNat ≤ 256 :=
  h.sizeLe.trans (h.capLe.trans (Params.nsym_bounds hp).2)

/-- A queue that changes only its slots, and gains no reference, stays in bounds. -/
theorem QueueOk.of_heap (h : QueueOk s) (hp : t.params = s.params) (hs : t.pqSize = s.pqSize) (hc : t.pqCap = s.pqCap)
    (hn : t.nodeCnt = s.nodeCnt) (hd : Dense s.pqSize.toNat t.heap) (hr : (queueRefs t).Perm (queueRefs s)) : QueueOk t := by
  obtain ⟨h1, h2, -, h4⟩ := queueOk_iff.1 h
  exact queueOk_iff.2 ⟨by rwa [hs, hc], by rwa [hc, hp], by rwa [hs], fun x hx => by rw [hn]; exact h4 x (hr.subset hx)⟩

/-! ### Two slots change places -/

theorem swapSlots_slotAt (h : swapSlots s i j = .next t) (k : Nat) : slotAt t k = slotAt s (Equiv.swap i j k) := by
  obtain ⟨x, y, hx, hy, -, -, rfl⟩ := swapSlots_eq_next.1 h
  rw [slotAt_putSlot, slotAt_putSlot, Equiv.swap_apply_def]
  by_cases hj : k = j
  · by_cases hi : k = i <;> simp_all
  · by_cases hi : k = i <;> simp_all

theorem swapSlots_keyAt (h : swapSlots s i j = .next t) (k : Nat) : keyAt t k = keyAt s (Equiv.swap i j k) := by
  have hn : nodeAt t = nodeAt s := by
    obtain ⟨x, y, -, -, -, -, rfl⟩ := swapSlots_eq_next.1 h
    rfl
  rw [keyAt, keyAt, swapSlots_slotAt h, hn]

theorem swapSlots_refs (hq : QueueOk s) (h : swapSlots s i j = .next t) : QueueOk t ∧ (queueRefs t).Perm (queueRefs s) := by
  obtain ⟨x, y, hx, hy, -, -, rfl⟩ := swapSlots_eq_next.1 h
  have hi := hq.slot_lt hx
  have hj := hq.slot_lt hy
  have hvals : queueRefs (putSlot (putSlot s i y) j x) = ((queueRefs s).set i y).set j x :=
    ((hq.dense.set hi y).values_set hj x).trans (congrArg (·.set j x) (hq.dense.values_set hi y))
  rw [hq.slotAt_eq] at hx hy
  obtain ⟨hi', rfl⟩ := List.getElem?_eq_some_iff.1 hx
  obtain ⟨hj', rfl⟩ := List.getElem?_eq_some_iff.1 hy
  have hperm := hvals ▸ List.set_set_perm hi' hj'
  exact ⟨hq.of_heap rfl rfl rfl rfl ((hq.dense.set hi _).set hj _) hperm, hperm⟩

/-! ### The steps and the references -/

/-- R122 step 0 appends the new reference. -/
theorem insertStart_refs (hq : QueueOk s) (hroom : s.pqSize ≠ s.pqCap) (hx : x.toNat < s.nodeCnt.toNat)
    (hp : s.params.legal = true) (h : insertStart x s = .next t) :
    QueueOk t ∧ queueRefs t = queueRefs s ++ [x] ∧ t.pqSize.toNat = s.pqSize.toNat + 1 := by
  obtain ⟨-, rfl⟩ := insertStart_eq_next.1 h
  have hlt : s.pqSize.toNat < s.pqCap.toNat := lt_of_le_of_ne hq.sizeLe fun he => hroom (BitVec.eq_of_toNat_eq he)
  have hsize : (s.pqSize + 1).toNat = s.pqSize.toNat + 1 := by
    have := hq.size_le hp
    exact BitVec.toNat_add_of_lt (by simp; omega)
  have hrefs : queueRefs (setPqFsm .pUp (setPqSize (s.pqSize + 1) (putSlot (setI s.pqSize (setXN x s)) s.pqSize.toNat x))) =
      queueRefs s ++ [x] := hq.dense.values_push x
  refine ⟨queueOk_iff.2 ⟨hsize.trans_le hlt, hq.capLe, ?_, fun z hz => ?_⟩, hrefs, hsize⟩
  · exact hsize.symm ▸ hq.dense.push x
  · rw [hrefs, List.mem_append, List.mem_singleton] at hz
    rcases hz with hz | rfl
    · exact hq.ref_lt hz
    · exact hx

/-- R122 step P_UP moves references between slots. -/
theorem upStep_refs (hq : QueueOk s) (h : upStep s = .next t) : QueueOk t ∧ (queueRefs t).Perm (queueRefs s) := by
  rcases upStep_eq_next.1 h with ⟨-, rfl⟩ | ⟨-, kp, ki, -, -, ⟨-, rfl⟩ | ⟨-, u, hu, rfl⟩⟩
  · exact ⟨hq.congr rfl rfl rfl rfl rfl, .refl _⟩
  · exact ⟨hq.congr rfl rfl rfl rfl rfl, .refl _⟩
  · obtain ⟨hqu, hperm⟩ := swapSlots_refs hq hu
    exact ⟨hqu.congr rfl rfl rfl rfl rfl, hperm⟩

/-- R124 step P_DOWN moves references between slots. -/
theorem downStep_refs (hq : QueueOk s) (h : downStep s = .next t) : QueueOk t ∧ (queueRefs t).Perm (queueRefs s) := by
  rcases downStep_next h with rfl | ⟨m, u, -, hu, rfl⟩
  · exact ⟨hq.congr rfl rfl rfl rfl rfl, .refl _⟩
  · obtain ⟨hqu, hperm⟩ := swapSlots_refs hq hu
    exact ⟨hqu.congr rfl rfl rfl rfl rfl, hperm⟩

/-- R124 step 0 after PQ_SIZE is decremented: the last element goes to slot 0, in place of the reference there. -/
theorem moveLast_refs {l : List NodeRef} (hd : Dense (s.pqSize.toNat + 1) s.heap) (hl : queueRefs s = x :: l)
    (h : moveLast s = .next t) : Dense s.pqSize.toNat t.heap ∧ (queueRefs t).Perm l ∧ t = { s with heap := t.heap } := by
  have hlen : l.length = s.pqSize.toNat := by
    have : (queueRefs s).length = s.pqSize.toNat + 1 := by simpa [queueRefs] using hd.length_eq
    simpa [hl] using this
  rcases moveLast_eq_next.1 h with ⟨h0, rfl⟩ | ⟨h0, y, u, hy, hu, rfl⟩
  · have hz : s.pqSize.toNat = 0 := by simp [h0]
    rw [hz] at hd hlen
    obtain ⟨v, hd', -⟩ := hd.pop
    have hnil : queueRefs (dropSlot s 0) = [] := congrArg (List.map Prod.snd) hd'.eq_nil
    rw [List.length_eq_zero_iff.1 hlen, hnil]
    exact ⟨hz ▸ hd', .refl _, rfl⟩
  · obtain ⟨-, rfl⟩ := writeSlot_eq_next.1 hu
    obtain ⟨v, hd', hv⟩ := (hd.set (Nat.succ_pos _) y).pop
    have hlast : l ≠ [] := by
      rintro rfl
      exact h0 (BitVec.eq_of_toNat_eq (by simpa using hlen.symm))
    obtain ⟨mid, z, rfl⟩ : ∃ mid z, l = mid ++ [z] := ⟨_, _, (List.dropLast_append_getLast hlast).symm⟩
    obtain rfl : z = y := by
      have hget : slotAt s s.pqSize.toNat = (x :: (mid ++ [z]))[s.pqSize.toNat]? := hl ▸ hd.arrGet_eq _
      rw [hy, ← hlen] at hget
      simpa using hget.symm
    rw [hd.values_set (Nat.succ_pos _), show s.heap.map Prod.snd = _ from hl, List.set_cons_zero, ← List.cons_append] at hv
    have hrefs : queueRefs (dropSlot (putSlot s 0 z) s.pqSize.toNat) = z :: mid := (List.append_inj' hv rfl).1.symm
    exact ⟨hd', hrefs ▸ (List.perm_append_singleton z mid).symm, rfl⟩

/-- R124 step 0 takes the reference of slot 0 out. -/
theorem extractStart_refs (hq : QueueOk s) (h : extractStart s = .next t) :
    QueueOk t ∧ (t.pq.XN :: queueRefs t).Perm (queueRefs s) ∧ t.pqSize.toNat + 1 = s.pqSize.toNat := by
  obtain ⟨x, u, hx, hu, rfl⟩ := extractStart_eq_next.1 h
  have hsize : (s.pqSize - 1).toNat + 1 = s.pqSize.toNat := by
    have := hq.slot_lt hx
    bv_omega
  obtain ⟨l, hl⟩ : ∃ l, queueRefs s = x :: l := by
    rw [hq.slotAt_eq] at hx
    cases hr : queueRefs s with
    | nil => simp [hr] at hx
    | cons a l => exact ⟨l, by simpa [hr] using hx⟩
  obtain ⟨hd, hperm, hframe⟩ := moveLast_refs (s := setPqSize (s.pqSize - 1) (setXN x s))
    (hsize.symm ▸ hq.dense) hl hu
  rw [setPqSize_pqSize] at hd
  have hXN : u.pq.XN = x := by rw [hframe]; rfl
  have hrest : (x :: queueRefs u).Perm (queueRefs s) := hl ▸ hperm.cons x
  have hle := hq.sizeLe
  obtain ⟨hp, hs, hc, hn⟩ : u.params = s.params ∧ u.pqSize = s.pqSize - 1 ∧ u.pqCap = s.pqCap ∧ u.nodeCnt = s.nodeCnt := by
    rw [hframe]
    exact ⟨rfl, rfl, rfl, rfl⟩
  refine ⟨(queueOk_iff.2 ⟨by rw [hs, hc]; omega, by rw [hc, hp]; exact hq.capLe, by rwa [hs], fun z hz => ?_⟩ : QueueOk u).congr
    rfl rfl rfl rfl rfl, by rw [← hXN] at hrest; exact hrest, by simpa [hs] using hsize⟩
  rw [hn]
  exact hq.ref_lt (hrest.subset (List.mem_cons_of_mem _ hz))

end Sys2Proof.Machine
end

section
/-!
PROOFS. Heap order while an element moves (40_priority_queue.md R122 to R126): everywhere but at the moving element, and across it.
-/

namespace Sys2Proof.Machine

open Sys2Proof.Summary

variable {s t u : State} {x : NodeRef} {i j k m : Nat}

/-- The key of slot `i` is at most that of slot `j`, where both hold values. -/
def KeyLe (s : State) (i j : Nat) : Prop := ∀ a ∈ keyAt s i, ∀ b ∈ keyAt s j, a.toNat ≤ b.toNat

theorem heapOrdered_iff : HeapOrdered s ↔ ∀ k, k < s.pqSize.toNat → 0 < k → KeyLe s (parentSlot k) k := .rfl

theorem KeyLe.refl (s : State) (i : Nat) : KeyLe s i i := fun a ha b hb => by
  rw [Option.mem_def.1 ha] at hb
  cases hb
  exact le_rfl

theorem KeyLe.trans {b : Key} (hj : keyAt s j = some b) (h : KeyLe s i j) (h' : KeyLe s j k) : KeyLe s i k :=
  fun a ha c hc => (h a ha b hj).trans (h' b hj c hc)

theorem keyLe_of_not_keyLess (h : ¬ KeyLess s i j) : KeyLe s j i :=
  fun a ha b hb => Nat.not_lt.1 fun hlt => h ⟨b, hb, a, ha, hlt⟩

theorem keyLe_of_keyLess (h : KeyLess s i j) : KeyLe s i j := by
  obtain ⟨x, hx, y, hy, hlt⟩ := h
  intro a ha b hb
  obtain rfl : x = a := Option.some.inj (hx.symm.trans ha)
  obtain rfl : y = b := Option.some.inj (hy.symm.trans hb)
  exact hlt.le

theorem KeyLe.congr (hi : keyAt t i = keyAt s i) (hj : keyAt t j = keyAt s j) (h : KeyLe s i j) : KeyLe t i j := by
  simpa only [KeyLe, hi, hj] using h

/-- Keys after an exchange of two slots. -/
theorem keyLe_of_swapSlots (h : swapSlots s i j = .next u) {k l : Nat}
    (hle : KeyLe s (Equiv.swap i j k) (Equiv.swap i j l)) : KeyLe u k l := by
  simpa only [KeyLe, swapSlots_keyAt h] using hle

theorem keyAt_congr (hs : slotAt t k = slotAt s k) (hn : t.node = s.node) : keyAt t k = keyAt s k := by
  simp only [keyAt, hs, nodeAt, hn]

/-- Heap order while the element of slot `i` moves: between every slot and its parent but where `skip` says, and across the element, from
its children to its parent. -/
structure MovingOrdered (s : State) (i : Nat) (skip : Nat → Prop) : Prop where
  apart : ∀ k, k < s.pqSize.toNat → 0 < k → ¬ skip k → KeyLe s (parentSlot k) k
  across : ∀ k, k < s.pqSize.toNat → 0 < k → 0 < i → parentSlot k = i → KeyLe s (parentSlot i) k

/-- The element of slot `i` moves up: it may be below its parent. -/
abbrev UpOrdered (s : State) (i : Nat) : Prop := MovingOrdered s i fun k => k = i

/-- The element of slot `i` moves down: its children may be below it. -/
abbrev DownOrdered (s : State) (i : Nat) : Prop := MovingOrdered s i fun k => parentSlot k = i

/-- The order of the queue in each state of PQ_FSM. -/
def QueueShape (s : State) : Prop :=
  match s.pqFsm with
  | .pIdle => HeapOrdered s
  | .pUp => UpOrdered s s.pq.I.toNat
  | .pDown => DownOrdered s s.pq.I.toNat

theorem queueShape_idle (h : s.pqFsm = .pIdle) : QueueShape s ↔ HeapOrdered s := by simp [QueueShape, h]
theorem queueShape_up (h : s.pqFsm = .pUp) : QueueShape s ↔ UpOrdered s s.pq.I.toNat := by simp [QueueShape, h]
theorem queueShape_down (h : s.pqFsm = .pDown) : QueueShape s ↔ DownOrdered s s.pq.I.toNat := by simp [QueueShape, h]

section
variable (hk : ∀ k, k < s.pqSize.toNat → keyAt t k = keyAt s k)
include hk

theorem keyLe_parent_congr {j : Nat} (hj : j < s.pqSize.toNat) (h : KeyLe s (parentSlot i) j) (hi : i < s.pqSize.toNat) :
    KeyLe t (parentSlot i) j :=
  h.congr (hk _ (by simp only [parentSlot]; omega)) (hk j hj)

variable (hs : t.pqSize = s.pqSize)
include hs

theorem HeapOrdered.of_keys (h : HeapOrdered s) : HeapOrdered t := heapOrdered_iff.2 fun k hlt h0 => by
  rw [hs] at hlt
  exact keyLe_parent_congr hk hlt (h k hlt h0) hlt

theorem MovingOrdered.of_keys {skip : Nat → Prop} (h : MovingOrdered s i skip) : MovingOrdered t i skip := by
  refine ⟨fun k hlt h0 hne => ?_, fun k hlt h0 hi he => ?_⟩ <;> rw [hs] at hlt
  · exact keyLe_parent_congr hk hlt (h.apart k hlt h0 hne) hlt
  · have hilt : i < s.pqSize.toNat := by
      simp only [parentSlot] at he
      omega
    exact keyLe_parent_congr hk hlt (h.across k hlt h0 hi he) hilt

/-- The order of the queue is a matter of the keys, PQ_SIZE, PQ_FSM and I. -/
theorem QueueShape.congr (h : QueueShape s) (hf : t.pqFsm = s.pqFsm) (hI : t.pq.I = s.pq.I) : QueueShape t := by
  unfold QueueShape at h ⊢
  rw [hf, hI]
  cases hq : s.pqFsm with
  | pIdle => exact HeapOrdered.of_keys hk hs (by simpa only [hq] using h)
  | pUp => exact MovingOrdered.of_keys hk hs (by simpa only [hq] using h)
  | pDown => exact MovingOrdered.of_keys hk hs (by simpa only [hq] using h)

end

/-! ### Insertion -/

theorem insertStart_order (ho : HeapOrdered s) (hq : QueueOk s) (hp : s.params.legal = true) (h : insertStart x s = .next t) :
    t.pqFsm = .pUp ∧ UpOrdered t t.pq.I.toNat := by
  obtain ⟨-, rfl⟩ := insertStart_eq_next.1 h
  have hsize : (s.pqSize + 1).toNat = s.pqSize.toNat + 1 := by
    have := hq.size_le hp
    exact BitVec.toNat_add_of_lt (by simp; omega)
  have hlt : ∀ k, k < (s.pqSize + 1).toNat → k < s.pqSize.toNat + 1 := fun k hk => hsize ▸ hk
  refine ⟨rfl, fun k hk h0 hne => ?_, fun k hk h0 hi he => ?_⟩
  · have hk := hlt k hk
    have hne : k ≠ s.pqSize.toNat := hne
    have hpar : parentSlot k ≠ s.pqSize.toNat := by simp only [parentSlot]; omega
    have hold : ∀ j, j ≠ s.pqSize.toNat →
        keyAt (setPqFsm .pUp (setPqSize (s.pqSize + 1) (putSlot (setI s.pqSize (setXN x s)) s.pqSize.toNat x))) j = keyAt s j :=
      fun j hj => keyAt_congr ((slotAt_putSlot ..).trans (if_neg hj)) rfl
    exact KeyLe.congr (hold _ hpar) (hold _ hne) (ho k (by omega) h0)
  · have hk := hlt k hk
    have he : parentSlot k = s.pqSize.toNat := he
    simp only [parentSlot] at he
    omega

/-- R126: an element moves up only past a strictly greater parent. -/
theorem upStep_order (ho : UpOrdered s s.pq.I.toNat) (hq : QueueOk s) (hp : s.params.legal = true) (h : upStep s = .next t) :
    (t.pqFsm = .pIdle ∧ HeapOrdered t) ∨ (t.pqFsm = s.pqFsm ∧ UpOrdered t t.pq.I.toNat) := by
  rcases upStep_eq_next.1 h with ⟨hI, rfl⟩ | ⟨hI, kp, ki, hkp, hki, ⟨hle, rfl⟩ | ⟨hlt, u, hu, rfl⟩⟩
  · have hI : s.pq.I.toNat = 0 := by simp [hI]
    exact .inl ⟨rfl, fun k hk h0 => ho.apart k hk h0 (by omega)⟩
  · refine .inl ⟨rfl, heapOrdered_iff.2 fun k hk h0 => ?_⟩
    by_cases hkI : k = s.pq.I.toNat
    · subst hkI
      intro a ha b hb
      obtain rfl : kp = a := Option.some.inj (hkp.symm.trans ha)
      obtain rfl : ki = b := Option.some.inj (hki.symm.trans hb)
      exact BitVec.not_lt.1 hle
    · exact ho.apart k hk h0 hkI
  · obtain ⟨I, hIdef⟩ : ∃ I, I = s.pq.I.toNat := ⟨_, rfl⟩
    rw [← hIdef] at ho hki hkp hu ⊢
    have hIpos : 0 < I := by
      rcases Nat.eq_zero_or_pos I with h0 | h0
      · exact absurd (BitVec.eq_of_toNat_eq (by simp [← hIdef, h0])) hI
      · exact h0
    obtain ⟨x, y, hx, hy, -, -, rfl⟩ := swapSlots_eq_next.1 hu
    have hIlt := hq.slot_lt hy
    have hsz := hq.size_le hp
    have hself : KeyLe s I (parentSlot I) := keyLe_of_keyLess ⟨ki, hki, kp, hkp, hlt⟩
    have hparent : parentSlot I < I := by simp only [parentSlot]; omega
    refine .inr ⟨rfl, ?_⟩
    rw [setI_pq_I, BitVec.toNat_ofNat, Nat.mod_eq_of_lt (by omega)]
    refine ⟨fun k hk h0 hne => keyLe_of_swapSlots hu ?_, fun k hk h0 hi he => keyLe_of_swapSlots hu ?_⟩
    · have hk : k < s.pqSize.toNat := hk
      by_cases hkI : k = I
      · rw [hkI, Equiv.swap_apply_left, Equiv.swap_apply_right]
        exact hself
      · rw [Equiv.swap_apply_of_ne_of_ne hne hkI]
        by_cases hpp : parentSlot k = parentSlot I
        · rw [hpp, Equiv.swap_apply_left]
          exact hself.trans hkp (hpp ▸ ho.apart k hk h0 hkI)
        · by_cases hpI : parentSlot k = I
          · rw [hpI, Equiv.swap_apply_right]
            exact ho.across k hk h0 hIpos hpI
          · rw [Equiv.swap_apply_of_ne_of_ne hpp hpI]
            exact ho.apart k hk h0 hkI
    · have hk : k < s.pqSize.toNat := hk
      have hpp : parentSlot (parentSlot I) < parentSlot I := by
        simp only [parentSlot] at hi ⊢
        omega
      have hup := ho.apart (parentSlot I) (by omega) hi (by omega)
      rw [Equiv.swap_apply_of_ne_of_ne (by omega) (by omega)]
      by_cases hkI : k = I
      · rwa [hkI, Equiv.swap_apply_right]
      · rw [Equiv.swap_apply_of_ne_of_ne (by rintro rfl; omega) hkI]
        exact hup.trans hkp (he ▸ ho.apart k hk h0 hkI)

/-! ### Extraction -/

theorem extractStart_order (ho : HeapOrdered s) (hq : QueueOk s) (h : extractStart s = .next t) :
    t.pqFsm = .pDown ∧ DownOrdered t t.pq.I.toNat := by
  obtain ⟨-, -, hsize⟩ := extractStart_refs hq h
  obtain ⟨x, u, -, hu, rfl⟩ := extractStart_eq_next.1 h
  have hsu : u.pqSize.toNat + 1 = s.pqSize.toNat := hsize
  have hframe : u.pqSize = s.pqSize - 1 ∧ u.node = s.node := by
    rcases moveLast_eq_next.1 hu with ⟨-, rfl⟩ | ⟨-, y, w, -, hw, rfl⟩
    · exact ⟨rfl, rfl⟩
    · obtain ⟨-, rfl⟩ := writeSlot_eq_next.1 hw
      exact ⟨rfl, rfl⟩
  have hsame : ∀ k, 0 < k → k < u.pqSize.toNat → keyAt u k = keyAt s k := by
    intro k h0 hk
    have hk' : k < (s.pqSize - 1).toNat := hframe.1 ▸ hk
    refine keyAt_congr ?_ hframe.2
    rcases moveLast_eq_next.1 hu with ⟨hz, -⟩ | ⟨-, y, w, -, hw, rfl⟩
    · rw [setPqSize_pqSize] at hz
      rw [hz] at hk'
      exact absurd hk' (Nat.not_lt_zero k)
    · obtain ⟨-, rfl⟩ := writeSlot_eq_next.1 hw
      rw [slotAt_dropSlot, if_neg (by exact hk'.ne), slotAt_putSlot, if_neg h0.ne']
      rfl
  refine ⟨rfl, fun k hk h0 hne => ?_, fun k hk h0 hi => absurd hi (by simp)⟩
  have hk : k < u.pqSize.toNat := hk
  have hne : parentSlot k ≠ 0 := hne
  have hpar : parentSlot k < u.pqSize.toNat := by
    simp only [parentSlot]
    omega
  exact KeyLe.congr (hsame _ (Nat.pos_of_ne_zero hne) hpar) (hsame k h0 hk) (ho k (by omega) h0)

/-- R124 step P_DOWN moves the element as its two comparisons choose. -/
theorem downStep_chosen (h : downStep s = .next t) : ∃ m, downMove s m = .next t ∧ Chosen s s.pq.I.toNat m := by
  change lesserSlot s s.pq.I.toNat (2 * s.pq.I.toNat + 1) (fun m => lesserSlot s m (2 * s.pq.I.toNat + 2) (downMove s)) =
    .next t at h
  have less : ∀ {i j : Nat} {a b : Key}, keyAt s i = some a → keyAt s j = some b → (KeyLess s i j ↔ a < b) := by
    intro i j a b ha hb
    simp [KeyLess, ha, hb, BitVec.lt_def]
  rcases lesserSlot_eq_next.1 h with ⟨hl, kl, ki, hkl, hki, ⟨hlt, h⟩ | ⟨hlt, h⟩⟩ | ⟨hl, h⟩
  · have left := (less hkl hki).2 hlt
    rcases lesserSlot_eq_next.1 h with ⟨hr, kr, km, hkr, hkm, ⟨hlt', h⟩ | ⟨hlt', h⟩⟩ | ⟨hr, h⟩
    · have hkr' := (less hkr hkm).2 hlt'
      obtain rfl : km = kl := by simpa [hkl] using hkm.symm
      exact ⟨_, h, .inr (.inr ⟨rfl, hr, (less hkr hki).2 (BitVec.lt_trans hlt' hlt), hkr'⟩)⟩
    · exact ⟨_, h, .inr (.inl ⟨rfl, hl, left, fun _ hk => hlt' ((less hkr hkm).1 hk)⟩)⟩
    · exact ⟨_, h, .inr (.inl ⟨rfl, hl, left, fun hr' => absurd hr' (by omega)⟩)⟩
  · have left : ¬ KeyLess s (2 * s.pq.I.toNat + 1) s.pq.I.toNat := fun hk => hlt ((less hkl hki).1 hk)
    rcases lesserSlot_eq_next.1 h with ⟨hr, kr, km, hkr, hkm, ⟨hlt', h⟩ | ⟨hlt', h⟩⟩ | ⟨hr, h⟩
    · obtain rfl : km = ki := by simpa [hki] using hkm.symm
      exact ⟨_, h, .inr (.inr ⟨rfl, hr, (less hkr hkm).2 hlt', (less hkr hkl).2 (by bv_omega)⟩)⟩
    · exact ⟨_, h, .inl ⟨rfl, fun _ => left, fun _ hk => hlt' ((less hkr hkm).1 hk)⟩⟩
    · exact ⟨_, h, .inl ⟨rfl, fun _ => left, fun hr' => absurd hr' (by omega)⟩⟩
  · rcases lesserSlot_eq_next.1 h with ⟨hr, -⟩ | ⟨hr, h⟩
    · omega
    · exact ⟨_, h, .inl ⟨rfl, fun hl' => absurd hl' (by omega), fun hr' => absurd hr' (by omega)⟩⟩

/-- The chosen slot's key is least among the element's and its present children's. -/
theorem chosen_keyLe (h : Chosen s i m) :
    KeyLe s m i ∧ ∀ k, k < s.pqSize.toNat → 0 < k → parentSlot k = i → KeyLe s m k := by
  have hchild : ∀ k, 0 < k → parentSlot k = i → k = 2 * i + 1 ∨ k = 2 * i + 2 := fun k h0 hk => by
    simp only [parentSlot] at hk
    omega
  rcases h with ⟨rfl, hl, hr⟩ | ⟨rfl, hlt, hl, hr⟩ | ⟨rfl, hlt, hi, hl⟩
  · refine ⟨.refl s m, fun k hk h0 hp => ?_⟩
    rcases hchild k h0 hp with rfl | rfl
    · exact keyLe_of_not_keyLess (hl hk)
    · exact keyLe_of_not_keyLess (hr hk)
  · refine ⟨keyLe_of_keyLess hl, fun k hk h0 hp => ?_⟩
    rcases hchild k h0 hp with rfl | rfl
    · exact .refl s _
    · exact keyLe_of_not_keyLess (hr hk)
  · refine ⟨keyLe_of_keyLess hi, fun k hk h0 hp => ?_⟩
    rcases hchild k h0 hp with rfl | rfl
    · exact keyLe_of_keyLess hl
    · exact .refl s _

/-- A chosen slot other than the element's is one of its children in the queue. -/
theorem chosen_child (h : Chosen s i m) (hne : m ≠ i) : i < m ∧ parentSlot m = i ∧ m < s.pqSize.toNat := by
  simp only [parentSlot]
  rcases h with ⟨rfl, -⟩ | ⟨rfl, hlt, -⟩ | ⟨rfl, hlt, -⟩
  · exact absurd rfl hne
  · exact ⟨by omega, by omega, hlt⟩
  · exact ⟨by omega, by omega, hlt⟩

/-- R124: the element moves down past its lesser child. -/
theorem downStep_order (ho : DownOrdered s s.pq.I.toNat) (hq : QueueOk s) (hp : s.params.legal = true)
    (h : downStep s = .next t) :
    (t.pqFsm = .pIdle ∧ HeapOrdered t) ∨ (t.pqFsm = s.pqFsm ∧ DownOrdered t t.pq.I.toNat) := by
  obtain ⟨m, hm, hc⟩ := downStep_chosen h
  obtain ⟨hmi, hmk⟩ := chosen_keyLe hc
  unfold downMove at hm
  by_cases hne : m = s.pq.I.toNat
  · rw [if_pos hne] at hm
    cases hm
    refine .inl ⟨rfl, heapOrdered_iff.2 fun k hk h0 => ?_⟩
    by_cases hpk : parentSlot k = s.pq.I.toNat
    · rw [hpk, ← hne]
      exact hmk k hk h0 hpk
    · exact ho.apart k hk h0 hpk
  · rw [if_neg hne] at hm
    obtain ⟨u, hu, hm⟩ := andThen_eq_next.1 hm
    cases hm
    obtain ⟨hlt, hpm, hms⟩ := chosen_child hc hne
    have hsz := hq.size_le hp
    obtain ⟨I, hIdef⟩ : ∃ I, I = s.pq.I.toNat := ⟨_, rfl⟩
    rw [← hIdef] at ho hu hne hlt hpm hmi hmk
    have hframe : u.pqFsm = s.pqFsm ∧ u.pqSize = s.pqSize := by
      obtain ⟨x, y, -, -, -, -, rfl⟩ := swapSlots_eq_next.1 hu
      exact ⟨rfl, rfl⟩
    obtain ⟨km, hkm⟩ : ∃ v, keyAt s m = some v := by
      rcases hc with ⟨rfl, -⟩ | ⟨-, -, ⟨v, hv, -⟩, -⟩ | ⟨-, -, ⟨v, hv, -⟩, -⟩
      · exact absurd hIdef.symm hne
      · exact ⟨v, hv⟩
      · exact ⟨v, hv⟩
    refine .inr ⟨hframe.1, ?_⟩
    rw [setI_pq_I, BitVec.toNat_ofNat, Nat.mod_eq_of_lt (by omega)]
    refine ⟨fun k hk h0 hpk => keyLe_of_swapSlots hu ?_, fun k hk h0 hi hpk => keyLe_of_swapSlots hu ?_⟩
    · have hk : k < s.pqSize.toNat := hframe.2 ▸ hk
      by_cases hpI : parentSlot k = I
      · rw [hpI, Equiv.swap_apply_left]
        by_cases hkm : k = m
        · rwa [hkm, Equiv.swap_apply_right]
        · rw [Equiv.swap_apply_of_ne_of_ne (by rintro rfl; simp only [parentSlot] at hpI; omega) hkm]
          exact hmk k hk h0 hpI
      · rw [Equiv.swap_apply_of_ne_of_ne hpI hpk]
        by_cases hkI : k = I
        · rw [hkI, Equiv.swap_apply_left]
          exact ho.across m hms (by omega) (by omega) hpm
        · rw [Equiv.swap_apply_of_ne_of_ne hkI (by rintro rfl; exact hpI hpm)]
          exact ho.apart k hk h0 hpI
    · have hk : k < s.pqSize.toNat := hframe.2 ▸ hk
      rw [hpm, Equiv.swap_apply_left, Equiv.swap_apply_of_ne_of_ne]
      · exact hpk ▸ ho.apart k hk h0 (by omega)
      · rintro rfl
        simp only [parentSlot] at hpk
        omega
      · rintro rfl
        simp only [parentSlot] at hpk
        omega

end Sys2Proof.Machine
end

section
/-!
PROOFS. The commands PQ_INS and PQ_EXT run to their end (40_priority_queue.md R131, R133): they change HEAP and PQ_SIZE, and keep the
queue in bounds and in heap order.
-/

namespace Sys2Proof.Machine

variable {s t u : State} {x : NodeRef}

/-- The queue unit writes nothing but HEAP, PQ_SIZE and its own registers. -/
def QueueOnly (s t : State) : Prop := t = { s with heap := t.heap, pqSize := t.pqSize, pq := t.pq, pqFsm := t.pqFsm }

/-- The stored part without HEAP and PQ_SIZE. -/
def storeButQueue (s : State) : State := { store s with heap := [], pqSize := 0 }

theorem QueueOnly.storeButQueue_eq (h : QueueOnly s t) : storeButQueue t = storeButQueue s := by
  rw [h]
  rfl

theorem QueueOnly.tbFsm_eq (h : QueueOnly s t) : t.tbFsm = s.tbFsm := by rw [h]
theorem QueueOnly.crFsm_eq (h : QueueOnly s t) : t.crFsm = s.crFsm := by rw [h]
theorem QueueOnly.errflags_eq (h : QueueOnly s t) : t.errflags = s.errflags := by rw [h]
theorem QueueOnly.tb_eq (h : QueueOnly s t) : t.tb = s.tb := by rw [h]

section
variable (h : storeButQueue t = storeButQueue s)
include h

/-- A change of the queue alone keeps everything sound when the queue is in bounds and HEAP canonical. -/
theorem Sound.of_queue (hs : Sound s) (hq : QueueOk t) (hw : Memory.wf t = true) : Sound t where
  legal := field_of_view State.params h (fun _ => rfl) ▸ hs.legal
  canonical := hw
  queue := hq
  arena := hs.arena.congr (field_of_view _ h fun _ => rfl) (field_of_view _ h fun _ => rfl) (field_of_view _ h fun _ => rfl)
  widths := hs.widths.congr (field_of_view _ h fun _ => rfl) (field_of_view _ h fun _ => rfl) (field_of_view _ h fun _ => rfl)
  stackEmpty := (field_of_view State.tstk h fun _ => rfl).trans hs.stackEmpty
  notFatal := (field_of_view State.fatal h fun _ => rfl).trans hs.notFatal

theorem TreeOk.of_queue (hs : TreeOk s) : TreeOk t :=
  hs.congr (field_of_view _ h fun _ => rfl) (field_of_view _ h fun _ => rfl) (field_of_view _ h fun _ => rfl)
    (field_of_view _ h fun _ => rfl) (field_of_view _ h fun _ => rfl)

theorem CodesOk.of_queue (hs : CodesOk s) : CodesOk t :=
  hs.congr (field_of_view _ h fun _ => rfl) (field_of_view _ h fun _ => rfl) (field_of_view _ h fun _ => rfl)
    (field_of_view _ h fun _ => rfl) (field_of_view _ h fun _ => rfl) (field_of_view _ h fun _ => rfl)

end

/-! ### The steps of the queue unit -/

theorem swapSlots_frame {i j : Nat} (h : swapSlots s i j = .next t) : t = { s with heap := t.heap } := by
  obtain ⟨x, y, -, -, -, -, rfl⟩ := swapSlots_eq_next.1 h
  rfl

theorem insertStart_frame (h : insertStart x s = .next t) : QueueOnly s t := by
  obtain ⟨-, rfl⟩ := insertStart_eq_next.1 h
  rfl

theorem extractStart_frame (h : extractStart s = .next t) : QueueOnly s t := by
  obtain ⟨x, u, -, hu, rfl⟩ := extractStart_eq_next.1 h
  rcases moveLast_eq_next.1 hu with ⟨-, rfl⟩ | ⟨-, y, w, -, hw, rfl⟩
  · rfl
  · obtain ⟨-, rfl⟩ := writeSlot_eq_next.1 hw
    rfl

/-- R122 step P_UP writes HEAP and I only; PQ_FSM stays or ends. -/
theorem upStep_frame (h : upStep s = .next t) :
    QueueOnly s t ∧ (t.pqFsm = .pIdle ∨ t.pqFsm = s.pqFsm) ∧ t.pq.XN = s.pq.XN := by
  rcases upStep_eq_next.1 h with ⟨-, rfl⟩ | ⟨-, kp, ki, -, -, ⟨-, rfl⟩ | ⟨-, u, hu, rfl⟩⟩
  · exact ⟨rfl, .inl rfl, rfl⟩
  · exact ⟨rfl, .inl rfl, rfl⟩
  · rw [swapSlots_frame hu]
    exact ⟨rfl, .inr rfl, rfl⟩

/-- R124 step P_DOWN writes HEAP, I and M only; PQ_FSM stays or ends. -/
theorem downStep_frame (h : downStep s = .next t) :
    QueueOnly s t ∧ (t.pqFsm = .pIdle ∨ t.pqFsm = s.pqFsm) ∧ t.pq.XN = s.pq.XN := by
  rcases downStep_next h with rfl | ⟨m, u, -, hu, rfl⟩
  · exact ⟨rfl, .inl rfl, rfl⟩
  · rw [swapSlots_frame hu]
    exact ⟨rfl, .inr rfl, rfl⟩

/-- What a step that moves an element does: references change places, the order around the moving element is kept, and PQ_FSM stays or
ends. -/
structure QueueMoves (s t : State) : Prop where
  frame : QueueOnly s t
  sound : Sound t
  refs : (queueRefs t).Perm (queueRefs s)
  shape : QueueShape s → QueueShape t
  fsm : t.pqFsm = .pIdle ∨ t.pqFsm = s.pqFsm
  taken : t.pq.XN = s.pq.XN

theorem upStep_moves (hs : Sound s) (hf : s.pqFsm = .pUp) (h : upStep s = .next t) : QueueMoves s t := by
  obtain ⟨hq, hperm⟩ := upStep_refs hs.queue h
  obtain ⟨frame, fsm, taken⟩ := upStep_frame h
  refine ⟨frame, Sound.of_queue frame.storeButQueue_eq hs hq (wf_upStep hs.canonical h), hperm, fun ho => ?_, fsm, taken⟩
  rcases upStep_order ((queueShape_up hf).1 ho) hs.queue hs.legal h with ⟨hi, ho⟩ | ⟨hu, ho⟩
  · exact (queueShape_idle hi).2 ho
  · exact (queueShape_up (hu.trans hf)).2 ho

theorem downStep_moves (hs : Sound s) (hf : s.pqFsm = .pDown) (h : downStep s = .next t) : QueueMoves s t := by
  obtain ⟨hq, hperm⟩ := downStep_refs hs.queue h
  obtain ⟨frame, fsm, taken⟩ := downStep_frame h
  refine ⟨frame, Sound.of_queue frame.storeButQueue_eq hs hq (wf_downStep hs.canonical h), hperm, fun ho => ?_, fsm, taken⟩
  rcases downStep_order ((queueShape_down hf).1 ho) hs.queue hs.legal h with ⟨hi, ho⟩ | ⟨hd, ho⟩
  · exact (queueShape_idle hi).2 ho
  · exact (queueShape_down (hd.trans hf)).2 ho

/-- One step while an insertion runs: an element moves, and when it has come to rest the caller goes on. -/
theorem tick_up (hs : Sound s) (hf : s.pqFsm = .pUp) (h : tick s = .next t) :
    ∃ u, QueueMoves s u ∧ ((u.pqFsm = .pIdle ∧ afterInsert u = .next t) ∨ (u.pqFsm = .pUp ∧ t = u)) := by
  simp only [tick, hf] at h
  obtain ⟨u, hu, h⟩ := andThen_eq_next.1 h
  have hm := upStep_moves hs hf hu
  refine ⟨u, hm, (whenPqIdle_eq_next.1 h).imp_right fun ⟨hne, ht⟩ => ⟨?_, ht⟩⟩
  exact (hm.fsm.resolve_left hne).trans hf

/-- One step while an extraction runs. -/
theorem tick_down (hs : Sound s) (hf : s.pqFsm = .pDown) (h : tick s = .next t) :
    ∃ u, QueueMoves s u ∧ ((u.pqFsm = .pIdle ∧ afterExtract u = .next t) ∨ (u.pqFsm = .pDown ∧ t = u)) := by
  simp only [tick, hf] at h
  obtain ⟨u, hu, h⟩ := andThen_eq_next.1 h
  have hm := downStep_moves hs hf hu
  refine ⟨u, hm, (whenPqIdle_eq_next.1 h).imp_right fun ⟨hne, ht⟩ => ⟨?_, ht⟩⟩
  exact (hm.fsm.resolve_left hne).trans hf

/-- `pq_insert` begins: the new reference is in the last slot. -/
theorem insertStart_sound (hs : Sound s) (hroom : s.pqSize ≠ s.pqCap) (hx : x.toNat < s.nodeCnt.toNat)
    (h : insertStart x s = .next t) : Sound t :=
  Sound.of_queue (insertStart_frame h).storeButQueue_eq hs (insertStart_refs hs.queue hroom hx hs.legal h).1 (wf_insertStart hs.canonical h)

theorem insertStart_shape (hs : Sound s) (ho : HeapOrdered s) (h : insertStart x s = .next t) : QueueShape t := by
  obtain ⟨hf, ho⟩ := insertStart_order ho hs.queue hs.legal h
  exact (queueShape_up hf).2 ho

theorem extractStart_sound (hs : Sound s) (h : extractStart s = .next t) : Sound t :=
  Sound.of_queue (extractStart_frame h).storeButQueue_eq hs (extractStart_refs hs.queue h).1 (wf_extractStart hs.canonical h)

theorem extractStart_shape (hs : Sound s) (ho : HeapOrdered s) (h : extractStart s = .next t) : QueueShape t := by
  obtain ⟨hf, ho⟩ := extractStart_order ho hs.queue h
  exact (queueShape_down hf).2 ho

/-! ### PQ_INS and PQ_EXT -/

/-- Where a queue command that began in `s` has come to in `u`. -/
structure QueueRun (s u : State) : Prop where
  frame : storeButQueue u = storeButQueue s
  sound : Sound u
  shape : HeapOrdered s → QueueShape u
  builderIdle : u.tbFsm = .bIdle
  recorderIdle : u.crFsm = .gIdle

theorem QueueRun.begin (hi : unitsIdle s = true) (h : QueueOnly s t) (hs : Sound t) (ho : HeapOrdered s → QueueShape t) :
    QueueRun s t := by
  obtain ⟨-, hb, hc⟩ := unitsIdle_iff.1 hi
  exact ⟨h.storeButQueue_eq, hs, ho, h.tbFsm_eq.trans hb, h.crFsm_eq.trans hc⟩

theorem QueueRun.moves (h : QueueRun s u) (hm : QueueMoves u t) : QueueRun s t :=
  ⟨hm.frame.storeButQueue_eq.trans h.frame, hm.sound, fun ho => hm.shape (h.shape ho),
    hm.frame.tbFsm_eq.trans h.builderIdle, hm.frame.crFsm_eq.trans h.recorderIdle⟩

theorem QueueRun.respond (h : QueueRun s u) (a : BitVec 24) (b : BitVec 32) : QueueRun s (respondOk a b u) :=
  ⟨h.frame, Sound.of_store (s := u) rfl h.sound, fun ho => QueueShape.congr (s := u) (fun _ _ => rfl) rfl (h.shape ho) rfl rfl, h.builderIdle, h.recorderIdle⟩

theorem QueueRun.tick (h : QueueRun s u) (hbusy : unitsIdle u = false) (ht : tick u = .next t) : QueueRun s t := by
  cases hf : u.pqFsm with
  | pIdle =>
    rw [unitsIdle_iff.2 ⟨hf, h.builderIdle, h.recorderIdle⟩] at hbusy
    cases hbusy
  | pUp =>
    obtain ⟨v, hm, ⟨-, ht⟩ | ⟨-, rfl⟩⟩ := tick_up h.sound hf ht
    · have hv := h.moves hm
      rw [afterInsert, hv.builderIdle] at ht
      cases ht
      exact hv.respond _ _
    · exact h.moves hm
  | pDown =>
    obtain ⟨v, hm, ⟨-, ht⟩ | ⟨-, rfl⟩⟩ := tick_down h.sound hf ht
    · have hv := h.moves hm
      rw [afterExtract, hv.builderIdle] at ht
      obtain ⟨n, -, ht⟩ := readNode_eq_next.1 ht
      cases ht
      exact hv.respond _ _
    · exact h.moves hm

theorem QueueRun.toEnd (h : QueueRun s u) (ht : runToEnd u = .next t) :
    storeButQueue t = storeButQueue s ∧ Sound t ∧ (HeapOrdered s → HeapOrdered t) := by
  have ht' : QueueRun s t := runUnits_induct (fun v w hv hb hw => hv.tick hb hw) h ht
  obtain ⟨hi, -, -⟩ := unitsIdle_iff.1 (runUnits_ends_idle ht)
  exact ⟨ht'.frame, ht'.sound, fun ho => (queueShape_idle hi).1 (ht'.shape ho)⟩

end Sys2Proof.Machine
end

section
/-!
PROOFS. The tree of TREE_VALID = 1 (10_state.md R43 item 5): every record up to ROOT lies below ROOT.
-/

namespace Sys2Proof.Machine

variable {s t u : State} {i c p : Nat} {n : NodeRec}

theorem ArenaOk.dense (h : ArenaOk s) : Dense s.nodeCnt.toNat s.node := h.records

theorem ArenaOk.mem_node (h : ArenaOk s) : (i, n) ∈ s.node ↔ nodeAt s i = some n := h.dense.mem_iff

theorem ArenaOk.exists_node (h : ArenaOk s) (hi : i < s.nodeCnt.toNat) : ∃ n, nodeAt s i = some n :=
  h.dense.arrGet_some_iff.2 hi

theorem ArenaOk.inner (h : ArenaOk s) (hn : nodeAt s i = some n) (hl : n.leaf = false) : InnerOk s i n :=
  h.inners (i, n) (h.mem_node.2 hn) hl

/-- `c` is a child of the internal record `p`. -/
def ChildOf (s : State) (p c : Nat) : Prop :=
  ∃ n, nodeAt s p = some n ∧ n.leaf = false ∧ (n.left.toNat = c ∨ n.right.toNat = c)

/-- `c` is in the subtree of `p`. -/
def Below (s : State) : Nat → Nat → Prop := Relation.ReflTransGen (ChildOf s)

theorem mem_parentsOf (h : ArenaOk s) :
    (p, n) ∈ parentsOf s c ↔ nodeAt s p = some n ∧ n.leaf = false ∧ (n.left.toNat = c ∨ n.right.toNat = c) := by
  simp [parentsOf, h.mem_node]

/-- The child of record `p` on one side, 0 where there is none. -/
def childAt (s : State) (e : Nat × Bool) : Nat :=
  (nodeAt s e.1).elim 0 fun n => if e.2 then n.right.toNat else n.left.toNat

theorem childAt_eq (hn : nodeAt s p = some n) (b : Bool) : childAt s (p, b) = if b then n.right.toNat else n.left.toNat := by
  simp [childAt, hn]

/-- The two sides of a record with distinct children are told apart by the child. -/
theorem side_eq_of_child_eq {l r : Nat} (hne : l ≠ r) {a b : Bool} (h : (if a then r else l) = if b then r else l) : a = b :=
  match a, b, h with
  | true, true, _ => rfl
  | false, false, _ => rfl
  | true, false, h => absurd h.symm hne
  | false, true, h => absurd h hne

/-- An internal record of the tree, with what `InnerOk` says of it. -/
theorem TreeShape.inner_node (ht : TreeShape s) (ha : ArenaOk s) (h : s.nleaf.toNat ≤ p) (h' : p ≤ s.root.toNat) :
    ∃ n, nodeAt s p = some n ∧ n.leaf = false ∧ InnerOk s p n := by
  obtain ⟨n, hn⟩ := ha.exists_node (h'.trans_lt ht.inArena)
  have hl : n.leaf = false := by simpa using (ht.leavesFirst p h' n hn).trans (decide_eq_false (by omega))
  exact ⟨n, hn, hl, ha.inner hn hl⟩

/-- Only one record names `c`, below ROOT, as a child. -/
theorem TreeShape.parent_unique (ht : TreeShape s) {e f : Nat × NodeRec} (hc : c < s.root.toNat) (he : e ∈ parentsOf s c)
    (hf : f ∈ parentsOf s c) : e = f := by
  have hone := ht.oneParent c hc.le
  rw [if_neg hc.ne] at hone
  obtain ⟨a, ha⟩ := List.length_eq_one_iff.1 hone
  rw [ha, List.mem_singleton] at he hf
  rw [he, hf]

/-- Every record below ROOT is a child of an internal record of the tree: the tree's internal records have as many child fields as there
are records below ROOT, and no two of them name the same record. -/
theorem TreeShape.exists_parent (ht : TreeShape s) (ha : ArenaOk s) (hc : c < s.root.toNat) :
    ∃ p, c < p ∧ p ≤ s.root.toNat ∧ ChildOf s p c := by
  have hroot := ht.rootIs
  have inner : ∀ e ∈ Finset.Ico s.nleaf.toNat (s.root.toNat + 1) ×ˢ (Finset.univ : Finset Bool),
      e.1 ≤ s.root.toNat ∧ ∃ n, nodeAt s e.1 = some n ∧ n.leaf = false ∧ InnerOk s e.1 n ∧
        childAt s e = (if e.2 then n.right.toNat else n.left.toNat) ∧ childAt s e < e.1 := by
    rintro ⟨p, b⟩ he
    simp only [Finset.mem_product, Finset.mem_Ico, Finset.mem_univ, and_true] at he
    obtain ⟨n, hn, hl, hi⟩ := ht.inner_node ha he.1 (by omega)
    refine ⟨Nat.le_of_lt_succ he.2, n, hn, hl, hi, childAt_eq hn b, ?_⟩
    rw [childAt_eq hn b]
    cases b
    · exact hi.leftBelow
    · exact hi.rightBelow
  obtain ⟨e, he, hce⟩ := Finset.surj_on_of_inj_on_of_card_le
    (s := Finset.Ico s.nleaf.toNat (s.root.toNat + 1) ×ˢ (Finset.univ : Finset Bool)) (t := Finset.range s.root.toNat)
    (fun e _ => childAt s e)
    (fun e he => by
      obtain ⟨hr, n, -, -, -, -, hlt⟩ := inner e he
      exact Finset.mem_range.2 (by omega))
    (fun e f he hf hef => by
      obtain ⟨hr, n, hn, hl, hi, hcn, hlt⟩ := inner e he
      obtain ⟨-, m, hm, hlm, -, hcm, -⟩ := inner f hf
      have side : ∀ {k : NodeRec} (b : Bool) {c}, c = (if b then k.right.toNat else k.left.toNat) →
          k.left.toNat = c ∨ k.right.toNat = c := by
        rintro k (_ | _) c rfl
        · exact .inl rfl
        · exact .inr rfl
      have hpar := ht.parent_unique (by omega) ((mem_parentsOf ha).2 ⟨hn, hl, side e.2 hcn⟩)
        ((mem_parentsOf ha).2 ⟨hm, hlm, side f.2 (hef.symm ▸ hcm)⟩)
      obtain ⟨h1, rfl⟩ := Prod.mk.inj hpar
      rw [hcn, hcm] at hef
      exact Prod.ext h1 (side_eq_of_child_eq (fun h => hi.distinct (BitVec.eq_of_toNat_eq h)) hef))
    (by simp; omega) c (Finset.mem_range.2 hc)
  obtain ⟨hr, n, hn, hl, -, hcn, hlt⟩ := inner e he
  refine ⟨e.1, by omega, hr, n, hn, hl, ?_⟩
  rw [hce, hcn]
  cases e.2
  · exact .inl rfl
  · exact .inr rfl

/-- Every record up to ROOT is in the tree. -/
theorem TreeShape.below_root (ht : TreeShape s) (ha : ArenaOk s) (hc : c ≤ s.root.toNat) : Below s s.root.toNat c := by
  induction hd : s.root.toNat - c using Nat.strong_induction_on generalizing c with
  | h d ih =>
    rcases Nat.lt_or_eq_of_le hc with hlt | rfl
    · obtain ⟨p, hcp, hpr, hchild⟩ := ht.exists_parent ha hlt
      exact (ih _ (by omega) hpr rfl).tail hchild
    · exact .refl

/-- The subtree of a leaf is the leaf. -/
theorem Below.eq_of_leaf (h : Below s p c) (hn : nodeAt s p = some n) (hl : n.leaf = true) : c = p := by
  rcases Relation.ReflTransGen.cases_head h with rfl | ⟨_, ⟨m, hm, hlm, -⟩, -⟩
  · rfl
  · rw [hn] at hm
    cases hm
    rw [hl] at hlm
    cases hlm

/-- The subtree of an internal record is the record and the subtrees of its children. -/
theorem Below.cases_inner (h : Below s p c) (hn : nodeAt s p = some n) :
    c = p ∨ Below s n.left.toNat c ∨ Below s n.right.toNat c := by
  rcases Relation.ReflTransGen.cases_head h with rfl | ⟨q, ⟨m, hm, -, hq⟩, hbelow⟩
  · exact .inl rfl
  · rw [hn] at hm
    cases hm
    rcases hq with rfl | rfl
    · exact .inr (.inl hbelow)
    · exact .inr (.inr hbelow)

theorem leafSymbol_iff {sym : Nat} :
    leafSymbol s sym = true ↔ ∃ i, i < s.nleaf.toNat ∧ ∃ n, nodeAt s i = some n ∧ n.sym.toNat = sym := by
  simp [leafSymbol, Option.any_eq_true]

end Sys2Proof.Machine
end

section
/-!
PROOFS. The recorder's walk over the tree (42_codeword_recorder.md R193 to R196): which leaves have a codeword, and which are still to come.
-/

namespace Sys2Proof.Machine

variable {s t u : State} {x : NodeRef} {n : NodeRec}

/-! ### The stack and the digits -/

/-- A dense canonical array lies inside its size. -/
theorem Dense.le_size {α : Type} {k size : Nat} {m : Arr α} (h : Dense k m) (hw : arrWf size m = true) : k ≤ size := by
  rcases Nat.eq_zero_or_pos k with rfl | hk
  · exact Nat.zero_le _
  · obtain ⟨v, hv⟩ := h.arrGet_some_iff.2 (Nat.sub_lt hk Nat.one_pos)
    have := arrGet_lt hw hv
    omega

theorem digitAt_of_ge (p : Bits) {i : Nat} (h : 256 ≤ i) : digitAt p i = false := BitVec.getLsbD_of_ge p i h

/-- Digits beyond a length are 0 exactly when the number is that short. -/
theorem toNat_lt_of_digits {p : Bits} {d : Nat} (h : ∀ i, d ≤ i → digitAt p i = false) : p.toNat < 2 ^ d :=
  Nat.lt_pow_two_of_testBit _ fun i hi => h i hi

/-- The entries of TSTK that hold values are those below DEPTH while the recorder walks, and none otherwise (10_state.md R40). -/
def StackShape (u : State) : Prop :=
  match u.crFsm with
  | .gIdle | .gStart | .gDone => u.tstk = []
  | .gDescend | .gAscend => Dense u.cr.DEPTH.toNat u.tstk

/-! ### The walk -/

/-- A codeword's length is 1 to CODE_MAX and its digits lie inside its length (10_state.md R29). -/
def DigitsOk (p : Params) (c : Codeword) : Prop := 1 ≤ c.len.toNat ∧ c.len.toNat ≤ p.codeMax ∧ c.bits.toNat < 2 ^ c.len.toNat

/-- `c` is the right child of a record on the stack whose left subtree is being walked. -/
def Waiting (s u : State) (c : NodeRef) : Prop :=
  ∃ d x n, d < u.cr.DEPTH.toNat ∧ tstkAt u d = some x ∧ digitAt u.cr.PATH d = false ∧ nodeAt s x.toNat = some n ∧ n.right = c

/-- The symbol of record `i` has a codeword. -/
def Recorded (s u : State) (i : Nat) : Prop := ∀ n ∈ nodeAt s i, cwValid u n.sym.toNat = true

/-- The table holds codewords of the tree's symbols only. -/
structure TableOk (s u : State) : Prop where
  entries : ∀ e ∈ u.cw, DigitsOk s.params e.2
  onlyLeaves : ∀ sym, cwValid u sym = true → leafSymbol s sym = true

/-- The walk over the tree of `s`, with the subtrees `next` to be entered: every leaf is recorded or still to come. -/
structure Walk (s u : State) (next : List NodeRef) : Prop where
  table : TableOk s u
  digits : ∀ i, u.cr.DEPTH.toNat ≤ i → digitAt u.cr.PATH i = false
  stack : ∀ d x, tstkAt u d = some x → x.toNat ≤ s.root.toNat ∧ ∃ n, nodeAt s x.toNat = some n ∧ n.leaf = false
  inTree : ∀ x ∈ next, x.toNat ≤ s.root.toNat
  covered : ∀ i, i < s.nleaf.toNat →
    Recorded s u i ∨ (∃ x ∈ next, Below s x.toNat i) ∨ ∃ c, Waiting s u c ∧ Below s c.toNat i

/-- The table when the walk is over. -/
structure Coded (s u : State) : Prop where
  table : TableOk s u
  all : ∀ i, i < s.nleaf.toNat → Recorded s u i

/-- What the recorder has done in each state of CR_FSM, begun on the tree of `s`. -/
def CodesPhase (s u : State) : Prop :=
  match u.crFsm with
  | .gStart => True
  | .gDescend => Walk s u [u.cr.CUR] ∧ (u.cr.DEPTH = 0 → ∀ n ∈ nodeAt s u.cr.CUR.toNat, n.leaf = false)
  | .gAscend => Walk s u []
  | .gDone => Coded s u
  | .gIdle => Coded s u ∧ u.cwReady = true

/-- A codeword for a leaf of the tree keeps the table as it should be. -/
theorem TableOk.putCw {i : Nat} {l : Len} {b : Bits} (h : TableOk s u) (hn : nodeAt s i = some n) (hi : i < s.nleaf.toNat)
    (hd : DigitsOk s.params ⟨l, b⟩) : TableOk s (putCw u n.sym l b) := by
  constructor
  · intro e he
    rcases mem_arrSet he with rfl | he
    · exact hd
    · exact h.entries e he
  · intro sym hv
    rw [cwValid, cwAt_putCw] at hv
    split at hv
    · next hs => exact leafSymbol_iff.2 ⟨i, hi, n, hn, hs.symm⟩
    · exact h.onlyLeaves sym hv

theorem Recorded.putCw {i : Nat} {l : Len} {b : Bits} (sym : Symbol) (h : Recorded s u i) : Recorded s (putCw u sym l b) i := by
  intro n hn
  rw [cwValid, cwAt_putCw]
  split
  · rfl
  · exact h n hn

theorem recorded_putCw_self {i : Nat} (hn : nodeAt s i = some n) (l : Len) (b : Bits) : Recorded s (putCw u n.sym l b) i := by
  intro m hm
  rw [hn] at hm
  cases hm
  simp [cwValid, cwAt_putCw]

/-! ### The steps -/

/-- A leaf of the tree is one of the first NLEAF records. -/
theorem TreeShape.leaf_lt {i : Nat} (h : TreeShape s) (hi : i ≤ s.root.toNat) (hn : nodeAt s i = some n) (hl : n.leaf = true) :
    i < s.nleaf.toNat := by
  simpa [hl] using h.leavesFirst i hi n hn

theorem cwValid_congr {v : State} (h : v.cw = u.cw) (sym : Nat) : cwValid v sym = cwValid u sym := by
  rw [cwValid, cwAt, h]
  rfl

theorem TableOk.congr {v : State} (h : TableOk s u) (hc : v.cw = u.cw) : TableOk s v :=
  ⟨fun e he => h.entries e (hc ▸ he), fun sym hv => h.onlyLeaves sym (cwValid_congr hc sym ▸ hv)⟩

theorem Recorded.congr {v : State} {i : Nat} (h : Recorded s u i) (hc : v.cw = u.cw) : Recorded s v i :=
  fun n hn => (cwValid_congr hc _).trans (h n hn)

theorem coded_startLeaf (hp : s.params.legal = true) (ht : TreeShape s) (hn : nodeAt s s.root.toNat = some n)
    (hl : n.leaf = true) : Coded s (setCrFsm .gDone (setCNT 1 (putCw (freshTable u) n.sym 1 0))) := by
  have hlt := ht.leaf_lt le_rfl hn hl
  have hroot := ht.rootIs
  have hmax := (Params.sizes_fit hp).2.2.1
  have empty : TableOk s (freshTable u) := ⟨nofun, fun sym hv => by simp [cwValid, cwAt, freshTable] at hv⟩
  have table : TableOk s (putCw (freshTable u) n.sym 1 0) := empty.putCw hn hlt ⟨by decide, hmax, by decide⟩
  refine ⟨⟨table.entries, table.onlyLeaves⟩, fun i hi => ?_⟩
  obtain rfl : i = s.root.toNat := by omega
  exact recorded_putCw_self hn 1 0

theorem Walk.start (ht : TreeShape s) (ha : ArenaOk s) : Walk s (setCUR s.root (freshTable u)) [s.root] where
  table := ⟨nofun, fun sym hv => by simp [cwValid, cwAt, freshTable] at hv⟩
  digits i _ := by simp [freshTable, digitAt]
  stack d x hx := by simp [freshTable, tstkAt] at hx
  inTree x hx := by rw [List.mem_singleton.1 hx]
  covered i hi := by
    have hle : i ≤ s.root.toNat := by
      have := ht.rootIs
      omega
    exact .inr (.inl ⟨s.root, List.mem_singleton_self _, ht.below_root ha hle⟩)

theorem Walk.congr {v : State} {next : List NodeRef} (h : Walk s u next) (hc : v.cw = u.cw) (hcr : v.cr.DEPTH = u.cr.DEPTH ∧
    v.cr.PATH = u.cr.PATH) (ht : v.tstk = u.tstk) : Walk s v next := by
  obtain ⟨hd, hp⟩ := hcr
  have hstack : ∀ e, tstkAt v e = tstkAt u e := fun e => by rw [tstkAt, ht]; rfl
  refine ⟨h.table.congr hc, fun i hi => hp ▸ h.digits i (hd ▸ hi), fun e x hx => h.stack e x (hstack e ▸ hx), h.inTree,
    fun i hi => ?_⟩
  rcases h.covered i hi with hr | hn | ⟨c, ⟨e, y, k, he, hy, hdig, hk⟩, hb⟩
  · exact .inl (hr.congr hc)
  · exact .inr (.inl hn)
  · exact .inr (.inr ⟨c, ⟨e, y, k, hd ▸ he, (hstack e).trans hy, hp ▸ hdig, hk⟩, hb⟩)

/-- R194: the leaf that is entered gets its codeword. -/
theorem Walk.recordLeaf (h : Walk s u [u.cr.CUR]) (ht : TreeShape s) (hn : nodeAt s u.cr.CUR.toNat = some n) (hl : n.leaf = true)
    (h1 : 1 ≤ u.cr.DEPTH.toNat) (hmax : u.cr.DEPTH.toNat ≤ s.params.codeMax) (c : Count9) :
    Walk s (setCrFsm .gAscend (setCNT c (putCw u n.sym u.cr.DEPTH u.cr.PATH))) [] := by
  have hlt := ht.leaf_lt (h.inTree _ (List.mem_singleton_self _)) hn hl
  have table : TableOk s (putCw u n.sym u.cr.DEPTH u.cr.PATH) :=
    h.table.putCw hn hlt ⟨h1, hmax, toNat_lt_of_digits h.digits⟩
  refine ⟨⟨table.entries, table.onlyLeaves⟩, h.digits, h.stack, nofun, fun i hi => ?_⟩
  rcases h.covered i hi with hr | ⟨x, hx, hb⟩ | hw
  · exact .inl (hr.putCw n.sym)
  · rw [List.mem_singleton.1 hx] at hb
    rw [hb.eq_of_leaf hn hl]
    exact .inl (recorded_putCw_self hn _ _)
  · exact .inr (.inr hw)

/-- The digits of PATH beyond DEPTH stay 0 when a digit below `d` is written. -/
theorem digitAt_setDigit_beyond {p : Bits} {d k : Nat} {b : Bool} (h : ∀ i, d ≤ i → i ≠ k → digitAt p i = false)
    (hk : d ≤ k → b = false) {i : Nat} (hi : d ≤ i) : digitAt (setDigit p k b) i = false := by
  rcases Nat.lt_or_ge i 256 with hlt | hge
  · rw [digitAt_setDigit _ _ _ _ hlt]
    split
    · next he => exact hk (he ▸ hi)
    · next hne => exact h i hi hne
  · exact digitAt_of_ge _ hge

/-- R195: an internal record is put on the stack and its left child entered. -/
theorem Walk.descendLeft {v : State} {d : Nat} (h : Walk s u [x]) (ht : TreeShape s) (ha : ArenaOk s)
    (hn : nodeAt s x.toNat = some n) (hl : n.leaf = false) (hd : u.cr.DEPTH.toNat = d) (hv : v.cr.DEPTH.toNat = d + 1)
    (hcw : v.cw = u.cw) (hpath : v.cr.PATH = setDigit u.cr.PATH d false)
    (hstack : ∀ e, tstkAt v e = if e = d then some x else tstkAt u e) : Walk s v [n.left] := by
  have hd256 : d + 1 < 256 := by have := v.cr.DEPTH.isLt; omega
  have hcur := h.inTree _ (List.mem_singleton_self _)
  have hi := ha.inner hn hl
  refine ⟨h.table.congr hcw, fun i hle => ?_, fun e y hy => ?_, fun y hy => ?_, fun i hilt => ?_⟩
  · rw [hpath]
    exact digitAt_setDigit_beyond (d := d) (fun i hi _ => h.digits i (by omega)) (fun _ => rfl) (by omega)
  · rw [hstack] at hy
    split at hy
    · cases hy
      exact ⟨hcur, n, hn, hl⟩
    · exact h.stack e y hy
  · rw [List.mem_singleton.1 hy]
    exact (hi.leftBelow.trans_le hcur).le
  · have new : Waiting s v n.right :=
      ⟨d, x, n, by omega, by rw [hstack, if_pos rfl], by rw [hpath, digitAt_setDigit _ _ _ _ (by omega), if_pos rfl], hn, rfl⟩
    rcases h.covered i hilt with hr | ⟨y, hy, hb⟩ | ⟨c, ⟨e, y, m, he, hy, hdig, hm, hc⟩, hb⟩
    · exact .inl (hr.congr hcw)
    · rw [List.mem_singleton.1 hy] at hb
      rcases hb.cases_inner hn with rfl | hb | hb
      · have := ht.leavesFirst _ hcur n hn
        simp [hl, hilt] at this
      · exact .inr (.inl ⟨n.left, List.mem_singleton_self _, hb⟩)
      · exact .inr (.inr ⟨n.right, new, hb⟩)
    · have hne : e ≠ d := by omega
      exact .inr (.inr ⟨c, ⟨e, y, m, by omega, by rwa [hstack, if_neg hne],
        by rwa [hpath, digitAt_setDigit _ _ _ _ (by omega), if_neg hne], hm, hc⟩, hb⟩)

/-- R196: the left subtree of the top of the stack is finished, and its right child is entered. -/
theorem Walk.turnRight {v : State} {d : Nat} (h : Walk s u []) (ha : ArenaOk s) (hd : u.cr.DEPTH.toNat = d + 1)
    (hx : tstkAt u d = some x) (hn : nodeAt s x.toNat = some n) (hv : v.cr.DEPTH = u.cr.DEPTH)
    (hcw : v.cw = u.cw) (hpath : v.cr.PATH = setDigit u.cr.PATH d true) (hstack : v.tstk = u.tstk) : Walk s v [n.right] := by
  have hd256 : d < 256 := by have := u.cr.DEPTH.isLt; omega
  have hstack : ∀ e, tstkAt v e = tstkAt u e := fun e => by rw [tstkAt, hstack]; rfl
  obtain ⟨hle, m, hm, hl⟩ := h.stack d x hx
  obtain rfl : n = m := Option.some.inj (hn.symm.trans hm)
  have hi := ha.inner hn hl
  refine ⟨h.table.congr hcw, fun i hle' => ?_, fun e y hy => h.stack e y (hstack e ▸ hy), fun y hy => ?_, fun i hilt => ?_⟩
  · rw [hpath]
    exact digitAt_setDigit_beyond (d := d + 1) (fun i hi _ => h.digits i (by omega)) (fun hlt => by omega) (hd ▸ hv ▸ hle')
  · rw [List.mem_singleton.1 hy]
    exact (hi.rightBelow.trans_le hle).le
  · rcases h.covered i hilt with hr | ⟨y, hy, -⟩ | ⟨c, ⟨e, y, k, he, hy, hdig, hk, hc⟩, hb⟩
    · exact .inl (hr.congr hcw)
    · cases hy
    · by_cases hed : e = d
      · subst hed
        obtain rfl : x = y := Option.some.inj (hx.symm.trans hy)
        obtain rfl : n = k := Option.some.inj (hn.symm.trans hk)
        exact .inr (.inl ⟨n.right, List.mem_singleton_self _, hc ▸ hb⟩)
      · exact .inr (.inr ⟨c, ⟨e, y, k, hv ▸ he, (hstack e).trans hy,
          by rwa [hpath, digitAt_setDigit _ _ _ _ (by omega), if_neg hed], hk, hc⟩, hb⟩)

/-- R196: both subtrees of the top of the stack are finished, and it is popped. -/
theorem Walk.popDigit {v : State} {d : Nat} (h : Walk s u []) (hd : u.cr.DEPTH.toNat = d + 1)
    (hone : digitAt u.cr.PATH d = true) (hv : v.cr.DEPTH.toNat = d) (hcw : v.cw = u.cw)
    (hpath : v.cr.PATH = setDigit u.cr.PATH d false) (hstack : ∀ e, tstkAt v e = if e = d then none else tstkAt u e) :
    Walk s v [] := by
  have hd256 : d < 256 := by have := u.cr.DEPTH.isLt; omega
  refine ⟨h.table.congr hcw, fun i hi => ?_, fun e y hy => ?_, nofun, fun i hilt => ?_⟩
  · rw [hpath]
    exact digitAt_setDigit_beyond (d := d) (fun i hi hne => h.digits i (by omega)) (fun _ => rfl) (by omega)
  · rw [hstack] at hy
    split at hy
    · cases hy
    · exact h.stack e y hy
  · rcases h.covered i hilt with hr | ⟨y, hy, -⟩ | ⟨c, ⟨e, y, k, he, hy, hdig, hk, hc⟩, hb⟩
    · exact .inl (hr.congr hcw)
    · cases hy
    · have hed : e ≠ d := by
        rintro rfl
        rw [hone] at hdig
        cases hdig
      exact .inr (.inr ⟨c, ⟨e, y, k, by omega, by rwa [hstack, if_neg hed],
        by rwa [hpath, digitAt_setDigit _ _ _ _ (by omega), if_neg hed], hk, hc⟩, hb⟩)

/-- R196: at depth 0 nothing is left to walk. -/
theorem Walk.coded (h : Walk s u []) (hd : u.cr.DEPTH = 0) : Coded s u := by
  refine ⟨h.table, fun i hi => ?_⟩
  rcases h.covered i hi with hr | ⟨y, hy, -⟩ | ⟨c, ⟨e, y, k, he, -⟩, -⟩
  · exact hr
  · cases hy
  · simp [hd] at he

end Sys2Proof.Machine
end

section
/-!
PROOFS. The command GENCODE run to its end (42_codeword_recorder.md R190 to R197): it changes the codeword table only, and codes exactly
the symbols of the tree's leaves.
-/

namespace Sys2Proof.Machine

variable {s t u : State} {x : NodeRef} {n : NodeRec}

/-! ### The run -/

/-- The stored part without the codeword table and TSTK. -/
def storeButCodes (s : State) : State := { store s with cw := [], cwReady := false, tstk := [] }

@[simp] theorem storeButCodes_setCrFsm (f : CrState) (s : State) : storeButCodes (setCrFsm f s) = storeButCodes s := rfl
@[simp] theorem storeButCodes_setCUR (v : NodeRef) (s : State) : storeButCodes (setCUR v s) = storeButCodes s := rfl
@[simp] theorem storeButCodes_setDEPTH (v : Len) (s : State) : storeButCodes (setDEPTH v s) = storeButCodes s := rfl
@[simp] theorem storeButCodes_setPATH (v : Bits) (s : State) : storeButCodes (setPATH v s) = storeButCodes s := rfl
@[simp] theorem storeButCodes_setCNT (v : Count9) (s : State) : storeButCodes (setCNT v s) = storeButCodes s := rfl
@[simp] theorem storeButCodes_setCwReady (v : Bool) (s : State) : storeButCodes (setCwReady v s) = storeButCodes s := rfl
@[simp] theorem storeButCodes_invalidateCw (s : State) : storeButCodes (invalidateCw s) = storeButCodes s := rfl
@[simp] theorem storeButCodes_emptyTstk (s : State) : storeButCodes (emptyTstk s) = storeButCodes s := rfl
@[simp] theorem storeButCodes_dropTstk (s : State) (d : Nat) : storeButCodes (dropTstk s d) = storeButCodes s := rfl
@[simp] theorem storeButCodes_putTstk (s : State) (d : Nat) (x : NodeRef) : storeButCodes (putTstk s d x) = storeButCodes s := rfl
@[simp] theorem storeButCodes_putCw (s : State) (i : Symbol) (l : Len) (b : Bits) :
    storeButCodes (putCw s i l b) = storeButCodes s := rfl
@[simp] theorem storeButCodes_respondOk (a : BitVec 24) (b : BitVec 32) (s : State) :
    storeButCodes (respondOk a b s) = storeButCodes s := rfl

/-- Where a GENCODE that began in `s` has come to in `u`. -/
structure RecorderRun (s u : State) : Prop where
  frame : storeButCodes u = storeButCodes s
  queueIdle : u.pqFsm = .pIdle
  builderIdle : u.tbFsm = .bIdle
  canonical : Memory.wf u = true
  stack : StackShape u
  codes : TreeShape s → CodesPhase s u

theorem RecorderRun.nodeAt_eq (h : RecorderRun s u) (i : Nat) : nodeAt u i = nodeAt s i := by
  rw [nodeAt, field_of_view State.node h.frame fun _ => rfl]
  rfl

theorem RecorderRun.codeMax_eq (h : RecorderRun s u) : u.params.codeMax = s.params.codeMax := by
  rw [field_of_view State.params h.frame fun _ => rfl]

theorem RecorderRun.root_eq (h : RecorderRun s u) : u.root = s.root := field_of_view State.root h.frame fun _ => rfl

theorem RecorderRun.stack_dense (h : RecorderRun s u) (hf : u.crFsm = .gDescend ∨ u.crFsm = .gAscend) :
    Dense u.cr.DEPTH.toNat u.tstk ∧ u.cr.DEPTH.toNat ≤ s.params.codeMax := by
  have hd : Dense u.cr.DEPTH.toNat u.tstk := by
    have := h.stack
    rcases hf with hf | hf <;> simpa only [StackShape, hf] using this
  exact ⟨hd, h.codeMax_eq ▸ hd.le_size (wf_iff.1 h.canonical).2.2.2.2.2⟩

theorem stackShape_walking (hf : u.crFsm = .gDescend ∨ u.crFsm = .gAscend) : StackShape u ↔ Dense u.cr.DEPTH.toNat u.tstk := by
  rcases hf with hf | hf <;> simp only [StackShape, hf]

theorem stackShape_resting (hf : u.crFsm ≠ .gDescend) (hf' : u.crFsm ≠ .gAscend) : StackShape u ↔ u.tstk = [] := by
  unfold StackShape
  split <;> simp_all

theorem codesPhase_start (hf : u.crFsm = .gStart) : CodesPhase s u := by simp only [CodesPhase, hf]

theorem codesPhase_descend (hf : u.crFsm = .gDescend) : CodesPhase s u ↔
    Walk s u [u.cr.CUR] ∧ (u.cr.DEPTH = 0 → ∀ n ∈ nodeAt s u.cr.CUR.toNat, n.leaf = false) := by simp only [CodesPhase, hf]

theorem codesPhase_ascend (hf : u.crFsm = .gAscend) : CodesPhase s u ↔ Walk s u [] := by simp only [CodesPhase, hf]

theorem codesPhase_done (hf : u.crFsm = .gDone) : CodesPhase s u ↔ Coded s u := by simp only [CodesPhase, hf]

theorem codesPhase_idle (hf : u.crFsm = .gIdle) : CodesPhase s u ↔ Coded s u ∧ u.cwReady = true := by simp only [CodesPhase, hf]

/-- A step of the recorder: the frame and the canonical form come for free. -/
theorem RecorderRun.next (h : RecorderRun s u) (hstep : recorderStep u = .next t) (hframe : storeButCodes t = storeButCodes u)
    (hpq : t.pqFsm = u.pqFsm) (htb : t.tbFsm = u.tbFsm) (hstack : StackShape t) (hcodes : TreeShape s → CodesPhase s t) :
    RecorderRun s t :=
  ⟨hframe.trans h.frame, hpq.trans h.queueIdle, htb.trans h.builderIdle, wf_recorderStep h.canonical hstep, hstack, hcodes⟩

theorem RecorderRun.start (hs : Sound s) (h : RecorderRun s u) (hf : u.crFsm = .gStart) (ht : recorderStep u = .next t) :
    RecorderRun s t := by
  obtain ⟨n, hn, hcase⟩ := recorderStart_next (by simpa only [recorderStep, hf] using ht)
  rw [h.nodeAt_eq, h.root_eq] at hn
  rcases hcase with ⟨hl, v, hv, rfl⟩ | ⟨hl, rfl⟩
  · obtain ⟨-, rfl⟩ := writeCw_eq_next.1 hv
    exact h.next ht (by simp [freshTable]) (by simp [freshTable]) (by simp [freshTable]) ((stackShape_resting (by simp) (by simp)).2 (by simp [freshTable])) fun htree =>
      (codesPhase_done rfl).2 (coded_startLeaf hs.legal htree hn hl)
  · refine h.next ht (by simp [freshTable]) (by simp [freshTable]) (by simp [freshTable]) ((stackShape_walking (.inl rfl)).2 rfl) fun htree => (codesPhase_descend rfl).2 ?_
    rw [h.root_eq]
    refine ⟨(Walk.start htree hs.arena).congr rfl ⟨rfl, rfl⟩ rfl, fun _ m hm => ?_⟩
    rw [show nodeAt s s.root.toNat = some m from hm] at hn
    cases hn
    exact hl

theorem RecorderRun.descend (hs : Sound s) (h : RecorderRun s u) (hf : u.crFsm = .gDescend) (ht : recorderStep u = .next t) :
    RecorderRun s t := by
  obtain ⟨hdense, hmax⟩ := h.stack_dense (.inl hf)
  obtain ⟨n, hn, hcase⟩ := descendStep_next (by simpa only [recorderStep, hf] using ht)
  rw [h.nodeAt_eq] at hn
  have phase := fun htree => (codesPhase_descend hf).1 (h.codes htree)
  rcases hcase with ⟨hl, v, hv, rfl⟩ | ⟨hl, v, hv, rfl⟩
  · obtain ⟨-, rfl⟩ := writeCw_eq_next.1 hv
    refine h.next ht (by simp) (by simp) (by simp) ((stackShape_walking (.inr rfl)).2 hdense) fun htree => (codesPhase_ascend rfl).2 ?_
    obtain ⟨hw, hroot⟩ := phase htree
    have h1 : 1 ≤ u.cr.DEPTH.toNat := by
      by_contra h0
      have := hroot (BitVec.eq_of_toNat_eq (by simpa using h0)) n hn
      rw [hl] at this
      cases this
    exact hw.recordLeaf htree hn hl h1 hmax _
  · obtain ⟨hd, rfl⟩ := writeTstk_eq_next.1 hv
    have hcm := (Params.sizes_fit hs.legal).2.2.2.1
    rw [h.codeMax_eq] at hd
    have hdepth : (u.cr.DEPTH + 1).toNat = u.cr.DEPTH.toNat + 1 := BitVec.toNat_add_of_lt (by simp; omega)
    refine h.next ht (by simp) (by simp) (by simp) ((stackShape_walking (.inl (by simpa using hf))).2 ?_)
      fun htree => (codesPhase_descend (by simpa using hf)).2 ?_
    · rw [setCUR_cr_DEPTH, setDEPTH_cr_DEPTH, hdepth]
      simpa only [setCUR_tstk, setDEPTH_tstk, setPATH_tstk, putTstk_tstk] using hdense.push u.cr.CUR
    · rw [setCUR_cr_CUR, setCUR_cr_DEPTH, setDEPTH_cr_DEPTH]
      refine ⟨(phase htree).1.descendLeft htree hs.arena hn hl rfl (by rw [setCUR_cr_DEPTH, setDEPTH_cr_DEPTH, hdepth]) (by simp)
        (by simp) (fun e => by simp [tstkAt_putTstk]), fun h0 => ?_⟩
      rw [h0] at hdepth
      cases hdepth

theorem RecorderRun.ascend (hs : Sound s) (h : RecorderRun s u) (hf : u.crFsm = .gAscend) (ht : recorderStep u = .next t) :
    RecorderRun s t := by
  obtain ⟨hdense, -⟩ := h.stack_dense (.inr hf)
  have phase := fun htree => (codesPhase_ascend hf).1 (h.codes htree)
  have top : u.cr.DEPTH ≠ 0 → ∃ d, u.cr.DEPTH.toNat = d + 1 := fun hne =>
    Nat.exists_eq_succ_of_ne_zero fun h0 => hne (BitVec.eq_of_toNat_eq (by simpa using h0))
  rcases ascendStep_next (by simpa only [recorderStep, hf] using ht) with
    ⟨hd, rfl⟩ | ⟨hd, -, x, n, hx, hn, rfl⟩ | ⟨hd, hone, rfl⟩
  · have hempty : Dense 0 u.tstk := by simpa [hd] using hdense
    refine h.next ht (by simp) (by simp) (by simp) ((stackShape_resting (by simp) (by simp)).2 hempty.eq_nil) fun htree => (codesPhase_done rfl).2 ?_
    obtain ⟨table, all⟩ := (phase htree).coded hd
    exact ⟨⟨table.entries, table.onlyLeaves⟩, all⟩
  · obtain ⟨d, hd⟩ := top hd
    rw [hd, Nat.add_sub_cancel] at hx ht ⊢
    rw [h.nodeAt_eq] at hn
    refine h.next ht (by simp) (by simp) (by simp) ((stackShape_walking (.inl rfl)).2 hdense) fun htree => (codesPhase_descend rfl).2 ?_
    rw [setCrFsm_cr, setCUR_cr_CUR, setCUR_cr_DEPTH, setPATH_cr_DEPTH]
    refine ⟨(phase htree).turnRight hs.arena hd hx hn (by simp) (by simp) (by simp) (by simp), fun h0 => ?_⟩
    rw [h0] at hd
    cases hd
  · obtain ⟨d, hd⟩ := top hd
    have hdepth : (u.cr.DEPTH - 1).toNat = d := by bv_omega
    rw [hd, Nat.add_sub_cancel] at hone ht ⊢
    obtain ⟨v, hpop, -⟩ := (hd ▸ hdense).pop
    refine h.next ht (by simp) (by simp) (by simp) ((stackShape_walking (.inr (by simpa using hf))).2 ?_)
      fun htree => (codesPhase_ascend (by simpa using hf)).2 ?_
    · rw [setDEPTH_cr_DEPTH, hdepth]
      exact hpop
    · exact (phase htree).popDigit hd hone (by rw [setDEPTH_cr_DEPTH, hdepth]) (by simp) (by simp)
        (fun e => by simp [tstkAt_dropTstk])

theorem RecorderRun.finish (h : RecorderRun s u) (hf : u.crFsm = .gDone) (ht : recorderStep u = .next t) : RecorderRun s t := by
  obtain rfl : respondOk (u.cr.CNT.setWidth 24) 0 (setCrFsm .gIdle (setCwReady true u)) = t := by
    simpa only [recorderStep, hf, recorderDone, Host.Outcome.next.injEq] using ht
  have hempty : u.tstk = [] := (stackShape_resting (by simp [hf]) (by simp [hf])).1 h.stack
  refine h.next ht (by simp) (by simp) (by simp) ((stackShape_resting (by simp) (by simp)).2 hempty) fun htree => (codesPhase_idle rfl).2 ?_
  obtain ⟨table, all⟩ := (codesPhase_done hf).1 (h.codes htree)
  exact ⟨⟨⟨table.entries, table.onlyLeaves⟩, all⟩, rfl⟩

theorem RecorderRun.tick (hs : Sound s) (h : RecorderRun s u) (hbusy : unitsIdle u = false) (ht : tick u = .next t) :
    RecorderRun s t := by
  have hp := h.queueIdle
  have hb := h.builderIdle
  have ht : recorderStep u = .next t := by simpa only [Machine.tick, hp, hb, if_true] using ht
  cases hf : u.crFsm with
  | gIdle =>
    rw [unitsIdle_iff.2 ⟨hp, hb, hf⟩] at hbusy
    cases hbusy
  | gStart => exact h.start hs hf ht
  | gDescend => exact h.descend hs hf ht
  | gAscend => exact h.ascend hs hf ht
  | gDone => exact h.finish hf ht

/-- What GENCODE leaves in a block with a tree: the stored part as it was but for the codeword table, and TSTK empty. -/
theorem RecorderRun.toEnd (hs : Sound s) (hi : unitsIdle s = true) (ht : runToEnd (setCrFsm .gStart s) = .next t) :
    Sound t ∧ storeButCodes t = storeButCodes s ∧ (TreeShape s → Coded s t ∧ t.cwReady = true) := by
  obtain ⟨hp, hb, -⟩ := unitsIdle_iff.1 hi
  have begin : RecorderRun s (setCrFsm .gStart s) :=
    ⟨rfl, hp, hb, by simpa using hs.canonical, (stackShape_resting (by simp) (by simp)).2 hs.stackEmpty, fun _ => codesPhase_start rfl⟩
  have h : RecorderRun s t := runUnits_induct (fun v w hv hb hw => hv.tick hs hb hw) begin ht
  obtain ⟨-, -, hc⟩ := unitsIdle_iff.1 (runUnits_ends_idle ht)
  have hempty : t.tstk = [] := (stackShape_resting (by simp [hc]) (by simp [hc])).1 h.stack
  refine ⟨⟨?_, h.canonical, ?_, ?_, ?_, hempty, ?_⟩, h.frame, fun htree => (codesPhase_idle hc).1 (h.codes htree)⟩
  · exact field_of_view State.params h.frame (fun _ => rfl) ▸ hs.legal
  · exact hs.queue.congr (field_of_view _ h.frame fun _ => rfl) (field_of_view _ h.frame fun _ => rfl)
      (field_of_view _ h.frame fun _ => rfl) (field_of_view _ h.frame fun _ => rfl) (field_of_view _ h.frame fun _ => rfl)
  · exact hs.arena.congr (field_of_view _ h.frame fun _ => rfl) (field_of_view _ h.frame fun _ => rfl)
      (field_of_view _ h.frame fun _ => rfl)
  · exact hs.widths.congr (field_of_view _ h.frame fun _ => rfl) (field_of_view _ h.frame fun _ => rfl)
      (field_of_view _ h.frame fun _ => rfl)
  · exact (field_of_view State.fatal h.frame fun _ => rfl).trans hs.notFatal

/-- The table that GENCODE leaves is the one of the tree (10_state.md R43 item 6). -/
theorem Coded.codesOk (h : Coded s t) (hf : storeButCodes t = storeButCodes s) (hr : t.cwReady = true) (hv : s.treeValid = true) :
    CodesOk t := by
  have hp : t.params = s.params := field_of_view _ hf fun _ => rfl
  have hleaf : ∀ sym, leafSymbol t sym = leafSymbol s sym := fun sym => by
    simp only [leafSymbol, nodeAt, field_of_view State.nleaf hf fun _ => rfl, field_of_view State.node hf fun _ => rfl]
  refine ⟨fun h0 => ?_, fun _ => (field_of_view State.treeValid hf fun _ => rfl).trans hv, fun _ sym _ => ?_, ?_⟩
  · rw [hr] at h0
    cases h0
  · rw [hleaf, Bool.eq_iff_iff]
    refine ⟨h.table.onlyLeaves sym, fun hl => ?_⟩
    obtain ⟨i, hi, n, hn, rfl⟩ := leafSymbol_iff.1 hl
    exact h.all i hi n hn
  · rw [hp]
    exact h.table.entries

end Sys2Proof.Machine
end

section
/-!
PROOFS. Allocation of one record (10_state.md R24), by LEAF and by the builder: it keeps arena, widths, queue and tree.
-/

namespace Sys2Proof.Machine

variable {s t u : State} {x : NodeRef} {n : NodeRec} {c i k : Nat}

/-- The reference to the record at NODE_CNT. -/
def nextRef (s : State) : NodeRef := s.nodeCnt.setWidth 9

section
variable (hp : s.params.legal = true) (hroom : s.nodeCnt.toNat < s.params.nodeMax)
include hp hroom

theorem toNat_nextRef : (nextRef s).toNat = s.nodeCnt.toNat := by
  have := (Params.sizes_fit hp).1
  exact (BitVec.toNat_setWidth 9 s.nodeCnt).trans (Nat.mod_eq_of_lt (by omega))

theorem toNat_nodeCnt_putNode (n : NodeRec) : (putNode s n).nodeCnt.toNat = s.nodeCnt.toNat + 1 := by
  have := (Params.sizes_fit hp).1
  exact BitVec.toNat_add_of_lt (by simp; omega)

end

/-- Allocation appends to the records. -/
theorem node_putNode (ha : ArenaOk s) (n : NodeRec) : (putNode s n).node = s.node ++ [(s.nodeCnt.toNat, n)] := ha.dense.arrSet_end

theorem nodeAt_putNode_old (n : NodeRec) (hi : i < s.nodeCnt.toNat) : nodeAt (putNode s n) i = nodeAt s i :=
  (nodeAt_putNode ..).trans (if_neg hi.ne)

theorem nodeAt_putNode_new (n : NodeRec) : nodeAt (putNode s n) s.nodeCnt.toNat = some n := (nodeAt_putNode ..).trans (if_pos rfl)

/-- An internal record keeps its sums when a record is allocated above it. -/
theorem InnerOk.putNode {m : NodeRec} (h : InnerOk s i m) (n : NodeRec) (hi : i ≤ s.nodeCnt.toNat) :
    InnerOk (putNode s n) i m := by
  obtain ⟨h1, h2, h3, h4, h5⟩ := h
  refine ⟨h1, h2, h3, h4, ?_⟩
  rwa [nodeAt_putNode_old n (by omega), nodeAt_putNode_old n (by omega)]

/-- A record that may stand at NODE_CNT: a leaf without children or an internal record as R43 item 4 says, as wide as the parameters
say. -/
structure NewRecOk (s : State) (n : NodeRec) : Prop where
  leaf : n.leaf = true → n.left = nilRef s.params ∧ n.right = nilRef s.params
  inner : n.leaf = false → InnerOk s s.nodeCnt.toNat n
  symbol : n.sym.toNat < s.params.nsym
  freq : n.freq.toNat ≤ s.params.kmax

theorem toNat_nilRef {p : Params} (hp : p.legal = true) : (nilRef p).toNat = p.nil := by
  have := (Params.sizes_fit hp).2.1
  exact Nat.mod_eq_of_lt (by omega)

theorem Sound.putNode (hs : Sound s) (hroom : s.nodeCnt.toNat < s.params.nodeMax) (hn : NewRecOk s n) : Sound (putNode s n) := by
  have hcnt := toNat_nodeCnt_putNode hs.legal hroom n
  have hmem : ∀ {e : Nat × NodeRec}, e ∈ (Machine.putNode s n).node → e ∈ s.node ∨ e = (s.nodeCnt.toNat, n) := fun he => by
    rw [node_putNode hs.arena, List.mem_append, List.mem_singleton] at he
    exact he
  refine ⟨hs.legal, wf_allocNode hs.canonical (allocNode_eq_next.2 ⟨hroom, rfl⟩), queueOk_iff.2 ?_, ?_, ?_, hs.stackEmpty, hs.notFatal⟩
  · obtain ⟨h1, h2, h3, h4⟩ := queueOk_iff.1 hs.queue
    exact ⟨h1, h2, h3, fun x hx => (h4 x hx).trans (by omega)⟩
  · refine ⟨by rw [hcnt]; exact hroom, by rw [hcnt]; exact hs.arena.dense.push n, fun e he hl => ?_, fun e he hl => ?_⟩
    · rcases hmem he with he | rfl
      · exact hs.arena.leaves e he hl
      · exact hn.leaf hl
    · rcases hmem he with he | rfl
      · exact (hs.arena.inners e he hl).putNode n (hs.arena.dense.key_lt he).le
      · exact (hn.inner hl).putNode n le_rfl
  · have children : n.left.toNat ≤ s.params.nil ∧ n.right.toNat ≤ s.params.nil := by
      have hnil : s.params.nil = s.params.nodeMax := s.params.nil_eq
      cases hl : n.leaf with
      | true =>
        obtain ⟨hl, hr⟩ := hn.leaf hl
        rw [hl, hr, toNat_nilRef hs.legal]
        exact ⟨le_rfl, le_rfl⟩
      | false =>
        have := (hn.inner hl).leftBelow
        have := (hn.inner hl).rightBelow
        omega
    refine ⟨hs.widths.counts, fun e he => ?_, fun e he => ?_, fun e he => ?_⟩ <;> rcases hmem he with he | rfl
    · exact hs.widths.symbols e he
    · exact hn.symbol
    · exact hs.widths.freqs e he
    · exact hn.freq
    · exact hs.widths.children e he
    · exact children

/-- The queue's keys are those of records already allocated. -/
theorem keyAt_putNode (hq : QueueOk s) (n : NodeRec) (k : Nat) : keyAt (putNode s n) k = keyAt s k := by
  rw [keyAt, keyAt, show slotAt (putNode s n) k = slotAt s k from rfl]
  cases hk : slotAt s k with
  | none => rfl
  | some x => simp only [Option.bind_some, nodeAt_putNode_old n (hq.ref_lt (hq.mem_refs hk))]

theorem HeapOrdered.putNode (h : HeapOrdered s) (hq : QueueOk s) (n : NodeRec) : HeapOrdered (putNode s n) := by
  simpa only [HeapOrdered, keyAt_putNode hq n, putNode_pqSize] using h

theorem QueueShape.putNode (h : QueueShape s) (hq : QueueOk s) (n : NodeRec) : QueueShape (putNode s n) :=
  h.congr (fun k _ => keyAt_putNode hq n k) rfl rfl rfl

/-- The parents of `c` after an allocation. -/
theorem parentsOf_putNode (ha : ArenaOk s) (n : NodeRec) (c : Nat) :
    parentsOf (putNode s n) c = parentsOf s c ++
      if n.leaf = false ∧ (n.left.toNat = c ∨ n.right.toNat = c) then [(s.nodeCnt.toNat, n)] else [] := by
  rw [parentsOf, node_putNode ha, List.filter_append]
  congr 1
  by_cases hl : n.leaf = false ∧ (n.left.toNat = c ∨ n.right.toNat = c)
  · rw [if_pos hl]
    simpa using hl
  · rw [if_neg hl]
    simpa using hl

theorem parentsOf_putNode_leaf (ha : ArenaOk s) (hl : n.leaf = true) (c : Nat) : parentsOf (putNode s n) c = parentsOf s c := by
  rw [parentsOf_putNode ha, if_neg (by simp [hl]), List.append_nil]

/-- A record has no parent at or below itself. -/
theorem lt_of_mem_parentsOf (ha : ArenaOk s) {e : Nat × NodeRec} (he : e ∈ parentsOf s c) : c < e.1 ∧ e.1 < s.nodeCnt.toNat := by
  obtain ⟨hn, hl, hc⟩ := (mem_parentsOf ha).1 he
  have hi := ha.inner hn hl
  refine ⟨?_, ha.dense.lt_of_arrGet hn⟩
  rcases hc with rfl | rfl
  · exact hi.leftBelow
  · exact hi.rightBelow

theorem parentsOf_last (ha : ArenaOk s) (hc : s.nodeCnt.toNat ≤ c + 1) : parentsOf s c = [] :=
  List.eq_nil_iff_forall_not_mem.2 fun e he => by
    have := lt_of_mem_parentsOf ha he
    omega

/-- A leaf allocated beside a tree does not belong to it. -/
theorem TreeShape.putNode_leaf (h : TreeShape s) (hs : Sound s) (hroom : s.nodeCnt.toNat < s.params.nodeMax) (hl : n.leaf = true) :
    TreeShape (putNode s n) := by
  have hroot := h.rootIs
  have hin := h.inArena
  have old : ∀ i, i ≤ s.root.toNat → nodeAt (putNode s n) i = nodeAt s i := fun i hi => nodeAt_putNode_old n (by omega)
  refine ⟨h.someLeaf, h.rootIs, ?_, fun i hi m hm => h.leavesFirst i hi m (old i hi ▸ hm), fun i hi m hm k hk => ?_, fun c hc => ?_⟩
  · rw [toNat_nodeCnt_putNode hs.legal hroom]
    exact hin.trans (Nat.lt_succ_self _)
  · have hi : i + 1 < s.nleaf.toNat := hi
    rw [old i (by omega)] at hm
    rw [old (i + 1) (by omega)] at hk
    exact h.ascending i hi m hm k hk
  · rw [parentsOf_putNode_leaf hs.arena hl]
    exact h.oneParent c hc

theorem TreeOk.putNode_leaf (h : TreeOk s) (hs : Sound s) (hroom : s.nodeCnt.toNat < s.params.nodeMax) (hl : n.leaf = true) :
    TreeOk (putNode s n) :=
  ⟨h.noTree, fun hv => (h.tree hv).putNode_leaf hs hroom hl⟩

theorem CodesOk.putNode (h : CodesOk s) (ht : TreeOk s) (n : NodeRec) : CodesOk (putNode s n) := by
  refine ⟨h.notReady, h.needsTree, fun hr sym hsym => (h.covers hr sym hsym).trans ?_, h.digits⟩
  have tree := ht.tree (h.needsTree hr)
  have hroot := tree.rootIs
  have hin := tree.inArena
  rw [Bool.eq_iff_iff, leafSymbol_iff, leafSymbol_iff]
  refine exists_congr fun i => and_congr_right fun hi => ?_
  rw [nodeAt_putNode_old n (by omega)]

end Sys2Proof.Machine
end

section
/-!
PROOFS. The forest of the tree builder (41_tree_builder.md R169 to R177): the leaves made so far, the internal records above them, and the
records that no record names as a child, with the sum of their frequencies.
-/

namespace Sys2Proof.Machine

open Sys2Proof.Summary

variable {s t u : State} {x a b : NodeRef} {n na nb : NodeRec} {c i k : Nat} {live live' rest : List NodeRef} {inner : List NodeRec}

/-! ### The symbols below a bound -/

/-- The symbols below `k` that occur, in ascending order. -/
def occBelow (s : State) (k : Nat) : List Nat := (List.range k).filter fun i => ftAt s i != 0

/-- The sum of the FT entries below `k`. -/
def sumBelow (s : State) (k : Nat) : Nat := ((List.range k).map fun i => (ftAt s i).toNat).sum

theorem occBelow_succ (s : State) (k : Nat) :
    occBelow s (k + 1) = if ftAt s k = 0 then occBelow s k else occBelow s k ++ [k] := by
  rw [occBelow, List.range_succ, List.filter_append]
  by_cases h : ftAt s k = 0
  · rw [if_pos h, List.filter_cons_of_neg (by simp [h]), List.filter_nil, List.append_nil]
    rfl
  · rw [if_neg h, List.filter_cons_of_pos (by simpa using h), List.filter_nil]
    rfl

theorem sumBelow_succ (s : State) (k : Nat) : sumBelow s (k + 1) = sumBelow s k + (ftAt s k).toNat := by
  simp [sumBelow, List.range_succ]

theorem occBelow_length_le (s : State) (k : Nat) : (occBelow s k).length ≤ k :=
  (List.length_filter_le ..).trans_eq List.length_range

theorem occBelow_mono (s : State) {k l : Nat} (h : k ≤ l) : (occBelow s k).length ≤ (occBelow s l).length :=
  ((List.range_sublist.2 h).filter _).length_le

theorem ftAt_le (h : WidthsOk s) (i : Nat) : (ftAt s i).toNat ≤ s.params.kmax := by
  rw [ftAt]
  cases hg : arrGet s.ft i with
  | none => exact Nat.zero_le _
  | some v => exact h.counts _ (arrGet_mem hg)

theorem sumBelow_le (h : WidthsOk s) (k : Nat) : sumBelow s k ≤ k * s.params.kmax := by
  induction k with
  | zero => simp [sumBelow]
  | succ k ih =>
    rw [sumBelow_succ, Nat.succ_mul]
    exact Nat.add_le_add ih (ftAt_le h k)

/-- Ascending symbols. -/
theorem occBelow_lt (s : State) {k i j a b : Nat} (hij : i < j) (ha : (occBelow s k)[i]? = some a)
    (hb : (occBelow s k)[j]? = some b) : a < b ∧ b < k := by
  obtain ⟨hi, rfl⟩ := List.getElem?_eq_some_iff.1 ha
  obtain ⟨hj, rfl⟩ := List.getElem?_eq_some_iff.1 hb
  refine ⟨List.pairwise_iff_getElem.1 (List.pairwise_lt_range.filter _) i j hi hj hij, ?_⟩
  exact List.mem_range.1 (List.mem_of_mem_filter (List.getElem_mem hj))

/-! ### What depends on the counts alone -/

theorem ftAt_congr (hf : t.ft = s.ft) : ftAt t = ftAt s := by
  funext i
  rw [ftAt, ftAt, hf]

theorem occBelow_congr (hf : t.ft = s.ft) : occBelow t = occBelow s := by
  funext k
  rw [occBelow, occBelow, ftAt_congr hf]

theorem sumBelow_congr (hf : t.ft = s.ft) : sumBelow t = sumBelow s := by
  funext k
  rw [sumBelow, sumBelow, ftAt_congr hf]

theorem occurring_congr (hf : t.ft = s.ft) (hp : t.params = s.params) : occurring t = occurring s := by
  rw [occurring, occurring, ftAt_congr hf, hp]

theorem totalCount_congr (hf : t.ft = s.ft) (hp : t.params = s.params) : totalCount t = totalCount s := by
  rw [totalCount, totalCount, ftAt_congr hf, hp]

/-! ### The forest -/

/-- The leaf record of symbol `sym` (R169). -/
def leafOf (s : State) (sym : Nat) : NodeRec := leafRec s.params (BitVec.ofNat 8 sym) (ftAt s sym)

/-- The frequency of a reference's record, 0 where it holds no value. -/
def freqAt (s : State) (x : NodeRef) : Nat := (nodeAt s x.toNat).elim 0 fun n => n.freq.toNat

theorem freqAt_eq (h : nodeAt s x.toNat = some n) : freqAt s x = n.freq.toNat := by simp [freqAt, h]

/-- The arena holds the leaves of the occurring symbols below `k` and then the internal records `inner`; `live` are the records without a
parent, and their frequencies sum up to the counts of the leaves. -/
structure Forest (s : State) (k : Nat) (live : List NodeRef) (inner : List NodeRec) : Prop where
  records : s.node.map Prod.snd = (occBelow s k).map (leafOf s) ++ inner
  inners : ∀ n ∈ inner, n.leaf = false
  count : live.length + inner.length = (occBelow s k).length
  distinct : live.Nodup
  inArena : ∀ x ∈ live, x.toNat < s.nodeCnt.toNat
  parents : ∀ x : NodeRef, x.toNat < s.nodeCnt.toNat → (parentsOf s x.toNat).length = if x ∈ live then 0 else 1
  sum : (live.map (freqAt s)).sum = sumBelow s k

theorem Forest.congr (h : Forest s k live inner) (hf : t.ft = s.ft) (hp : t.params = s.params) (hn : t.node = s.node)
    (hc : t.nodeCnt = s.nodeCnt) : Forest t k live inner := by
  have hleaf : leafOf t = leafOf s := by funext i; rw [leafOf, leafOf, ftAt_congr hf, hp]
  have hfreq : freqAt t = freqAt s := by funext x; rw [freqAt, freqAt, nodeAt, nodeAt, hn]
  obtain ⟨h1, h2, h3, h4, h5, h6, h7⟩ := h
  exact ⟨by rwa [hn, occBelow_congr hf, hleaf], h2, by rwa [occBelow_congr hf], h4, by rwa [hc], by simpa only [parentsOf, hn, hc] using h6,
    by rwa [hfreq, sumBelow_congr hf]⟩

theorem Forest.perm (h : Forest s k live inner) (hp : live.Perm live') : Forest s k live' inner where
  records := h.records
  inners := h.inners
  count := hp.length_eq ▸ h.count
  distinct := hp.nodup_iff.1 h.distinct
  inArena x hx := h.inArena x (hp.mem_iff.2 hx)
  parents x hx := by simp only [h.parents x hx, hp.mem_iff]
  sum := (hp.map _).sum_nat.symm.trans h.sum

theorem Forest.empty (hn : s.node = []) (hc : s.nodeCnt = 0) : Forest s 0 [] [] := by
  refine ⟨by rw [hn]; rfl, nofun, rfl, .nil, nofun, fun x hx => ?_, rfl⟩
  simp [hc] at hx

theorem Forest.skip (h : Forest s k live inner) (hz : ftAt s k = 0) : Forest s (k + 1) live inner := by
  have hocc : occBelow s (k + 1) = occBelow s k := by rw [occBelow_succ, if_pos hz]
  have hsum : sumBelow s (k + 1) = sumBelow s k := by simp [sumBelow_succ, hz]
  obtain ⟨h1, h2, h3, h4, h5, h6, h7⟩ := h
  exact ⟨by rwa [hocc], h2, by rwa [hocc], h4, h5, h6, by rwa [hsum]⟩

theorem Forest.nodeCnt_eq (h : Forest s k live inner) (ha : ArenaOk s) :
    s.nodeCnt.toNat = (occBelow s k).length + inner.length := by
  have := congrArg List.length h.records
  simpa [ha.dense.length_eq] using this

section
variable (hs : Sound s) (hroom : s.nodeCnt.toNat < s.params.nodeMax)
include hs hroom

theorem nextRef_notMem (h : Forest s k live inner) : nextRef s ∉ live := fun hx => by
  have := h.inArena _ hx
  rw [toNat_nextRef hs.legal hroom] at this
  omega

theorem freqAt_putNode_new (n : NodeRec) : freqAt (putNode s n) (nextRef s) = n.freq.toNat :=
  freqAt_eq ((congrArg _ (toNat_nextRef hs.legal hroom)).trans (nodeAt_putNode_new n))

omit hs hroom in
theorem sum_freqAt_putNode (h : Forest s k live inner) (hsub : ∀ x ∈ rest, x ∈ live) (n : NodeRec) :
    (rest.map (freqAt (putNode s n))).sum = (rest.map (freqAt s)).sum := by
  congr 1
  refine List.map_congr_left fun x hx => ?_
  rw [freqAt, nodeAt_putNode_old n (h.inArena x (hsub x hx))]
  rfl

/-- The references after an allocation are the old ones and the new one. -/
theorem lt_or_eq_nextRef (n : NodeRec) (hx : x.toNat < (putNode s n).nodeCnt.toNat) : x.toNat < s.nodeCnt.toNat ∨ x = nextRef s := by
  rw [toNat_nodeCnt_putNode hs.legal hroom] at hx
  rcases Nat.lt_succ_iff_lt_or_eq.1 hx with hx | hx
  · exact .inl hx
  · exact .inr (BitVec.eq_of_toNat_eq (hx.trans (toNat_nextRef hs.legal hroom).symm))

/-- R169: a leaf for the next occurring symbol. -/
theorem Forest.addLeaf (h : Forest s k live []) (hz : ftAt s k ≠ 0) :
    Forest (putNode s (leafOf s k)) (k + 1) (live ++ [nextRef s]) [] := by
  have hnew := nextRef_notMem hs hroom h
  have hcnt := toNat_nodeCnt_putNode hs.legal hroom (leafOf s k)
  have hocc : occBelow (putNode s (leafOf s k)) (k + 1) = occBelow s k ++ [k] := (occBelow_succ s k).trans (if_neg hz)
  refine ⟨?_, nofun, ?_, ?_, fun x hx => ?_, fun x hx => ?_, ?_⟩
  · rw [hocc, node_putNode hs.arena, List.map_append, h.records, List.append_nil, List.append_nil, List.map_append]
    rfl
  · rw [hocc]
    simpa using h.count
  · exact List.nodup_append.2 ⟨h.distinct, List.nodup_singleton _, fun y hy z hz => by
      rw [List.mem_singleton.1 hz]; rintro rfl; exact hnew hy⟩
  · rw [hcnt]
    rcases List.mem_append.1 hx with hx | hx
    · exact (h.inArena x hx).trans (Nat.lt_succ_self _)
    · rw [List.mem_singleton.1 hx, toNat_nextRef hs.legal hroom]
      exact Nat.lt_succ_self _
  · rw [parentsOf_putNode_leaf hs.arena rfl]
    rcases lt_or_eq_nextRef hs hroom _ hx with hlt | rfl
    · have hne : x ≠ nextRef s := by rintro rfl; rw [toNat_nextRef hs.legal hroom] at hlt; omega
      simp [h.parents x hlt, hne]
    · rw [parentsOf_last hs.arena (by rw [toNat_nextRef hs.legal hroom]; omega)]
      simp
  · rw [List.map_append, List.sum_append, sum_freqAt_putNode h (fun _ => id)]
    simp only [List.map_cons, List.map_nil, List.sum_singleton, freqAt_putNode_new hs hroom]
    rw [h.sum]
    exact (sumBelow_succ s k).symm

omit hroom in
/-- The sum of the counts bounds the frequency of a record that merges two live ones, which is therefore exact (R175). -/
theorem Forest.merge_freq (h : Forest s k (a :: b :: rest) inner) (hsum : sumBelow s k ≤ s.params.kmax)
    (ha : nodeAt s a.toNat = some na) (hb : nodeAt s b.toNat = some nb) :
    (na.freq + nb.freq).toNat = na.freq.toNat + nb.freq.toNat ∧ na.freq.toNat + nb.freq.toNat ≤ s.params.kmax := by
  have hk := (Params.kmax_bounds hs.legal).2
  have hle : na.freq.toNat + nb.freq.toNat ≤ s.params.kmax := by
    have := h.sum
    simp only [List.map_cons, List.sum_cons, freqAt_eq ha, freqAt_eq hb] at this
    omega
  exact ⟨BitVec.toNat_add_of_lt (by omega), hle⟩

/-- R171: two live records get a parent. -/
theorem Forest.merge (h : Forest s k (a :: b :: rest) inner) (hsum : sumBelow s k ≤ s.params.kmax)
    (ha : nodeAt s a.toNat = some na) (hb : nodeAt s b.toNat = some nb) :
    Forest (putNode s (innerRec (na.freq + nb.freq) a b)) k (nextRef s :: rest) (inner ++ [innerRec (na.freq + nb.freq) a b]) := by
  obtain ⟨rec, hrec⟩ : ∃ r, r = innerRec (na.freq + nb.freq) a b := ⟨_, rfl⟩
  rw [← hrec]
  have hnew := nextRef_notMem hs hroom h
  have hcnt := toNat_nodeCnt_putNode hs.legal hroom rec
  have hnext := toNat_nextRef hs.legal hroom
  obtain ⟨hab, hrest⟩ := List.nodup_cons.1 h.distinct
  obtain ⟨hbr, hrest⟩ := List.nodup_cons.1 hrest
  have halt := h.inArena a (by simp)
  have hblt := h.inArena b (by simp)
  have hsub : ∀ x ∈ rest, x ∈ a :: b :: rest := fun x hx => by simp [hx]
  refine ⟨?_, fun n hn => ?_, ?_, ?_, fun x hx => ?_, fun x hx => ?_, ?_⟩
  · rw [node_putNode hs.arena, List.map_append, h.records]
    exact List.append_assoc ..
  · rcases List.mem_append.1 hn with hn | hn
    · exact h.inners n hn
    · rw [List.mem_singleton.1 hn, hrec]
      rfl
  · have := h.count
    simp only [List.length_cons, List.length_append, List.length_nil] at this ⊢
    exact (by omega : rest.length + 1 + (inner.length + 1) = (occBelow s k).length)
  · exact List.nodup_cons.2 ⟨fun hx => hnew (hsub _ hx), hrest⟩
  · rw [hcnt]
    rcases List.mem_cons.1 hx with rfl | hx
    · rw [hnext]
      exact Nat.lt_succ_self _
    · exact (h.inArena x (hsub x hx)).trans (Nat.lt_succ_self _)
  · rw [parentsOf_putNode hs.arena, List.length_append]
    rcases lt_or_eq_nextRef hs hroom _ hx with hlt | rfl
    · have hne : x ≠ nextRef s := by rintro rfl; omega
      rw [h.parents x hlt]
      have hiff : (rec.leaf = false ∧ (rec.left.toNat = x.toNat ∨ rec.right.toNat = x.toNat)) ↔ x = a ∨ x = b := by
        rw [hrec]
        simp [innerRec, BitVec.toNat_inj, eq_comm]
      by_cases hx : x = a ∨ x = b
      · have hnotin : x ∉ nextRef s :: rest := by
          rcases hx with rfl | rfl
          · simpa [hne] using fun hr => hab (by simp [hr])
          · simpa [hne] using hbr
        rw [if_pos (hiff.2 hx), if_pos (by rcases hx with rfl | rfl <;> simp), if_neg hnotin]
        rfl
      · rw [if_neg (hiff.not.2 hx)]
        rw [not_or] at hx
        simp [hx.1, hx.2, hne]
    · rw [parentsOf_last hs.arena (by omega), if_neg, if_pos (by simp)]
      · rfl
      · rw [hrec, hnext]
        simp only [innerRec]
        omega
  · rw [List.map_cons, List.sum_cons, freqAt_putNode_new hs hroom, sum_freqAt_putNode h hsub, hrec]
    have := h.sum
    simp only [List.map_cons, List.sum_cons, freqAt_eq ha, freqAt_eq hb] at this
    refine Eq.trans ?_ this
    rw [show (innerRec (na.freq + nb.freq) a b).freq = na.freq + nb.freq from rfl, (h.merge_freq hs hsum ha hb).1, Nat.add_assoc]

end

end Sys2Proof.Machine
end

section
/-!
PROOFS. Where the builder of BUILD is after each of its steps (41_tree_builder.md R165): the invariant of each state of TB_FSM, in which
the internal fault of 60_exceptions.md R232 has no place, and what a finished forest is.
-/

namespace Sys2Proof.Machine

open Sys2Proof.Summary

variable {s t u v : State} {x : NodeRef} {n : NodeRec} {k : Nat} {live live' : List NodeRef} {inner : List NodeRec}

/-! ### A finished forest is a tree -/

theorem Forest.nodeAt_leaf (h : Forest s k live inner) (ha : ArenaOk s) {i sym : Nat} (hi : (occBelow s k)[i]? = some sym) :
    nodeAt s i = some (leafOf s sym) := by
  have hlt := (List.getElem?_eq_some_iff.1 hi).1
  rw [show nodeAt s i = _ from ha.dense.arrGet_eq i, h.records, List.getElem?_append_left (by simpa using hlt), List.getElem?_map, hi]
  rfl

theorem Forest.leaf_iff (h : Forest s k live inner) (ha : ArenaOk s) {i : Nat} (hn : nodeAt s i = some n) :
    n.leaf = decide (i < (occBelow s k).length) := by
  by_cases hi : i < (occBelow s k).length
  · rw [h.nodeAt_leaf ha (List.getElem?_eq_getElem hi)] at hn
    cases hn
    exact (decide_eq_true hi).symm
  · rw [show nodeAt s i = _ from ha.dense.arrGet_eq i, h.records, List.getElem?_append_right (by simpa using hi)] at hn
    rw [h.inners n (List.mem_of_getElem? hn), decide_eq_false hi]

/-- R175, R177: when only ROOT is left without a parent, the records up to ROOT are a tree over the occurring symbols. -/
theorem Forest.treeShape (h : Forest s s.params.nsym [s.root] inner) (ha : ArenaOk s) (hp : s.params.legal = true)
    (hleaf : s.nleaf.toNat = (occurring s).length) : TreeShape s := by
  have hcount : 1 + inner.length = (occurring s).length := h.count
  have hcnt : s.nodeCnt.toNat = (occurring s).length + inner.length := h.nodeCnt_eq ha
  have hmax := (Params.sizes_fit hp).1
  have hle := ha.cntLe
  have hsmall : ∀ c, c < s.nodeCnt.toNat → (BitVec.ofNat 9 c).toNat = c := fun c hc => Nat.mod_eq_of_lt (by omega)
  have hparents : ∀ c, c < s.nodeCnt.toNat → (parentsOf s c).length = if c = s.root.toNat then 0 else 1 := fun c hc => by
    have hpar := h.parents (BitVec.ofNat 9 c) (by rwa [hsmall c hc])
    have hmem : BitVec.ofNat 9 c ∈ [s.root] ↔ c = s.root.toNat := by rw [List.mem_singleton, ← BitVec.toNat_inj, hsmall c hc]
    simpa only [hsmall c hc, hmem] using hpar
  have hroot : s.root.toNat + 1 = s.nodeCnt.toNat := by
    have hlast := hparents (s.nodeCnt.toNat - 1) (by omega)
    rw [parentsOf_last ha (by omega)] at hlast
    by_contra hne
    rw [if_neg (by omega)] at hlast
    cases hlast
  refine ⟨by omega, by omega, by omega, fun i _ n hn => ?_, fun i hi m hm n hn => ?_, fun c hc => hparents c (by omega)⟩
  · rw [h.leaf_iff ha hn, hleaf]
    rfl
  · have hi1 : i + 1 < (occBelow s s.params.nsym).length := hleaf ▸ hi
    have hg := List.getElem?_eq_getElem (Nat.lt_of_succ_lt hi1)
    have hg1 := List.getElem?_eq_getElem hi1
    obtain ⟨hlt, hbound⟩ := occBelow_lt s (Nat.lt_succ_self i) hg hg1
    have hn256 := (Params.nsym_bounds hp).2
    rw [h.nodeAt_leaf ha hg] at hm
    rw [h.nodeAt_leaf ha hg1] at hn
    cases hm
    cases hn
    simp only [leafOf, leafRec, BitVec.toNat_ofNat]
    rw [Nat.mod_eq_of_lt (by omega), Nat.mod_eq_of_lt (by omega)]
    exact hlt

/-! ### Where the builder is -/

/-- The scan has counted the symbols below `k` and changed nothing that is stored (R167). -/
structure Scanned (s : State) (k : Nat) (u : State) : Prop where
  frame : store u = store s
  queueIdle : u.pqFsm = .pIdle
  recorderIdle : u.crFsm = .gIdle
  symbols : u.tb.N.toNat = (occBelow s k).length
  total : u.tb.ACC.toNat = sumBelow s k

/-- The forest over the symbols below `k` is growing, the queue being as PQ_FSM says. -/
structure Growing (s : State) (k : Nat) (live : List NodeRef) (inner : List NodeRec) (u : State) : Prop where
  counts : u.ft = s.ft
  params : u.params = s.params
  sound : Sound u
  order : QueueShape u
  forest : Forest u k live inner
  fits : totalCount u ≤ u.params.kmax
  symbols : u.tb.N.toNat = (occurring u).length
  capacity : u.pqCap = u.tb.N
  noCodes : u.cwReady = false ∧ u.cw = []
  recorderIdle : u.crFsm = .gIdle

/-- What a successful BUILD leaves. -/
structure Built (s u : State) : Prop where
  counts : u.ft = s.ft
  params : u.params = s.params
  sound : Sound u
  order : HeapOrdered u
  forest : ∃ inner, Forest u u.params.nsym [u.root] inner
  leaves : u.nleaf.toNat = (occurring u).length
  valid : u.treeValid = true
  noCodes : u.cwReady = false ∧ u.cw = []

/-- Where a BUILD that began in `s` has come to: one constructor per state of TB_FSM and, where a primitive may run, per state of PQ_FSM. -/
inductive Building (s : State) : State → Prop
  | scan {u : State} : u.tbFsm = .bScan → u.tb.S.toNat ≤ s.params.nsym → Scanned s u.tb.S.toNat u → Building s u
  | check {u : State} : u.tbFsm = .bCheck → Scanned s s.params.nsym u → Building s u
  | init {u : State} : u.tbFsm = .bInit → totalCount s ≤ s.params.kmax → Scanned s s.params.nsym u → Building s u
  | fail {u : State} (e : ErrKind) : u.tbFsm = .bFail e → Scanned s s.params.nsym u → Building s u
  | leaves {u : State} : u.tbFsm = .bLeaves → u.pqFsm = .pIdle → u.tb.S.toNat ≤ u.params.nsym →
      Growing s u.tb.S.toNat (queueRefs u) [] u → Building s u
  | insertingLeaf {u : State} : u.tbFsm = .bLeaves → u.pqFsm = .pUp → u.tb.S.toNat < u.params.nsym →
      Growing s (u.tb.S.toNat + 1) (queueRefs u) [] u → Building s u
  | loop {u : State} (inner : List NodeRec) : u.tbFsm = .bLoop → u.pqFsm = .pIdle → Growing s u.params.nsym (queueRefs u) inner u → Building s u
  | takeFirst {u : State} (inner : List NodeRec) : u.tbFsm = .bExtU → u.pqFsm = .pIdle → 2 ≤ u.pqSize.toNat →
      Growing s u.params.nsym (queueRefs u) inner u → Building s u
  | takingFirst {u : State} (inner : List NodeRec) : u.tbFsm = .bExtU → u.pqFsm = .pDown → 1 ≤ u.pqSize.toNat →
      Growing s u.params.nsym (u.pq.XN :: queueRefs u) inner u → Building s u
  | takeSecond {u : State} (inner : List NodeRec) : u.tbFsm = .bExtV → u.pqFsm = .pIdle → 1 ≤ u.pqSize.toNat →
      Growing s u.params.nsym (u.tb.U :: queueRefs u) inner u → Building s u
  | takingSecond {u : State} (inner : List NodeRec) : u.tbFsm = .bExtV → u.pqFsm = .pDown →
      Growing s u.params.nsym (u.tb.U :: u.pq.XN :: queueRefs u) inner u → Building s u
  | merge {u : State} (inner : List NodeRec) : u.tbFsm = .bMerge → u.pqFsm = .pIdle →
      Growing s u.params.nsym (u.tb.U :: u.tb.V :: queueRefs u) inner u → Building s u
  | insert {u : State} (inner : List NodeRec) : u.tbFsm = .bInsW → u.pqFsm = .pIdle → Growing s u.params.nsym (u.tb.W :: queueRefs u) inner u →
      Building s u
  | insertingMerged {u : State} (inner : List NodeRec) : u.tbFsm = .bInsW → u.pqFsm = .pUp → Growing s u.params.nsym (queueRefs u) inner u → Building s u
  | done {u : State} (inner : List NodeRec) : u.tbFsm = .bDone → u.pqFsm = .pIdle → u.pqSize.toNat ≤ 1 →
      Growing s u.params.nsym (queueRefs u) inner u → Building s u
  | failed {u : State} : unitsIdle u = true → store u = store s → Building s u
  | built {u : State} : unitsIdle u = true → Built s u → Building s u

/-! ### Growing forests under the builder's steps -/

theorem Growing.change (h : Growing s k live inner u) (hv : storeButQueue t = storeButQueue u) (hN : t.tb.N = u.tb.N)
    (hc : t.crFsm = u.crFsm) (hs : Sound t) (ho : QueueShape t) (hl : live.Perm live') : Growing s k live' inner t := by
  have hf : t.ft = u.ft := field_of_view _ hv fun _ => rfl
  have hp : t.params = u.params := field_of_view _ hv fun _ => rfl
  refine ⟨hf.trans h.counts, hp.trans h.params, hs, ho, ?_, by rw [totalCount_congr hf hp, hp]; exact h.fits,
    by rw [hN, occurring_congr hf hp]; exact h.symbols, ?_, ?_,
    hc.trans h.recorderIdle⟩
  · exact (h.forest.congr hf hp (field_of_view _ hv fun _ => rfl) (field_of_view _ hv fun _ => rfl)).perm hl
  · rw [hN, ← h.capacity]
    exact field_of_view _ hv fun _ => rfl
  · rw [show t.cwReady = u.cwReady from field_of_view _ hv fun _ => rfl, show t.cw = u.cw from field_of_view _ hv fun _ => rfl]
    exact h.noCodes

/-- Registers of TB other than N and sequencing registers of TB may change freely. -/
theorem Growing.registers (h : Growing s k live inner u) (hst : store t = store u) (hN : t.tb.N = u.tb.N) (hc : t.crFsm = u.crFsm)
    (hf : t.pqFsm = u.pqFsm) (hpq : t.pq = u.pq) : Growing s k live inner t := by
  have hbq : storeButQueue t = storeButQueue u := congrArg (fun r : State => { r with heap := [], pqSize := 0 }) hst
  refine h.change hbq hN hc (Sound.of_store hst h.sound) ?_ (.refl _)
  refine h.order.congr (fun k _ => ?_) (pqSize_of_store hst) hf (congrArg PqRegs.I hpq)
  rw [keyAt, slotAt, heap_of_store hst]
  simp only [nodeAt, node_of_store hst]
  rfl

theorem Growing.moves (h : Growing s k live inner u) (hm : QueueMoves u t) (hl : live.Perm live') : Growing s k live' inner t :=
  h.change hm.frame.storeButQueue_eq (congrArg TbRegs.N hm.frame.tb_eq) hm.frame.crFsm_eq hm.sound (hm.shape h.order) hl

theorem Growing.heapOrdered (h : Growing s k live inner u) (hp : u.pqFsm = .pIdle) : HeapOrdered u := (queueShape_idle hp).1 h.order

theorem Growing.queue_size (h : Growing s k (live ++ queueRefs u) inner u) :
    live.length + u.pqSize.toNat + inner.length = (occBelow u k).length := by
  have := h.forest.count
  rwa [List.length_append, h.sound.queue.length_refs] at this

/-- R174 is not met: the queue has room for the reference that is inserted. -/
theorem Growing.not_full (h : Growing s k live inner u) (hlt : u.pqSize.toNat < (occurring u).length) : u.pqSize ≠ u.pqCap := by
  intro he
  rw [he, h.capacity, h.symbols] at hlt
  omega

end Sys2Proof.Machine
end

section
/-!
PROOFS. The builder's states from B_SCAN to B_INIT (41_tree_builder.md R167, R168).
-/

namespace Sys2Proof.Machine

open Sys2Proof.Summary

variable {s t u v : State} {x : NodeRef} {n : NodeRec} {k : Nat} {live live' : List NodeRef} {inner : List NodeRec}

/-! ### The builder's registers are not stored -/

@[simp] theorem store_setTbFsm (f : TbState) (s : State) : store (setTbFsm f s) = store s := rfl
@[simp] theorem store_setS (v : Count9) (s : State) : store (setS v s) = store s := rfl
@[simp] theorem store_setN (v : Count9) (s : State) : store (setN v s) = store s := rfl
@[simp] theorem store_setACC (v : Sum) (s : State) : store (setACC v s) = store s := rfl
@[simp] theorem store_setU (v : NodeRef) (s : State) : store (setU v s) = store s := rfl
@[simp] theorem store_setV (v : NodeRef) (s : State) : store (setV v s) = store s := rfl
@[simp] theorem store_setW (v : NodeRef) (s : State) : store (setW v s) = store s := rfl
@[simp] theorem store_raise (e : ErrKind) (s : State) : store (raise e s) = store s := rfl
@[simp] theorem store_respondOk (a : BitVec 24) (b : BitVec 32) (s : State) : store (respondOk a b s) = store s := rfl

theorem builderStep_of_tick (hp : u.pqFsm = .pIdle) (hb : u.tbFsm ≠ .bIdle) (h : tick u = .next t) : builderStep u = .next t := by
  simpa only [tick, hp, hb, if_false] using h

/-! ### The scan (R167) -/

theorem Scanned.ftAt_eq (h : Scanned s k u) : ftAt u = ftAt s :=
  ftAt_congr (ft_of_store h.frame)

theorem Scanned.scan (h : Scanned s u.tb.S.toNat u) (hs : Sound s) (hf : u.tbFsm = .bScan) (hk : u.tb.S.toNat ≤ s.params.nsym)
    (ht : tick u = .next t) : Building s t := by
  have hstep := builderStep_of_tick h.queueIdle (by simp [hf]) ht
  simp only [builderStep, hf] at hstep
  have hp := params_of_store h.frame
  obtain ⟨-, hn⟩ := Params.nsym_bounds hs.legal
  have hS : u.tb.S.toNat < s.params.nsym → (u.tb.S + 1).toNat = u.tb.S.toNat + 1 := fun hlt =>
    BitVec.toNat_add_of_lt (by simp; omega)
  rcases scanStep_next hstep with ⟨hlt, hz, rfl⟩ | ⟨hlt, hz, rfl⟩ | ⟨hle, rfl⟩
  · rw [hp] at hlt
    rw [h.ftAt_eq] at hz
    refine .scan hf (by rw [setS_tb_S, hS hlt]; exact hlt) ⟨by simpa using h.frame, h.queueIdle, h.recorderIdle, ?_, ?_⟩
    · rw [setS_tb_S, hS hlt, occBelow_succ, if_pos hz]
      exact h.symbols
    · rw [setS_tb_S, hS hlt, sumBelow_succ, hz]
      exact h.total
  · rw [hp] at hlt
    rw [h.ftAt_eq] at hz
    have hN : (u.tb.N + 1).toNat = u.tb.N.toNat + 1 := by
      have := occBelow_length_le s u.tb.S.toNat
      have := h.symbols
      exact BitVec.toNat_add_of_lt (by simp; omega)
    have hACC : (u.tb.ACC + (ftAt u u.tb.S.toNat).setWidth 40).toNat = u.tb.ACC.toNat + (ftAt u u.tb.S.toNat).toNat := by
      have hw : ((ftAt u u.tb.S.toNat).setWidth 40).toNat = (ftAt u u.tb.S.toNat).toNat :=
        (BitVec.toNat_setWidth ..).trans (Nat.mod_eq_of_lt (by omega))
      have hb : sumBelow s (u.tb.S.toNat + 1) < 2 ^ 40 :=
        ((sumBelow_le hs.widths _).trans (Nat.mul_le_mul_right _ hlt)).trans_lt (Params.sum_fits hs.legal)
      rw [sumBelow_succ, ← h.total, ← h.ftAt_eq] at hb
      rw [BitVec.toNat_add_of_lt (by rwa [hw]), hw]
    refine .scan hf (by rw [setS_tb_S, hS hlt]; exact hlt)
      ⟨by simpa [countSymbol] using h.frame, h.queueIdle, h.recorderIdle, ?_, ?_⟩
    · rw [setS_tb_S, hS hlt, occBelow_succ, if_neg hz, List.length_append, ← h.symbols]
      exact hN
    · rw [setS_tb_S, hS hlt, sumBelow_succ, ← h.total, ← h.ftAt_eq]
      exact hACC
  · rw [hp] at hle
    have he : u.tb.S.toNat = s.params.nsym := le_antisymm hk hle
    exact .check rfl ⟨h.frame, h.queueIdle, h.recorderIdle, he ▸ h.symbols, he ▸ h.total⟩

theorem Scanned.check (h : Scanned s s.params.nsym u) (hf : u.tbFsm = .bCheck) (ht : tick u = .next t) : Building s t := by
  have hstep := builderStep_of_tick h.queueIdle (by simp [hf]) ht
  simp only [builderStep, hf] at hstep
  have move : ∀ f, Scanned s s.params.nsym (setTbFsm f u) := fun f =>
    ⟨h.frame, h.queueIdle, h.recorderIdle, h.symbols, h.total⟩
  rcases checkStep_next hstep with ⟨-, rfl⟩ | ⟨-, -, rfl⟩ | ⟨-, hle, rfl⟩
  · exact .fail _ rfl (move _)
  · exact .fail _ rfl (move _)
  · refine .init rfl ?_ (move _)
    rwa [params_of_store h.frame, h.total] at hle

theorem Scanned.failed {e : ErrKind} (h : Scanned s s.params.nsym u) (hf : u.tbFsm = .bFail e) (ht : tick u = .next t) :
    Building s t := by
  have hstep := builderStep_of_tick h.queueIdle (by simp [hf]) ht
  simp only [builderStep, hf, failStep] at hstep
  cases hstep
  exact .failed (unitsIdle_iff.2 ⟨h.queueIdle, rfl, h.recorderIdle⟩) (by simpa using h.frame)

/-- R168: arena, queue, tree registers and codeword table are emptied, and the forest is empty. -/
theorem Scanned.init (h : Scanned s s.params.nsym u) (hs : Sound s) (hf : u.tbFsm = .bInit) (hfits : totalCount s ≤ s.params.kmax)
    (ht : tick u = .next t) : Building s t := by
  have hstep := builderStep_of_tick h.queueIdle (by simp [hf]) ht
  have hu : Sound u := Sound.of_store h.frame hs
  have hp := params_of_store h.frame
  have hcanon := wf_builderStep hu.canonical hstep
  simp only [builderStep, hf, initStep_eq, Host.Outcome.next.injEq] at hstep
  have hN : u.tb.N.toNat ≤ u.params.nsym := by
    rw [hp, h.symbols]
    exact occBelow_length_le ..
  obtain ⟨tparams, tft, tnode, tcnt, theap, tsize, tcap, tN⟩ : t.params = u.params ∧ t.ft = u.ft ∧ t.node = [] ∧ t.nodeCnt = 0 ∧
      t.heap = [] ∧ t.pqSize = 0 ∧ t.pqCap = u.tb.N ∧ t.tb.N = u.tb.N := by
    subst hstep
    simp
  obtain ⟨tS, tfsm, tpq, tcr, tstack, tfatal, tcodes⟩ : t.tb.S = 0 ∧ t.tbFsm = .bLeaves ∧ t.pqFsm = u.pqFsm ∧ t.crFsm = u.crFsm ∧
      t.tstk = u.tstk ∧ t.fatal = u.fatal ∧ t.cwReady = false ∧ t.cw = [] := by
    subst hstep
    simp
  have hf : t.ft = s.ft := tft.trans (ft_of_store h.frame)
  have hrefs : queueRefs t = [] := by rw [queueRefs, theap]; rfl
  have sound : Sound t := by
    refine ⟨tparams ▸ hu.legal, hcanon, queueOk_iff.2 ⟨by simp [tsize], by rw [tcap, tparams]; exact hN, by rw [tsize, theap]; rfl,
      by simp [hrefs]⟩, ⟨by simp [tcnt], by rw [tcnt, tnode]; rfl, by simp [tnode], by simp [tnode]⟩,
      ⟨by rw [tft, tparams]; exact hu.widths.counts, by simp [tnode], by simp [tnode], by simp [tnode]⟩, tstack.trans hu.stackEmpty,
      tfatal.trans hu.notFatal⟩
  have hocc : occurring t = occurring s := occurring_congr hf (tparams.trans hp)
  have htot : totalCount t = totalCount s := totalCount_congr hf (tparams.trans hp)
  refine .leaves tfsm (tpq.trans h.queueIdle) (by simp [tS]) ⟨hf, tparams.trans hp, sound,
    (queueShape_idle (tpq.trans h.queueIdle)).2 fun k hk => by simp [tsize] at hk, ?_, by rwa [htot, tparams, hp], ?_,
    tcap.trans tN.symm, tcodes, tcr.trans h.recorderIdle⟩
  · rw [hrefs, tS]
    exact .empty tnode tcnt
  · rw [tN, hocc]
    exact h.symbols

end Sys2Proof.Machine
end

section
/-!
PROOFS. The builder's states from B_LEAVES to B_DONE (41_tree_builder.md R169 to R173), and BUILD run to its end.
-/

namespace Sys2Proof.Machine

open Sys2Proof.Summary

variable {s t u v : State} {x : NodeRef} {n : NodeRec} {k : Nat} {live live' : List NodeRef} {inner : List NodeRec}

/-! ### The leaves (R169) -/

/-- A symbol is counted, and so in BUILD there is a slot for its leaf. -/
theorem occBelow_length_lt (hk : k < s.params.nsym) (hz : ftAt s k ≠ 0) : (occBelow s k).length < (occurring s).length := by
  have := occBelow_mono s (Nat.succ_le_of_lt hk)
  rw [Nat.succ_eq_add_one, occBelow_succ, if_neg hz, List.length_append] at this
  exact this

/-- An insertion that begins: the new reference leaves the builder's hands and enters the queue. -/
theorem Growing.insertStart (h : Growing s k (x :: queueRefs u) inner u) (hp : u.pqFsm = .pIdle)
    (hroom : u.pqSize ≠ u.pqCap) (ht : insertStart x u = .next t) : Growing s k (queueRefs t) inner t := by
  have hx := h.forest.inArena x List.mem_cons_self
  have hf := insertStart_frame ht
  obtain ⟨-, hrefs, -⟩ := insertStart_refs h.sound.queue hroom hx h.sound.legal ht
  refine h.change hf.storeButQueue_eq (congrArg TbRegs.N hf.tb_eq) hf.crFsm_eq (insertStart_sound h.sound hroom hx ht)
    (insertStart_shape h.sound (h.heapOrdered hp) ht) ?_
  rw [hrefs]
  exact (List.perm_append_singleton x _).symm

/-- An extraction that begins: the reference of slot 0 is in XN. -/
theorem Growing.extractStart (h : Growing s k (live ++ queueRefs u) inner u) (hp : u.pqFsm = .pIdle) (ht : extractStart u = .next t) :
    Growing s k (live ++ t.pq.XN :: queueRefs t) inner t ∧ t.pqSize.toNat + 1 = u.pqSize.toNat := by
  have hf := extractStart_frame ht
  obtain ⟨-, hperm, hsize⟩ := extractStart_refs h.sound.queue ht
  exact ⟨h.change hf.storeButQueue_eq (congrArg TbRegs.N hf.tb_eq) hf.crFsm_eq (extractStart_sound h.sound ht)
    (extractStart_shape h.sound (h.heapOrdered hp) ht) (hperm.symm.append_left live), hsize⟩

/-- A leaf is allocated for the next occurring symbol. -/
theorem Growing.addLeaf (h : Growing s k live [] u) (hk : k < u.params.nsym) (hz : ftAt u k ≠ 0)
    (hroom : u.nodeCnt.toNat < u.params.nodeMax) : Growing s (k + 1) (nextRef u :: live) [] (putNode u (leafOf u k)) := by
  have hn := (Params.nsym_bounds h.sound.legal).2
  have hsym : (leafOf u k).sym.toNat < u.params.nsym := by
    simpa only [leafOf, leafRec, BitVec.toNat_ofNat, Nat.mod_eq_of_lt (hk.trans_le hn)] using hk
  have new : NewRecOk u (leafOf u k) := ⟨fun _ => ⟨rfl, rfl⟩, nofun, hsym, ftAt_le h.sound.widths k⟩
  exact ⟨h.counts, h.params, h.sound.putNode hroom new, h.order.putNode h.sound.queue _,
    (h.forest.addLeaf h.sound hroom hz).perm (List.perm_append_singleton _ _), h.fits, h.symbols, h.capacity, h.noCodes,
    h.recorderIdle⟩

/-- R171: two live records are merged; the sum of their frequencies is exact (R175). -/
theorem Growing.addInner {a b : NodeRef} {na nb : NodeRec} (h : Growing s k (a :: b :: live) inner u)
    (hroom : u.nodeCnt.toNat < u.params.nodeMax) (hsum : sumBelow u k ≤ u.params.kmax) (ha : nodeAt u a.toNat = some na)
    (hb : nodeAt u b.toNat = some nb) :
    Growing s k (nextRef u :: live) (inner ++ [innerRec (na.freq + nb.freq) a b]) (putNode u (innerRec (na.freq + nb.freq) a b)) := by
  obtain ⟨hexact, hle⟩ := h.forest.merge_freq h.sound hsum ha hb
  have hne : a ≠ b := by
    rintro rfl
    exact (List.nodup_cons.1 h.forest.distinct).1 List.mem_cons_self
  have new : NewRecOk u (innerRec (na.freq + nb.freq) a b) := by
    refine ⟨nofun, fun _ => ⟨rfl, h.forest.inArena a (by simp), h.forest.inArena b (by simp), hne, fun l hl r hr => ?_⟩, ?_,
      hexact.trans_le hle⟩
    · obtain rfl : na = l := Option.some.inj (ha.symm.trans hl)
      obtain rfl : nb = r := Option.some.inj (hb.symm.trans hr)
      exact hexact
    · exact lt_of_lt_of_le Nat.two_pos (Params.nsym_bounds h.sound.legal).1
  exact ⟨h.counts, h.params, h.sound.putNode hroom new, h.order.putNode h.sound.queue _, h.forest.merge h.sound hroom hsum ha hb,
    h.fits, h.symbols, h.capacity, h.noCodes, h.recorderIdle⟩

theorem Growing.leavesStep (h : Growing s u.tb.S.toNat (queueRefs u) [] u) (hf : u.tbFsm = .bLeaves) (hp : u.pqFsm = .pIdle)
    (hk : u.tb.S.toNat ≤ u.params.nsym) (ht : tick u = .next t) : Building s t := by
  have hstep := builderStep_of_tick hp (by simp [hf]) ht
  simp only [builderStep, hf] at hstep
  have hn := (Params.nsym_bounds h.sound.legal).2
  have hsize : u.pqSize.toNat = (occBelow u u.tb.S.toNat).length := by
    simpa [h.sound.queue.length_refs] using h.forest.count
  rcases leavesStep_next hstep with ⟨hlt, hz, rfl⟩ | ⟨hlt, hz, hfull, -⟩ | ⟨hlt, hz, hroom, v, hv, hins⟩ | ⟨hle, rfl⟩
  · have hS : (u.tb.S + 1).toNat = u.tb.S.toNat + 1 := BitVec.toNat_add_of_lt (by simp; omega)
    refine .leaves hf hp (by rw [setS_tb_S, hS]; exact hlt) ?_
    have hskip : Growing s (u.tb.S.toNat + 1) (queueRefs u) [] u := { h with forest := h.forest.skip hz }
    rw [setS_tb_S, hS]
    exact hskip.registers (by simp) (by simp) rfl rfl rfl
  · exact absurd hfull (h.not_full (hsize ▸ occBelow_length_lt hlt hz))
  · obtain ⟨halloc, rfl⟩ := allocNode_eq_next.1 hv
    have hgrown := Growing.insertStart (u := putNode u (leafOf u u.tb.S.toNat)) (h.addLeaf hlt hz halloc) hp hroom hins
    have hframe := insertStart_frame hins
    have hS : t.tb.S = u.tb.S := congrArg TbRegs.S hframe.tb_eq
    refine .insertingLeaf (hframe.tbFsm_eq.trans hf) ?_ (by rw [hS, hgrown.params, ← h.params]; exact hlt) (by rwa [hS])
    obtain ⟨-, rfl⟩ := insertStart_eq_next.1 hins
    rfl
  · have he : u.tb.S.toNat = u.params.nsym := le_antisymm hk hle
    exact .loop [] rfl hp ((he ▸ h).registers (by simp) rfl rfl rfl rfl)

theorem Growing.insertingLeaf (h : Growing s (u.tb.S.toNat + 1) (queueRefs u) [] u) (hf : u.tbFsm = .bLeaves) (hp : u.pqFsm = .pUp)
    (hk : u.tb.S.toNat < u.params.nsym) (ht : tick u = .next t) : Building s t := by
  have hn := (Params.nsym_bounds h.sound.legal).2
  obtain ⟨v, hm, hend⟩ := tick_up h.sound hp ht
  have hv := h.moves hm hm.refs.symm
  have hvf : v.tbFsm = .bLeaves := hm.frame.tbFsm_eq.trans hf
  have hvS : v.tb.S = u.tb.S := congrArg TbRegs.S hm.frame.tb_eq
  have hvp : v.params = u.params := hv.params.trans h.params.symm
  rcases hend with ⟨hidle, hend⟩ | ⟨hup, rfl⟩
  · simp only [afterInsert, hvf] at hend
    cases hend
    have hS : (v.tb.S + 1).toNat = u.tb.S.toNat + 1 := by
      rw [hvS]
      exact BitVec.toNat_add_of_lt (by simp; omega)
    refine .leaves hvf hidle (by rw [setS_tb_S, hS]; exact hvp ▸ hk) ?_
    rw [setS_tb_S, hS]
    exact hv.registers (by simp) (by simp) rfl rfl rfl
  · exact .insertingLeaf hvf hup (by rwa [hvS, hvp]) (by rwa [hvS])

/-! ### The merge loop (R170 to R172) -/

theorem Growing.loopStep (h : Growing s u.params.nsym (queueRefs u) inner u) (hf : u.tbFsm = .bLoop) (hp : u.pqFsm = .pIdle)
    (ht : tick u = .next t) : Building s t := by
  have hstep := builderStep_of_tick hp (by simp [hf]) ht
  simp only [builderStep, hf] at hstep
  have move : ∀ f, Growing s u.params.nsym (queueRefs u) inner (setTbFsm f u) := fun f => h.registers (by simp) rfl rfl rfl rfl
  rcases loopStep_next hstep with ⟨hlt, rfl⟩ | ⟨hle, rfl⟩
  · exact .takeFirst inner rfl hp hlt (move _)
  · exact .done inner rfl hp hle (move _)

theorem Growing.takeFirst (h : Growing s u.params.nsym (queueRefs u) inner u) (hf : u.tbFsm = .bExtU) (hp : u.pqFsm = .pIdle)
    (hsize : 2 ≤ u.pqSize.toNat) (ht : tick u = .next t) : Building s t := by
  have hstep := builderStep_of_tick hp (by simp [hf]) ht
  simp only [builderStep, hf] at hstep
  rcases extractOrFault_next hstep with ⟨h0, -⟩ | ⟨-, hext⟩
  · simp [h0] at hsize
  · obtain ⟨hg, hs⟩ := Growing.extractStart (live := []) h hp hext
    have hframe := extractStart_frame hext
    obtain ⟨x, w, -, -, rfl⟩ := extractStart_eq_next.1 hext
    exact .takingFirst inner (hframe.tbFsm_eq.trans hf) rfl (by omega) (hg.params.trans h.params.symm ▸ hg)

theorem Growing.takingFirst (h : Growing s u.params.nsym (u.pq.XN :: queueRefs u) inner u) (hf : u.tbFsm = .bExtU)
    (hp : u.pqFsm = .pDown) (hsize : 1 ≤ u.pqSize.toNat) (ht : tick u = .next t) : Building s t := by
  obtain ⟨v, hm, hend⟩ := tick_down h.sound hp ht
  have hv : Growing s v.params.nsym (v.pq.XN :: queueRefs v) inner v := by
    have hv := h.moves hm (hm.refs.symm.cons _)
    rwa [← hm.taken, h.params.trans hv.params.symm] at hv
  have hvf : v.tbFsm = .bExtU := hm.frame.tbFsm_eq.trans hf
  have hvs : 1 ≤ v.pqSize.toNat := by
    rw [← hv.sound.queue.length_refs, hm.refs.length_eq, h.sound.queue.length_refs]
    exact hsize
  rcases hend with ⟨hidle, hend⟩ | ⟨hdown, rfl⟩
  · simp only [afterExtract, hvf] at hend
    cases hend
    exact .takeSecond inner rfl hidle hvs (hv.registers (by simp) (by simp) rfl rfl rfl)
  · exact .takingFirst inner hvf hdown hvs hv

theorem Growing.takeSecond (h : Growing s u.params.nsym (u.tb.U :: queueRefs u) inner u) (hf : u.tbFsm = .bExtV)
    (hp : u.pqFsm = .pIdle) (hsize : 1 ≤ u.pqSize.toNat) (ht : tick u = .next t) : Building s t := by
  have hstep := builderStep_of_tick hp (by simp [hf]) ht
  simp only [builderStep, hf] at hstep
  rcases extractOrFault_next hstep with ⟨h0, -⟩ | ⟨-, hext⟩
  · simp [h0] at hsize
  · obtain ⟨hg, -⟩ := Growing.extractStart (live := [u.tb.U]) h hp hext
    have hframe := extractStart_frame hext
    have hU : t.tb.U = u.tb.U := congrArg TbRegs.U hframe.tb_eq
    have hg : Growing s t.params.nsym (t.tb.U :: t.pq.XN :: queueRefs t) inner t := by
      rw [hU, hg.params, ← h.params]
      exact hg
    obtain ⟨x, w, -, -, rfl⟩ := extractStart_eq_next.1 hext
    exact .takingSecond inner (hframe.tbFsm_eq.trans hf) rfl hg

theorem Growing.takingSecond (h : Growing s u.params.nsym (u.tb.U :: u.pq.XN :: queueRefs u) inner u) (hf : u.tbFsm = .bExtV)
    (hp : u.pqFsm = .pDown) (ht : tick u = .next t) : Building s t := by
  obtain ⟨v, hm, hend⟩ := tick_down h.sound hp ht
  have hv : Growing s v.params.nsym (v.tb.U :: v.pq.XN :: queueRefs v) inner v := by
    have hv := h.moves hm ((hm.refs.symm.cons _).cons _)
    rwa [← hm.taken, ← hm.frame.tb_eq, h.params.trans hv.params.symm] at hv
  have hvf : v.tbFsm = .bExtV := hm.frame.tbFsm_eq.trans hf
  rcases hend with ⟨hidle, hend⟩ | ⟨hdown, rfl⟩
  · simp only [afterExtract, hvf] at hend
    cases hend
    exact .merge inner rfl hidle (hv.registers (by simp) (by simp) rfl rfl rfl)
  · exact .takingSecond inner hvf hdown hv

theorem Growing.mergeStep (h : Growing s u.params.nsym (u.tb.U :: u.tb.V :: queueRefs u) inner u) (hf : u.tbFsm = .bMerge)
    (hp : u.pqFsm = .pIdle) (ht : tick u = .next t) : Building s t := by
  have hstep := builderStep_of_tick hp (by simp [hf]) ht
  simp only [builderStep, hf] at hstep
  obtain ⟨nu, nv, a, hu, hv, ha, rfl⟩ := mergeStep_next hstep
  obtain ⟨hroom, rfl⟩ := allocNode_eq_next.1 ha
  have hw : Growing s u.params.nsym (u.tb.U :: u.tb.V :: queueRefs u) inner (setW (u.nodeCnt.setWidth 9) u) :=
    h.registers (by simp) (by simp) rfl rfl rfl
  exact .insert _ rfl hp ((hw.addInner hroom hw.fits hu hv).registers (by simp) rfl rfl rfl rfl)

theorem Growing.insertMerged (h : Growing s u.params.nsym (u.tb.W :: queueRefs u) inner u) (hf : u.tbFsm = .bInsW)
    (hp : u.pqFsm = .pIdle) (ht : tick u = .next t) : Building s t := by
  have hstep := builderStep_of_tick hp (by simp [hf]) ht
  simp only [builderStep, hf] at hstep
  have hsize : 1 + u.pqSize.toNat + inner.length = (occurring u).length := Growing.queue_size (live := [u.tb.W]) h
  rcases insertMerged_next hstep with ⟨hfull, -⟩ | ⟨hroom, hins⟩
  · exact absurd hfull (h.not_full (by omega))
  · have hg := h.insertStart hp hroom hins
    have hframe := insertStart_frame hins
    obtain ⟨-, rfl⟩ := insertStart_eq_next.1 hins
    exact .insertingMerged inner (hframe.tbFsm_eq.trans hf) rfl (hg.params.trans h.params.symm ▸ hg)

theorem Growing.insertingMerged (h : Growing s u.params.nsym (queueRefs u) inner u) (hf : u.tbFsm = .bInsW)
    (hp : u.pqFsm = .pUp) (ht : tick u = .next t) : Building s t := by
  obtain ⟨v, hm, hend⟩ := tick_up h.sound hp ht
  have hv : Growing s v.params.nsym (queueRefs v) inner v := by
    have hv := h.moves hm hm.refs.symm
    rwa [h.params.trans hv.params.symm] at hv
  have hvf : v.tbFsm = .bInsW := hm.frame.tbFsm_eq.trans hf
  rcases hend with ⟨hidle, hend⟩ | ⟨hup, rfl⟩
  · simp only [afterInsert, hvf] at hend
    cases hend
    exact .loop inner rfl hidle (hv.registers (by simp) rfl rfl rfl rfl)
  · exact .insertingMerged inner hvf hup hv

/-! ### The end (R173) -/

theorem Growing.doneStep (h : Growing s u.params.nsym (queueRefs u) inner u) (hf : u.tbFsm = .bDone) (hp : u.pqFsm = .pIdle)
    (hsize : u.pqSize.toNat ≤ 1) (ht : tick u = .next t) : Building s t := by
  have hstep := builderStep_of_tick hp (by simp [hf]) ht
  simp only [builderStep, hf] at hstep
  obtain ⟨r, n, hr, -, rfl⟩ := doneStep_next hstep
  have hrefs : queueRefs u = [r] := by
    have hlen := h.sound.queue.length_refs
    have hlt := h.sound.queue.slot_lt hr
    rw [h.sound.queue.slotAt_eq] at hr
    obtain ⟨a, ha⟩ := List.length_eq_one_iff.1 (hlen.trans (by omega))
    rw [ha] at hr ⊢
    rw [Option.some.inj hr]
  refine .built (unitsIdle_iff.2 ⟨hp, rfl, h.recorderIdle⟩) ⟨h.counts, h.params, ?_, ?_, ⟨inner, ?_⟩, ?_, rfl, h.noCodes⟩
  · obtain ⟨h1, h2, h3, h4, h5, h6, h7⟩ := h.sound
    exact ⟨h1, by simpa using h2, h3.congr rfl rfl rfl rfl rfl, h4.congr rfl rfl rfl, h5.congr rfl rfl rfl, h6, h7⟩
  · exact (h.heapOrdered hp).congr rfl rfl rfl
  · exact (hrefs ▸ h.forest).congr rfl rfl rfl rfl
  · exact h.symbols.trans (congrArg _ (occurring_congr rfl rfl).symm)

/-! ### The run -/

theorem Building.tick (h : Building s u) (hs : Sound s) (hbusy : unitsIdle u = false) (ht : tick u = .next t) : Building s t := by
  cases h with
  | scan hf hk h => exact h.scan hs hf hk ht
  | check hf h => exact h.check hf ht
  | init hf hfits h => exact h.init hs hf hfits ht
  | fail e hf h => exact h.failed hf ht
  | leaves hf hp hk h => exact h.leavesStep hf hp hk ht
  | insertingLeaf hf hp hk h => exact h.insertingLeaf hf hp hk ht
  | loop inner hf hp h => exact h.loopStep hf hp ht
  | takeFirst inner hf hp hsize h => exact h.takeFirst hf hp hsize ht
  | takingFirst inner hf hp hsize h => exact h.takingFirst hf hp hsize ht
  | takeSecond inner hf hp hsize h => exact h.takeSecond hf hp hsize ht
  | takingSecond inner hf hp h => exact h.takingSecond hf hp ht
  | merge inner hf hp h => exact h.mergeStep hf hp ht
  | insert inner hf hp h => exact h.insertMerged hf hp ht
  | insertingMerged inner hf hp h => exact h.insertingMerged hf hp ht
  | done inner hf hp hsize h => exact h.doneStep hf hp hsize ht
  | failed hi => rw [hi] at hbusy; cases hbusy
  | built hi => rw [hi] at hbusy; cases hbusy

/-- BUILD ends with nothing stored changed, when a check of R167 failed, or with the tree. -/
theorem Building.toEnd (hs : Sound s) (hi : unitsIdle s = true) (ht : runToEnd (builderStart s) = .next t) :
    store t = store s ∨ Built s t := by
  obtain ⟨hp, -, hc⟩ := unitsIdle_iff.1 hi
  have begin : Building s (builderStart s) :=
    .scan rfl (Nat.zero_le _) ⟨by simp [builderStart], by simpa [builderStart] using hp, by simpa [builderStart] using hc, rfl, rfl⟩
  have hend := runUnits_ends_idle ht
  have hb : Building s t := runUnits_induct (fun v w hv hbusy hw => hv.tick hs hbusy hw) begin ht
  obtain ⟨-, htb, -⟩ := unitsIdle_iff.1 hend
  cases hb with
  | failed _ h => exact .inl h
  | built _ h => exact .inr h
  | scan hf | check hf | init hf | fail _ hf | leaves hf | insertingLeaf hf | loop _ hf | takeFirst _ hf | takingFirst _ hf
  | takeSecond _ hf | takingSecond _ hf | merge _ hf | insert _ hf | insertingMerged _ hf | done _ hf =>
    rw [hf] at htb
    cases htb

end Sys2Proof.Machine
end

section
/-!
PROOFS. What a command and a step can do, and that every step keeps the invariants of 10_state.md R43.
-/

namespace Sys2Proof.Machine

variable {s t u : State} {x : NodeRef} {n : NodeRec} {i : Instr}

/-! ### ERRFLAGS -/

/-- ERRFLAGS stays, or gains the bit of one error (10_state.md R34). -/
def FlagsGrow (s t : State) : Prop := t.errflags = s.errflags ∨ ∃ e, t.errflags = setErrBit s.errflags e

theorem builderStep_flags (h : builderStep s = .next t) : FlagsGrow s t := by
  unfold builderStep at h
  split at h
  · cases h; exact .inl rfl
  · rcases scanStep_next h with ⟨-, -, rfl⟩ | ⟨-, -, rfl⟩ | ⟨-, rfl⟩ <;> exact .inl rfl
  · rcases checkStep_next h with ⟨-, rfl⟩ | ⟨-, -, rfl⟩ | ⟨-, -, rfl⟩ <;> exact .inl rfl
  · cases h; exact .inl (by simp)
  · rcases leavesStep_next h with ⟨-, -, rfl⟩ | ⟨-, -, -, rfl⟩ | ⟨-, -, -, u, hu, ht⟩ | ⟨-, rfl⟩
    · exact .inl rfl
    · exact .inl rfl
    · obtain ⟨-, rfl⟩ := allocNode_eq_next.1 hu
      exact .inl (insertStart_frame ht).errflags_eq
    · exact .inl rfl
  · rcases loopStep_next h with ⟨-, rfl⟩ | ⟨-, rfl⟩ <;> exact .inl rfl
  · rcases extractOrFault_next h with ⟨-, rfl⟩ | ⟨-, h⟩
    · exact .inl rfl
    · exact .inl (extractStart_frame h).errflags_eq
  · rcases extractOrFault_next h with ⟨-, rfl⟩ | ⟨-, h⟩
    · exact .inl rfl
    · exact .inl (extractStart_frame h).errflags_eq
  · obtain ⟨u, v, a, -, -, ha, rfl⟩ := mergeStep_next h
    obtain ⟨-, rfl⟩ := allocNode_eq_next.1 ha
    exact .inl (by simp)
  · rcases insertMerged_next h with ⟨-, rfl⟩ | ⟨-, h⟩
    · exact .inl rfl
    · exact .inl (insertStart_frame h).errflags_eq
  · obtain ⟨r, n, -, -, rfl⟩ := doneStep_next h
    exact .inl (by simp)
  · cases h; exact .inr ⟨_, rfl⟩
  · cases h; exact .inr ⟨_, rfl⟩

theorem recorderStep_flags (h : recorderStep s = .next t) : t.errflags = s.errflags := by
  unfold recorderStep at h
  split at h
  · cases h; rfl
  · obtain ⟨n, -, ⟨-, u, hu, rfl⟩ | ⟨-, rfl⟩⟩ := recorderStart_next h
    · obtain ⟨-, rfl⟩ := writeCw_eq_next.1 hu
      simp [freshTable]
    · simp [freshTable]
  · obtain ⟨n, -, ⟨-, u, hu, rfl⟩ | ⟨-, u, hu, rfl⟩⟩ := descendStep_next h
    · obtain ⟨-, rfl⟩ := writeCw_eq_next.1 hu
      simp
    · obtain ⟨-, rfl⟩ := writeTstk_eq_next.1 hu
      simp
  · rcases ascendStep_next h with ⟨-, rfl⟩ | ⟨-, -, x, n, -, -, rfl⟩ | ⟨-, -, rfl⟩ <;> simp
  · cases h; simp

theorem tick_flags (h : tick s = .next t) : FlagsGrow s t := by
  rcases tick_next h with ⟨-, u, hu, h⟩ | ⟨-, u, hu, h⟩ | ⟨-, -, h⟩ | ⟨-, -, h⟩
  · have hf := (upStep_frame hu).1.errflags_eq
    rcases whenPqIdle_eq_next.1 h with ⟨-, h⟩ | ⟨-, rfl⟩
    · rcases afterInsert_next h with ⟨-, rfl⟩ | ⟨-, rfl⟩ | ⟨-, rfl⟩ | ⟨-, -, -, rfl⟩ <;> exact .inl hf
    · exact .inl hf
  · have hf := (downStep_frame hu).1.errflags_eq
    rcases whenPqIdle_eq_next.1 h with ⟨-, h⟩ | ⟨-, rfl⟩
    · rcases afterExtract_next h with ⟨-, n, -, rfl⟩ | ⟨-, rfl⟩ | ⟨-, rfl⟩ | ⟨-, -, -, rfl⟩ <;> exact .inl hf
    · exact .inl hf
  · exact .inl (recorderStep_flags h)
  · exact builderStep_flags h

/-- Bit 0 of ERRFLAGS belongs to no error. -/
theorem setErrBit_zero (f : ErrBits) (e : ErrKind) : (setErrBit f e).getLsbD 0 = f.getLsbD 0 := by
  rw [setErrBit_bit, decide_eq_false (by cases e <;> decide), Bool.or_false]

theorem FlagsGrow.bitZero (h : FlagsGrow s t) : t.errflags.getLsbD 0 = s.errflags.getLsbD 0 := by
  rcases h with h | ⟨e, h⟩
  · rw [h]
  · rw [h, setErrBit_zero]

theorem runToEnd_bitZero (h : runToEnd s = .next t) : t.errflags.getLsbD 0 = s.errflags.getLsbD 0 :=
  runUnits_induct (P := fun u => u.errflags.getLsbD 0 = s.errflags.getLsbD 0)
    (fun _ _ hu _ ht => (tick_flags ht).bitZero.trans hu) rfl h

/-! ### What a command can do -/

/-- What a command can do: raise an error, answer and change nothing, answer after one of the writes of CLEAR, FT_WR, LEAF and PQ_INIT, or
run the queue, the builder or the recorder to its end. -/
inductive Effect (s : State) : State → Prop
  | raised (e : ErrKind) : Effect s (raise e s)
  | answered (a : BitVec 24) (b : BitVec 32) : Effect s (respondOk a b s)
  | cleared {t : State} : execClear s = .next t → Effect s t
  | counted (a : BitVec 24) (b : BitVec 32) (sym : Symbol) (f : Key) : sym.toNat < s.params.nsym → f.toNat ≤ s.params.kmax →
      Effect s (respondOk a b (writeFt s sym f))
  | allocated (a : BitVec 24) (b : BitVec 32) (sym : Symbol) (f : Key) : sym.toNat < s.params.nsym → f.toNat ≤ s.params.kmax →
      s.nodeCnt.toNat < s.params.nodeMax → Effect s (respondOk a b (putNode s (leafRec s.params sym f)))
  | queueMade (a : BitVec 24) (b : BitVec 32) (cap : Count9) : cap.toNat ≤ s.params.nsym →
      Effect s (respondOk a b (createQueue s cap))
  | inserted {u t : State} (x : NodeRef) : x.toNat < s.nodeCnt.toNat → s.pqSize ≠ s.pqCap → insertStart x s = .next u →
      runToEnd u = .next t → Effect s t
  | extracted {u t : State} : extractStart s = .next u → runToEnd u = .next t → Effect s t
  | built {t : State} : runToEnd (builderStart s) = .next t → Effect s t
  | coded {t : State} : s.treeValid = true → runToEnd (setCrFsm .gStart s) = .next t → Effect s t

theorem symbolOf_lt {a : Nat} {sym : Symbol} (h : symbolOf s a = some sym) : sym.toNat < s.params.nsym := by
  rw [symbolOf, Option.ite_none_right_eq_some] at h
  obtain ⟨hlt, ⟨⟩⟩ := h
  exact (Nat.mod_le ..).trans_lt hlt

theorem freqOf_le {b : Nat} {f : Key} (h : freqOf s b = some f) : f.toNat ≤ s.params.kmax := by
  rw [freqOf, Option.ite_none_right_eq_some] at h
  obtain ⟨hle, ⟨⟩⟩ := h
  exact (Nat.mod_le ..).trans hle

theorem capacityOf_le {a : Nat} {cap : Count9} (h : capacityOf s a = some cap) : cap.toNat ≤ s.params.nsym := by
  rw [capacityOf, Option.ite_none_right_eq_some] at h
  obtain ⟨hle, ⟨⟩⟩ := h
  exact (Nat.mod_le ..).trans hle

theorem nodeRefOf_lt {a : Nat} (h : nodeRefOf s a = some x) : x.toNat < s.nodeCnt.toNat := by
  rw [nodeRefOf, Option.ite_none_right_eq_some] at h
  obtain ⟨hlt, ⟨⟩⟩ := h
  exact (Nat.mod_le ..).trans_lt hlt

/-- The halt check raises its error or goes on. -/
theorem effect_unlessHalted {k : Result} (h : unlessHalted s k = .next t) (hk : k = .next t → Effect s t) : Effect s t := by
  rcases unlessHalted_eq_next.1 h with ⟨-, rfl⟩ | ⟨-, h⟩
  · exact .raised _
  · exact hk h

/-- An operand check raises its error or goes on. -/
theorem effect_withOperand {α : Type} {o : Option α} {k : α → Result} (h : withOperand o s k = .next t)
    (hk : ∀ v, o = some v → k v = .next t → Effect s t) : Effect s t := by
  rcases withOperand_eq_next.1 h with ⟨-, rfl⟩ | ⟨v, hv, h⟩
  · exact .raised _
  · exact hk v hv h

theorem effect_execCsrRd {a : Nat} (h : execCsrRd a s = .next t) : Effect s t :=
  effect_withOperand h fun c _ h => by cases h; exact .answered _ _

theorem effect_execFtWr {a b : Nat} (h : execFtWr a b s = .next t) : Effect s t :=
  effect_unlessHalted h fun h => effect_withOperand h fun sym hsym h => effect_withOperand h fun f hf h => by
    cases h; exact .counted _ _ sym f (symbolOf_lt hsym) (freqOf_le hf)

theorem effect_execFtRd {a : Nat} (h : execFtRd a s = .next t) : Effect s t :=
  effect_unlessHalted h fun h => effect_withOperand h fun sym _ h => by cases h; exact .answered _ _

theorem effect_execLeaf {a b : Nat} (h : execLeaf a b s = .next t) : Effect s t :=
  effect_unlessHalted h fun h => effect_withOperand h fun sym hsym h => effect_withOperand h fun f hf h => by
    split at h
    · cases h; exact .raised _
    · obtain ⟨u, hu, h⟩ := andThen_eq_next.1 h
      obtain ⟨hroom, rfl⟩ := allocNode_eq_next.1 hu
      cases h
      exact .allocated _ _ sym f (symbolOf_lt hsym) (freqOf_le hf) hroom

theorem effect_execNodeRd {a : Nat} (h : execNodeRd a s = .next t) : Effect s t :=
  effect_unlessHalted h fun h => effect_withOperand h fun i _ h => by
    obtain ⟨n, -, h⟩ := readNode_eq_next.1 h
    cases h; exact .answered _ _

theorem effect_execNodeCh {a : Nat} (h : execNodeCh a s = .next t) : Effect s t :=
  effect_unlessHalted h fun h => effect_withOperand h fun i _ h => by
    obtain ⟨n, -, h⟩ := readNode_eq_next.1 h
    cases h; exact .answered _ _

theorem effect_execPqInit {a : Nat} (h : execPqInit a s = .next t) : Effect s t :=
  effect_unlessHalted h fun h => effect_withOperand h fun cap hcap h => by
    cases h; exact .queueMade _ _ cap (capacityOf_le hcap)

theorem effect_execPqIns {a : Nat} (h : execPqIns a s = .next t) : Effect s t :=
  effect_unlessHalted h fun h => effect_withOperand h fun x hx h => by
    split at h
    · cases h; exact .raised _
    · next hroom =>
      obtain ⟨u, hu, h⟩ := andThen_eq_next.1 h
      exact .inserted x (nodeRefOf_lt hx) hroom hu h

theorem effect_execPqExt (h : execPqExt s = .next t) : Effect s t :=
  effect_unlessHalted h fun h => by
    split at h
    · cases h; exact .raised _
    · obtain ⟨u, hu, h⟩ := andThen_eq_next.1 h
      exact .extracted hu h

theorem effect_execHeapRd {a : Nat} (h : execHeapRd a s = .next t) : Effect s t :=
  effect_unlessHalted h fun h => effect_withOperand h fun k _ h => by
    obtain ⟨x, -, h⟩ := readSlot_eq_next.1 h
    obtain ⟨f, -, h⟩ := readKey_eq_next.1 h
    cases h; exact .answered _ _

theorem effect_execBuild (h : execBuild s = .next t) : Effect s t := effect_unlessHalted h .built

theorem effect_execGenCode (h : execGenCode s = .next t) : Effect s t :=
  effect_unlessHalted h fun h => by
    split at h
    · next hv => exact .coded hv h
    · cases h; exact .raised _

theorem effect_execCwRd {a b : Nat} (h : execCwRd a b s = .next t) : Effect s t :=
  effect_unlessHalted h fun h => effect_withOperand h fun sym _ h => effect_withOperand h fun k _ h => by
    split at h <;> cases h <;> exact .answered _ _

theorem exec_effect (h : exec i s = .next t) : Effect s t := by
  cases i with
  | clear => exact .cleared h
  | csrRd a => exact effect_execCsrRd h
  | ftWr a b => exact effect_execFtWr h
  | ftRd a => exact effect_execFtRd h
  | leaf a b => exact effect_execLeaf h
  | nodeRd a => exact effect_execNodeRd h
  | nodeCh a => exact effect_execNodeCh h
  | pqInit a => exact effect_execPqInit h
  | pqIns a => exact effect_execPqIns h
  | pqExt => exact effect_execPqExt h
  | heapRd a => exact effect_execHeapRd h
  | build => exact effect_execBuild h
  | genCode => exact effect_execGenCode h
  | cwRd a b => exact effect_execCwRd h

theorem runWord_effect {w : Word64} (h : runWord w s = .next t) : Effect s t := by
  unfold runWord at h
  split at h
  · exact exec_effect h
  · cases h; exact .raised _

/-! ### What a command keeps -/

/-- CLEAR leaves what reset leaves (10_state.md R42). -/
theorem store_execClear (h : execClear s = .next t) :
    store t = store (State.resetAt s.params []) ∧ unitsIdle t = unitsIdle s ∧ t.errflags = 0 := by
  cases h
  simp [store, State.resetAt]

theorem sound_resetAt {p : Params} (hp : p.legal = true) (inputs : List HostPins) : Sound (State.resetAt p inputs) where
  legal := hp
  canonical := wf_resetAt p inputs
  queue := queueOk_iff.2 ⟨le_rfl, Nat.zero_le _, rfl, nofun⟩
  arena := ⟨Nat.zero_le _, rfl, nofun, nofun⟩
  widths := ⟨nofun, nofun, nofun, nofun⟩
  stackEmpty := rfl
  notFatal := rfl

theorem heapOrdered_of_empty (h : s.pqSize = 0) : HeapOrdered s := fun k hk => by simp [h] at hk

theorem treeOk_of_noTree (hv : s.treeValid = false) (hr : s.root = 0) (hl : s.nleaf = 0) : TreeOk s :=
  ⟨fun _ => ⟨hr, hl⟩, fun h => by rw [hv] at h; cases h⟩

theorem codesOk_of_empty (hr : s.cwReady = false) (hc : s.cw = []) : CodesOk s := by
  have absurd_ready : s.cwReady ≠ true := by simp [hr]
  exact ⟨fun _ => hc, fun h => absurd h absurd_ready, fun h => absurd h absurd_ready, by simp [hc]⟩

theorem Sound.writeFt (hs : Sound s) {sym : Symbol} {f : Key} (hsym : sym.toNat < s.params.nsym) (hf : f.toNat ≤ s.params.kmax) :
    Sound (writeFt s sym f) := by
  refine ⟨hs.legal, wf_writeFt sym f hsym hs.canonical, hs.queue.congr rfl rfl rfl rfl rfl, hs.arena.congr rfl rfl rfl,
    ⟨fun e he => ?_, hs.widths.symbols, hs.widths.freqs, hs.widths.children⟩, hs.stackEmpty, hs.notFatal⟩
  rw [writeFt_ft] at he
  split at he
  · exact hs.widths.counts e (mem_of_mem_arrErase he)
  · rcases mem_arrSet he with rfl | he
    · exact hf
    · exact hs.widths.counts e he

theorem newRecOk_leafRec {sym : Symbol} {f : Key} (hsym : sym.toNat < s.params.nsym) (hf : f.toNat ≤ s.params.kmax) :
    NewRecOk s (leafRec s.params sym f) := ⟨fun _ => ⟨rfl, rfl⟩, nofun, hsym, hf⟩

theorem Sound.createQueue (hs : Sound s) {cap : Count9} (hcap : cap.toNat ≤ s.params.nsym) : Sound (createQueue s cap) :=
  ⟨hs.legal, wf_createQueue cap hs.canonical, queueOk_iff.2 ⟨Nat.zero_le _, hcap, rfl, nofun⟩, hs.arena.congr rfl rfl rfl,
    hs.widths.congr rfl rfl rfl, hs.stackEmpty, hs.notFatal⟩

/-- PQ_INS has put the new reference in the last slot. -/
theorem QueueRun.insert (hs : Sound s) (hi : unitsIdle s = true) (hx : x.toNat < s.nodeCnt.toNat) (hroom : s.pqSize ≠ s.pqCap)
    (h : insertStart x s = .next u) : QueueRun s u :=
  .begin hi (insertStart_frame h) (insertStart_sound hs hroom hx h) fun ho => insertStart_shape hs ho h

/-- PQ_EXT has taken the reference out of slot 0. -/
theorem QueueRun.extract (hs : Sound s) (hi : unitsIdle s = true) (h : extractStart s = .next u) : QueueRun s u :=
  .begin hi (extractStart_frame h) (extractStart_sound hs h) fun ho => extractStart_shape hs ho h

theorem TreeOk.of_codes (h : TreeOk s) (hf : storeButCodes t = storeButCodes s) : TreeOk t :=
  h.congr (field_of_view _ hf fun _ => rfl) (field_of_view _ hf fun _ => rfl) (field_of_view _ hf fun _ => rfl)
    (field_of_view _ hf fun _ => rfl) (field_of_view _ hf fun _ => rfl)

theorem HeapOrdered.of_codes (h : HeapOrdered s) (hf : storeButCodes t = storeButCodes s) : HeapOrdered t :=
  h.congr (field_of_view _ hf fun _ => rfl) (field_of_view _ hf fun _ => rfl) (field_of_view _ hf fun _ => rfl)

theorem Built.treeOk (h : Built s t) : TreeOk t := by
  obtain ⟨inner, hforest⟩ := h.forest
  refine ⟨fun hv => ?_, fun _ => hforest.treeShape h.sound.arena h.sound.legal h.leaves⟩
  rw [h.valid] at hv
  cases hv

theorem Effect.bitZero (h : Effect s t) (hz : s.errflags.getLsbD 0 = false) : t.errflags.getLsbD 0 = false := by
  cases h with
  | raised e => exact (setErrBit_zero _ e).trans hz
  | answered | counted | allocated | queueMade => exact hz
  | cleared h => simp [(store_execClear h).2.2]
  | inserted x _ _ hu h => rw [runToEnd_bitZero h, (insertStart_frame hu).errflags_eq, hz]
  | extracted hu h => rw [runToEnd_bitZero h, (extractStart_frame hu).errflags_eq, hz]
  | built h => rw [runToEnd_bitZero h, ← hz]; rfl
  | coded _ h => rw [runToEnd_bitZero h, ← hz]; rfl

section
variable (h : Effect s t) (hs : Sound s) (hi : unitsIdle s = true)
include h hi

theorem Effect.idle : unitsIdle t = true := by
  cases h with
  | raised | answered | counted | allocated | queueMade => exact hi
  | cleared h => exact (store_execClear h).2.1.trans hi
  | inserted _ _ _ _ h | extracted _ h | built h | coded _ h => exact runUnits_ends_idle h

include hs

theorem Effect.sound : Sound t := by
  cases h with
  | raised e => exact Sound.of_store (store_raise e s) hs
  | answered a b => exact Sound.of_store (store_respondOk a b s) hs
  | cleared h => exact Sound.of_store (store_execClear h).1 (sound_resetAt hs.legal [])
  | counted a b sym f hsym hf => exact Sound.of_store (store_respondOk a b _) (hs.writeFt hsym hf)
  | allocated a b sym f hsym hf hroom => exact Sound.of_store (store_respondOk a b _) (hs.putNode hroom (newRecOk_leafRec hsym hf))
  | queueMade a b cap hcap => exact Sound.of_store (store_respondOk a b _) (hs.createQueue hcap)
  | inserted x hx hroom hu h => exact ((QueueRun.insert hs hi hx hroom hu).toEnd h).2.1
  | extracted hu h => exact ((QueueRun.extract hs hi hu).toEnd h).2.1
  | built h =>
    rcases Building.toEnd hs hi h with h | h
    · exact Sound.of_store h hs
    · exact h.sound
  | coded _ h => exact (RecorderRun.toEnd hs hi h).1

theorem Effect.heapOrdered (ho : HeapOrdered s) : HeapOrdered t := by
  cases h with
  | raised e => exact HeapOrdered.of_store (store_raise e s) ho
  | answered a b => exact HeapOrdered.of_store (store_respondOk a b s) ho
  | cleared h => exact HeapOrdered.of_store (store_execClear h).1 (heapOrdered_of_empty rfl)
  | counted => exact ho.congr rfl rfl rfl
  | allocated a b sym f =>
    exact HeapOrdered.of_store (store_respondOk a b _) (ho.putNode hs.queue _)
  | queueMade a b cap => exact heapOrdered_of_empty rfl
  | inserted x hx hroom hu h => exact ((QueueRun.insert hs hi hx hroom hu).toEnd h).2.2 ho
  | extracted hu h => exact ((QueueRun.extract hs hi hu).toEnd h).2.2 ho
  | built h =>
    rcases Building.toEnd hs hi h with h | h
    · exact HeapOrdered.of_store h ho
    · exact h.order
  | coded _ h => exact ho.of_codes (RecorderRun.toEnd hs hi h).2.1

theorem Effect.treeOk (ht : TreeOk s) : TreeOk t := by
  cases h with
  | raised e => exact TreeOk.of_store (store_raise e s) ht
  | answered a b => exact TreeOk.of_store (store_respondOk a b s) ht
  | cleared h => exact TreeOk.of_store (store_execClear h).1 (treeOk_of_noTree rfl rfl rfl)
  | counted => exact ht.congr rfl rfl rfl rfl rfl
  | allocated a b sym f _ _ hroom => exact TreeOk.of_store (store_respondOk a b _) (ht.putNode_leaf hs hroom rfl)
  | queueMade => exact ht.congr rfl rfl rfl rfl rfl
  | inserted x hx hroom hu h => exact TreeOk.of_queue ((QueueRun.insert hs hi hx hroom hu).toEnd h).1 ht
  | extracted hu h => exact TreeOk.of_queue ((QueueRun.extract hs hi hu).toEnd h).1 ht
  | built h =>
    rcases Building.toEnd hs hi h with h | h
    · exact TreeOk.of_store h ht
    · exact h.treeOk
  | coded _ h => exact ht.of_codes (RecorderRun.toEnd hs hi h).2.1

theorem Effect.codesOk (ht : TreeOk s) (hc : CodesOk s) : CodesOk t := by
  cases h with
  | raised e => exact CodesOk.of_store (store_raise e s) hc
  | answered a b => exact CodesOk.of_store (store_respondOk a b s) hc
  | cleared h => exact CodesOk.of_store (store_execClear h).1 (codesOk_of_empty rfl rfl)
  | counted => exact hc.congr rfl rfl rfl rfl rfl rfl
  | allocated a b sym f => exact CodesOk.of_store (store_respondOk a b _) (hc.putNode ht _)
  | queueMade => exact hc.congr rfl rfl rfl rfl rfl rfl
  | inserted x hx hroom hu h => exact CodesOk.of_queue ((QueueRun.insert hs hi hx hroom hu).toEnd h).1 hc
  | extracted hu h => exact CodesOk.of_queue ((QueueRun.extract hs hi hu).toEnd h).1 hc
  | built h =>
    rcases Building.toEnd hs hi h with h | h
    · exact CodesOk.of_store h hc
    · exact codesOk_of_empty h.noCodes.1 h.noCodes.2
  | coded hv h =>
    obtain ⟨-, hf, hcoded⟩ := RecorderRun.toEnd hs hi h
    obtain ⟨hcoded, hr⟩ := hcoded (ht.tree hv)
    exact hcoded.codesOk hf hr hv

end

/-! ### Every step keeps the invariants -/

theorem blockInv_resetAt {p : Params} (hp : p.legal = true) (inputs : List HostPins) : BlockInv (State.resetAt p inputs) where
  core := (sound_resetAt hp inputs).core rfl
  order := heapOrdered_of_empty rfl
  tree := treeOk_of_noTree rfl rfl rfl
  codes := codesOk_of_empty rfl rfl
  noBitZero := by simp

/-- A change of the ports alone keeps the invariants. -/
theorem BlockInv.of_store (h : BlockInv s) (hst : store t = store s) (hi : unitsIdle t = unitsIdle s) (hf : t.errflags = s.errflags) :
    BlockInv t where
  core := (Sound.of_store hst h.core.sound).core (hi.trans h.core.idle)
  order := HeapOrdered.of_store hst h.order
  tree := TreeOk.of_store hst h.tree
  codes := CodesOk.of_store hst h.codes
  noBitZero := hf ▸ h.noBitZero

theorem BlockInv.effect (h : BlockInv s) (he : Effect s t) : BlockInv t where
  core := (he.sound h.core.sound h.core.idle).core (he.idle h.core.idle)
  order := he.heapOrdered h.core.sound h.core.idle h.order
  tree := he.treeOk h.core.sound h.core.idle h.tree
  codes := he.codesOk h.core.sound h.core.idle h.tree h.codes
  noBitZero := he.bitZero h.noBitZero

/-- One edge of an idle block: reset, nothing but a change at the ports, or a command (30_encoding.md R90 to R93). -/
theorem portEdge_next {p : HostPins} (hi : unitsIdle s = true) (h : portEdge p s = .next t) :
    t = resetBlock s ∨ t = s ∨ t = { s with rsp := none } ∨ Effect s t := by
  rw [portEdge, if_pos hi] at h
  split at h
  · cases h; exact .inl rfl
  · split at h
    · unfold responseEdge at h
      split at h <;> cases h
      · exact .inr (.inr (.inl rfl))
      · exact .inr (.inl rfl)
    · unfold commandEdge at h
      split at h
      · exact .inr (.inr (.inr (runWord_effect h)))
      · cases h; exact .inr (.inl rfl)

/-- R43: every step keeps the invariants. -/
theorem BlockInv.step (h : BlockInv s) (hstep : step s = .next t) : BlockInv t := by
  have hedge : BlockInv (afterEdge s) := h.of_store rfl rfl rfl
  rcases portEdge_next hedge.core.idle hstep with rfl | rfl | rfl | he
  · exact blockInv_resetAt h.core.legal _
  · exact hedge
  · exact hedge.of_store rfl rfl rfl
  · exact hedge.effect he

/-- Settles O59, by induction on the run: the reset state meets the invariants (`blockInv_resetAt`), they do not speak of the host's
levels, and every step keeps them (`BlockInv.step`). -/
theorem reachableStatesMeetTheInvariants : Obligations.ReachableStatesMeetTheInvariants := by
  intro s h
  induction h with
  | reset inputs hp => exact blockInv_resetAt hp inputs
  | drive pins _ ih => exact ih.of_store rfl rfl rfl
  | step _ hstep ih => exact ih.step hstep

end Sys2Proof.Machine
end

section
/-!
PROOFS. The reset state (10_state.md R42).
-/

namespace Sys2Proof.Machine

/-- CLEAR leads to the reset state, once its response is taken, but for the working registers and the units, which it leaves alone. -/
theorem visible_clear {s t : State} (hi : unitsIdle s = true) (h : exec .clear s = .next t) :
    visible { t with rsp := none } = visible (State.resetAt s.params s.host) := by
  obtain ⟨hp, hb, hc⟩ := unitsIdle_iff.1 hi
  cases h
  simp [visible, State.resetAt, hp, hb, hc]

/-- Settles O20: the reset state field by field, and CLEAR by `visible_clear`. -/
theorem resetLeavesTheTableOfValues : Obligations.ResetLeavesTheTableOfValues := by
  refine ⟨?_, rfl, rfl, fun s t h hi => visible_clear hi h⟩
  rintro p inputs s rfl
  simp [ftAt, nodeAt, slotAt, cwAt, tstkAt, cmdReady, rspValid, unitsIdle]

end Sys2Proof.Machine
end

section
/-!
PROOFS. Decoding and encoding (30_encoding.md R100, R101, R103): which words spell a command, and that each spells one.
-/

namespace Sys2Proof

variable {w : Word64} {o : Opcode} {i : Instr} {f : Format} {op : BitVec 8} {a : BitVec 24} {b : BitVec 32}

/-! ### Decode, line by line (R103) -/

theorem opcodeOf_eq_none_iff : opcodeOf op = none ↔ ∀ o, op ≠ opcodeValue o := by
  constructor
  · rintro h o rfl
    simp at h
  · intro h
    rw [Option.eq_none_iff_forall_ne_some]
    exact fun o ho => h o (opcodeOf_some ho)

theorem unusedZero_iff : unusedZero f a b = true ↔ (f = .Z → a = 0 ∧ b = 0) ∧ (f = .A → b = 0) := by
  cases f <;> simp [unusedZero]

theorem unusedZero_eq_false_iff : unusedZero f a b = false ↔ (f = .Z ∧ (a ≠ 0 ∨ b ≠ 0)) ∨ (f = .A ∧ b ≠ 0) := by
  rw [← Bool.not_eq_true, unusedZero_iff]
  tauto

theorem decode_unknownOpcode (h : ∀ o, opField w ≠ opcodeValue o) : decode w = .error (.unknownOpcode (opField w)) := by
  rw [decode, opcodeOf_eq_none_iff.2 h]

theorem decode_knownOpcode (h : opField w = opcodeValue o) :
    decode w = if unusedZero (opcodeFormat o) (aField w) (bField w) then .ok (instrOf o (aField w).toNat (bField w).toNat)
      else .error (.unusedFieldNotZero o) := by
  rw [decode, h, opcodeOf_value]

theorem decode_unusedField (h : opField w = opcodeValue o) (hu : unusedZero (opcodeFormat o) (aField w) (bField w) = false) :
    decode w = .error (.unusedFieldNotZero o) := by
  simp [decode_knownOpcode h, hu]

theorem decode_ok (h : opField w = opcodeValue o) (hu : unusedZero (opcodeFormat o) (aField w) (bField w) = true) :
    decode w = .ok (instrOf o (aField w).toNat (bField w).toNat) := by
  simp [decode_knownOpcode h, hu]

/-- What a word that decodes looks like. -/
theorem decode_eq_ok_iff :
    decode w = .ok i ↔ ∃ o, opField w = opcodeValue o ∧ unusedZero (opcodeFormat o) (aField w) (bField w) = true ∧
      instrOf o (aField w).toNat (bField w).toNat = i := by
  constructor
  · intro h
    cases hop : opcodeOf (opField w) with
    | none => simp [decode, hop] at h
    | some o =>
      have ho := opcodeOf_some hop
      cases hu : unusedZero (opcodeFormat o) (aField w) (bField w)
      · rw [decode_unusedField ho hu] at h
        cases h
      · rw [decode_ok ho hu] at h
        exact ⟨o, ho, hu, Except.ok.inj h⟩
  · rintro ⟨o, ho, hu, rfl⟩
    exact decode_ok ho hu

/-! ### One word for every command (R103) -/

theorem unusedZero_operands (i : Instr) :
    unusedZero (opcodeFormat i.opcode) (BitVec.ofNat 24 i.operandA) (BitVec.ofNat 32 i.operandB) = true := by
  cases i <;> rfl

/-- Encoding loses nothing of a command whose operands fit their fields. -/
theorem decode_encode (h : i.wellFormed = true) : decode (encode i) = .ok i := by
  obtain ⟨hop, ha, hb⟩ := Laws.FieldsOfWord.all i
  obtain ⟨hfa, hfb⟩ := wellFormed_fits h
  refine decode_eq_ok_iff.2 ⟨i.opcode, hop, ?_, ?_⟩
  · rw [ha, hb]
    exact unusedZero_operands i
  · rw [ha, hb, BitVec.toNat_ofNat, BitVec.toNat_ofNat, Nat.mod_eq_of_lt hfa, Nat.mod_eq_of_lt hfb, instrOf_operands]

@[simp] theorem opcode_instrOf (o : Opcode) (x y : Nat) : (instrOf o x y).opcode = o := by
  cases o <;> rfl

theorem wellFormed_instrOf {x y : Nat} (hx : x < 2 ^ 24) (hy : y < 2 ^ 32) : (instrOf o x y).wellFormed = true := by
  have ha : fitsA x = true := decide_eq_true hx
  have hb : fitsB y = true := decide_eq_true hy
  cases o <;> simp [instrOf, Instr.wellFormed, ha, hb]

/-- A command's word has the fields the command was read from, the unused ones being 0. -/
theorem encode_instrOf (h : unusedZero (opcodeFormat o) a b = true) :
    encode (instrOf o a.toNat b.toNat) = commandWord (opcodeValue o) a b := by
  obtain ⟨hZ, hA⟩ := unusedZero_iff.1 h
  cases o <;> simp_all [opcodeFormat, encode, instrOf, Instr.opcode, Instr.operandA, Instr.operandB]

/-- A word that decodes is the word of the command it decodes to. -/
theorem encode_of_decode (h : decode w = .ok i) : i.wellFormed = true ∧ encode i = w := by
  obtain ⟨o, ho, hu, rfl⟩ := decode_eq_ok_iff.1 h
  refine ⟨wellFormed_instrOf (aField w).isLt (bField w).isLt, ?_⟩
  rw [encode_instrOf hu, ← ho, commandWord_fields]

/-- Settles O3: the rule's lines by `decode_unknownOpcode`, `decode_unusedField` and `decode_ok`, the inverse by `encode_of_decode` and
`decode_encode`. -/
theorem decodeFollowsItsRule : Obligations.DecodeFollowsItsRule :=
  ⟨fun _ h => ⟨_, decode_unknownOpcode h⟩,
    fun _ _ ho hf h => ⟨_, decode_unusedField ho (unusedZero_eq_false_iff.2 (.inl ⟨hf, h⟩))⟩,
    fun _ _ ho hf h => ⟨_, decode_unusedField ho (unusedZero_eq_false_iff.2 (.inr ⟨hf, h⟩))⟩,
    fun _ _ ho hZ hA => decode_ok ho (unusedZero_iff.2 ⟨hZ, hA⟩),
    fun _ _ => encode_of_decode,
    fun i h => ⟨encode i, decode_encode h⟩⟩

end Sys2Proof
end

section
/-!
PROOFS. The opcode map (30_encoding.md R100): a row's mask covers exactly `op` and the fields that its format does not use.
-/

namespace Sys2Proof

variable {w : Word64} {f : Format} {r : OpcodeRow} {o : Opcode} {op op' : BitVec 8} {a a' : BitVec 24} {b b' : BitVec 32}

/-- The bits of `a` that a format does not use. -/
def unusedA : Format → BitVec 24
  | .Z => .allOnes 24
  | .A | .AB => 0

/-- The bits of `b` that a format does not use. -/
def unusedB : Format → BitVec 32
  | .Z | .A => .allOnes 32
  | .AB => 0

theorem unusedZero_iff_mask : unusedZero f a b = true ↔ a &&& unusedA f = 0 ∧ b &&& unusedB f = 0 := by
  cases f <;> simp [unusedZero, unusedA, unusedB, -BitVec.reduceAllOnes]

theorem commandWord_and :
    commandWord op a b &&& commandWord op' a' b' = commandWord (op &&& op') (a &&& a') (b &&& b') := by
  unfold commandWord
  exact BitVec.and_append.trans (congrArg (· ++ (b &&& b')) BitVec.and_append)

theorem commandWord_inj : commandWord op a b = commandWord op' a' b' ↔ op = op' ∧ a = a' ∧ b = b' := by
  refine ⟨fun h => ⟨?_, ?_, ?_⟩, fun ⟨hop, ha, hb⟩ => by rw [hop, ha, hb]⟩
  · simpa only [opField_commandWord] using congrArg opField h
  · simpa only [aField_commandWord] using congrArg aField h
  · simpa only [bField_commandWord] using congrArg bField h

/-- What every row of the opcode map carries. -/
theorem opcodeTable_row : ∀ r ∈ opcodeTable,
    r.mnemonic = opcodeMnemonic r.opcode ∧ r.format = opcodeFormat r.opcode ∧
      r.value = commandWord (opcodeValue r.opcode) 0 0 ∧ r.mask = commandWord (.allOnes 8) (unusedA r.format) (unusedB r.format) := by
  decide

theorem exists_row (o : Opcode) : ∃ r ∈ opcodeTable, r.opcode = o := by
  cases o <;> decide

/-- A word agrees with a row in the bits of the row's mask exactly when its `op` is the row's and its unused fields are 0. -/
theorem mask_eq_value_iff (hr : r ∈ opcodeTable) :
    w &&& r.mask = r.value ↔ opField w = opcodeValue r.opcode ∧ unusedZero (opcodeFormat r.opcode) (aField w) (bField w) = true := by
  obtain ⟨-, hf, hv, hm⟩ := opcodeTable_row r hr
  rw [hv, hm, ← commandWord_fields w, commandWord_and, commandWord_inj, BitVec.and_allOnes, ← unusedZero_iff_mask, hf,
    commandWord_fields]

/-- A word decodes to a command of opcode `o` exactly when its `op` is that of `o` and its unused fields are 0. -/
theorem decode_opcode_iff :
    (∃ i, decode w = .ok i ∧ i.opcode = o) ↔ opField w = opcodeValue o ∧ unusedZero (opcodeFormat o) (aField w) (bField w) = true := by
  constructor
  · rintro ⟨i, hi, rfl⟩
    obtain ⟨o, ho, hu, rfl⟩ := decode_eq_ok_iff.1 hi
    rw [opcode_instrOf]
    exact ⟨ho, hu⟩
  · rintro ⟨ho, hu⟩
    exact ⟨_, decode_ok ho hu, opcode_instrOf ..⟩

theorem opField_value (hr : r ∈ opcodeTable) : opField r.value = opcodeValue r.opcode := by
  obtain ⟨-, -, hv, -⟩ := opcodeTable_row r hr
  rw [hv, opField_commandWord]

/-- Settles O4: both sides of the first clause say that `op` is the row's and the unused fields are 0 (`mask_eq_value_iff`,
`decode_opcode_iff`). -/
theorem wordSpellsItsTableRow : Obligations.WordSpellsItsTableRow := by
  refine ⟨fun r hr w => (mask_eq_value_iff hr).trans decode_opcode_iff.symm, fun r hr => ?_, exists_row, fun w h i hi => ?_⟩
  · obtain ⟨hname, hformat, -, -⟩ := opcodeTable_row r hr
    exact ⟨hname, hformat, opField_value hr⟩
  · obtain ⟨o, ho, -, -⟩ := decode_eq_ok_iff.1 hi
    obtain ⟨r, hr, rfl⟩ := exists_row o
    exact h r hr (ho.trans (opField_value hr).symm)

end Sys2Proof
end

section
/-!
PROOFS. The response of every command (30_encoding.md R95, 60_exceptions.md R221): OK, or an error that the matrix gives the command.
-/

namespace Sys2Proof.Machine

open Sys2Proof.Summary

variable {s t : State} {i : Instr} {e : ErrKind} {E : ErrKind → Prop}

/-! ### Responses -/

/-- The response waiting is an OK response. -/
def AnswersOk (t : State) : Prop := ∃ a b, t.rsp = some (okWord a b)

/-- The response waiting is OK or an error that `E` allows. -/
def Answers (E : ErrKind → Prop) (t : State) : Prop := AnswersOk t ∨ ∃ e, t.rsp = some (errorWord e) ∧ E e

theorem errorStatus_ne_zero (e : ErrKind) : BitVec.ofNat 8 (errCode e) ≠ 0 := by cases e <;> decide

theorem errorWord_injective {e f : ErrKind} (h : errorWord e = errorWord f) : e = f := by
  obtain ⟨hst, -, -⟩ := responseWord_inj h
  have hlt : ∀ e, errCode e < 2 ^ 8 := fun e => by cases e <;> decide
  have hcode := congrArg BitVec.toNat hst
  rw [BitVec.toNat_ofNat, BitVec.toNat_ofNat, Nat.mod_eq_of_lt (hlt e), Nat.mod_eq_of_lt (hlt f)] at hcode
  exact errCode_injective hcode

theorem okWord_ne_errorWord (a : BitVec 24) (b : BitVec 32) (e : ErrKind) : okWord a b ≠ errorWord e := fun h =>
  errorStatus_ne_zero e (responseWord_inj h).1.symm

/-- An error answer is one of the allowed ones. -/
theorem Answers.allowed (h : Answers E t) (he : t.rsp = some (errorWord e)) : E e := by
  rcases h with ⟨a, b, hok⟩ | ⟨f, hf, hE⟩
  · exact absurd (Option.some.inj (hok.symm.trans he)) (okWord_ne_errorWord a b e)
  · rwa [← errorWord_injective (Option.some.inj (hf.symm.trans he))]

theorem answersOk_respondOk (a : BitVec 24) (b : BitVec 32) (s : State) : AnswersOk (respondOk a b s) := ⟨a, b, rfl⟩

theorem answers_respondOk (a : BitVec 24) (b : BitVec 32) (s : State) : Answers E (respondOk a b s) :=
  .inl (answersOk_respondOk a b s)

theorem answers_raise (s : State) (he : E e) : Answers E (raise e s) := .inr ⟨e, rfl, he⟩

theorem answers_unlessHalted {k : Result} (h : unlessHalted s k = .next t) (he : E .halted) (hk : k = .next t → Answers E t) :
    Answers E t := by
  rcases unlessHalted_eq_next.1 h with ⟨-, rfl⟩ | ⟨-, h⟩
  · exact answers_raise s he
  · exact hk h

theorem answers_withOperand {α : Type} {o : Option α} {k : α → Result} (h : withOperand o s k = .next t) (he : E .badOperand)
    (hk : ∀ v, k v = .next t → Answers E t) : Answers E t := by
  rcases withOperand_eq_next.1 h with ⟨-, rfl⟩ | ⟨v, -, h⟩
  · exact answers_raise s he
  · exact hk v h

/-! ### The queue unit and the recorder, with the builder idle -/

/-- CR_FSM comes to rest only with its OK response. -/
theorem recorderStep_answersOk (h : recorderStep s = .next t) :
    t.tbFsm = s.tbFsm ∧ (s.crFsm ≠ .gIdle → t.crFsm = .gIdle → AnswersOk t) := by
  unfold recorderStep at h
  split at h
  · next hf => cases h; simp [hf]
  · obtain ⟨n, -, ⟨-, u, hu, rfl⟩ | ⟨-, rfl⟩⟩ := recorderStart_next h
    · obtain ⟨-, rfl⟩ := writeCw_eq_next.1 hu
      simp [freshTable]
    · simp [freshTable]
  · next hf =>
    obtain ⟨n, -, ⟨-, u, hu, rfl⟩ | ⟨-, u, hu, rfl⟩⟩ := descendStep_next h
    · obtain ⟨-, rfl⟩ := writeCw_eq_next.1 hu
      simp
    · obtain ⟨-, rfl⟩ := writeTstk_eq_next.1 hu
      simp [hf]
  · next hf => rcases ascendStep_next h with ⟨-, rfl⟩ | ⟨-, -, x, n, -, -, rfl⟩ | ⟨-, -, rfl⟩ <;> simp [hf]
  · cases h; exact ⟨by simp, fun _ _ => answersOk_respondOk ..⟩

/-- With TB_FSM idle, a run is at its end only with an OK response. -/
def EndsOk (s : State) : Prop := s.tbFsm = .bIdle ∧ (unitsIdle s = true → AnswersOk s)

theorem EndsOk.tick (h : EndsOk s) (hbusy : unitsIdle s = false) (ht : tick s = .next t) : EndsOk t := by
  obtain ⟨hb, -⟩ := h
  rcases tick_next ht with ⟨-, u, hu, ht⟩ | ⟨-, u, hu, ht⟩ | ⟨hp, -, ht⟩ | ⟨-, hb', -⟩
  · have hbu := (upStep_frame hu).1.tbFsm_eq.trans hb
    rcases whenPqIdle_eq_next.1 ht with ⟨-, ht⟩ | ⟨hne, rfl⟩
    · rw [afterInsert, hbu] at ht
      cases ht
      exact ⟨hbu, fun _ => answersOk_respondOk ..⟩
    · exact ⟨hbu, fun hi => absurd (unitsIdle_iff.1 hi).1 hne⟩
  · have hbu := (downStep_frame hu).1.tbFsm_eq.trans hb
    rcases whenPqIdle_eq_next.1 ht with ⟨-, ht⟩ | ⟨hne, rfl⟩
    · rw [afterExtract, hbu] at ht
      obtain ⟨n, -, ht⟩ := readNode_eq_next.1 ht
      cases ht
      exact ⟨hbu, fun _ => answersOk_respondOk ..⟩
    · exact ⟨hbu, fun hi => absurd (unitsIdle_iff.1 hi).1 hne⟩
  · obtain ⟨hbt, hok⟩ := recorderStep_answersOk ht
    have hc : s.crFsm ≠ .gIdle := fun hc => by simp [unitsIdle_iff.2 ⟨hp, hb, hc⟩] at hbusy
    exact ⟨hbt.trans hb, fun hi => hok hc (unitsIdle_iff.1 hi).2.2⟩
  · exact absurd hb hb'

theorem runToEnd_answersOk (hb : s.tbFsm = .bIdle) (hbusy : unitsIdle s = false) (h : runToEnd s = .next t) : AnswersOk t := by
  have hbegin : EndsOk s := ⟨hb, fun hi => by simp [hbusy] at hi⟩
  exact (runUnits_induct (fun _ _ hs hb ht => hs.tick hb ht) hbegin h).2 (runUnits_ends_idle h)

/-! ### The builder -/

/-- The error that B_FAIL or B_FAULT raises in this state. -/
def pendingError : TbState → Option ErrKind
  | .bFail e | .bFault e => some e
  | .bIdle | .bScan | .bCheck | .bInit | .bLeaves | .bLoop | .bExtU | .bExtV | .bMerge | .bInsW | .bDone => none

/-- The error that TB_FSM carries is one of BUILD's, and a run is at its end only with a response that BUILD may give. -/
def BuildEnds (s : State) : Prop :=
  (∀ e, pendingError s.tbFsm = some e → mayAnswer .build e = true) ∧
    (unitsIdle s = true → Answers (mayAnswer .build · = true) s)

/-- A state of TB_FSM in which BUILD goes on. -/
theorem BuildEnds.goesOn {f : TbState} (hf : t.tbFsm = f) (hp : pendingError f = none) (hne : f ≠ .bIdle) : BuildEnds t :=
  ⟨fun e he => by simp [hf, hp] at he, fun hi => absurd (hf.symm.trans (unitsIdle_iff.1 hi).2.1) hne⟩

/-- A state of TB_FSM that is about to raise an error of BUILD. -/
theorem BuildEnds.aboutToRaise (hp : pendingError t.tbFsm = some e) (he : mayAnswer .build e = true) : BuildEnds t :=
  ⟨fun f hf => by rwa [← Option.some.inj (hp.symm.trans hf)],
    fun hi => by simp [(unitsIdle_iff.1 hi).2.1, pendingError] at hp⟩

theorem BuildEnds.answered (hf : t.tbFsm = .bIdle) (h : Answers (mayAnswer .build · = true) t) : BuildEnds t :=
  ⟨fun e he => by simp [hf, pendingError] at he, fun _ => h⟩

theorem BuildEnds.congr (h : BuildEnds s) (hf : t.tbFsm = s.tbFsm) (hne : s.tbFsm ≠ .bIdle) : BuildEnds t :=
  ⟨by rw [hf]; exact h.1, fun hi => absurd (hf.symm.trans (unitsIdle_iff.1 hi).2.1) hne⟩

theorem BuildEnds.builderStep (hs : BuildEnds s) (hne : s.tbFsm ≠ .bIdle) (h : builderStep s = .next t) : BuildEnds t := by
  unfold Machine.builderStep at h
  split at h
  · next hf => exact absurd hf hne
  · rcases scanStep_next h with ⟨-, -, rfl⟩ | ⟨-, -, rfl⟩ | ⟨-, rfl⟩
    · exact hs.congr rfl hne
    · exact hs.congr rfl hne
    · exact .goesOn rfl rfl nofun
  · rcases checkStep_next h with ⟨-, rfl⟩ | ⟨-, -, rfl⟩ | ⟨-, -, rfl⟩
    · exact .aboutToRaise rfl rfl
    · exact .aboutToRaise rfl rfl
    · exact .goesOn rfl rfl nofun
  · cases h; exact .goesOn rfl rfl nofun
  · rcases leavesStep_next h with ⟨-, -, rfl⟩ | ⟨-, -, -, rfl⟩ | ⟨-, -, -, u, hu, ht⟩ | ⟨-, rfl⟩
    · exact hs.congr rfl hne
    · exact .aboutToRaise rfl rfl
    · obtain ⟨-, rfl⟩ := allocNode_eq_next.1 hu
      exact hs.congr (insertStart_frame ht).tbFsm_eq hne
    · exact .goesOn rfl rfl nofun
  · rcases loopStep_next h with ⟨-, rfl⟩ | ⟨-, rfl⟩ <;> exact .goesOn rfl rfl nofun
  · rcases extractOrFault_next h with ⟨-, rfl⟩ | ⟨-, h⟩
    · exact .aboutToRaise rfl rfl
    · exact hs.congr (extractStart_frame h).tbFsm_eq hne
  · rcases extractOrFault_next h with ⟨-, rfl⟩ | ⟨-, h⟩
    · exact .aboutToRaise rfl rfl
    · exact hs.congr (extractStart_frame h).tbFsm_eq hne
  · obtain ⟨u, v, a, -, -, -, rfl⟩ := mergeStep_next h
    exact .goesOn rfl rfl nofun
  · rcases insertMerged_next h with ⟨-, rfl⟩ | ⟨-, h⟩
    · exact .aboutToRaise rfl rfl
    · exact hs.congr (insertStart_frame h).tbFsm_eq hne
  · obtain ⟨r, n, -, -, rfl⟩ := doneStep_next h
    exact .answered rfl (answers_respondOk ..)
  · next e hf => cases h; exact .answered rfl (answers_raise _ (hs.1 e (by simp [hf, pendingError])))
  · next e hf => cases h; exact .answered rfl (answers_raise _ (hs.1 e (by simp [hf, pendingError])))

theorem BuildEnds.afterInsert (hs : BuildEnds s) (hne : s.tbFsm ≠ .bIdle) (h : afterInsert s = .next t) : BuildEnds t := by
  rcases afterInsert_next h with ⟨hf, -⟩ | ⟨-, rfl⟩ | ⟨-, rfl⟩ | ⟨-, -, -, rfl⟩
  · exact absurd hf hne
  · exact hs.congr rfl hne
  · exact .goesOn rfl rfl nofun
  · exact hs

theorem BuildEnds.afterExtract (hs : BuildEnds s) (hne : s.tbFsm ≠ .bIdle) (h : afterExtract s = .next t) : BuildEnds t := by
  rcases afterExtract_next h with ⟨hf, -⟩ | ⟨-, rfl⟩ | ⟨-, rfl⟩ | ⟨-, -, -, rfl⟩
  · exact absurd hf hne
  · exact .goesOn rfl rfl nofun
  · exact .goesOn rfl rfl nofun
  · exact hs

theorem EndsOk.buildEnds (h : EndsOk s) : BuildEnds s :=
  ⟨fun e he => by simp [h.1, pendingError] at he, fun hi => .inl (h.2 hi)⟩

theorem BuildEnds.tick (hs : BuildEnds s) (hbusy : unitsIdle s = false) (ht : tick s = .next t) : BuildEnds t := by
  by_cases hb : s.tbFsm = .bIdle
  · have hok : EndsOk s := ⟨hb, fun hi => by simp [hbusy] at hi⟩
    exact (hok.tick hbusy ht).buildEnds
  · rcases tick_next ht with ⟨-, u, hu, ht⟩ | ⟨-, u, hu, ht⟩ | ⟨-, hb', -⟩ | ⟨-, -, ht⟩
    · have hf := (upStep_frame hu).1.tbFsm_eq
      rcases whenPqIdle_eq_next.1 ht with ⟨-, ht⟩ | ⟨-, rfl⟩
      · exact (hs.congr hf hb).afterInsert (hf ▸ hb) ht
      · exact hs.congr hf hb
    · have hf := (downStep_frame hu).1.tbFsm_eq
      rcases whenPqIdle_eq_next.1 ht with ⟨-, ht⟩ | ⟨-, rfl⟩
      · exact (hs.congr hf hb).afterExtract (hf ▸ hb) ht
      · exact hs.congr hf hb
    · exact absurd hb' hb
    · exact hs.builderStep hb ht

theorem runToEnd_answersBuild (h : runToEnd (builderStart s) = .next t) : Answers (mayAnswer .build · = true) t := by
  have hbegin : BuildEnds (builderStart s) := .goesOn (f := .bScan) rfl rfl nofun
  exact (runUnits_induct (fun _ _ hs hb ht => hs.tick hb ht) hbegin h).2 (runUnits_ends_idle h)

/-! ### The commands -/

theorem insertStart_answersOk {x : NodeRef} (hi : unitsIdle s = true) (h : andThen (insertStart x s) runToEnd = .next t) :
    AnswersOk t := by
  obtain ⟨u, hu, h⟩ := andThen_eq_next.1 h
  have hb := (insertStart_frame hu).tbFsm_eq.trans (unitsIdle_iff.1 hi).2.1
  obtain ⟨-, rfl⟩ := insertStart_eq_next.1 hu
  exact runToEnd_answersOk hb (by simp [unitsIdle]) h

theorem extractStart_answersOk (hi : unitsIdle s = true) (h : andThen (extractStart s) runToEnd = .next t) : AnswersOk t := by
  obtain ⟨u, hu, h⟩ := andThen_eq_next.1 h
  have hb := (extractStart_frame hu).tbFsm_eq.trans (unitsIdle_iff.1 hi).2.1
  obtain ⟨x, v, -, -, rfl⟩ := extractStart_eq_next.1 hu
  exact runToEnd_answersOk hb (by simp [unitsIdle]) h

/-- Every command answers OK or with an error of its row of the matrix (R221). -/
theorem exec_answers (hi : unitsIdle s = true) (h : exec i s = .next t) : Answers (mayAnswer i · = true) t := by
  cases i with
  | clear => cases h; exact answers_respondOk ..
  | csrRd a => exact answers_withOperand h rfl fun c h => by cases h; exact answers_respondOk ..
  | ftWr a b =>
    exact answers_unlessHalted h rfl fun h => answers_withOperand h rfl fun sym h => answers_withOperand h rfl fun f h => by
      cases h; exact answers_respondOk ..
  | ftRd a =>
    exact answers_unlessHalted h rfl fun h => answers_withOperand h rfl fun sym h => by cases h; exact answers_respondOk ..
  | leaf a b =>
    refine answers_unlessHalted h rfl fun h => answers_withOperand h rfl fun sym h => answers_withOperand h rfl fun f h => ?_
    split at h
    · cases h; exact answers_raise _ rfl
    · obtain ⟨u, -, h⟩ := andThen_eq_next.1 h
      cases h; exact answers_respondOk ..
  | nodeRd a | nodeCh a =>
    refine answers_unlessHalted h rfl fun h => answers_withOperand h rfl fun x h => ?_
    obtain ⟨n, -, h⟩ := readNode_eq_next.1 h
    cases h; exact answers_respondOk ..
  | pqInit a =>
    exact answers_unlessHalted h rfl fun h => answers_withOperand h rfl fun cap h => by cases h; exact answers_respondOk ..
  | pqIns a =>
    refine answers_unlessHalted h rfl fun h => answers_withOperand h rfl fun x h => ?_
    split at h
    · cases h; exact answers_raise _ rfl
    · exact .inl (insertStart_answersOk hi h)
  | pqExt =>
    refine answers_unlessHalted h rfl fun h => ?_
    split at h
    · cases h; exact answers_raise _ rfl
    · exact .inl (extractStart_answersOk hi h)
  | heapRd a =>
    refine answers_unlessHalted h rfl fun h => answers_withOperand h rfl fun k h => ?_
    obtain ⟨x, -, h⟩ := readSlot_eq_next.1 h
    obtain ⟨f, -, h⟩ := readKey_eq_next.1 h
    cases h; exact answers_respondOk ..
  | build => exact answers_unlessHalted h rfl runToEnd_answersBuild
  | genCode =>
    refine answers_unlessHalted h rfl fun h => ?_
    split at h
    · exact .inl (runToEnd_answersOk (s := setCrFsm .gStart s) (unitsIdle_iff.1 hi).2.1 (by simp [unitsIdle]) h)
    · cases h; exact answers_raise _ rfl
  | cwRd a b =>
    refine answers_unlessHalted h rfl fun h => answers_withOperand h rfl fun sym h => answers_withOperand h rfl fun k h => ?_
    split at h <;> cases h <;> exact answers_respondOk ..

end Sys2Proof.Machine
end

section
/-!
PROOFS. IllegalCommand (30_encoding.md R101): the words that raise it are those that spell no command, and only they.
-/

namespace Sys2Proof.Machine

open Sys2Proof.Summary

variable {w : Word64} {s t : State} {i : Instr} {op : BitVec 8}

/-- R101's two cases: `op` is no command's, or a field that the command's format does not use is not 0. -/
theorem noCommand_iff :
    (∀ i, decode w ≠ .ok i) ↔ (∀ o, opField w ≠ opcodeValue o) ∨
      ∃ o, opField w = opcodeValue o ∧ unusedZero (opcodeFormat o) (aField w) (bField w) = false := by
  constructor
  · intro h
    by_cases hop : ∀ o, opField w ≠ opcodeValue o
    · exact .inl hop
    · obtain ⟨o, ho⟩ := not_forall_not.1 hop
      exact .inr ⟨o, ho, Bool.eq_false_iff.2 fun hu => h _ (decode_ok ho hu)⟩
  · rintro (hop | ⟨o, ho, hu⟩) i
    · simp [decode_unknownOpcode hop]
    · simp [decode_unusedField ho hu]

theorem mem_allOpcodes (o : Opcode) : o ∈ allOpcodes := by cases o <;> decide

/-- Whether `op` is no command's can be read off 14 comparisons of numbers. -/
theorem unknown_iff_forall_mem : (∀ o, op ≠ opcodeValue o) ↔ ∀ o ∈ allOpcodes, op.toNat ≠ (opcodeValue o).toNat :=
  ⟨fun h o _ he => h o (BitVec.eq_of_toNat_eq he), fun h o he => h o (mem_allOpcodes o) (congrArg BitVec.toNat he)⟩

/-- R101 (a): the gaps between the 14 values. -/
theorem unknown_iff_ranges :
    (∀ o, op ≠ opcodeValue o) ↔
      (op.toNat = 0x00 ∨ (0x03 ≤ op.toNat ∧ op.toNat ≤ 0x0F) ∨ (0x12 ≤ op.toNat ∧ op.toNat ≤ 0x1F) ∨
        (0x23 ≤ op.toNat ∧ op.toNat ≤ 0x2F) ∨ (0x34 ≤ op.toNat ∧ op.toNat ≤ 0x3F) ∨ (0x41 ≤ op.toNat ∧ op.toNat ≤ 0x4F) ∨
        0x52 ≤ op.toNat) := by
  rw [unknown_iff_forall_mem]
  simp only [allOpcodes, List.mem_cons, List.not_mem_nil, or_false, opcodeValue, ne_eq, forall_eq_or_imp, BitVec.toNat_ofNat,
    Nat.reducePow, Nat.one_mod, Nat.reduceMod, forall_eq]
  omega

theorem runWord_of_decode (h : decode w = .ok i) (s : State) : runWord w s = exec i s := by
  rw [runWord, h]

theorem runWord_noCommand (h : ∀ i, decode w ≠ .ok i) (s : State) : runWord w s = .next (raise .illegalCommand s) := by
  unfold runWord
  split
  · next i hi => exact absurd hi (h i)
  · rfl

/-- No command's row of the matrix has IllegalCommand. -/
theorem mayAnswer_illegalCommand (i : Instr) : mayAnswer i .illegalCommand = false := by cases i <;> rfl

/-- Settles O5: the two cases by `noCommand_iff` and `unknown_iff_ranges`, the raise by `runWord_noCommand`, and that no command answers
with IllegalCommand by `exec_answers`. -/
theorem illegalCommandInExactlyTwoCases : Obligations.IllegalCommandInExactlyTwoCases := by
  refine ⟨fun w => ?_, fun w => unknown_iff_ranges, fun w s h => runWord_noCommand h s, fun w s t i hi hidle h hrsp => ?_⟩
  · simp only [noCommand_iff, unusedZero_eq_false_iff]
  · rw [runWord_of_decode hi] at h
    have hmay := (exec_answers hidle h).allowed hrsp
    rw [mayAnswer_illegalCommand] at hmay
    cases hmay

end Sys2Proof.Machine
end

section
/-!
PROOFS. What one step of a sift does to the queue, from any state (40_priority_queue.md R122, R124, R128), and the tie rule (R126).
-/

namespace Sys2Proof.Machine

open Sys2Proof.Summary

variable {s t u : State} {i j m l : Nat} {f g : Key}

/-! ### The queue after a step -/

/-- Two states with the same queue and the same queue unit. -/
def SameQueue (s t : State) : Prop := t.heap = s.heap ∧ t.pqSize = s.pqSize ∧ t.pqFsm = s.pqFsm ∧ t.pq = s.pq

theorem SameQueue.refl (s : State) : SameQueue s s := ⟨rfl, rfl, rfl, rfl⟩

theorem afterInsert_sameQueue (h : afterInsert s = .next t) : SameQueue s t := by
  rcases afterInsert_next h with ⟨-, rfl⟩ | ⟨-, rfl⟩ | ⟨-, rfl⟩ | ⟨-, -, -, rfl⟩ <;> exact .refl _

theorem afterExtract_sameQueue (h : afterExtract s = .next t) : SameQueue s t := by
  rcases afterExtract_next h with ⟨-, n, -, rfl⟩ | ⟨-, rfl⟩ | ⟨-, rfl⟩ | ⟨-, -, -, rfl⟩ <;> exact .refl _

/-- A caller that leaves the queue alone does so whether it goes on or waits. -/
theorem whenPqIdle_sameQueue {k : State → Result} (hk : ∀ t, k s = .next t → SameQueue s t) (h : whenPqIdle k s = .next t) :
    SameQueue s t := by
  rcases whenPqIdle_eq_next.1 h with ⟨-, h⟩ | ⟨-, rfl⟩
  · exact hk t h
  · exact .refl t

theorem swapSlots_swapped (h : swapSlots s i j = .next t) : Swapped s t i j := by
  refine ⟨?_, ?_, fun k hi hj => ?_⟩
  · rw [swapSlots_slotAt h, Equiv.swap_apply_left]
  · rw [swapSlots_slotAt h, Equiv.swap_apply_right]
  · rw [swapSlots_slotAt h, Equiv.swap_apply_of_ne_of_ne hi hj]

/-! ### A step of each sift -/

/-- R122 step P_UP on the queue: the element rests where it is, or it changes places with its parent, whose key is greater. -/
def SiftUp (s t : State) : Prop :=
  t.pqSize = s.pqSize ∧
    ((t.pqFsm = .pIdle ∧ t.heap = s.heap ∧ (s.pq.I = 0 ∨ ¬ KeyLess s s.pq.I.toNat (parentSlot s.pq.I.toNat))) ∨
      (t.pqFsm = .pUp ∧ s.pq.I ≠ 0 ∧ KeyLess s s.pq.I.toNat (parentSlot s.pq.I.toNat) ∧
        Swapped s t (parentSlot s.pq.I.toNat) s.pq.I.toNat ∧ t.pq.I.toNat = parentSlot s.pq.I.toNat))

/-- R124 step P_DOWN on the queue: the element rests where it is, or it changes places with the child its two comparisons choose. -/
def SiftDown (s t : State) : Prop :=
  t.pqSize = s.pqSize ∧
    ((t.pqFsm = .pIdle ∧ t.heap = s.heap ∧ Chosen s s.pq.I.toNat s.pq.I.toNat) ∨
      (t.pqFsm = .pDown ∧ t.pq.I.toNat ≠ s.pq.I.toNat ∧ Chosen s s.pq.I.toNat t.pq.I.toNat ∧
        Swapped s t s.pq.I.toNat t.pq.I.toNat))

theorem SiftUp.congr (h : SiftUp s u) (hq : SameQueue u t) : SiftUp s t := by
  obtain ⟨hh, hs, hf, hr⟩ := hq
  simpa only [SiftUp, Swapped, slotAt, hh, hs, hf, hr] using h

theorem SiftDown.congr (h : SiftDown s u) (hq : SameQueue u t) : SiftDown s t := by
  obtain ⟨hh, hs, hf, hr⟩ := hq
  simpa only [SiftDown, Swapped, slotAt, hh, hs, hf, hr] using h

theorem keyLess_iff (hi : keyAt s i = some f) (hj : keyAt s j = some g) : KeyLess s i j ↔ f < g := by
  simp [KeyLess, hi, hj, BitVec.lt_def]

theorem upStep_siftUp (hf : s.pqFsm = .pUp) (h : upStep s = .next t) : SiftUp s t := by
  rcases upStep_eq_next.1 h with ⟨h0, rfl⟩ | ⟨h0, kp, ki, hkp, hki, ⟨hle, rfl⟩ | ⟨hlt, u, hu, rfl⟩⟩
  · exact ⟨rfl, .inl ⟨rfl, rfl, .inl h0⟩⟩
  · exact ⟨rfl, .inl ⟨rfl, rfl, .inr fun hk => hle ((keyLess_iff hki hkp).1 hk)⟩⟩
  · have hI : (BitVec.ofNat 9 (parentSlot s.pq.I.toNat)).toNat = parentSlot s.pq.I.toNat :=
      Nat.mod_eq_of_lt (by simp only [parentSlot]; omega)
    have hswap := swapSlots_swapped hu
    rw [swapSlots_frame hu]
    exact ⟨rfl, .inr ⟨hf, h0, (keyLess_iff hki hkp).2 hlt, hswap, hI⟩⟩

theorem downStep_siftDown (hf : s.pqFsm = .pDown) (h : downStep s = .next t) : SiftDown s t := by
  obtain ⟨m, hm, hc⟩ := downStep_chosen h
  unfold downMove at hm
  by_cases hrest : m = s.pq.I.toNat
  · rw [if_pos hrest] at hm
    cases hm
    exact ⟨rfl, .inl ⟨rfl, rfl, hrest ▸ hc⟩⟩
  · rw [if_neg hrest] at hm
    obtain ⟨u, hu, hm⟩ := andThen_eq_next.1 hm
    cases hm
    have hI : (BitVec.ofNat 9 m).toNat = m :=
      Nat.mod_eq_of_lt ((chosen_child hc hrest).2.2.trans s.pqSize.isLt)
    have hswap := swapSlots_swapped hu
    rw [swapSlots_frame hu, SiftDown]
    simp only [setI_pq_I, hI]
    exact ⟨rfl, .inr ⟨hf, hrest, hc, hswap⟩⟩

theorem tick_siftUp (hf : s.pqFsm = .pUp) (h : tick s = .next t) : SiftUp s t := by
  simp only [tick, hf] at h
  obtain ⟨u, hu, h⟩ := andThen_eq_next.1 h
  exact (upStep_siftUp hf hu).congr (whenPqIdle_sameQueue (fun _ => afterInsert_sameQueue) h)

theorem tick_siftDown (hf : s.pqFsm = .pDown) (h : tick s = .next t) : SiftDown s t := by
  simp only [tick, hf] at h
  obtain ⟨u, hu, h⟩ := andThen_eq_next.1 h
  exact (downStep_siftDown hf hu).congr (whenPqIdle_sameQueue (fun _ => afterExtract_sameQueue) h)

/-! ### Ties -/

theorem not_keyLess_of_tie (hi : keyAt s i = some g) (hj : keyAt s j = some g) : ¬ KeyLess s i j := fun h =>
  BitVec.lt_irrefl g ((keyLess_iff hi hj).1 h)

/-- A chosen child's key is strictly below the element's. -/
theorem chosen_keyLess (h : Chosen s i m) (hne : m ≠ i) : KeyLess s m i := by
  rcases h with ⟨rfl, -⟩ | ⟨-, -, hlt, -⟩ | ⟨-, -, hlt, -⟩
  · exact absurd rfl hne
  · exact hlt
  · exact hlt

/-- The left child is chosen when its key is below the element's and the right child's key is not below its own. -/
theorem chosen_left (h : Chosen s i m) (hr : 2 * i + 2 < s.pqSize.toNat) (hl : KeyLess s (2 * i + 1) i)
    (hrl : ¬ KeyLess s (2 * i + 2) (2 * i + 1)) : m = 2 * i + 1 := by
  rcases h with ⟨-, hnl, -⟩ | ⟨hm, -⟩ | ⟨rfl, -, -, hless⟩
  · exact absurd hl (hnl (by omega))
  · exact hm
  · exact absurd hless hrl

/-- Settles O34: a sift step is a `SiftUp` or a `SiftDown`, whose comparisons are strict, so a tie moves nothing
(`not_keyLess_of_tie`) and leaves the left child chosen (`chosen_left`). -/
theorem lowerSlotWinsTies : Obligations.LowerSlotWinsTies := by
  refine ⟨fun s t g hf h0 hp hi ht => ?_, fun s t g l hf hl hlt hi hk ht => ?_, fun s t f g hf hr hi hkl hkr hlt ht => ?_⟩
  · obtain ⟨-, ⟨hidle, hheap, -⟩ | ⟨-, -, hless, -⟩⟩ := tick_siftUp hf ht
    · exact ⟨hheap, hidle⟩
    · exact absurd hless (not_keyLess_of_tie hi hp)
  · have hli : l ≠ s.pq.I.toNat := by omega
    obtain ⟨-, ⟨hidle, hheap, -⟩ | ⟨-, hne, hc, -, -, hother⟩⟩ := tick_siftDown hf ht
    · exact ⟨congrArg (arrGet · l) hheap, fun hd => absurd (hidle.symm.trans hd) (by decide)⟩
    · have hml : t.pq.I.toNat ≠ l := fun he => not_keyLess_of_tie hk hi (he ▸ chosen_keyLess hc hne)
      exact ⟨hother l hli hml.symm, fun _ => hml⟩
  · have left : ∀ m, Chosen s s.pq.I.toNat m → m = 2 * s.pq.I.toNat + 1 := fun m hc =>
      chosen_left hc hr ((keyLess_iff hkl hi).2 hlt) (not_keyLess_of_tie hkr hkl)
    obtain ⟨-, ⟨-, -, hc⟩ | ⟨hdown, -, hc, hswap⟩⟩ := tick_siftDown hf ht
    · exact absurd (left _ hc) (by omega)
    · exact ⟨left _ hc, hdown, left _ hc ▸ hswap⟩

end Sys2Proof.Machine
end

section
/-!
PROOFS. The queue commands that run no state machine: PQ_INIT and HEAP_RD (40_priority_queue.md R130, R134).
-/

namespace Sys2Proof.Machine

variable {s : State} {a : Nat} {x : NodeRef} {n : NodeRec}

/-! ### Operands in and out of range (20_memory.md R63) -/

@[simp] theorem withOperand_some {α : Type} (v : α) (s : State) (k : α → Result) : withOperand (some v) s k = k v := rfl

@[simp] theorem withOperand_none {α : Type} (s : State) (k : α → Result) :
    withOperand none s k = .next (raise .badOperand s) := rfl

theorem capacityOf_of_le (h : a ≤ s.params.nsym) : capacityOf s a = some (BitVec.ofNat 9 a) := if_pos h

theorem capacityOf_of_gt (h : s.params.nsym < a) : capacityOf s a = none := if_neg h.not_ge

theorem slotOf_of_lt (h : a < s.pqSize.toNat) : slotOf s a = some a := if_pos h

theorem slotOf_of_ge (h : s.pqSize.toNat ≤ a) : slotOf s a = none := if_neg h.not_gt

/-! ### The commands -/

section
variable (hrun : s.fatal = false)
include hrun

theorem exec_pqInit (h : a ≤ s.params.nsym) :
    exec (.pqInit a) s = .next (respondOk 0 0 (createQueue s (BitVec.ofNat 9 a))) := by
  rw [exec, execPqInit, unlessHalted_running _ hrun, capacityOf_of_le h, withOperand_some]

theorem exec_pqInit_badOperand (h : s.params.nsym < a) : exec (.pqInit a) s = .next (raise .badOperand s) := by
  rw [exec, execPqInit, unlessHalted_running _ hrun, capacityOf_of_gt h, withOperand_none]

theorem exec_heapRd (h : a < s.pqSize.toNat) (hx : slotAt s a = some x) (hn : nodeAt s x.toNat = some n) :
    exec (.heapRd a) s = .next (respondOk (x.setWidth 24) n.freq s) := by
  rw [exec, execHeapRd, unlessHalted_running _ hrun, slotOf_of_lt h, withOperand_some, readSlot_some _ hx,
    readKey_some _ (keyAt_eq_some.2 ⟨x, n, hx, hn, rfl⟩)]

theorem exec_heapRd_badOperand (h : s.pqSize.toNat ≤ a) : exec (.heapRd a) s = .next (raise .badOperand s) := by
  rw [exec, execHeapRd, unlessHalted_running _ hrun, slotOf_of_ge h, withOperand_none]

end

/-- Settles O27: the new queue by `exec_pqInit`, whose capacity fits the nine bits of PQ_CAP. -/
theorem queueInitMakesAnEmptyQueue : Obligations.QueueInitMakesAnEmptyQueue := by
  refine ⟨fun s a hp hrun ha => ⟨_, exec_pqInit hrun ha, rfl, ?_, fun k => rfl⟩, fun s a hrun ha => exec_pqInit_badOperand hrun ha⟩
  have hfit : a < 2 ^ 9 := by
    have := Params.nsym_bounds hp
    omega
  exact Nat.mod_eq_of_lt hfit

/-- Settles O28, by `exec_heapRd` and `exec_heapRd_badOperand`. -/
theorem heapReadReturnsTheSlot : Obligations.HeapReadReturnsTheSlot := by
  refine ⟨fun s a x n hrun ha hx hn => ?_, fun s a hrun ha => exec_heapRd_badOperand hrun ha⟩
  rw [exec_heapRd hrun ha hx hn, BitVec.ofNat_toNat]
  rfl

end Sys2Proof.Machine
end

section
/-!
PROOFS. The frequency-table and node-arena commands (41_tree_builder.md R150, R152, R155, R158, R160).
-/

namespace Sys2Proof.Machine

variable {s t : State} {a b : Nat} {n : NodeRec}

/-! ### Operands in and out of range (20_memory.md R63) -/

theorem symbolOf_of_lt (h : a < s.params.nsym) : symbolOf s a = some (BitVec.ofNat 8 a) := if_pos h

theorem symbolOf_of_ge (h : s.params.nsym ≤ a) : symbolOf s a = none := if_neg h.not_gt

theorem freqOf_of_le (h : b ≤ s.params.kmax) : freqOf s b = some (BitVec.ofNat 32 b) := if_pos h

theorem freqOf_of_gt (h : s.params.kmax < b) : freqOf s b = none := if_neg h.not_ge

theorem nodeRefOf_of_lt (h : a < s.nodeCnt.toNat) : nodeRefOf s a = some (BitVec.ofNat 9 a) := if_pos h

theorem nodeRefOf_of_ge (h : s.nodeCnt.toNat ≤ a) : nodeRefOf s a = none := if_neg h.not_gt

/-- A legal symbol fits its eight bits. -/
theorem toNat_symbol (hp : s.params.legal = true) (h : a < s.params.nsym) : (BitVec.ofNat 8 a).toNat = a :=
  Nat.mod_eq_of_lt (h.trans_le (Params.nsym_bounds hp).2)

/-- The reference of an allocated record fits its nine bits. -/
theorem toNat_reference (hp : s.params.legal = true) (hc : s.nodeCnt.toNat ≤ s.params.nodeMax) (h : a < s.nodeCnt.toNat) :
    (BitVec.ofNat 9 a).toNat = a := by
  have hmax := (Params.sizes_fit hp).1
  exact Nat.mod_eq_of_lt (by omega)

/-- A symbol and a frequency of which one is beyond its range are refused, whatever the command would do with them. -/
theorem withSymbolAndFreq_badOperand (h : s.params.nsym ≤ a ∨ s.params.kmax < b) (k : Symbol → Key → Result) :
    (withOperand (symbolOf s a) s fun sym => withOperand (freqOf s b) s fun f => k sym f) = .next (raise .badOperand s) := by
  rcases Nat.lt_or_ge a s.params.nsym with ha | ha
  · rw [symbolOf_of_lt ha, withOperand_some, freqOf_of_gt (h.resolve_left ha.not_ge), withOperand_none]
  · rw [symbolOf_of_ge ha, withOperand_none]

/-! ### The frequency table -/

section
variable (hrun : s.fatal = false)
include hrun

theorem exec_ftWr (ha : a < s.params.nsym) (hb : b ≤ s.params.kmax) :
    exec (.ftWr a b) s = .next (respondOk 0 0 (writeFt s (BitVec.ofNat 8 a) (BitVec.ofNat 32 b))) := by
  rw [exec, execFtWr, unlessHalted_running _ hrun, symbolOf_of_lt ha, withOperand_some, freqOf_of_le hb, withOperand_some]

theorem exec_ftWr_badOperand (h : s.params.nsym ≤ a ∨ s.params.kmax < b) :
    exec (.ftWr a b) s = .next (raise .badOperand s) := by
  rw [exec, execFtWr, unlessHalted_running _ hrun, withSymbolAndFreq_badOperand h]

theorem exec_ftRd (hp : s.params.legal = true) (ha : a < s.params.nsym) :
    exec (.ftRd a) s = .next (respondOk 0 (ftAt s a) s) := by
  rw [exec, execFtRd, unlessHalted_running _ hrun, symbolOf_of_lt ha, withOperand_some, toNat_symbol hp ha]

theorem exec_ftRd_badOperand (h : s.params.nsym ≤ a) : exec (.ftRd a) s = .next (raise .badOperand s) := by
  rw [exec, execFtRd, unlessHalted_running _ hrun, symbolOf_of_ge h, withOperand_none]

/-- An empty table reads 0 at every symbol, whatever the parameters. -/
theorem exec_ftRd_empty (hf : s.ft = []) (ha : a < s.params.nsym) : exec (.ftRd a) s = .next (respondOk 0 0 s) := by
  rw [exec, execFtRd, unlessHalted_running _ hrun, symbolOf_of_lt ha, withOperand_some, ftAt, hf]
  rfl

end

/-- Settles O23: the new table by `exec_ftWr`, its entries by `ftAt_writeFt`. -/
theorem ftWriteWritesOneEntry : Obligations.FtWriteWritesOneEntry := by
  refine ⟨fun s a b hp hrun ha hb => ⟨_, exec_ftWr hrun ha hb, rfl, ?_, fun j hj => ?_⟩,
    fun s a b hrun h => exec_ftWr_badOperand hrun h⟩
  · exact (ftAt_writeFt s _ _ a).trans (if_pos (toNat_symbol hp ha).symm)
  · exact (ftAt_writeFt s _ _ j).trans (if_neg fun he => hj (he.trans (toNat_symbol hp ha)))

/-- Settles O24: a legal symbol by `exec_ftRd`; reset and CLEAR leave an empty table, which reads 0 (`exec_ftRd_empty`). -/
theorem ftReadReturnsTheEntry : Obligations.FtReadReturnsTheEntry := by
  refine ⟨fun s a hp hrun ha => exec_ftRd hrun hp ha, fun s a hrun ha => exec_ftRd_badOperand hrun ha,
    fun p inputs a ha => exec_ftRd_empty rfl rfl ha, fun s t a hclear ha => ?_⟩
  cases hclear
  exact exec_ftRd_empty (by simp) (by simp) ha

/-! ### The node arena -/

section
variable (hrun : s.fatal = false)
include hrun

theorem exec_leaf (ha : a < s.params.nsym) (hb : b ≤ s.params.kmax) (hroom : s.nodeCnt.toNat < s.params.nodeMax) :
    exec (.leaf a b) s = .next (respondOk (s.nodeCnt.setWidth 24) 0
      (putNode s (leafRec s.params (BitVec.ofNat 8 a) (BitVec.ofNat 32 b)))) := by
  rw [exec, execLeaf, unlessHalted_running _ hrun, symbolOf_of_lt ha, withOperand_some, freqOf_of_le hb, withOperand_some,
    if_neg hroom.ne, allocNode_eq_next.2 ⟨hroom, rfl⟩, andThen_next]

theorem exec_leaf_badOperand (h : s.params.nsym ≤ a ∨ s.params.kmax < b) :
    exec (.leaf a b) s = .next (raise .badOperand s) := by
  rw [exec, execLeaf, unlessHalted_running _ hrun, withSymbolAndFreq_badOperand h]

theorem exec_leaf_arenaFull (ha : a < s.params.nsym) (hb : b ≤ s.params.kmax) (hfull : s.nodeCnt.toNat = s.params.nodeMax) :
    exec (.leaf a b) s = .next (raise .arenaFull s) := by
  rw [exec, execLeaf, unlessHalted_running _ hrun, symbolOf_of_lt ha, withOperand_some, freqOf_of_le hb, withOperand_some,
    if_pos hfull]

theorem exec_nodeRd (hi : a < s.nodeCnt.toNat) (ha : (BitVec.ofNat 9 a).toNat = a) (hn : nodeAt s a = some n) :
    exec (.nodeRd a) s = .next (respondOk (packFlag s.params.symW n.leaf n.sym) n.freq s) := by
  rw [exec, execNodeRd, unlessHalted_running _ hrun, nodeRefOf_of_lt hi, withOperand_some, ha, readNode_some _ hn]

theorem exec_nodeCh (hi : a < s.nodeCnt.toNat) (ha : (BitVec.ofNat 9 a).toNat = a) (hn : nodeAt s a = some n) :
    exec (.nodeCh a) s = .next (respondOk (n.left.setWidth 24) (n.right.setWidth 32) s) := by
  rw [exec, execNodeCh, unlessHalted_running _ hrun, nodeRefOf_of_lt hi, withOperand_some, ha, readNode_some _ hn]

theorem exec_nodeRd_badOperand (h : s.nodeCnt.toNat ≤ a) : exec (.nodeRd a) s = .next (raise .badOperand s) := by
  rw [exec, execNodeRd, unlessHalted_running _ hrun, nodeRefOf_of_ge h, withOperand_none]

theorem exec_nodeCh_badOperand (h : s.nodeCnt.toNat ≤ a) : exec (.nodeCh a) s = .next (raise .badOperand s) := by
  rw [exec, execNodeCh, unlessHalted_running _ hrun, nodeRefOf_of_ge h, withOperand_none]

end

/-- Settles O25: the new record by `exec_leaf`, which `putNode` puts at NODE_CNT. -/
theorem leafAllocatesOneRecord : Obligations.LeafAllocatesOneRecord := by
  refine ⟨fun s a b hp hrun ha hb hroom => ?_, fun s a b hrun h => exec_leaf_badOperand hrun h,
    fun s a b hrun ha hb hfull => exec_leaf_arenaFull hrun ha hb hfull⟩
  refine ⟨_, exec_leaf hrun ha hb hroom, ?_, toNat_nodeCnt_putNode hp hroom (leafRec s.params (BitVec.ofNat 8 a) (BitVec.ofNat 32 b)),
    nodeAt_putNode_new _, fun j hj => (nodeAt_putNode ..).trans (if_neg hj)⟩
  rw [BitVec.ofNat_toNat]
  rfl

/-- Settles O26: both reads by `exec_nodeRd` and `exec_nodeCh`; the flag's place is `packFlag`'s. -/
theorem nodeReadsReturnTheRecord : Obligations.NodeReadsReturnTheRecord := by
  refine ⟨fun s a n hp hrun hc ha hn => ?_, fun s a hrun ha => ⟨exec_nodeRd_badOperand hrun ha, exec_nodeCh_badOperand hrun ha⟩⟩
  have href := toNat_reference hp hc ha
  have hread : exec (.nodeRd a) s =
      .next { s with rsp := some (okWord (BitVec.ofNat 24 (2 ^ s.params.symW * n.leaf.toNat + n.sym.toNat)) n.freq) } := by
    rw [exec_nodeRd hrun ha href hn, packFlag, Nat.mul_comm]
    rfl
  refine ⟨hread, fun hstd => ?_, ?_⟩
  · rw [hread, hstd]
    rfl
  · rw [exec_nodeCh hrun ha href hn, BitVec.ofNat_toNat, BitVec.ofNat_toNat]
    rfl

end Sys2Proof.Machine
end

section
/-!
PROOFS. The transitions of TB_FSM (41_tree_builder.md R165).
-/

namespace Sys2Proof.Machine

open Sys2Proof.Summary

variable {s t u : State}

/-! ### With no primitive running -/

/-- Where a step of the builder leads, and which primitive it may have started. -/
structure BuilderMoves (s t : State) : Prop where
  goesTo : t.tbFsm = builderGoesTo s
  insertion : t.pqFsm = .pUp → s.tbFsm = .bLeaves ∨ s.tbFsm = .bInsW
  extraction : t.pqFsm = .pDown → s.tbFsm = .bExtU ∨ s.tbFsm = .bExtV

/-- A step that starts no primitive. -/
theorem BuilderMoves.quiet (hp : s.pqFsm = .pIdle) (hq : t.pqFsm = s.pqFsm) (ht : t.tbFsm = builderGoesTo s) : BuilderMoves s t :=
  ⟨ht, fun h => by simp [hq, hp] at h, fun h => by simp [hq, hp] at h⟩

theorem insertStart_fsms {x : NodeRef} (h : insertStart x s = .next t) : t.tbFsm = s.tbFsm ∧ t.pqFsm = .pUp := by
  refine ⟨(insertStart_frame h).tbFsm_eq, ?_⟩
  obtain ⟨-, rfl⟩ := insertStart_eq_next.1 h
  rfl

theorem extractStart_fsms (h : extractStart s = .next t) : t.tbFsm = s.tbFsm ∧ t.pqFsm = .pDown := by
  refine ⟨(extractStart_frame h).tbFsm_eq, ?_⟩
  obtain ⟨x, u, -, -, rfl⟩ := extractStart_eq_next.1 h
  rfl

/-- B_LEAVES or B_INS_W starts an insertion and waits. -/
theorem BuilderMoves.inserts {x : NodeRef} {f : TbState} (hf : s.tbFsm = f) (hf' : f = .bLeaves ∨ f = .bInsW)
    (hu : u.tbFsm = s.tbFsm) (h : insertStart x u = .next t) (hg : builderGoesTo s = f) : BuilderMoves s t := by
  obtain ⟨ht, hup⟩ := insertStart_fsms h
  exact ⟨ht.trans (hu.trans (hf.trans hg.symm)), fun _ => hf ▸ hf', fun hd => by simp [hup] at hd⟩

/-- B_EXT_U or B_EXT_V starts an extraction and waits. -/
theorem BuilderMoves.extracts {f : TbState} (hf : s.tbFsm = f) (hf' : f = .bExtU ∨ f = .bExtV)
    (h : extractStart s = .next t) (hg : builderGoesTo s = f) : BuilderMoves s t := by
  obtain ⟨ht, hdown⟩ := extractStart_fsms h
  exact ⟨ht.trans (hf.trans hg.symm), fun hu => by simp [hdown] at hu, fun _ => hf ▸ hf'⟩

theorem builderStep_moves (hp : s.pqFsm = .pIdle) (h : builderStep s = .next t) : BuilderMoves s t := by
  unfold builderStep at h
  split at h
  · next hf => cases h; exact .quiet hp rfl (by rw [builderGoesTo, hf])
  · next hf =>
    rcases scanStep_next h with ⟨hlt, -, rfl⟩ | ⟨hlt, -, rfl⟩ | ⟨hle, rfl⟩
    · exact .quiet hp rfl (by simp [builderGoesTo, hf, hlt])
    · exact .quiet hp rfl (by simp [builderGoesTo, hf, hlt, countSymbol])
    · exact .quiet hp rfl (by simp [builderGoesTo, hf, hle.not_gt])
  · next hf =>
    rcases checkStep_next h with ⟨hn, rfl⟩ | ⟨hn, ha, rfl⟩ | ⟨hn, ha, rfl⟩
    · exact .quiet hp rfl (by simp only [builderGoesTo, hf, if_pos hn, setTbFsm_tbFsm])
    · exact .quiet hp rfl (by simp only [builderGoesTo, hf, if_neg hn, if_pos ha, setTbFsm_tbFsm])
    · exact .quiet hp rfl (by simp only [builderGoesTo, hf, if_neg hn, if_neg ha.not_gt, setTbFsm_tbFsm])
  · next hf => cases h; exact .quiet hp rfl (by rw [builderGoesTo, hf]; rfl)
  · next hf =>
    rcases leavesStep_next h with ⟨hlt, hz, rfl⟩ | ⟨hlt, hz, hfull, rfl⟩ | ⟨hlt, hz, hroom, u, hu, ht⟩ | ⟨hle, rfl⟩
    · exact .quiet hp rfl (by simp [builderGoesTo, hf, hlt, hz])
    · exact .quiet hp rfl (by simp only [builderGoesTo, hf, if_pos hlt, if_pos (And.intro hz hfull), setS_tbFsm, setTbFsm_tbFsm])
    · obtain ⟨-, rfl⟩ := allocNode_eq_next.1 hu
      exact .inserts hf (.inl rfl) (putNode_tbFsm ..) ht (by simp [builderGoesTo, hf, hlt, hroom])
    · exact .quiet hp rfl (by simp [builderGoesTo, hf, hle.not_gt])
  · next hf =>
    rcases loopStep_next h with ⟨hlt, rfl⟩ | ⟨hle, rfl⟩
    · exact .quiet hp rfl (by simp [builderGoesTo, hf, hlt])
    · exact .quiet hp rfl (by simp [builderGoesTo, hf, hle.not_gt])
  · next hf =>
    rcases extractOrFault_next h with ⟨h0, rfl⟩ | ⟨h0, h⟩
    · exact .quiet hp rfl (by simp [builderGoesTo, hf, h0])
    · exact .extracts hf (.inl rfl) h (by simp only [builderGoesTo, hf, if_neg h0])
  · next hf =>
    rcases extractOrFault_next h with ⟨h0, rfl⟩ | ⟨h0, h⟩
    · exact .quiet hp rfl (by simp [builderGoesTo, hf, h0])
    · exact .extracts hf (.inr rfl) h (by simp only [builderGoesTo, hf, if_neg h0])
  · next hf =>
    obtain ⟨u, v, a, -, -, ha, rfl⟩ := mergeStep_next h
    obtain ⟨-, rfl⟩ := allocNode_eq_next.1 ha
    exact .quiet hp rfl (by rw [builderGoesTo, hf]; rfl)
  · next hf =>
    rcases insertMerged_next h with ⟨hfull, rfl⟩ | ⟨hroom, h⟩
    · exact .quiet hp rfl (by simp [builderGoesTo, hf, hfull])
    · exact .inserts hf (.inr rfl) rfl h (by simp [builderGoesTo, hf, hroom])
  · next hf =>
    obtain ⟨r, n, -, -, rfl⟩ := doneStep_next h
    exact .quiet hp rfl (by rw [builderGoesTo, hf]; rfl)
  · next e hf => cases h; exact .quiet hp rfl (by rw [builderGoesTo, hf]; rfl)
  · next e hf => cases h; exact .quiet hp rfl (by rw [builderGoesTo, hf]; rfl)

/-- The recorder starts no primitive. -/
theorem recorderStep_pqFsm (h : recorderStep s = .next t) : t.pqFsm = s.pqFsm := by
  unfold recorderStep at h
  split at h
  · cases h; rfl
  · obtain ⟨n, -, ⟨-, u, hu, rfl⟩ | ⟨-, rfl⟩⟩ := recorderStart_next h
    · obtain ⟨-, rfl⟩ := writeCw_eq_next.1 hu
      simp [freshTable]
    · simp [freshTable]
  · obtain ⟨n, -, ⟨-, u, hu, rfl⟩ | ⟨-, u, hu, rfl⟩⟩ := descendStep_next h
    · obtain ⟨-, rfl⟩ := writeCw_eq_next.1 hu
      rfl
    · obtain ⟨-, rfl⟩ := writeTstk_eq_next.1 hu
      rfl
  · rcases ascendStep_next h with ⟨-, rfl⟩ | ⟨-, -, x, n, -, -, rfl⟩ | ⟨-, -, rfl⟩ <;> simp
  · cases h; rfl

/-! ### While a primitive runs -/

/-- The caller of a primitive waits in its state until the primitive has ended. -/
theorem tick_waits (hp : s.pqFsm ≠ .pIdle) (h : tick s = .next t) (hq : t.pqFsm ≠ .pIdle) : t.tbFsm = s.tbFsm := by
  rcases tick_next h with ⟨-, u, hu, h⟩ | ⟨-, u, hu, h⟩ | ⟨hp', -⟩ | ⟨hp', -⟩
  · rcases whenPqIdle_eq_next.1 h with ⟨hi, h⟩ | ⟨-, rfl⟩
    · exact absurd ((afterInsert_sameQueue h).2.2.1.trans hi) hq
    · exact (upStep_frame hu).1.tbFsm_eq
  · rcases whenPqIdle_eq_next.1 h with ⟨hi, h⟩ | ⟨-, rfl⟩
    · exact absurd ((afterExtract_sameQueue h).2.2.1.trans hi) hq
    · exact (downStep_frame hu).1.tbFsm_eq
  · exact absurd hp' hp
  · exact absurd hp' hp

/-- An insertion that ends hands over to its caller, in the caller's own state. -/
theorem tick_up_ends (hp : s.pqFsm = .pUp) (h : tick s = .next t) (hq : t.pqFsm = .pIdle) :
    ∃ u, u.tbFsm = s.tbFsm ∧ afterInsert u = .next t := by
  simp only [tick, hp] at h
  obtain ⟨u, hu, h⟩ := andThen_eq_next.1 h
  rcases whenPqIdle_eq_next.1 h with ⟨-, h⟩ | ⟨hne, rfl⟩
  · exact ⟨u, (upStep_frame hu).1.tbFsm_eq, h⟩
  · exact absurd hq hne

theorem tick_down_ends (hp : s.pqFsm = .pDown) (h : tick s = .next t) (hq : t.pqFsm = .pIdle) :
    ∃ u, u.tbFsm = s.tbFsm ∧ afterExtract u = .next t := by
  simp only [tick, hp] at h
  obtain ⟨u, hu, h⟩ := andThen_eq_next.1 h
  rcases whenPqIdle_eq_next.1 h with ⟨-, h⟩ | ⟨hne, rfl⟩
  · exact ⟨u, (downStep_frame hu).1.tbFsm_eq, h⟩
  · exact absurd hq hne

/-- Settles O38: the table by `builderStep_moves`, the waiting by `tick_waits`, and what the caller does when its primitive ends by
`afterInsert` and `afterExtract`. -/
theorem builderMachineTransitions : Obligations.BuilderMachineTransitions := by
  refine ⟨fun s t hb hp h => ?_, fun s t _ hp h hq => tick_waits hp h hq, fun s t hp h hq => ?_, fun s t hp h hq => ?_,
    fun s t hp h => ?_, fun s hrun => ?_⟩
  · exact (builderStep_moves hp (builderStep_of_tick hp hb h)).goesTo
  · obtain ⟨u, hu, h⟩ := tick_up_ends hp h hq
    refine ⟨fun hf => ?_, fun hf => ?_⟩
    · rw [afterInsert, hu, hf] at h
      cases h
      exact hu.trans hf
    · rw [afterInsert, hu, hf] at h
      cases h
      rfl
  · obtain ⟨u, hu, h⟩ := tick_down_ends hp h hq
    refine ⟨fun hf => ?_, fun hf => ?_⟩
    · rw [afterExtract, hu, hf] at h
      cases h
      rfl
    · rw [afterExtract, hu, hf] at h
      cases h
      rfl
  · rcases tick_next h with ⟨hp', -⟩ | ⟨hp', -⟩ | ⟨-, -, h⟩ | ⟨-, -, h⟩
    · simp [hp] at hp'
    · simp [hp] at hp'
    · have hq := (recorderStep_pqFsm h).trans hp
      exact ⟨fun hu => by simp [hq] at hu, fun hd => by simp [hq] at hd⟩
    · have hm := builderStep_moves hp h
      exact ⟨hm.insertion, hm.extraction⟩
  · rw [exec, execBuild, unlessHalted_running _ hrun]
    rfl

end Sys2Proof.Machine
end

section
/-!
PROOFS. The primitives of the queue end (70_reset_and_hazards.md R263): from a sound queue each step of a sift answers, and takes the
moving element one level up or down.
-/

namespace Sys2Proof.Machine

open Sys2Proof.Summary

variable {s t u v : State} {x : NodeRef} {i j k m c : Nat}

/-! ### Slots and keys that hold values -/

theorem Sound.exists_slot (hs : Sound s) (hk : k < s.pqSize.toNat) :
    ∃ x n, slotAt s k = some x ∧ x.toNat < s.nodeCnt.toNat ∧ nodeAt s x.toNat = some n := by
  obtain ⟨x, hx⟩ := hs.queue.dense.arrGet_some_iff.2 hk
  have hlt := hs.queue.ref_lt (hs.queue.mem_refs hx)
  obtain ⟨n, hn⟩ := hs.arena.exists_node hlt
  exact ⟨x, n, hx, hlt, hn⟩

theorem Sound.exists_key (hs : Sound s) (hk : k < s.pqSize.toNat) : ∃ f, keyAt s k = some f := by
  obtain ⟨x, n, hx, -, hn⟩ := hs.exists_slot hk
  exact ⟨n.freq, keyAt_eq_some.2 ⟨x, n, hx, hn, rfl⟩⟩

theorem Sound.size_le_nsym (hs : Sound s) : s.pqSize.toNat ≤ s.params.nsym := hs.queue.sizeLe.trans hs.queue.capLe

theorem Sound.swapSlots_answers (hs : Sound s) (hi : i < s.pqSize.toNat) (hj : j < s.pqSize.toNat) :
    ∃ t, swapSlots s i j = .next t := by
  obtain ⟨x, -, hx, -⟩ := hs.exists_slot hi
  obtain ⟨y, -, hy, -⟩ := hs.exists_slot hj
  have hle := hs.size_le_nsym
  exact ⟨_, swapSlots_eq_next.2 ⟨x, y, hx, hy, hi.trans_le hle, hj.trans_le hle, rfl⟩⟩

/-! ### The steps that a primitive still takes -/

/-- An upper bound on the steps left of the primitive that TB_FSM calls in this state: all of them when it has not begun, then one for each
level between the moving element and the end it may come to, and one to see that it rests. -/
def primitiveLeft (u : State) : Nat :=
  match u.pqFsm with
  | .pIdle => Config.PRIM_STEPS
  | .pUp => Nat.log 2 (u.pq.I.toNat + 1) + 1
  | .pDown => 9 - Nat.log 2 (u.pq.I.toNat + 1)

/-- The moving element of a sift is in the queue; an extraction of the last element leaves slot 0. -/
structure SlotOk (u : State) : Prop where
  up : u.pqFsm = .pUp → u.pq.I.toNat < u.pqSize.toNat
  down : u.pqFsm = .pDown → u.pq.I.toNat = 0 ∨ u.pq.I.toNat < u.pqSize.toNat

theorem SlotOk.of_idle (h : u.pqFsm = .pIdle) : SlotOk u := ⟨fun hu => by simp [h] at hu, fun hd => by simp [h] at hd⟩

theorem SlotOk.congr (h : SlotOk u) (hf : t.pqFsm = u.pqFsm) (hp : t.pq = u.pq) (hs : t.pqSize = u.pqSize) : SlotOk t := by
  obtain ⟨h1, h2⟩ := h
  exact ⟨by rwa [hf, hp, hs], by rwa [hf, hp, hs]⟩

theorem primitiveLeft_idle (h : u.pqFsm = .pIdle) : primitiveLeft u = 10 := by rw [primitiveLeft, h]; rfl
theorem primitiveLeft_up (h : u.pqFsm = .pUp) : primitiveLeft u = Nat.log 2 (u.pq.I.toNat + 1) + 1 := by rw [primitiveLeft, h]
theorem primitiveLeft_down (h : u.pqFsm = .pDown) : primitiveLeft u = 9 - Nat.log 2 (u.pq.I.toNat + 1) := by rw [primitiveLeft, h]

@[simp] theorem primitiveLeft_setTbFsm (f : TbState) (u : State) : primitiveLeft (setTbFsm f u) = primitiveLeft u := rfl
@[simp] theorem primitiveLeft_setS (c : Count9) (u : State) : primitiveLeft (setS c u) = primitiveLeft u := rfl
@[simp] theorem primitiveLeft_setU (r : NodeRef) (u : State) : primitiveLeft (setU r u) = primitiveLeft u := rfl
theorem log_slot_le (hk : k < 256) : Nat.log 2 (k + 1) ≤ 8 := by
  have : Nat.log 2 (k + 1) < 9 := Nat.log_lt_of_lt_pow (by omega) (by omega)
  omega

/-- A slot is one level below its parent. -/
theorem log_parentSlot (hk : 0 < k) : Nat.log 2 (parentSlot k + 1) + 1 = Nat.log 2 (k + 1) := by
  have hhalf : parentSlot k + 1 = (k + 1) / 2 := by
    simp only [parentSlot]
    omega
  have hpos : 0 < Nat.log 2 (k + 1) := Nat.log_pos Nat.one_lt_two (by omega)
  rw [hhalf, Nat.log_div_base]
  omega

/-- A primitive that runs has a step left, and fewer than one that has not begun. -/
theorem SlotOk.primitiveLeft_bounds (h : SlotOk u) (hs : Sound u) (hf : u.pqFsm ≠ .pIdle) :
    1 ≤ primitiveLeft u ∧ primitiveLeft u ≤ 9 := by
  have hsize := hs.queue.size_le hs.legal
  cases hq : u.pqFsm with
  | pIdle => exact absurd hq hf
  | pUp =>
    have := log_slot_le ((h.up hq).trans_le hsize)
    rw [primitiveLeft_up hq]
    omega
  | pDown =>
    have hI : u.pq.I.toNat < 256 := by
      have := h.down hq
      omega
    have := log_slot_le hI
    rw [primitiveLeft_down hq]
    omega

/-! ### The steps of the sifts -/

/-- What a step of a primitive comes to: it has ended, or it runs on with fewer steps left. -/
def SiftsOn (u v : State) : Prop :=
  v.pqFsm = .pIdle ∨ (v.pqFsm = u.pqFsm ∧ SlotOk v ∧ primitiveLeft v < primitiveLeft u)

theorem swapSlots_keeps (h : swapSlots s i j = .next t) : t.pqFsm = s.pqFsm ∧ t.pqSize = s.pqSize := by
  rw [swapSlots_frame h]
  exact ⟨rfl, rfl⟩

theorem upStep_siftsOn (hs : Sound u) (hf : u.pqFsm = .pUp) (hI : u.pq.I.toNat < u.pqSize.toNat) :
    ∃ v, upStep u = .next v ∧ SiftsOn u v := by
  by_cases h0 : u.pq.I = 0
  · exact ⟨_, upStep_eq_next.2 (.inl ⟨h0, rfl⟩), .inl rfl⟩
  have hpos : 0 < u.pq.I.toNat := Nat.pos_of_ne_zero fun h => h0 (BitVec.eq_of_toNat_eq h)
  have hparent : parentSlot u.pq.I.toNat < u.pqSize.toNat := by
    simp only [parentSlot]
    omega
  obtain ⟨kp, hkp⟩ := hs.exists_key hparent
  obtain ⟨ki, hki⟩ := hs.exists_key hI
  by_cases hlt : ki < kp
  · obtain ⟨w, hw⟩ := hs.swapSlots_answers hparent hI
    obtain ⟨hwf, hwsize⟩ := swapSlots_keeps hw
    have hslot : (BitVec.ofNat 9 (parentSlot u.pq.I.toNat)).toNat = parentSlot u.pq.I.toNat :=
      Nat.mod_eq_of_lt (hparent.trans u.pqSize.isLt)
    refine ⟨_, upStep_eq_next.2 (.inr ⟨h0, kp, ki, hkp, hki, .inr ⟨hlt, w, hw, rfl⟩⟩), .inr ⟨hwf, ⟨fun _ => ?_, fun hd => ?_⟩, ?_⟩⟩
    · rw [setI_pq_I, hslot, setI_pqSize, hwsize]
      exact hparent
    · exact absurd (hd.symm.trans (hwf.trans hf)) (by decide)
    · rw [primitiveLeft_up (u := setI (BitVec.ofNat 9 (parentSlot u.pq.I.toNat)) w) (hwf.trans hf), primitiveLeft_up hf, setI_pq_I, hslot,
        ← log_parentSlot hpos]
      exact Nat.lt_succ_self _
  · exact ⟨_, upStep_eq_next.2 (.inr ⟨h0, kp, ki, hkp, hki, .inl ⟨hlt, rfl⟩⟩), .inl rfl⟩

/-- One comparison of R124 answers, with the slot it was given or the child. -/
theorem Sound.lesserSlot_answers (hs : Sound s) (hm : c < s.pqSize.toNat → m < s.pqSize.toNat) (f : Nat → Result) :
    ∃ m', lesserSlot s m c f = f m' ∧ (m' = m ∨ (m' = c ∧ c < s.pqSize.toNat)) := by
  unfold lesserSlot
  by_cases hc : c < s.pqSize.toNat
  · obtain ⟨kc, hkc⟩ := hs.exists_key hc
    obtain ⟨km, hkm⟩ := hs.exists_key (hm hc)
    rw [if_pos hc, readKey_some _ hkc, readKey_some _ hkm]
    by_cases hlt : kc < km
    · exact ⟨c, if_pos hlt, .inr ⟨rfl, hc⟩⟩
    · exact ⟨m, if_neg hlt, .inl rfl⟩
  · exact ⟨m, if_neg hc, .inl rfl⟩

/-- The two comparisons of R124 answer, with the element's slot or a child of it in the queue. -/
theorem downStep_choice_answers (hs : Sound u) :
    ∃ m, downStep u = downMove u m ∧ (m = u.pq.I.toNat ∨ (parentSlot m = u.pq.I.toNat ∧ 0 < m ∧ m < u.pqSize.toNat)) := by
  obtain ⟨m, hm, hmc⟩ := hs.lesserSlot_answers (m := u.pq.I.toNat) (c := 2 * u.pq.I.toNat + 1) (by omega)
    fun m => lesserSlot u m (2 * u.pq.I.toNat + 2) (downMove u)
  obtain ⟨m', hm', hmc'⟩ := hs.lesserSlot_answers (m := m) (c := 2 * u.pq.I.toNat + 2) (by omega) (downMove u)
  refine ⟨m', hm.trans hm', ?_⟩
  simp only [parentSlot]
  omega

theorem downStep_siftsOn (hs : Sound u) (hf : u.pqFsm = .pDown) : ∃ v, downStep u = .next v ∧ SiftsOn u v := by
  obtain ⟨m, hstep, hm⟩ := downStep_choice_answers hs
  rw [hstep, downMove]
  by_cases hrest : m = u.pq.I.toNat
  · exact ⟨_, if_pos hrest, .inl rfl⟩
  obtain ⟨hparent, hpos, hlt⟩ := hm.resolve_left hrest
  have hI : u.pq.I.toNat < u.pqSize.toNat := by
    simp only [parentSlot] at hparent
    omega
  obtain ⟨w, hw⟩ := hs.swapSlots_answers hI hlt
  obtain ⟨hwf, hwsize⟩ := swapSlots_keeps hw
  have hslot : (BitVec.ofNat 9 m).toNat = m := Nat.mod_eq_of_lt (hlt.trans u.pqSize.isLt)
  refine ⟨_, (if_neg hrest).trans (andThen_eq_next.2 ⟨w, hw, rfl⟩), .inr ⟨hwf, ⟨fun hu => ?_, fun _ => .inr ?_⟩, ?_⟩⟩
  · exact absurd (hu.symm.trans (hwf.trans hf)) (by decide)
  · rw [setI_pq_I, hslot, setI_pqSize, setM_pqSize, hwsize]
    exact hlt
  · have hle := log_slot_le (hlt.trans_le (hs.queue.size_le hs.legal))
    rw [primitiveLeft_down (u := setI (BitVec.ofNat 9 m) (setM (BitVec.ofNat 9 m) w)) (hwf.trans hf), primitiveLeft_down hf, setI_pq_I, hslot,
        ← hparent]
    rw [← log_parentSlot hpos] at hle ⊢
    omega

/-! ### The beginning of a primitive -/

/-- An insertion into a queue that is not full begins. -/
theorem Sound.insertStart_answers (hs : Sound s) (hroom : s.pqSize ≠ s.pqCap) (x : NodeRef) :
    ∃ t, insertStart x s = .next t ∧ t.pqFsm = .pUp ∧ SlotOk t := by
  have hlt : s.pqSize.toNat < s.pqCap.toNat := lt_of_le_of_ne hs.queue.sizeLe fun he => hroom (BitVec.eq_of_toNat_eq he)
  have hcap := hs.queue.capLe
  have hn := (Params.nsym_bounds hs.legal).2
  have hsize : (s.pqSize + 1).toNat = s.pqSize.toNat + 1 := BitVec.toNat_add_of_lt (by simp; omega)
  refine ⟨_, insertStart_eq_next.2 ⟨hlt.trans_le hcap, rfl⟩, rfl, ⟨fun _ => ?_, nofun⟩⟩
  exact (Nat.lt_succ_self _).trans_eq hsize.symm

/-- An extraction from a queue that is not empty begins. -/
theorem Sound.extractStart_answers (hs : Sound s) (h0 : s.pqSize ≠ 0) :
    ∃ t, extractStart s = .next t ∧ t.pqFsm = .pDown ∧ SlotOk t := by
  have hpos : 0 < s.pqSize.toNat := Nat.pos_of_ne_zero fun h => h0 (BitVec.eq_of_toNat_eq h)
  have hpred : (s.pqSize - 1).toNat < s.pqSize.toNat := by bv_omega
  obtain ⟨x, -, hx, -⟩ := hs.exists_slot hpos
  obtain ⟨y, -, hy, -⟩ := hs.exists_slot hpred
  have hmove : ∃ u, moveLast (setPqSize (s.pqSize - 1) (setXN x s)) = .next u := by
    by_cases hz : s.pqSize - 1 = 0
    · exact ⟨_, moveLast_eq_next.2 (.inl ⟨hz, rfl⟩)⟩
    · exact ⟨_, moveLast_eq_next.2 (.inr ⟨hz, y, _, hy, writeSlot_eq_next.2 ⟨hpos.trans_le hs.size_le_nsym, rfl⟩, rfl⟩)⟩
  obtain ⟨u, hu⟩ := hmove
  exact ⟨_, extractStart_eq_next.2 ⟨x, u, hx, hu, rfl⟩, rfl, nofun, fun _ => .inl rfl⟩

end Sys2Proof.Machine
end

section
/-!
PROOFS. BUILD ends (70_reset_and_hazards.md R263): from every state of the builder's invariant the next step answers, and an upper bound
on the steps left falls.
-/

namespace Sys2Proof.Machine

open Sys2Proof.Summary

variable {s t u v : State} {x : NodeRef} {n : NodeRec} {k : Nat} {live : List NodeRef} {inner : List NodeRec}

/-! ### The steps left -/

/-- The rounds of R170 to R172 still to come: a tree of N leaves has 2N − 1 records. -/
def mergesLeft (u : State) : Nat := 2 * u.tb.N.toNat - 1 - u.nodeCnt.toNat

/-- TB_FSM calls a primitive in this state. -/
def callsPrimitive : TbState → Bool
  | .bLeaves | .bExtU | .bExtV | .bInsW => true
  | .bIdle | .bScan | .bCheck | .bInit | .bLoop | .bMerge | .bDone | .bFail _ | .bFault _ => false

/-- An upper bound on the steps left after the primitive that this state calls. A symbol of B_LEAVES takes a primitive's 10 steps, a round
of the merge loop 32. -/
def stepsAfter (u : State) : Nat :=
  match u.tbFsm with
  | .bIdle => 0
  | .bScan => (u.params.nsym - u.tb.S.toNat) + 42 * u.params.nsym + 16
  | .bCheck => 42 * u.params.nsym + 15
  | .bInit => 42 * u.params.nsym + 14
  | .bLeaves => 10 * (u.params.nsym - u.tb.S.toNat) + 32 * u.params.nsym + 3
  | .bLoop => 32 * mergesLeft u + 2
  | .bExtU => 32 * (mergesLeft u - 1) + 23
  | .bExtV => 32 * (mergesLeft u - 1) + 13
  | .bMerge => 32 * (mergesLeft u - 1) + 13
  | .bInsW => 32 * mergesLeft u + 2
  | .bDone | .bFail _ | .bFault _ => 1

/-- An upper bound on the steps that BUILD still takes. -/
def stepsLeft (u : State) : Nat := (if callsPrimitive u.tbFsm then primitiveLeft u else 0) + stepsAfter u

theorem stepsLeft_call (h : callsPrimitive u.tbFsm = true) : stepsLeft u = primitiveLeft u + stepsAfter u := by
  rw [stepsLeft, if_pos h]

theorem stepsLeft_noCall (h : callsPrimitive u.tbFsm = false) : stepsLeft u = stepsAfter u := by
  rw [stepsLeft, if_neg (by simp [h]), Nat.zero_add]

theorem QueueOnly.stepsAfter_eq (h : QueueOnly u t) : stepsAfter t = stepsAfter u := by
  rw [h]
  rfl

theorem QueueOnly.params_eq (h : QueueOnly s t) : t.params = s.params := by rw [h]

/-- A step that answers and after which fewer steps are left. -/
structure Advances (u t : State) : Prop where
  answers : tick u = .next t
  slot : SlotOk t
  fewer : stepsLeft t < stepsLeft u

theorem tick_builder (hp : u.pqFsm = .pIdle) (hb : u.tbFsm ≠ .bIdle) : tick u = builderStep u := by
  simp only [tick, hp, hb, if_false]

/-- The merges left are one fewer than the records without a parent. -/
theorem Growing.mergesLeft_eq (h : Growing s u.params.nsym live inner u) : mergesLeft u = live.length - 1 := by
  have hN : u.tb.N.toNat = (occBelow u u.params.nsym).length := h.symbols
  have hcnt := h.forest.nodeCnt_eq h.sound.arena
  have hcount := h.forest.count
  rw [mergesLeft, hN, hcnt]
  omega

theorem Growing.length_refs (h : Growing s k live inner u) : (queueRefs u).length = u.pqSize.toNat := h.sound.queue.length_refs

/-! ### Primitives that begin and run on -/

/-- A state that calls a primitive has begun it. -/
theorem Advances.begin (hp : u.pqFsm = .pIdle) (hc : callsPrimitive u.tbFsm = true) (ht : tick u = .next t) (hs : Sound t)
    (hsl : SlotOk t) (hq : t.pqFsm ≠ .pIdle) (hf : t.tbFsm = u.tbFsm) (hr : stepsAfter t = stepsAfter u) : Advances u t := by
  refine ⟨ht, hsl, ?_⟩
  have := (hsl.primitiveLeft_bounds hs hq).2
  rw [stepsLeft_call hc, stepsLeft_call (hf ▸ hc), primitiveLeft_idle hp, hr]
  omega

/-- The primitive that a state has called runs on. -/
theorem Advances.siftsOn (hc : callsPrimitive u.tbFsm = true) (ht : tick u = .next t) (hf : QueueOnly u t) (hsl : SlotOk t)
    (hlt : primitiveLeft t < primitiveLeft u) : Advances u t := by
  refine ⟨ht, hsl, ?_⟩
  rw [stepsLeft_call hc, stepsLeft_call (hf.tbFsm_eq ▸ hc), hf.stepsAfter_eq]
  omega

/-- A step while the caller waits for its insertion: the sift runs on, or it has ended in `v` and the caller goes on. -/
theorem tick_up_advances (hs : Sound u) (hf : u.pqFsm = .pUp) (hsl : SlotOk u) (hc : callsPrimitive u.tbFsm = true) :
    (∃ t, Advances u t) ∨ ∃ v, QueueMoves u v ∧ v.pqFsm = .pIdle ∧ tick u = afterInsert v := by
  obtain ⟨v, hv, hon⟩ := upStep_siftsOn hs hf (hsl.up hf)
  have htick : tick u = whenPqIdle afterInsert v := by simp only [tick, hf, hv, andThen_next]
  have hm := upStep_moves hs hf hv
  rcases hon with hidle | ⟨hup, hslv, hlt⟩
  · exact .inr ⟨v, hm, hidle, htick.trans (if_pos hidle)⟩
  · exact .inl ⟨v, .siftsOn hc (htick.trans (if_neg (by simp [hup, hf]))) hm.frame hslv hlt⟩

/-- A step while the caller waits for its extraction. -/
theorem tick_down_advances (hs : Sound u) (hf : u.pqFsm = .pDown) (hc : callsPrimitive u.tbFsm = true) :
    (∃ t, Advances u t) ∨ ∃ v, QueueMoves u v ∧ v.pqFsm = .pIdle ∧ tick u = afterExtract v := by
  obtain ⟨v, hv, hon⟩ := downStep_siftsOn hs hf
  have htick : tick u = whenPqIdle afterExtract v := by simp only [tick, hf, hv, andThen_next]
  have hm := downStep_moves hs hf hv
  rcases hon with hidle | ⟨hdown, hslv, hlt⟩
  · exact .inr ⟨v, hm, hidle, htick.trans (if_pos hidle)⟩
  · exact .inl ⟨v, .siftsOn hc (htick.trans (if_neg (by simp [hdown, hf]))) hm.frame hslv hlt⟩

/-! ### From B_SCAN to B_INIT -/

theorem scanStep_answers (hS : u.params.nsym ≤ 256) :
    ∃ t, scanStep u = .next t ∧ t.pqFsm = u.pqFsm ∧ t.params = u.params ∧
      ((t.tbFsm = u.tbFsm ∧ u.tb.S.toNat < u.params.nsym ∧ t.tb.S.toNat = u.tb.S.toNat + 1) ∨ t.tbFsm = .bCheck) := by
  unfold scanStep
  by_cases hlt : u.tb.S.toNat < u.params.nsym
  · have hnext : (u.tb.S + 1).toNat = u.tb.S.toNat + 1 := BitVec.toNat_add_of_lt (by simp; omega)
    rw [if_pos hlt]
    split
    · exact ⟨_, rfl, rfl, rfl, .inl ⟨rfl, hlt, hnext⟩⟩
    · exact ⟨_, rfl, rfl, rfl, .inl ⟨rfl, hlt, hnext⟩⟩
  · rw [if_neg hlt]
    exact ⟨_, rfl, rfl, rfl, .inr rfl⟩

theorem Scanned.scan_advances (h : Scanned s k u) (hs : Sound s) (hf : u.tbFsm = .bScan) : ∃ t, Advances u t := by
  have hn : u.params.nsym ≤ 256 := params_of_store h.frame ▸ (Params.nsym_bounds hs.legal).2
  obtain ⟨t, ht, hp, hparams, hcase⟩ := scanStep_answers hn
  have htick : tick u = .next t := by rw [tick_builder h.queueIdle (by simp [hf]), builderStep, hf, ht]
  refine ⟨t, htick, .of_idle (hp.trans h.queueIdle), ?_⟩
  rcases hcase with ⟨hft, hlt, hS⟩ | hft
  · simp only [stepsLeft, stepsAfter, hft, hf, hparams, hS, callsPrimitive, Bool.false_eq_true, if_false]
    omega
  · simp only [stepsLeft, stepsAfter, hft, hf, hparams, callsPrimitive, Bool.false_eq_true, if_false]
    omega

theorem checkStep_answers (u : State) :
    ∃ t, checkStep u = .next t ∧ t.pqFsm = u.pqFsm ∧ t.params = u.params ∧ (t.tbFsm = .bInit ∨ ∃ e, t.tbFsm = .bFail e) := by
  unfold checkStep
  split
  · exact ⟨_, rfl, rfl, rfl, .inr ⟨_, rfl⟩⟩
  · split
    · exact ⟨_, rfl, rfl, rfl, .inr ⟨_, rfl⟩⟩
    · exact ⟨_, rfl, rfl, rfl, .inl rfl⟩

theorem Scanned.check_advances (h : Scanned s k u) (hf : u.tbFsm = .bCheck) : ∃ t, Advances u t := by
  obtain ⟨t, ht, hp, hparams, hcase⟩ := checkStep_answers u
  have htick : tick u = .next t := by rw [tick_builder h.queueIdle (by simp [hf]), builderStep, hf, ht]
  refine ⟨t, htick, .of_idle (hp.trans h.queueIdle), ?_⟩
  rcases hcase with hft | ⟨e, hft⟩
  · simp only [stepsLeft, stepsAfter, hft, hf, hparams, callsPrimitive, Bool.false_eq_true, if_false]
    omega
  · simp only [stepsLeft, stepsAfter, hft, hf, callsPrimitive, Bool.false_eq_true, if_false]
    omega

theorem Scanned.init_advances (h : Scanned s k u) (hf : u.tbFsm = .bInit) : ∃ t, Advances u t := by
  have htick := tick_builder h.queueIdle (by simp [hf] : u.tbFsm ≠ .bIdle)
  rw [builderStep, hf] at htick
  refine ⟨_, htick.trans (initStep_eq u), .of_idle (by simpa using h.queueIdle), ?_⟩
  rw [stepsLeft_noCall (u := u) (by rw [hf]; rfl), stepsLeft_call (by rfl), primitiveLeft_idle (by simpa using h.queueIdle)]
  simp [stepsAfter, hf]
  omega

theorem Scanned.fail_advances {e : ErrKind} (h : Scanned s k u) (hf : u.tbFsm = .bFail e) : ∃ t, Advances u t := by
  have htick := tick_builder h.queueIdle (by simp [hf] : u.tbFsm ≠ .bIdle)
  rw [builderStep, hf] at htick
  refine ⟨_, htick, .of_idle (by simpa using h.queueIdle), ?_⟩
  simp [stepsLeft, stepsAfter, hf, callsPrimitive]

/-! ### The leaves -/

theorem Growing.leaves_advances (h : Growing s u.tb.S.toNat (queueRefs u) [] u) (hf : u.tbFsm = .bLeaves) (hp : u.pqFsm = .pIdle)
    (hk : u.tb.S.toNat ≤ u.params.nsym) : ∃ t, Advances u t := by
  have hn := Params.nsym_bounds h.sound.legal
  have htick := tick_builder hp (by simp [hf] : u.tbFsm ≠ .bIdle)
  simp only [builderStep, hf, Machine.leavesStep] at htick
  by_cases hlt : u.tb.S.toNat < u.params.nsym
  · rw [if_pos hlt] at htick
    by_cases hz : ftAt u u.tb.S.toNat = 0
    · have hS : (u.tb.S + 1).toNat = u.tb.S.toNat + 1 := BitVec.toNat_add_of_lt (by simp; omega)
      refine ⟨_, htick.trans (if_pos hz), .of_idle hp, ?_⟩
      simp only [stepsLeft, stepsAfter, setS_tbFsm, setS_tb_S, setS_params, hf, hS, primitiveLeft_setS]
      omega
    · have hcount := h.forest.count
      have hmore := occBelow_length_lt hlt hz
      have hocc : (occurring u).length ≤ u.params.nsym := occBelow_length_le ..
      have hsize : u.pqSize.toNat = (occBelow u u.tb.S.toNat).length := by simpa [h.length_refs] using hcount
      have hroom : u.pqSize ≠ u.pqCap := h.not_full (hsize ▸ hmore)
      have halloc : u.nodeCnt.toNat < u.params.nodeMax := by
        have := h.forest.nodeCnt_eq h.sound.arena
        rw [Params.nodeMax_eq]
        simp only [List.length_nil] at this
        omega
      have hleaf := h.addLeaf hlt hz halloc
      obtain ⟨t, ht, hup, hsl⟩ := hleaf.sound.insertStart_answers hroom (nextRef u)
      have hs := insertStart_sound hleaf.sound hroom (hleaf.forest.inArena _ List.mem_cons_self) ht
      rw [if_neg hz, if_neg hroom, show leafRec _ _ _ = leafOf u u.tb.S.toNat from rfl,
        allocNode_eq_next.2 ⟨halloc, rfl⟩, andThen_next] at htick
      have hframe := insertStart_frame ht
      refine ⟨t, .begin hp (by rw [hf]; rfl) (htick.trans ht) hs hsl (by simp [hup]) hframe.tbFsm_eq ?_⟩
      rw [hframe.stepsAfter_eq]
      simp only [stepsAfter, putNode_tbFsm, hf, putNode_params, putNode_tb]
  · rw [if_neg hlt] at htick
    have he : u.tb.S.toNat = u.params.nsym := le_antisymm hk (not_lt.1 hlt)
    have hlen : (queueRefs u).length ≤ u.params.nsym := h.length_refs.trans_le h.sound.size_le_nsym
    have hm : mergesLeft (setTbFsm .bLoop u) = (queueRefs u).length - 1 := (he ▸ h).mergesLeft_eq
    refine ⟨_, htick, .of_idle hp, ?_⟩
    rw [stepsLeft_noCall (by rfl), stepsLeft_call (by rw [hf]; rfl)]
    simp only [stepsAfter, setTbFsm_tbFsm, hf, hm]
    omega

theorem Growing.insertingLeaf_advances (h : Growing s (u.tb.S.toNat + 1) (queueRefs u) [] u) (hf : u.tbFsm = .bLeaves)
    (hp : u.pqFsm = .pUp) (hsl : SlotOk u) (hk : u.tb.S.toNat < u.params.nsym) : ∃ t, Advances u t := by
  have hn := Params.nsym_bounds h.sound.legal
  have hc : callsPrimitive u.tbFsm = true := by rw [hf]; rfl
  rcases tick_up_advances h.sound hp hsl hc with ht | ⟨v, hm, hidle, htick⟩
  · exact ht
  · have hvf := hm.frame.tbFsm_eq.trans hf
    have hS : (v.tb.S + 1).toNat = u.tb.S.toNat + 1 := by
      rw [hm.frame.tb_eq]
      exact BitVec.toNat_add_of_lt (by simp; omega)
    have hone := (hsl.primitiveLeft_bounds h.sound (by simp [hp])).1
    rw [afterInsert, hvf] at htick
    refine ⟨_, htick, .of_idle hidle, ?_⟩
    rw [stepsLeft_call hc, stepsLeft_call (by rw [setS_tbFsm, hvf]; rfl), primitiveLeft_setS, primitiveLeft_idle hidle]
    simp only [stepsAfter, setS_tbFsm, hvf, hf, setS_params, setS_tb_S, hS, hm.frame.params_eq]
    omega

end Sys2Proof.Machine
end

section
/-!
PROOFS. BUILD ends, continued: the merge loop, and the run from B_SCAN to the tree.
-/

namespace Sys2Proof.Machine

open Sys2Proof.Summary

variable {s t u v : State} {x : NodeRef} {n : NodeRec} {k : Nat} {live : List NodeRef} {inner : List NodeRec}

/-! ### The merge loop -/

theorem Growing.loop_advances (h : Growing s u.params.nsym (queueRefs u) inner u) (hf : u.tbFsm = .bLoop) (hp : u.pqFsm = .pIdle) :
    ∃ t, Advances u t := by
  have htick := tick_builder hp (by simp [hf] : u.tbFsm ≠ .bIdle)
  simp only [builderStep, hf, Machine.loopStep] at htick
  have hm := h.mergesLeft_eq
  rw [h.length_refs] at hm
  by_cases hlt : 1 < u.pqSize.toNat
  · refine ⟨_, htick.trans (if_pos hlt), .of_idle hp, ?_⟩
    have hm' : mergesLeft (setTbFsm .bExtU u) = mergesLeft u := rfl
    rw [stepsLeft_call (by rfl), stepsLeft_noCall (by rw [hf]; rfl), primitiveLeft_setTbFsm, primitiveLeft_idle hp]
    simp only [stepsAfter, setTbFsm_tbFsm, hf, hm', hm]
    omega
  · refine ⟨_, htick.trans (if_neg hlt), .of_idle hp, ?_⟩
    rw [stepsLeft_noCall (by rfl), stepsLeft_noCall (by rw [hf]; rfl)]
    simp only [stepsAfter, setTbFsm_tbFsm, hf]
    omega

/-- B_EXT_U and B_EXT_V begin their extraction from a queue that is not empty. -/
theorem Growing.take_advances (h : Growing s k live inner u) (hf : u.tbFsm = .bExtU ∨ u.tbFsm = .bExtV) (hp : u.pqFsm = .pIdle)
    (hsize : 1 ≤ u.pqSize.toNat) : ∃ t, Advances u t := by
  have h0 : u.pqSize ≠ 0 := fun h0 => by simp [h0] at hsize
  obtain ⟨t, ht, hdown, hsl⟩ := h.sound.extractStart_answers h0
  have hframe := extractStart_frame ht
  have htick : tick u = .next t := by
    rcases hf with hf | hf <;>
      rw [tick_builder hp (by simp [hf]), builderStep, hf, ← ht] <;> exact if_neg h0
  have hc : callsPrimitive u.tbFsm = true := by rcases hf with hf | hf <;> rw [hf] <;> rfl
  exact ⟨t, .begin hp hc htick (extractStart_sound h.sound ht) hsl (by simp [hdown]) hframe.tbFsm_eq hframe.stepsAfter_eq⟩

theorem QueueOnly.mergesLeft_eq (h : QueueOnly u v) : mergesLeft v = mergesLeft u := by
  rw [h]
  rfl

theorem Growing.takingFirst_advances (h : Growing s k live inner u) (hf : u.tbFsm = .bExtU) (hp : u.pqFsm = .pDown)
    (hsl : SlotOk u) : ∃ t, Advances u t := by
  have hc : callsPrimitive u.tbFsm = true := by rw [hf]; rfl
  rcases tick_down_advances h.sound hp hc with ht | ⟨v, hm, hidle, htick⟩
  · exact ht
  · have hvf := hm.frame.tbFsm_eq.trans hf
    have hone := (hsl.primitiveLeft_bounds h.sound (by simp [hp])).1
    rw [afterExtract, hvf] at htick
    refine ⟨_, htick, .of_idle hidle, ?_⟩
    have hmerges : mergesLeft (setTbFsm .bExtV (setU v.pq.XN v)) = mergesLeft u := hm.frame.mergesLeft_eq
    rw [stepsLeft_call hc, stepsLeft_call (by rfl), primitiveLeft_setTbFsm, primitiveLeft_setU, primitiveLeft_idle hidle]
    simp only [stepsAfter, setTbFsm_tbFsm, hf, hmerges]
    omega

theorem Growing.takingSecond_advances (h : Growing s k live inner u) (hf : u.tbFsm = .bExtV) (hp : u.pqFsm = .pDown)
    (hsl : SlotOk u) : ∃ t, Advances u t := by
  have hc : callsPrimitive u.tbFsm = true := by rw [hf]; rfl
  rcases tick_down_advances h.sound hp hc with ht | ⟨v, hm, hidle, htick⟩
  · exact ht
  · have hvf := hm.frame.tbFsm_eq.trans hf
    have hone := (hsl.primitiveLeft_bounds h.sound (by simp [hp])).1
    rw [afterExtract, hvf] at htick
    refine ⟨_, htick, .of_idle hidle, ?_⟩
    have hmerges : mergesLeft (setTbFsm .bMerge (setV v.pq.XN v)) = mergesLeft u := hm.frame.mergesLeft_eq
    rw [stepsLeft_call hc, stepsLeft_noCall (by rfl)]
    simp only [stepsAfter, setTbFsm_tbFsm, hf, hmerges]
    omega

theorem Growing.merge_advances (h : Growing s u.params.nsym (u.tb.U :: u.tb.V :: live) inner u) (hf : u.tbFsm = .bMerge)
    (hp : u.pqFsm = .pIdle) : ∃ t, Advances u t := by
  obtain ⟨a, ha⟩ := h.sound.arena.exists_node (h.forest.inArena u.tb.U (by simp))
  obtain ⟨b, hb⟩ := h.sound.arena.exists_node (h.forest.inArena u.tb.V (by simp))
  have hroom : u.nodeCnt.toNat < u.params.nodeMax := by
    have hcnt := h.forest.nodeCnt_eq h.sound.arena
    have hcount := h.forest.count
    have hocc := occBelow_length_le u u.params.nsym
    simp only [List.length_cons] at hcount
    rw [Params.nodeMax_eq]
    omega
  have halloc : allocNode (setW (u.nodeCnt.setWidth 9) u) (innerRec (a.freq + b.freq) u.tb.U u.tb.V) = .next _ :=
    allocNode_eq_next.2 ⟨hroom, rfl⟩
  have htick := tick_builder hp (by simp [hf] : u.tbFsm ≠ .bIdle)
  rw [builderStep, hf, Machine.mergeStep, readNode_some _ ha, readNode_some _ hb, halloc, andThen_next] at htick
  refine ⟨_, htick, .of_idle hp, ?_⟩
  have hmerges : ∀ n, mergesLeft (setTbFsm .bInsW (putNode (setW (u.nodeCnt.setWidth 9) u) n)) = mergesLeft u - 1 := fun n => by
    rw [mergesLeft, setTbFsm_nodeCnt, toNat_nodeCnt_putNode (s := setW (u.nodeCnt.setWidth 9) u) h.sound.legal hroom]
    exact Nat.sub_add_eq ..
  have hprim : ∀ n, primitiveLeft (setTbFsm .bInsW (putNode (setW (u.nodeCnt.setWidth 9) u) n)) = 10 := fun n =>
    primitiveLeft_idle hp
  rw [stepsLeft_call (by rfl), stepsLeft_noCall (by rw [hf]; rfl), hprim]
  simp only [stepsAfter, setTbFsm_tbFsm, hf, hmerges]
  omega

theorem Growing.insert_advances (h : Growing s u.params.nsym (u.tb.W :: queueRefs u) inner u) (hf : u.tbFsm = .bInsW)
    (hp : u.pqFsm = .pIdle) : ∃ t, Advances u t := by
  have hsize : 1 + u.pqSize.toNat + inner.length = (occurring u).length := Growing.queue_size (live := [u.tb.W]) h
  have hroom : u.pqSize ≠ u.pqCap := h.not_full (by omega)
  obtain ⟨t, ht, hup, hsl⟩ := h.sound.insertStart_answers hroom u.tb.W
  have hs := insertStart_sound h.sound hroom (h.forest.inArena _ List.mem_cons_self) ht
  have hframe := insertStart_frame ht
  have htick : tick u = .next t := by
    rw [tick_builder hp (by simp [hf]), builderStep, hf, ← ht]
    exact if_neg hroom
  exact ⟨t, .begin hp (by rw [hf]; rfl) htick hs hsl (by simp [hup]) hframe.tbFsm_eq hframe.stepsAfter_eq⟩

theorem Growing.insertingMerged_advances (h : Growing s k live inner u) (hf : u.tbFsm = .bInsW) (hp : u.pqFsm = .pUp)
    (hsl : SlotOk u) : ∃ t, Advances u t := by
  have hc : callsPrimitive u.tbFsm = true := by rw [hf]; rfl
  rcases tick_up_advances h.sound hp hsl hc with ht | ⟨v, hm, hidle, htick⟩
  · exact ht
  · have hvf := hm.frame.tbFsm_eq.trans hf
    have hone := (hsl.primitiveLeft_bounds h.sound (by simp [hp])).1
    rw [afterInsert, hvf] at htick
    refine ⟨_, htick, .of_idle hidle, ?_⟩
    have hmerges : mergesLeft (setTbFsm .bLoop v) = mergesLeft u := hm.frame.mergesLeft_eq
    rw [stepsLeft_call hc, stepsLeft_noCall (by rfl)]
    simp only [stepsAfter, setTbFsm_tbFsm, hf, hmerges]
    omega

/-! ### The end -/

/-- Where a symbol occurs the total is not 0. -/
theorem totalCount_pos (h : 0 < symbolCount s) : 0 < totalCount s := by
  obtain ⟨i, hi⟩ := List.exists_mem_of_length_pos h
  obtain ⟨hlt, hz⟩ := List.mem_filter.1 hi
  have hne : (ftAt s i).toNat ≠ 0 := fun h0 => by
    rw [show ftAt s i = 0 from BitVec.eq_of_toNat_eq h0] at hz
    simp at hz
  have hle : (ftAt s i).toNat ≤ totalCount s := List.single_le_sum (by simp) _ (List.mem_map_of_mem hlt)
  omega

/-- At B_DONE the root is in the queue: the frequencies of the records without a parent sum up to the total. -/
theorem Growing.size_pos (h : Growing s u.params.nsym (queueRefs u) inner u) (hpos : 0 < symbolCount s) : 0 < u.pqSize.toNat := by
  refine Nat.pos_of_ne_zero fun h0 => ?_
  have hnil : queueRefs u = [] := List.length_eq_zero_iff.1 (h.length_refs.trans h0)
  have hsum : 0 = totalCount u := by
    have := h.forest.sum
    rwa [hnil] at this
  rw [totalCount_congr h.counts h.params] at hsum
  exact (totalCount_pos hpos).ne hsum

theorem Growing.done_advances (h : Growing s u.params.nsym (queueRefs u) inner u) (hpos : 0 < symbolCount s) (hf : u.tbFsm = .bDone)
    (hp : u.pqFsm = .pIdle) : ∃ t, Advances u t := by
  obtain ⟨r, n, hr, -, hn⟩ := h.sound.exists_slot (h.size_pos hpos)
  have htick := tick_builder hp (by simp [hf] : u.tbFsm ≠ .bIdle)
  rw [builderStep, hf, Machine.doneStep, readSlot_some _ hr, readNode_some _ hn] at htick
  refine ⟨_, htick, .of_idle hp, ?_⟩
  rw [stepsLeft_noCall (by rfl), stepsLeft_noCall (by rw [hf]; rfl)]
  simp [stepsAfter, hf]

/-! ### The run -/

theorem Building.advances (h : Building s u) (hs : Sound s) (hpos : 0 < symbolCount s) (hsl : SlotOk u)
    (hbusy : unitsIdle u = false) : ∃ t, Advances u t := by
  cases h with
  | scan hf _ h => exact h.scan_advances hs hf
  | check hf h => exact h.check_advances hf
  | init hf _ h => exact h.init_advances hf
  | fail e hf h => exact h.fail_advances hf
  | leaves hf hp hk h => exact h.leaves_advances hf hp hk
  | insertingLeaf hf hp hk h => exact h.insertingLeaf_advances hf hp hsl hk
  | loop inner hf hp h => exact h.loop_advances hf hp
  | takeFirst inner hf hp hsize h => exact h.take_advances (.inl hf) hp (by omega)
  | takingFirst inner hf hp _ h => exact h.takingFirst_advances hf hp hsl
  | takeSecond inner hf hp hsize h => exact h.take_advances (.inr hf) hp hsize
  | takingSecond inner hf hp h => exact h.takingSecond_advances hf hp hsl
  | merge inner hf hp h => exact h.merge_advances hf hp
  | insert inner hf hp h => exact h.insert_advances hf hp
  | insertingMerged inner hf hp h => exact h.insertingMerged_advances hf hp hsl
  | done inner hf hp _ h => exact h.done_advances hpos hf hp
  | failed hi => rw [hi] at hbusy; cases hbusy
  | built hi => rw [hi] at hbusy; cases hbusy

/-- Fuel for the steps left is fuel to the end. -/
theorem Building.runUnits_answers (h : Building s u) (hs : Sound s) (hpos : 0 < symbolCount s) (hsl : SlotOk u) {m : Nat}
    (hm : stepsLeft u ≤ m) : ∃ t, runUnits m u = .next t := by
  induction m generalizing u with
  | zero =>
    by_cases hi : unitsIdle u = true
    · exact ⟨u, runUnits_idle hi⟩
    · obtain ⟨t, ht⟩ := h.advances hs hpos hsl (by simpa using hi)
      exact absurd ht.fewer (by omega)
  | succ m ih =>
    by_cases hi : unitsIdle u = true
    · exact ⟨u, runUnits_idle hi⟩
    · have hbusy : unitsIdle u = false := by simpa using hi
      obtain ⟨t, ht⟩ := h.advances hs hpos hsl hbusy
      obtain ⟨w, hw⟩ := ih (h.tick hs hbusy ht.answers) ht.slot (by have := ht.fewer; omega)
      exact ⟨w, runUnits_of_tick hbusy ht.answers hw⟩

theorem Building.start (hi : unitsIdle s = true) : Building s (builderStart s) := by
  obtain ⟨hp, -, hc⟩ := unitsIdle_iff.1 hi
  exact .scan rfl (Nat.zero_le _) ⟨by simp [builderStart], by simpa [builderStart] using hp, by simpa [builderStart] using hc, rfl, rfl⟩

/-- From a sound idle state in which a symbol occurs, BUILD ends within the bound of R263. -/
theorem build_answers (hs : Sound s) (hi : unitsIdle s = true) (hpos : 0 < symbolCount s) :
    ∃ t, runToEnd (builderStart s) = .next t := by
  have hidle : (builderStart s).pqFsm = .pIdle := (unitsIdle_iff.1 hi).1
  have hn := (Params.nsym_bounds hs.legal).2
  have hleft : stepsLeft (builderStart s) = s.params.nsym - 0 + 42 * s.params.nsym + 16 := stepsLeft_noCall rfl
  refine (Building.start hi).runUnits_answers hs hpos (.of_idle hidle) ?_
  rw [hleft, show Config.STEP_BOUND = 11274 from rfl]
  omega

/-! ### Success -/

/-- The response of a successful BUILD: ROOT and the frequency of its record (R173). -/
def AnswersTree (t : State) : Prop :=
  t.treeValid = true ∧ ∃ n, nodeAt t t.root.toNat = some n ∧ t.rsp = some (okWord (t.root.setWidth 24) n.freq)

/-- TB_FSM is neither at rest nor about to raise an error of B_CHECK. -/
def goesOn : TbState → Bool
  | .bIdle | .bFail _ => false
  | .bScan | .bCheck | .bInit | .bLeaves | .bLoop | .bExtU | .bExtV | .bMerge | .bInsW | .bDone | .bFault _ => true

/-- BUILD goes on or has answered with the tree. -/
def Succeeds (u : State) : Prop := goesOn u.tbFsm = true ∨ (u.tbFsm = .bIdle ∧ AnswersTree u)

/-- Only B_CHECK leads to B_FAIL, and only B_DONE, B_FAIL and B_FAULT lead to B_IDLE. -/
theorem goesOn_builderGoesTo (hu : goesOn u.tbFsm = true) (hc : u.tbFsm ≠ .bCheck) (hd : u.tbFsm ≠ .bDone)
    (hfault : ∀ e, u.tbFsm ≠ .bFault e) : goesOn (builderGoesTo u) = true := by
  unfold builderGoesTo
  cases hf : u.tbFsm with
  | bIdle | bFail => rw [hf] at hu; cases hu
  | bCheck => exact absurd hf hc
  | bDone => exact absurd hf hd
  | bFault e => exact absurd hf (hfault e)
  | bInit | bMerge => rfl
  | bScan | bLoop | bExtU | bExtV | bInsW => dsimp only; split <;> rfl
  | bLeaves => dsimp only; split <;> (try split) <;> rfl

theorem goesOn_tick (hu : goesOn u.tbFsm = true) (hp : u.pqFsm ≠ .pIdle) (h : tick u = .next t) : goesOn t.tbFsm = true := by
  rcases tick_next h with ⟨-, v, hv, h⟩ | ⟨-, v, hv, h⟩ | ⟨hp', -⟩ | ⟨hp', -⟩
  · rw [← (upStep_frame hv).1.tbFsm_eq] at hu
    rcases whenPqIdle_eq_next.1 h with ⟨-, h⟩ | ⟨-, rfl⟩
    · rcases afterInsert_next h with ⟨-, rfl⟩ | ⟨-, rfl⟩ | ⟨-, rfl⟩ | ⟨-, -, -, rfl⟩
      · exact hu
      · exact hu
      · rfl
      · exact hu
    · exact hu
  · rw [← (downStep_frame hv).1.tbFsm_eq] at hu
    rcases whenPqIdle_eq_next.1 h with ⟨-, h⟩ | ⟨-, rfl⟩
    · rcases afterExtract_next h with ⟨-, n, -, rfl⟩ | ⟨-, rfl⟩ | ⟨-, rfl⟩ | ⟨-, -, -, rfl⟩
      · exact hu
      · rfl
      · rfl
      · exact hu
    · exact hu
  · exact absurd hp' hp
  · exact absurd hp' hp

theorem doneStep_answersTree (h : doneStep u = .next t) : AnswersTree t := by
  obtain ⟨r, n, -, hn, rfl⟩ := doneStep_next h
  exact ⟨rfl, n, hn, rfl⟩

/-- With a symbol that occurs and a total of at most KMAX the check passes. -/
theorem Scanned.check_passes (h : Scanned s s.params.nsym u) (hf : u.tbFsm = .bCheck) (hpos : 0 < symbolCount s)
    (hfits : totalCount s ≤ s.params.kmax) : builderGoesTo u = .bInit := by
  have hN : u.tb.N ≠ 0 := fun h0 => by
    have hsym : u.tb.N.toNat = symbolCount s := h.symbols
    rw [h0] at hsym
    exact hpos.ne hsym
  have hACC : ¬ u.params.kmax < u.tb.ACC.toNat := by
    rw [params_of_store h.frame, h.total]
    exact hfits.not_gt
  simp only [builderGoesTo, hf, if_neg hN, if_neg hACC]

theorem Building.succeeds (h : Building s u) (hu : Succeeds u) (hpos : 0 < symbolCount s) (hfits : totalCount s ≤ s.params.kmax)
    (hbusy : unitsIdle u = false) (ht : Machine.tick u = .next t) : Succeeds t := by
  have quiet : u.pqFsm = .pIdle → u.tbFsm ≠ .bIdle → t.tbFsm = builderGoesTo u := fun hp hb =>
    (builderStep_moves hp (builderStep_of_tick hp hb ht)).goesTo
  have step : ∀ f, u.tbFsm = f → u.pqFsm = .pIdle → goesOn f = true → f ≠ .bCheck → f ≠ .bDone → (∀ e, f ≠ .bFault e) →
      Succeeds t := by
    rintro f rfl hp hg hc hd hfault
    have hb : u.tbFsm ≠ .bIdle := fun hb => by rw [hb] at hg; cases hg
    exact .inl (quiet hp hb ▸ goesOn_builderGoesTo hg hc hd hfault)
  have wait : ∀ f, u.tbFsm = f → u.pqFsm ≠ .pIdle → goesOn f = true → Succeeds t := by
    rintro f rfl hp hg
    exact .inl (goesOn_tick hg hp ht)
  cases h with
  | scan hf _ h => exact step _ hf h.queueIdle rfl nofun nofun nofun
  | check hf h => exact .inl (by rw [quiet h.queueIdle (by simp [hf]), h.check_passes hf hpos hfits]; rfl)
  | init hf _ h => exact step _ hf h.queueIdle rfl nofun nofun nofun
  | fail e hf h =>
    rcases hu with hu | ⟨hu, -⟩
    · rw [hf] at hu; cases hu
    · rw [hf] at hu; cases hu
  | leaves hf hp | loop _ hf hp | takeFirst _ hf hp | takeSecond _ hf hp | merge _ hf hp | insert _ hf hp =>
    exact step _ hf hp rfl nofun nofun nofun
  | insertingLeaf hf hp | takingFirst _ hf hp | takingSecond _ hf hp | insertingMerged _ hf hp =>
    exact wait _ hf (by simp [hp]) rfl
  | done inner hf hp _ h =>
    have hstep := builderStep_of_tick hp (by simp [hf]) ht
    simp only [builderStep, hf] at hstep
    exact .inr ⟨by rw [quiet hp (by simp [hf]), builderGoesTo, hf], doneStep_answersTree hstep⟩
  | failed hi => rw [hi] at hbusy; cases hbusy
  | built hi => rw [hi] at hbusy; cases hbusy

/-- From a sound idle state without a tree, in which a symbol occurs and the total is at most KMAX, BUILD ends with the tree. -/
theorem build_succeeds (hs : Sound s) (hi : unitsIdle s = true) (hv : s.treeValid = false) (hpos : 0 < symbolCount s)
    (hfits : totalCount s ≤ s.params.kmax) : ∃ t, runToEnd (builderStart s) = .next t ∧ Built s t ∧ AnswersTree t := by
  obtain ⟨t, ht⟩ := build_answers hs hi hpos
  have hend : Building s t ∧ Succeeds t :=
    runUnits_induct (P := fun u => Building s u ∧ Succeeds u)
      (fun u w hu hbusy hw => ⟨hu.1.tick hs hbusy hw, hu.1.succeeds hu.2 hpos hfits hbusy hw⟩)
      ⟨Building.start hi, .inl rfl⟩ ht
  obtain ⟨-, hb, -⟩ := unitsIdle_iff.1 (runUnits_ends_idle ht)
  have htree : AnswersTree t := by
    rcases hend.2 with hgo | ⟨-, htree⟩
    · rw [hb] at hgo; cases hgo
    · exact htree
  refine ⟨t, ht, (Building.toEnd hs hi ht).resolve_left fun hst => ?_, htree⟩
  have := treeValid_of_store hst
  rw [htree.1, hv] at this
  cases this

end Sys2Proof.Machine
end

section
/-!
PROOFS. What BUILD depends on: the counts alone (41_tree_builder.md R179). `countsOnly` is the block after reset with the same counts, in
which the builder's invariant holds from the start; `buildView` is what of a state the rest of a BUILD can still read, and what of its end
is its result.
-/

namespace Sys2Proof.Machine

open Sys2Proof.Summary

variable {s t u v w : State} {x : NodeRef} {n : NodeRec} {i j k m : Nat}

/-! ### The counts -/

/-- The counts of a block's own symbols, in the canonical form of FT. -/
@[irreducible] def countsIn (p : Params) (ft : Arr Key) : Arr Key :=
  ((List.range p.nsym).filter fun i => (arrGet ft i).getD 0 != 0).map fun i => (i, (arrGet ft i).getD 0)

/-- The counts of `s`. -/
def countsOf (s : State) : Arr Key := countsIn s.params s.ft

theorem countsOf_eq (s : State) : countsOf s = (occurring s).map fun i => (i, ftAt s i) := by
  rw [countsOf, countsIn]
  rfl

/-- The block after reset with the counts of `s`. -/
def countsOnly (s : State) : State := { State.resetAt s.params [] with ft := countsOf s }

theorem arrGet_tabulate {α : Type} (f : Nat → α) (l : List Nat) (i : Nat) :
    arrGet (l.map fun k => (k, f k)) i = if i ∈ l then some (f i) else none := by
  induction l with
  | nil => rfl
  | cons k l ih =>
    rw [List.map_cons, arrGet_cons, ih]
    by_cases h : k = i
    · simp [h]
    · simp [h, Ne.symm h]

theorem arrSorted_tabulate {α : Type} (f : Nat → α) {l : List Nat} {lo : Nat} (hlo : ∀ k ∈ l, lo ≤ k) (hl : l.Pairwise (· < ·)) :
    arrSorted lo (l.map fun k => (k, f k)) = true := by
  induction l generalizing lo with
  | nil => rfl
  | cons k l ih =>
    obtain ⟨hk, hl⟩ := List.pairwise_cons.1 hl
    simp only [List.map_cons, arrSorted, Bool.and_eq_true, decide_eq_true_eq]
    exact ⟨hlo k List.mem_cons_self, ih hk hl⟩

theorem mem_occurring : i ∈ occurring s ↔ i < s.params.nsym ∧ ftAt s i ≠ 0 := by
  simp [occurring]

/-- The counts of `s` read as they do in `s` at the block's own symbols. -/
theorem getD_countsOf (h : i < s.params.nsym) : (arrGet (countsOf s) i).getD 0 = ftAt s i := by
  rw [countsOf_eq, arrGet_tabulate]
  by_cases hz : ftAt s i = 0
  · rw [if_neg (fun hm => (mem_occurring.1 hm).2 hz), hz]
    rfl
  · rw [if_pos (mem_occurring.2 ⟨h, hz⟩)]
    rfl

/-- The counts as a table are a function of what the block's own symbols read. -/
theorem countsOf_congr (hp : t.params = s.params) (h : ∀ i, i < s.params.nsym → ftAt t i = ftAt s i) : countsOf t = countsOf s := by
  have hocc : occurring t = occurring s := by
    rw [occurring, occurring, hp]
    exact List.filter_congr fun i hi => by rw [h i (List.mem_range.1 hi)]
  rw [countsOf_eq, countsOf_eq, hocc]
  exact List.map_congr_left fun i hi => by rw [h i (mem_occurring.1 hi).1]

theorem ftAt_countsOnly (h : i < s.params.nsym) : ftAt (countsOnly s) i = ftAt s i := getD_countsOf h

theorem occurring_countsOnly (s : State) : occurring (countsOnly s) = occurring s :=
  List.filter_congr fun i hi => by rw [ftAt_countsOnly (s := s) (List.mem_range.1 hi)]

theorem symbolCount_countsOnly (s : State) : symbolCount (countsOnly s) = symbolCount s :=
  congrArg List.length (occurring_countsOnly s)

theorem totalCount_countsOnly (s : State) : totalCount (countsOnly s) = totalCount s :=
  congrArg List.sum (List.map_congr_left fun i hi => by rw [ftAt_countsOnly (s := s) (List.mem_range.1 hi)])

theorem ftAt_le_totalCount (h : i < s.params.nsym) : (ftAt s i).toNat ≤ totalCount s :=
  List.single_le_sum (by simp) _ (List.mem_map_of_mem (List.mem_range.2 h))

theorem mem_countsOf {e : Nat × Key} (h : e ∈ countsOf s) : ∃ i, i ∈ occurring s ∧ e = (i, ftAt s i) := by
  rw [countsOf_eq] at h
  obtain ⟨i, hi, rfl⟩ := List.mem_map.1 h
  exact ⟨i, hi, rfl⟩

theorem arrWf_countsOf (s : State) : arrWf s.params.nsym (countsOf s) = true := by
  simp only [arrWf, Bool.and_eq_true, List.all_eq_true, decide_eq_true_eq]
  refine ⟨?_, fun e he => ?_⟩
  · rw [countsOf_eq]
    exact arrSorted_tabulate _ (by simp) (List.pairwise_lt_range.filter _)
  · obtain ⟨i, hi, rfl⟩ := mem_countsOf he
    exact (mem_occurring.1 hi).1

theorem sound_countsOnly (hp : s.params.legal = true) (hfits : totalCount s ≤ s.params.kmax) : Sound (countsOnly s) := by
  have hreset := sound_resetAt hp []
  obtain ⟨-, -, hrest⟩ := wf_iff.1 hreset.canonical
  refine ⟨hp, wf_iff.2 ⟨arrWf_countsOf s, fun e he => ?_, hrest⟩, hreset.queue.congr rfl rfl rfl rfl rfl,
    hreset.arena.congr rfl rfl rfl, ⟨fun e he => ?_, nofun, nofun, nofun⟩, rfl, rfl⟩
  · obtain ⟨i, hi, rfl⟩ := mem_countsOf he
    exact (mem_occurring.1 hi).2
  · obtain ⟨i, hi, rfl⟩ := mem_countsOf he
    exact (ftAt_le_totalCount (mem_occurring.1 hi).1).trans hfits

/-! ### The queue steps read the forest only -/

/-- Two states with the same arena and the same queue. -/
structure SameForest (u v : State) : Prop where
  params : u.params = v.params
  node : u.node = v.node
  nodeCnt : u.nodeCnt = v.nodeCnt
  heap : u.heap = v.heap
  pqSize : u.pqSize = v.pqSize
  pqCap : u.pqCap = v.pqCap

theorem SameForest.nodeAt_eq (h : SameForest u v) (i : Nat) : nodeAt u i = nodeAt v i := by rw [nodeAt, h.node]; rfl

theorem SameForest.slotAt_eq (h : SameForest u v) (k : Nat) : slotAt u k = slotAt v k := by rw [slotAt, h.heap]; rfl

/-- The state with other contents of HEAP. -/
def withHeap (a : Arr NodeRef) (s : State) : State := { s with heap := a }

theorem dropSlot_withHeap (a : Arr NodeRef) (s : State) (k : Nat) : dropSlot (withHeap a s) k = withHeap (arrErase a k) s := rfl

theorem readNode_congr {f g : NodeRec → Result} (h : SameForest u v) (hf : ∀ n, f n = g n) :
    readNode u i f = readNode v i g := by
  unfold readNode
  rw [h.nodeAt_eq, funext hf]

theorem readSlot_congr {f g : NodeRef → Result} (h : SameForest u v) (hf : ∀ x, f x = g x) :
    readSlot u k f = readSlot v k g := by
  unfold readSlot
  rw [h.slotAt_eq, funext hf]

theorem readKey_congr {f g : Key → Result} (h : SameForest u v) (hf : ∀ a, f a = g a) : readKey u k f = readKey v k g :=
  readSlot_congr h fun _ => readNode_congr h fun _ => hf _

variable {K L : State → Result}

theorem andThen_readSlot (f : NodeRef → Result) : andThen (readSlot s k f) K = readSlot s k fun x => andThen (f x) K := by
  unfold readSlot
  cases slotAt s k <;> rfl

theorem andThen_readNode (f : NodeRec → Result) : andThen (readNode s i f) K = readNode s i fun n => andThen (f n) K := by
  unfold readNode
  cases nodeAt s i <;> rfl

theorem andThen_readKey (f : Key → Result) : andThen (readKey s k f) K = readKey s k fun a => andThen (f a) K := by
  simp only [readKey, andThen_readSlot, andThen_readNode]

theorem writeSlot_congr (h : SameForest u v) (hK : ∀ a, K (withHeap a u) = L (withHeap a v)) :
    andThen (writeSlot u k x) K = andThen (writeSlot v k x) L := by
  unfold writeSlot
  rw [h.params]
  split
  · simp only [andThen_next, putSlot, h.heap]
    exact hK _
  · rfl

theorem SameForest.withHeap (h : SameForest u v) (a : Arr NodeRef) : SameForest (withHeap a u) (withHeap a v) :=
  ⟨h.params, h.node, h.nodeCnt, rfl, h.pqSize, h.pqCap⟩

theorem swapSlots_congr (h : SameForest u v) (hK : ∀ a, K (withHeap a u) = L (withHeap a v)) :
    andThen (swapSlots u i j) K = andThen (swapSlots v i j) L := by
  simp only [swapSlots, andThen_readSlot, andThen_assoc]
  refine readSlot_congr h fun y => readSlot_congr h fun z => writeSlot_congr h fun a => writeSlot_congr (h.withHeap a) fun b => hK b

/-- R122 step 0 on two states with the same forest. -/
theorem insertStart_congr (h : SameForest u v)
    (hK : ∀ a, K (setPqFsm .pUp (setPqSize (u.pqSize + 1) (withHeap a (setI u.pqSize (setXN x u))))) =
      L (setPqFsm .pUp (setPqSize (v.pqSize + 1) (withHeap a (setI v.pqSize (setXN x v)))))) :
    andThen (insertStart x u) K = andThen (insertStart x v) L := by
  have hset : SameForest (setI u.pqSize (setXN x u)) (setI v.pqSize (setXN x v)) := ⟨h.params, h.node, h.nodeCnt, h.heap, h.pqSize, h.pqCap⟩
  simp only [insertStart, andThen_assoc, andThen_next]
  rw [show v.pqSize.toNat = u.pqSize.toNat by rw [h.pqSize]]
  exact writeSlot_congr hset hK

/-- R122 step P_UP. -/
theorem upStep_congr (h : SameForest u v) (hI : u.pq.I = v.pq.I) (hrest : K (setPqFsm .pIdle u) = L (setPqFsm .pIdle v))
    (hswap : ∀ a c, K (setI c (withHeap a u)) = L (setI c (withHeap a v))) :
    andThen (upStep u) K = andThen (upStep v) L := by
  unfold upStep
  rw [hI]
  split
  · exact hrest
  · simp only [andThen_readKey]
    refine readKey_congr h fun kp => readKey_congr h fun ki => ?_
    split
    · simp only [andThen_assoc, andThen_next]
      refine swapSlots_congr h fun a => ?_
      rw [show (withHeap a u).pq.I = (withHeap a v).pq.I from hI]
      exact hswap a _
    · exact hrest

/-- R124 step 0 after PQ_SIZE is decremented. -/
theorem moveLast_congr (h : SameForest u v) (hK : ∀ a, K (withHeap a u) = L (withHeap a v)) :
    andThen (moveLast u) K = andThen (moveLast v) L := by
  unfold moveLast
  rw [h.pqSize]
  split
  · rw [andThen_next, andThen_next, dropSlot, dropSlot, h.heap]
    exact hK _
  · simp only [andThen_readSlot, andThen_assoc, andThen_next]
    refine readSlot_congr h fun y => writeSlot_congr h fun a => ?_
    rw [dropSlot_withHeap, dropSlot_withHeap, show (withHeap a u).pqSize = (withHeap a v).pqSize from h.pqSize]
    exact hK _

/-- R124 step 0. -/
theorem extractStart_congr (h : SameForest u v)
    (hK : ∀ a y, K (setPqFsm .pDown (setI 0 (withHeap a (setPqSize (u.pqSize - 1) (setXN y u))))) =
      L (setPqFsm .pDown (setI 0 (withHeap a (setPqSize (v.pqSize - 1) (setXN y v)))))) :
    andThen (extractStart u) K = andThen (extractStart v) L := by
  simp only [extractStart, andThen_readSlot, andThen_assoc, andThen_next]
  refine readSlot_congr h fun y => ?_
  have hset : SameForest (setPqSize (u.pqSize - 1) (setXN y u)) (setPqSize (v.pqSize - 1) (setXN y v)) :=
    ⟨h.params, h.node, h.nodeCnt, h.heap, congrArg (· - 1) h.pqSize, h.pqCap⟩
  exact moveLast_congr hset fun a => hK a y

/-- One comparison of R124. -/
theorem lesserSlot_congr {f g : Nat → Result} (h : SameForest u v) (hf : ∀ m, andThen (f m) K = andThen (g m) L) :
    andThen (lesserSlot u m k f) K = andThen (lesserSlot v m k g) L := by
  unfold lesserSlot
  rw [show v.pqSize.toNat = u.pqSize.toNat by rw [h.pqSize]]
  split
  · simp only [andThen_readKey]
    refine readKey_congr h fun a => readKey_congr h fun b => ?_
    split
    · exact hf _
    · exact hf _
  · exact hf _

/-- R124 step P_DOWN. -/
theorem downStep_congr (h : SameForest u v) (hI : u.pq.I = v.pq.I)
    (hrest : ∀ c, K (setPqFsm .pIdle (setM c u)) = L (setPqFsm .pIdle (setM c v)))
    (hswap : ∀ a c, K (setI c (setM c (withHeap a u))) = L (setI c (setM c (withHeap a v)))) :
    andThen (downStep u) K = andThen (downStep v) L := by
  unfold downStep
  rw [← hI]
  refine lesserSlot_congr h fun m => lesserSlot_congr h fun m => ?_
  split
  · exact hrest _
  · simp only [andThen_assoc, andThen_next]
    exact swapSlots_congr h fun a => hswap a _

end Sys2Proof.Machine
end

section
/-!
PROOFS. What each step of the builder reads (41_tree_builder.md R167 to R173): with the same counts, the same forest and the same live
registers, two blocks make the same step, whatever else they hold. `buildView` keeps exactly that, and at the end the result of BUILD.
-/

namespace Sys2Proof.Machine

open Sys2Proof.Summary

variable {s t u v w : State} {x : NodeRef} {n : NodeRec} {i j k m : Nat} {K L : State → Result}

/-! ### The steps of TB_FSM -/

theorem scanStep_congr (hp : u.params = v.params) (hS : u.tb.S = v.tb.S) (hN : u.tb.N = v.tb.N) (hACC : u.tb.ACC = v.tb.ACC)
    (hft : v.tb.S.toNat < v.params.nsym → ftAt u v.tb.S.toNat = ftAt v v.tb.S.toNat)
    (hskip : K (setS (v.tb.S + 1) u) = L (setS (v.tb.S + 1) v))
    (hcount : ∀ a c, K (setS (v.tb.S + 1) (setACC a (setN c u))) = L (setS (v.tb.S + 1) (setACC a (setN c v))))
    (hend : K (setTbFsm .bCheck u) = L (setTbFsm .bCheck v)) : andThen (scanStep u) K = andThen (scanStep v) L := by
  unfold scanStep countSymbol
  rw [hp, hS, hN, hACC]
  split
  · next hlt =>
    rw [hft hlt]
    split
    · exact hskip
    · exact hcount _ _
  · exact hend

theorem checkStep_congr (hp : u.params = v.params) (hN : u.tb.N = v.tb.N) (hACC : u.tb.ACC = v.tb.ACC)
    (hfail : ∀ e, K (setTbFsm (.bFail e) u) = L (setTbFsm (.bFail e) v)) (hpass : K (setTbFsm .bInit u) = L (setTbFsm .bInit v)) :
    andThen (checkStep u) K = andThen (checkStep v) L := by
  unfold checkStep
  rw [hp, hN, hACC]
  split
  · exact hfail _
  · split
    · exact hfail _
    · exact hpass

section
variable (h : SameForest u v)
include h

theorem allocNode_congr (n : NodeRec) (hK : K (putNode u n) = L (putNode v n)) :
    andThen (allocNode u n) K = andThen (allocNode v n) L := by
  unfold allocNode
  rw [h.nodeCnt, h.params]
  split
  · exact hK
  · rfl

theorem SameForest.putNode (n : NodeRec) : SameForest (putNode u n) (putNode v n) :=
  ⟨h.params, by rw [putNode_node, putNode_node, h.node, h.nodeCnt], by rw [putNode_nodeCnt, putNode_nodeCnt, h.nodeCnt], h.heap,
    h.pqSize, h.pqCap⟩

theorem leavesStep_congr (hS : u.tb.S = v.tb.S)
    (hft : v.tb.S.toNat < v.params.nsym → ftAt u v.tb.S.toNat = ftAt v v.tb.S.toNat)
    (hskip : K (setS (v.tb.S + 1) u) = L (setS (v.tb.S + 1) v))
    (hfault : K (setS (v.tb.S + 1) (setTbFsm (.bFault .queueFull) u)) = L (setS (v.tb.S + 1) (setTbFsm (.bFault .queueFull) v)))
    (hins : ∀ n x, andThen (insertStart x (putNode u n)) K = andThen (insertStart x (putNode v n)) L)
    (hend : K (setTbFsm .bLoop u) = L (setTbFsm .bLoop v)) : andThen (leavesStep u) K = andThen (leavesStep v) L := by
  unfold leavesStep
  rw [h.params, hS]
  split
  · next hlt =>
    rw [hft hlt, h.pqSize, h.pqCap, h.nodeCnt]
    split
    · exact hskip
    · split
      · exact hfault
      · simp only [andThen_assoc]
        exact allocNode_congr h _ (hins _ _)
  · exact hend

theorem loopStep_congr (hmerge : K (setTbFsm .bExtU u) = L (setTbFsm .bExtU v)) (hend : K (setTbFsm .bDone u) = L (setTbFsm .bDone v)) :
    andThen (loopStep u) K = andThen (loopStep v) L := by
  unfold loopStep
  rw [h.pqSize]
  split
  · exact hmerge
  · exact hend

theorem extractOrFault_congr (hfault : K (setTbFsm (.bFault .emptyQueue) u) = L (setTbFsm (.bFault .emptyQueue) v))
    (hext : andThen (extractStart u) K = andThen (extractStart v) L) :
    andThen (extractOrFault u) K = andThen (extractOrFault v) L := by
  unfold extractOrFault
  rw [h.pqSize]
  split
  · exact hfault
  · exact hext

theorem mergeStep_congr (hU : u.tb.U = v.tb.U) (hV : u.tb.V = v.tb.V)
    (hK : ∀ x n, K (setTbFsm .bInsW (putNode (setW x u) n)) = L (setTbFsm .bInsW (putNode (setW x v) n))) :
    andThen (mergeStep u) K = andThen (mergeStep v) L := by
  have hset : ∀ x, SameForest (setW x u) (setW x v) := fun _ => ⟨h.params, h.node, h.nodeCnt, h.heap, h.pqSize, h.pqCap⟩
  unfold mergeStep
  rw [hU, hV, h.nodeCnt]
  simp only [andThen_readNode, andThen_assoc, andThen_next]
  exact readNode_congr h fun a => readNode_congr h fun b => allocNode_congr (hset _) _ (hK _ _)

theorem insertMerged_congr (hW : u.tb.W = v.tb.W)
    (hfault : K (setTbFsm (.bFault .queueFull) u) = L (setTbFsm (.bFault .queueFull) v))
    (hins : ∀ x, andThen (insertStart x u) K = andThen (insertStart x v) L) :
    andThen (insertMerged u) K = andThen (insertMerged v) L := by
  unfold insertMerged
  rw [h.pqSize, h.pqCap, hW]
  split
  · exact hfault
  · exact hins _

theorem doneStep_congr (hN : u.tb.N = v.tb.N)
    (hK : ∀ r f, K (respondOk (r.setWidth 24) f (setTbFsm .bIdle (setTree r v.tb.N true u))) =
      L (respondOk (r.setWidth 24) f (setTbFsm .bIdle (setTree r v.tb.N true v)))) :
    andThen (doneStep u) K = andThen (doneStep v) L := by
  unfold doneStep
  rw [hN]
  simp only [andThen_readSlot, andThen_readNode, andThen_next]
  exact readSlot_congr h fun r => readNode_congr h fun a => hK r a.freq

end

/-! ### What is live -/

/-- The registers of PQ are live while a primitive runs; M is never read. -/
def liveQueue (q : PqState) (r : PqRegs) : PqRegs :=
  match q with
  | .pIdle => State.reset.pq
  | .pUp | .pDown => { I := r.I, M := 0, XN := r.XN }

/-- U is live from B_EXT_V to B_MERGE, V in B_MERGE, W in B_INS_W. -/
def liveBuilder (f : TbState) (r : TbRegs) : TbRegs :=
  match f with
  | .bExtV => { S := r.S, N := r.N, ACC := r.ACC, U := r.U, V := 0, W := 0 }
  | .bMerge => { S := r.S, N := r.N, ACC := r.ACC, U := r.U, V := r.V, W := 0 }
  | .bInsW => { S := r.S, N := r.N, ACC := r.ACC, U := 0, V := 0, W := r.W }
  | .bIdle | .bScan | .bCheck | .bInit | .bLeaves | .bLoop | .bExtU | .bDone | .bFail _ | .bFault _ =>
    { S := r.S, N := r.N, ACC := r.ACC, U := 0, V := 0, W := 0 }

/-- The forest is live from B_LEAVES on, the tree registers and the response at the end. -/
def liveStore (f : TbState) (u : State) : State :=
  match f with
  | .bScan | .bCheck | .bInit | .bFail _ | .bFault _ => State.resetAt u.params []
  | .bLeaves | .bLoop | .bExtU | .bExtV | .bMerge | .bInsW | .bDone =>
    { State.resetAt u.params [] with
      node := u.node, nodeCnt := u.nodeCnt, heap := u.heap, pqSize := u.pqSize, pqCap := u.pqCap }
  | .bIdle =>
    { State.resetAt u.params [] with
      node := u.node, nodeCnt := u.nodeCnt, heap := u.heap, pqSize := u.pqSize, pqCap := u.pqCap, root := u.root, nleaf := u.nleaf,
      treeValid := u.treeValid, rsp := u.rsp }

/-- What of a state, apart from the counts, the rest of a BUILD can read or is its result. -/
def bareView (u : State) : State :=
  { liveStore u.tbFsm u with
    fatal := u.fatal, pqFsm := u.pqFsm, tbFsm := u.tbFsm, crFsm := u.crFsm, pq := liveQueue u.pqFsm u.pq, tb := liveBuilder u.tbFsm u.tb }

/-- What of a state the rest of a BUILD can read or is its result. -/
def buildView (u : State) : State := { bareView u with ft := countsOf u }

/-- The outcome of a step as far as BUILD is concerned. -/
def seen (r : Result) : Result := andThen r fun t => .next (buildView t)

theorem seen_andThen (r : Result) : seen (andThen r K) = andThen r fun t => seen (K t) := andThen_assoc ..

/-- Two states look alike when their views, written out field by field, are the same. -/
theorem seen_next_congr (hc : countsIn u.params u.ft = countsIn v.params v.ft)
    (h : bareView u = bareView v := by
      dsimp only [bareView, liveStore, liveQueue, liveBuilder, buildView, atFsms, withHeap, putNode, setPqFsm, setI, setM, setXN,
        setPqSize, setTbFsm, setS, setN, setACC, setU, setV, setW, setTree, createQueue, emptyArena, setCwReady,
        invalidateCw, respond, respondOk, State.resetAt]) :
    seen (.next u) = seen (.next v) := by
  simp only [seen, andThen_next, buildView, countsOf, h, hc]

theorem liveStore_params (f : TbState) (u : State) : (liveStore f u).params = u.params := by cases f <;> rfl

theorem buildView_params (u : State) : (buildView u).params = u.params := liveStore_params ..

theorem ftAt_buildView (h : i < u.params.nsym) : ftAt u i = ftAt (buildView u) i := (getD_countsOf h).symm

theorem countsOf_buildView (u : State) : countsOf u = countsOf (buildView u) :=
  (countsOf_congr (buildView_params u) fun _ hi => (ftAt_buildView hi).symm).symm

/-- The state with its two sequencing registers written out, so that what is live in it can be computed. -/
def atFsms (f : TbState) (q : PqState) (u : State) : State := { u with tbFsm := f, pqFsm := q }

/-- Where the forest is live, `buildView` keeps it. -/
theorem sameForest_buildView (u : State) (h : liveStore u.tbFsm u =
    { State.resetAt u.params [] with
      node := u.node, nodeCnt := u.nodeCnt, heap := u.heap, pqSize := u.pqSize, pqCap := u.pqCap }) : SameForest u (buildView u) := by
  constructor <;> simp [buildView, bareView, h]

/-! ### One step -/

theorem whenPqIdle_busy {f : State → Result} (h : s.pqFsm ≠ .pIdle) : whenPqIdle f s = .next s := if_neg h

theorem seen_tick_up (hf : SameForest u v) (hu : u.pqFsm = .pUp) (hv : v.pqFsm = .pUp) (hI : u.pq.I = v.pq.I)
    (hrest : seen (afterInsert (setPqFsm .pIdle u)) = seen (afterInsert (setPqFsm .pIdle v)))
    (hswap : ∀ a c, seen (.next (setI c (withHeap a u))) = seen (.next (setI c (withHeap a v)))) :
    seen (tick u) = seen (tick v) := by
  have htick : ∀ {s : State}, s.pqFsm = .pUp → seen (tick s) = andThen (upStep s) fun t => seen (whenPqIdle afterInsert t) := fun h => by
    rw [tick, h]
    exact seen_andThen ..
  rw [htick hu, htick hv]
  refine upStep_congr hf hI hrest fun a c => ?_
  rw [whenPqIdle_busy (s := setI c (withHeap a u)) (by simp [withHeap, hu]), whenPqIdle_busy (s := setI c (withHeap a v)) (by simp [withHeap, hv])]
  exact hswap a c

theorem seen_tick_down (hf : SameForest u v) (hu : u.pqFsm = .pDown) (hv : v.pqFsm = .pDown) (hI : u.pq.I = v.pq.I)
    (hrest : ∀ c, seen (afterExtract (setPqFsm .pIdle (setM c u))) = seen (afterExtract (setPqFsm .pIdle (setM c v))))
    (hswap : ∀ a c, seen (.next (setI c (setM c (withHeap a u)))) = seen (.next (setI c (setM c (withHeap a v))))) :
    seen (tick u) = seen (tick v) := by
  have htick : ∀ {s : State}, s.pqFsm = .pDown → seen (tick s) = andThen (downStep s) fun t => seen (whenPqIdle afterExtract t) := fun h => by
    rw [tick, h]
    exact seen_andThen ..
  rw [htick hu, htick hv]
  refine downStep_congr hf hI hrest fun a c => ?_
  rw [whenPqIdle_busy (s := setI c (setM c (withHeap a u))) (by simp [withHeap, hu]),
    whenPqIdle_busy (s := setI c (setM c (withHeap a v))) (by simp [withHeap, hv])]
  exact hswap a c

theorem seen_scan (u : State) : seen (tick (atFsms .bScan .pIdle u)) = seen (tick (buildView (atFsms .bScan .pIdle u))) := by
  have hc := countsOf_buildView (atFsms .bScan .pIdle u)
  exact scanStep_congr rfl rfl rfl rfl (fun hlt => ftAt_buildView hlt) (seen_next_congr hc)
    (fun _ _ => seen_next_congr hc) (seen_next_congr hc)

theorem seen_check (u : State) : seen (tick (atFsms .bCheck .pIdle u)) = seen (tick (buildView (atFsms .bCheck .pIdle u))) := by
  have hc := countsOf_buildView (atFsms .bCheck .pIdle u)
  exact checkStep_congr rfl rfl rfl (fun _ => seen_next_congr hc) (seen_next_congr hc)

theorem seen_init (u : State) : seen (tick (atFsms .bInit .pIdle u)) = seen (tick (buildView (atFsms .bInit .pIdle u))) := by
  have hc := countsOf_buildView (atFsms .bInit .pIdle u)
  exact seen_next_congr hc

theorem seen_leaves (u : State) : seen (tick (atFsms .bLeaves .pIdle u)) = seen (tick (buildView (atFsms .bLeaves .pIdle u))) := by
  have hc := countsOf_buildView (atFsms .bLeaves .pIdle u)
  have hf := sameForest_buildView (atFsms .bLeaves .pIdle u) rfl
  exact leavesStep_congr hf rfl (fun hlt => ftAt_buildView hlt) (seen_next_congr hc) (seen_next_congr hc)
    (fun n x => insertStart_congr (hf.putNode n) fun _ => seen_next_congr hc) (seen_next_congr hc)

theorem seen_loop (u : State) : seen (tick (atFsms .bLoop .pIdle u)) = seen (tick (buildView (atFsms .bLoop .pIdle u))) := by
  have hc := countsOf_buildView (atFsms .bLoop .pIdle u)
  have hf := sameForest_buildView (atFsms .bLoop .pIdle u) rfl
  exact loopStep_congr hf (seen_next_congr hc) (seen_next_congr hc)

theorem seen_takeFirst (u : State) : seen (tick (atFsms .bExtU .pIdle u)) = seen (tick (buildView (atFsms .bExtU .pIdle u))) := by
  have hc := countsOf_buildView (atFsms .bExtU .pIdle u)
  have hf := sameForest_buildView (atFsms .bExtU .pIdle u) rfl
  exact extractOrFault_congr hf (seen_next_congr hc) (extractStart_congr hf fun _ _ => seen_next_congr hc)

theorem seen_takeSecond (u : State) : seen (tick (atFsms .bExtV .pIdle u)) = seen (tick (buildView (atFsms .bExtV .pIdle u))) := by
  have hc := countsOf_buildView (atFsms .bExtV .pIdle u)
  have hf := sameForest_buildView (atFsms .bExtV .pIdle u) rfl
  exact extractOrFault_congr hf (seen_next_congr hc) (extractStart_congr hf fun _ _ => seen_next_congr hc)

theorem seen_merge (u : State) : seen (tick (atFsms .bMerge .pIdle u)) = seen (tick (buildView (atFsms .bMerge .pIdle u))) := by
  have hc := countsOf_buildView (atFsms .bMerge .pIdle u)
  have hf := sameForest_buildView (atFsms .bMerge .pIdle u) rfl
  exact mergeStep_congr hf rfl rfl fun _ _ => seen_next_congr hc

theorem seen_insert (u : State) : seen (tick (atFsms .bInsW .pIdle u)) = seen (tick (buildView (atFsms .bInsW .pIdle u))) := by
  have hc := countsOf_buildView (atFsms .bInsW .pIdle u)
  have hf := sameForest_buildView (atFsms .bInsW .pIdle u) rfl
  exact insertMerged_congr hf rfl (seen_next_congr hc) fun _ => insertStart_congr hf fun _ => seen_next_congr hc

theorem seen_done (u : State) : seen (tick (atFsms .bDone .pIdle u)) = seen (tick (buildView (atFsms .bDone .pIdle u))) := by
  have hc := countsOf_buildView (atFsms .bDone .pIdle u)
  have hf := sameForest_buildView (atFsms .bDone .pIdle u) rfl
  exact doneStep_congr hf rfl fun _ _ => seen_next_congr hc

theorem seen_insertingLeaf (u : State) : seen (tick (atFsms .bLeaves .pUp u)) = seen (tick (buildView (atFsms .bLeaves .pUp u))) := by
  have hc := countsOf_buildView (atFsms .bLeaves .pUp u)
  have hf := sameForest_buildView (atFsms .bLeaves .pUp u) rfl
  exact seen_tick_up hf rfl rfl rfl (seen_next_congr hc) fun _ _ => seen_next_congr hc

theorem seen_insertingMerged (u : State) : seen (tick (atFsms .bInsW .pUp u)) = seen (tick (buildView (atFsms .bInsW .pUp u))) := by
  have hc := countsOf_buildView (atFsms .bInsW .pUp u)
  have hf := sameForest_buildView (atFsms .bInsW .pUp u) rfl
  exact seen_tick_up hf rfl rfl rfl (seen_next_congr hc) fun _ _ => seen_next_congr hc

theorem seen_takingFirst (u : State) : seen (tick (atFsms .bExtU .pDown u)) = seen (tick (buildView (atFsms .bExtU .pDown u))) := by
  have hc := countsOf_buildView (atFsms .bExtU .pDown u)
  have hf := sameForest_buildView (atFsms .bExtU .pDown u) rfl
  exact seen_tick_down hf rfl rfl rfl (fun _ => seen_next_congr hc) fun _ _ => seen_next_congr hc

theorem seen_takingSecond (u : State) : seen (tick (atFsms .bExtV .pDown u)) = seen (tick (buildView (atFsms .bExtV .pDown u))) := by
  have hc := countsOf_buildView (atFsms .bExtV .pDown u)
  have hf := sameForest_buildView (atFsms .bExtV .pDown u) rfl
  exact seen_tick_down hf rfl rfl rfl (fun _ => seen_next_congr hc) fun _ _ => seen_next_congr hc

end Sys2Proof.Machine
end

section
/-!
PROOFS. BUILD as a function of the counts (41_tree_builder.md R179): the run of a block is, to the view, the run of the block after reset
with the same counts, of which the builder's invariant says how it ends.
-/

namespace Sys2Proof.Machine

open Sys2Proof.Summary

variable {s t u v w : State} {m : Nat}

/-! ### A step and a run, to the view -/

/-- The pairs of states of TB_FSM and PQ_FSM in which a BUILD that will end with a tree can be. -/
def midway : TbState → PqState → Bool
  | .bIdle, _ | .bFail _, _ | .bFault _, _ => false
  | .bScan, q | .bCheck, q | .bInit, q | .bLoop, q | .bMerge, q | .bDone, q => q == .pIdle
  | .bLeaves, q | .bInsW, q => q != .pDown
  | .bExtU, q | .bExtV, q => q != .pUp

theorem seen_tick (h : midway u.tbFsm u.pqFsm = true) : seen (tick u) = seen (tick (buildView u)) := by
  have key : ∀ f q, midway f q = true → seen (tick (atFsms f q u)) = seen (tick (buildView (atFsms f q u))) := by
    intro f q hfq
    cases q with
    | pIdle =>
      cases f with
      | bIdle | bFail | bFault => cases hfq
      | bScan => exact seen_scan u
      | bCheck => exact seen_check u
      | bInit => exact seen_init u
      | bLeaves => exact seen_leaves u
      | bLoop => exact seen_loop u
      | bExtU => exact seen_takeFirst u
      | bExtV => exact seen_takeSecond u
      | bMerge => exact seen_merge u
      | bInsW => exact seen_insert u
      | bDone => exact seen_done u
    | pUp =>
      cases f with
      | bIdle | bScan | bCheck | bInit | bLoop | bExtU | bExtV | bMerge | bDone | bFail | bFault => cases hfq
      | bLeaves => exact seen_insertingLeaf u
      | bInsW => exact seen_insertingMerged u
    | pDown =>
      cases f with
      | bIdle | bScan | bCheck | bInit | bLeaves | bLoop | bMerge | bInsW | bDone | bFail | bFault => cases hfq
      | bExtU => exact seen_takingFirst u
      | bExtV => exact seen_takingSecond u
  exact key u.tbFsm u.pqFsm h

theorem midway_of_view (h : buildView u = buildView v) (hv : midway v.tbFsm v.pqFsm = true) : midway u.tbFsm u.pqFsm = true := by
  rwa [show u.tbFsm = v.tbFsm from field_of_view _ h fun _ => rfl,
    show u.pqFsm = v.pqFsm from field_of_view _ h fun _ => rfl]

theorem unitsIdle_of_view (h : buildView u = buildView v) : unitsIdle u = unitsIdle v := field_of_view _ h fun _ => rfl

/-- Midway, a step's view depends on the state's view only. -/
theorem tick_of_view (h : buildView u = buildView v) (hmid : midway v.tbFsm v.pqFsm = true) (hv : tick v = .next w) :
    ∃ t, tick u = .next t ∧ buildView t = buildView w := by
  have hseen : seen (tick u) = .next (buildView w) := by
    rw [seen_tick (midway_of_view h hmid), h, ← seen_tick hmid, hv]
    rfl
  obtain ⟨t, ht, hview⟩ := andThen_eq_next.1 hseen
  exact ⟨t, ht, Host.Outcome.next.inj hview⟩

theorem Building.midway_of_succeeds (h : Building s u) (hu : Succeeds u) (hbusy : unitsIdle u = false) :
    midway u.tbFsm u.pqFsm = true := by
  have ofStates : ∀ f q, u.tbFsm = f → u.pqFsm = q → midway f q = true → midway u.tbFsm u.pqFsm = true := by
    rintro f q rfl rfl hm
    exact hm
  cases h with
  | scan hf _ h | init hf _ h | check hf h => exact ofStates _ _ hf h.queueIdle rfl
  | fail e hf h =>
    rcases hu with hu | ⟨hu, -⟩ <;> rw [hf] at hu <;> cases hu
  | leaves hf hp | insertingLeaf hf hp | loop _ hf hp | takeFirst _ hf hp | takingFirst _ hf hp | takeSecond _ hf hp
  | takingSecond _ hf hp | merge _ hf hp | insert _ hf hp | insertingMerged _ hf hp | done _ hf hp => exact ofStates _ _ hf hp rfl
  | failed hi | built hi => rw [hi] at hbusy; cases hbusy

theorem runUnits_of_view_idle (h : buildView u = buildView v) (hi : unitsIdle v = true) (hv : runUnits m v = .next w) :
    ∃ t, runUnits m u = .next t ∧ buildView t = buildView w := by
  rw [runUnits_idle hi] at hv
  cases hv
  exact ⟨u, runUnits_idle ((unitsIdle_of_view h).trans hi), h⟩

/-- What the builder's invariant says of a run holds, to the view, of every run from a state with the same view. -/
theorem runUnits_of_view (hs : Sound s) (hpos : 0 < symbolCount s) (hfits : totalCount s ≤ s.params.kmax)
    (hb : Building s v) (hsucc : Succeeds v) (h : buildView u = buildView v) (hv : runUnits m v = .next w) :
    ∃ t, runUnits m u = .next t ∧ buildView t = buildView w := by
  induction m generalizing u v with
  | zero =>
    cases hi : unitsIdle v with
    | true => exact runUnits_of_view_idle h hi hv
    | false => simp [runUnits, hi] at hv
  | succ m ih =>
    cases hi : unitsIdle v with
    | true => exact runUnits_of_view_idle h hi hv
    | false =>
      rw [runUnits_step hi] at hv
      obtain ⟨v', hstep, hv⟩ := andThen_eq_next.1 hv
      obtain ⟨u', hu', hview⟩ := tick_of_view h (hb.midway_of_succeeds hsucc hi) hstep
      obtain ⟨t, ht, hend⟩ := ih (hb.tick hs hi hstep) (hb.succeeds hsucc hpos hfits hi hstep) hview hv
      exact ⟨t, runUnits_of_tick ((unitsIdle_of_view h).trans hi) hu' ht, hend⟩

/-! ### The run from the start -/

theorem countsOf_countsOnly (s : State) : countsOf (countsOnly s) = countsOf s :=
  countsOf_congr rfl fun _ hi => ftAt_countsOnly hi

theorem countsOf_builderStart (s : State) : countsOf (builderStart s) = countsOf s := by
  simp only [countsOf, builderStart, setTbFsm_params, setACC_params, setN_params, setS_params, setTbFsm_ft, setACC_ft, setN_ft, setS_ft]

theorem countsOnly_congr (hp : s.params = t.params) (h : ∀ i, i < s.params.nsym → ftAt s i = ftAt t i) :
    countsOnly s = countsOnly t := by
  rw [countsOnly, countsOnly, hp, countsOf_congr hp fun i hi => h i (hp ▸ hi)]

theorem unitsIdle_countsOnly (s : State) : unitsIdle (countsOnly s) = true := rfl

/-- BUILD starts in the view of a block that has been reset and has the same counts. -/
theorem buildView_builderStart (hi : unitsIdle s = true) (hf : s.fatal = false) :
    buildView (builderStart s) = buildView (builderStart (countsOnly s)) := by
  obtain ⟨hp, -, hc⟩ := unitsIdle_iff.1 hi
  have hcounts : countsOf (builderStart s) = countsOf (builderStart (countsOnly s)) := by
    rw [countsOf_builderStart, countsOf_builderStart, countsOf_countsOnly]
  have hbare : bareView (builderStart s) = bareView (builderStart (countsOnly s)) := by
    dsimp only [bareView, builderStart, setTbFsm, setACC, setN, setS, liveStore, liveBuilder, countsOnly, State.resetAt]
    rw [hp, hc, hf]
    rfl
  rw [buildView, buildView, hbare, hcounts]

theorem build_countsOnly (hp : s.params.legal = true) (hpos : 0 < symbolCount s) (hfits : totalCount s ≤ s.params.kmax) :
    ∃ w, runToEnd (builderStart (countsOnly s)) = .next w ∧ Built (countsOnly s) w ∧ AnswersTree w :=
  build_succeeds (sound_countsOnly hp hfits) (unitsIdle_countsOnly s) rfl ((symbolCount_countsOnly s).symm ▸ hpos)
    ((totalCount_countsOnly s).symm ▸ hfits)

/-- BUILD from an idle state, given the run from a reset with the same counts. -/
theorem exec_build_of_countsOnly (hp : s.params.legal = true) (hi : unitsIdle s = true) (hf : s.fatal = false)
    (hpos : 0 < symbolCount s) (hfits : totalCount s ≤ s.params.kmax) (hw : runToEnd (builderStart (countsOnly s)) = .next w) :
    ∃ t, exec .build s = .next t ∧ buildView t = buildView w := by
  obtain ⟨t, ht, hview⟩ := runUnits_of_view (sound_countsOnly hp hfits) ((symbolCount_countsOnly s).symm ▸ hpos)
    ((totalCount_countsOnly s).symm ▸ hfits) (Building.start (unitsIdle_countsOnly s)) (.inl rfl) (buildView_builderStart hi hf) hw
  exact ⟨t, (unlessHalted_running _ hf).trans ht, hview⟩

/-- At the end the view keeps the result. -/
theorem result_of_view (h : buildView u = buildView v) (hi : unitsIdle v = true) : liveStore .bIdle u = liveStore .bIdle v := by
  have keeps : ∀ r, unitsIdle r = true → liveStore .bIdle (buildView r) = liveStore .bIdle r := fun r hr => by
    rw [buildView, bareView, (unitsIdle_iff.1 hr).2.1]
    rfl
  rw [← keeps u ((unitsIdle_of_view h).trans hi), h, keeps v hi]

/-- Settles O42: both blocks end, to the view, as the block after reset with their counts. -/
theorem buildDependsOnFtAlone : Obligations.BuildDependsOnFtAlone := by
  unfold Obligations.BuildDependsOnFtAlone
  intro s r hp hpar hs hr hsf hrf hft hpos hfits
  have hcounts : countsOnly s = countsOnly r := countsOnly_congr hpar hft
  have hsym : symbolCount s = symbolCount r := by rw [← symbolCount_countsOnly s, hcounts, symbolCount_countsOnly]
  have htot : totalCount s = totalCount r := by rw [← totalCount_countsOnly s, hcounts, totalCount_countsOnly]
  obtain ⟨w, hw, -, -⟩ := build_countsOnly hp hpos hfits
  obtain ⟨t, ht, htw⟩ := exec_build_of_countsOnly hp hs hsf hpos hfits hw
  obtain ⟨u, hu, huw⟩ := exec_build_of_countsOnly (hpar ▸ hp) hr hrf (hsym ▸ hpos) (htot ▸ hpar ▸ hfits) (hcounts ▸ hw)
  have hend : liveStore .bIdle t = liveStore .bIdle u := by
    rw [result_of_view htw (runUnits_ends_idle hw), result_of_view huw (runUnits_ends_idle hw)]
  have same : ∀ {β : Type} (f : State → β), (∀ v, f (liveStore .bIdle v) = f v) → f t = f u := fun f hf => field_of_view f hend hf
  exact ⟨t, u, ht, hu, same _ fun _ => rfl, same _ fun _ => rfl, same _ fun _ => rfl, same _ fun _ => rfl, same _ fun _ => rfl,
    same _ fun _ => rfl, same _ fun _ => rfl, same _ fun _ => rfl, same _ fun _ => rfl⟩

end Sys2Proof.Machine
end

section
/-!
PROOFS. One distinct symbol (41_tree_builder.md R178): the tree is one leaf, and GENCODE gives it the codeword "0" (R193).
-/

namespace Sys2Proof.Machine

open Sys2Proof.Summary

variable {s t u v w : State} {n : NodeRec} {sym k : Nat}

/-! ### Only B_FAULT sets FATAL -/

theorem QueueOnly.fatal_eq (h : QueueOnly s t) : t.fatal = s.fatal := by rw [h]

theorem builderStep_fatal (hf : ∀ e, s.tbFsm ≠ .bFault e) (h : builderStep s = .next t) : t.fatal = s.fatal := by
  unfold builderStep at h
  split at h
  · cases h; rfl
  · rcases scanStep_next h with ⟨-, -, rfl⟩ | ⟨-, -, rfl⟩ | ⟨-, rfl⟩ <;> rfl
  · rcases checkStep_next h with ⟨-, rfl⟩ | ⟨-, -, rfl⟩ | ⟨-, -, rfl⟩ <;> rfl
  · cases h; rfl
  · rcases leavesStep_next h with ⟨-, -, rfl⟩ | ⟨-, -, -, rfl⟩ | ⟨-, -, -, u, hu, ht⟩ | ⟨-, rfl⟩
    · rfl
    · rfl
    · obtain ⟨-, rfl⟩ := allocNode_eq_next.1 hu
      exact (insertStart_frame ht).fatal_eq
    · rfl
  · rcases loopStep_next h with ⟨-, rfl⟩ | ⟨-, rfl⟩ <;> rfl
  · rcases extractOrFault_next h with ⟨-, rfl⟩ | ⟨-, h⟩
    · rfl
    · exact (extractStart_frame h).fatal_eq
  · rcases extractOrFault_next h with ⟨-, rfl⟩ | ⟨-, h⟩
    · rfl
    · exact (extractStart_frame h).fatal_eq
  · obtain ⟨u, v, a, -, -, ha, rfl⟩ := mergeStep_next h
    obtain ⟨-, rfl⟩ := allocNode_eq_next.1 ha
    rfl
  · rcases insertMerged_next h with ⟨-, rfl⟩ | ⟨-, h⟩
    · rfl
    · exact (insertStart_frame h).fatal_eq
  · obtain ⟨r, n, -, -, rfl⟩ := doneStep_next h
    rfl
  · cases h; rfl
  · next e he => exact absurd he (hf e)

/-- A step of the builder or of its callee. -/
theorem tick_fatal (hb : s.tbFsm ≠ .bIdle) (hf : ∀ e, s.tbFsm ≠ .bFault e) (h : tick s = .next t) : t.fatal = s.fatal := by
  rcases tick_next h with ⟨-, u, hu, h⟩ | ⟨-, u, hu, h⟩ | ⟨-, hb', -⟩ | ⟨-, -, h⟩
  · have hu' := (upStep_frame hu).1.fatal_eq
    rcases whenPqIdle_eq_next.1 h with ⟨-, h⟩ | ⟨-, rfl⟩
    · rcases afterInsert_next h with ⟨-, rfl⟩ | ⟨-, rfl⟩ | ⟨-, rfl⟩ | ⟨-, -, -, rfl⟩ <;> exact hu'
    · exact hu'
  · have hu' := (downStep_frame hu).1.fatal_eq
    rcases whenPqIdle_eq_next.1 h with ⟨-, h⟩ | ⟨-, rfl⟩
    · rcases afterExtract_next h with ⟨-, n, -, rfl⟩ | ⟨-, rfl⟩ | ⟨-, rfl⟩ | ⟨-, -, -, rfl⟩ <;> exact hu'
    · exact hu'
  · exact absurd hb' hb
  · exact builderStep_fatal hf h

/-- A BUILD that ends with the tree leaves FATAL as it was. -/
theorem Building.runUnits_fatal (hs : Sound s) (hpos : 0 < symbolCount s) (hfits : totalCount s ≤ s.params.kmax) (hb : Building s u)
    (hu : Succeeds u) (h : runUnits k u = .next t) : t.fatal = u.fatal := by
  have hstep : ∀ v w, Building s v ∧ Succeeds v ∧ v.fatal = u.fatal → unitsIdle v = false → Machine.tick v = .next w →
      Building s w ∧ Succeeds w ∧ w.fatal = u.fatal := by
    rintro v w ⟨hb, hv, hf⟩ hbusy hw
    have hmid := hb.midway_of_succeeds hv hbusy
    refine ⟨hb.tick hs hbusy hw, hb.succeeds hv hpos hfits hbusy hw, (tick_fatal ?_ ?_ hw).trans hf⟩
    · exact fun hi => by rw [hi] at hmid; cases hmid
    · exact fun e he => by rw [he] at hmid; cases hmid
  exact (runUnits_induct hstep ⟨hb, hu, rfl⟩ h).2.2

/-! ### The tree of one symbol -/

/-- The counts below `k` sum up to those of the symbols that occur below `k`. -/
theorem sum_occBelow (s : State) (k : Nat) : ((occBelow s k).map fun i => (ftAt s i).toNat).sum = sumBelow s k := by
  induction k with
  | zero => rfl
  | succ k ih =>
    rw [sumBelow_succ, occBelow_succ, ← ih]
    split
    · next hz => simp [hz]
    · simp

theorem totalCount_single (h : occurring s = [sym]) : totalCount s = (ftAt s sym).toNat := by
  have hsum := sum_occBelow s s.params.nsym
  rw [show occBelow s s.params.nsym = [sym] from h] at hsum
  exact hsum.symm.trans (List.sum_singleton ..)

theorem leafOf_congr (hp : t.params = s.params) (hf : ftAt t sym = ftAt s sym) : leafOf t sym = leafOf s sym := by
  rw [leafOf, leafOf, hp, hf]

/-- The tree that BUILD makes of one symbol is its leaf. -/
structure SingleLeaf (s t : State) (sym : Nat) : Prop where
  root : t.root = 0
  nleaf : t.nleaf = 1
  nodeCnt : t.nodeCnt = 1
  leaf : nodeAt t 0 = some (leafOf s sym)

theorem Built.singleLeaf (h : Built s t) (ho : occurring s = [sym]) : SingleLeaf s t sym := by
  obtain ⟨inner, hforest⟩ := h.forest
  have hocc : occurring t = [sym] := (occurring_congr h.counts h.params).trans ho
  have hleaves : t.nleaf.toNat = 1 := by rw [h.leaves, hocc]; rfl
  have hroot := (hforest.treeShape h.sound.arena h.sound.legal h.leaves).rootIs
  have hcount : 1 + inner.length = (occurring t).length := hforest.count
  have hcnt : t.nodeCnt.toNat = (occurring t).length + inner.length := hforest.nodeCnt_eq h.sound.arena
  have hleaf := hforest.nodeAt_leaf h.sound.arena (i := 0) (sym := sym) (by rw [show occBelow t t.params.nsym = [sym] from hocc]; rfl)
  rw [hocc, List.length_singleton] at hcount hcnt
  refine ⟨BitVec.eq_of_toNat_eq (?_ : _ = 0), BitVec.eq_of_toNat_eq hleaves, BitVec.eq_of_toNat_eq (?_ : _ = 1),
    hleaf.trans (congrArg some (leafOf_congr h.params (congrFun (ftAt_congr h.counts) sym)))⟩
  · omega
  · omega

/-- Where one symbol occurs, BUILD makes its leaf and answers with its count. -/
theorem exec_build_single (hp : s.params.legal = true) (hi : unitsIdle s = true) (hf : s.fatal = false) (ho : occurring s = [sym])
    (hfits : (ftAt s sym).toNat ≤ s.params.kmax) :
    ∃ t, exec .build s = .next t ∧ SingleLeaf s t sym ∧ t.treeValid = true ∧ t.rsp = some (okWord 0 (ftAt s sym)) ∧
      t.params = s.params ∧ unitsIdle t = true ∧ t.fatal = false := by
  have hpos : 0 < symbolCount s := by rw [symbolCount, ho]; exact Nat.one_pos
  have htot : totalCount s ≤ s.params.kmax := (totalCount_single ho).trans_le hfits
  have hsym : sym < s.params.nsym := (mem_occurring.1 (ho ▸ List.mem_singleton_self sym)).1
  obtain ⟨w, hw, hb, hv, n, hn, hrsp⟩ := build_countsOnly hp hpos htot
  obtain ⟨t, ht, hview⟩ := exec_build_of_countsOnly hp hi hf hpos htot hw
  have hfatal : w.fatal = false := Building.runUnits_fatal (sound_countsOnly hp htot) ((symbolCount_countsOnly s).symm ▸ hpos)
    ((totalCount_countsOnly s).symm ▸ htot) (Building.start (unitsIdle_countsOnly s)) (.inl rfl) hw
  have hidle : unitsIdle w = true := runUnits_ends_idle hw
  have hend := result_of_view hview hidle
  obtain ⟨hroot, hnleaf, hcnt, hleaf⟩ := hb.singleLeaf ((occurring_countsOnly s).trans ho)
  rw [leafOf_congr (s := s) (t := countsOnly s) rfl (ftAt_countsOnly hsym)] at hleaf
  have hnw : n = leafOf s sym := by
    rw [hroot] at hn
    exact Option.some.inj (hn.symm.trans hleaf)
  have same : ∀ {β : Type} (f : State → β), (∀ v, f (liveStore .bIdle v) = f v) → f t = f w := fun f hf => field_of_view f hend hf
  refine ⟨t, ht, ⟨?_, ?_, ?_, ?_⟩, ?_, ?_, ?_, ?_, ?_⟩
  · exact (same State.root fun _ => rfl).trans hroot
  · exact (same State.nleaf fun _ => rfl).trans hnleaf
  · exact (same State.nodeCnt fun _ => rfl).trans hcnt
  · exact (same (nodeAt · 0) fun _ => rfl).trans hleaf
  · exact (same State.treeValid fun _ => rfl).trans hv
  · rw [same State.rsp fun _ => rfl, hrsp, hroot, hnw]
    rfl
  · exact (same State.params fun _ => rfl).trans hb.params
  · exact (unitsIdle_of_view hview).trans hidle
  · exact (field_of_view State.fatal hview fun _ => rfl).trans hfatal

/-! ### Its codeword -/

/-- G_START where the root is a leaf records "0" and goes to G_DONE. -/
def singleCode (i : Symbol) (s : State) : State := setCrFsm .gDone (setCNT 1 (putCw (freshTable s) i 1 0))

@[simp] theorem singleCode_pqFsm (i : Symbol) (s : State) : (singleCode i s).pqFsm = s.pqFsm := by simp [singleCode, freshTable]

@[simp] theorem singleCode_tbFsm (i : Symbol) (s : State) : (singleCode i s).tbFsm = s.tbFsm := by simp [singleCode, freshTable]

@[simp] theorem singleCode_crFsm (i : Symbol) (s : State) : (singleCode i s).crFsm = .gDone := rfl

@[simp] theorem singleCode_cw (i : Symbol) (s : State) : (singleCode i s).cw = [(i.toNat, { len := 1, bits := 0 })] := rfl

/-- G_DONE answers with one codeword. -/
def singleCodeDone (i : Symbol) (s : State) : State := respondOk 1 0 (setCrFsm .gIdle (setCwReady true (singleCode i s)))

@[simp] theorem singleCodeDone_cw (i : Symbol) (s : State) : (singleCodeDone i s).cw = [(i.toNat, { len := 1, bits := 0 })] := by
  simp [singleCodeDone]

section
variable (hp : s.pqFsm = .pIdle) (hb : s.tbFsm = .bIdle)
include hp hb

theorem tick_recorder : tick s = recorderStep s := by simp only [tick, hp, hb, if_true]

theorem tick_singleCode (hc : s.crFsm = .gStart) (hn : nodeAt s s.root.toNat = some n) (hl : n.leaf = true)
    (hsym : n.sym.toNat < s.params.nsym) : tick s = .next (singleCode n.sym s) := by
  rw [tick_recorder hp hb, recorderStep, hc]
  dsimp only
  have hroom : n.sym.toNat < (freshTable s).params.nsym := by simpa [freshTable] using hsym
  rw [recorderStart, readNode_some _ hn, if_pos hl, writeCw_eq_next.2 ⟨hroom, rfl⟩, andThen_next, singleCode]

theorem tick_singleCodeDone (i : Symbol) : tick (singleCode i s) = .next (singleCodeDone i s) := by
  rw [tick_recorder (by simp [hp]) (by simp [hb]), recorderStep, singleCode_crFsm]
  rfl

theorem unitsIdle_singleCodeDone (i : Symbol) : unitsIdle (singleCodeDone i s) = true := by
  rw [unitsIdle_iff]
  simp [singleCodeDone, hp, hb]

/-- The recorder's run where the root is a leaf. -/
theorem runUnits_singleCode (hc : s.crFsm = .gStart) (hn : nodeAt s s.root.toNat = some n) (hl : n.leaf = true)
    (hsym : n.sym.toNat < s.params.nsym) : runUnits 2 s = .next (singleCodeDone n.sym s) :=
  runUnits_of_tick (by simp [unitsIdle, hc]) (tick_singleCode hp hb hc hn hl hsym)
    (runUnits_of_tick (by simp [unitsIdle]) (tick_singleCodeDone hp hb _) (runUnits_idle (unitsIdle_singleCodeDone hp hb _)))

end

theorem exec_genCode_leaf (hi : unitsIdle s = true) (hf : s.fatal = false) (hv : s.treeValid = true)
    (hn : nodeAt s s.root.toNat = some n) (hl : n.leaf = true) (hsym : n.sym.toNat < s.params.nsym) :
    exec .genCode s = .next (singleCodeDone n.sym (setCrFsm .gStart s)) := by
  obtain ⟨hp, hb, -⟩ := unitsIdle_iff.1 hi
  calc execGenCode s = runToEnd (setCrFsm .gStart s) := by rw [execGenCode, unlessHalted_running _ hf, if_pos hv]
    _ = _ := runUnits_mono (by decide) (runUnits_singleCode (by simp [hp]) (by simp [hb]) (by simp) hn hl hsym)

/-- Settles O43: the tree by `exec_build_single`, the codeword by `exec_genCode_leaf`. -/
theorem singleSymbolGetsTheCodewordZero : Obligations.SingleSymbolGetsTheCodewordZero := by
  unfold Obligations.SingleSymbolGetsTheCodewordZero
  intro s sym hp hi hf ho hfits
  have hsym : sym < s.params.nsym := (mem_occurring.1 (ho ▸ List.mem_singleton_self sym)).1
  have hn := (Params.nsym_bounds hp).2
  have hval : (BitVec.ofNat 8 sym).toNat = sym := by simp; omega
  obtain ⟨t, ht, ⟨hroot, hnleaf, hcnt, hleaf⟩, hv, hrsp, hpar, hidle, hrun⟩ := exec_build_single hp hi hf ho hfits
  have hcode := exec_genCode_leaf (n := leafOf s sym) hidle hrun hv (by rw [hroot]; exact hleaf) rfl
    (by rw [hpar]; exact hval.trans_lt hsym)
  refine ⟨t, _, ht, hroot, hnleaf, hcnt, hv, hleaf, hrsp, hcode, ?_, rfl, rfl, by decide +kernel⟩
  rw [singleCodeDone_cw]
  exact congrArg (fun i => [(i, _)]) hval

end Sys2Proof.Machine
end

section
/-!
PROOFS. CW_RD (42_codeword_recorder.md R206).
-/

namespace Sys2Proof.Machine

variable {s : State} {a k : Nat} {c : Codeword}

theorem wordSelOf_of_lt (h : k < s.params.cwWords) : wordSelOf s k = some k := if_pos h

theorem wordSelOf_of_ge (h : s.params.cwWords ≤ k) : wordSelOf s k = none := if_neg h.not_gt

/-- Word `k` of a codeword's bits holds digits `32k` to `32k + 31`. -/
theorem codewordWord_digit (bits : Bits) (k : Nat) {j : Nat} (hj : j < 32) :
    (codewordWord bits k).getLsbD j = digitAt bits (32 * k + j) := by
  simp [codewordWord, digitAt, hj]

section
variable (hrun : s.fatal = false)
include hrun

section
variable (hp : s.params.legal = true) (ha : a < s.params.nsym) (hk : k < s.params.cwWords)
include hp ha hk

theorem exec_cwRd_some (hc : cwAt s a = some c) :
    exec (.cwRd a k) s = .next (respondOk (packFlag 8 true c.len) (codewordWord c.bits k) s) := by
  simp only [exec, execCwRd, unlessHalted_running _ hrun, symbolOf_of_lt ha, wordSelOf_of_lt hk, withOperand_some,
    toNat_symbol hp ha, hc]

theorem exec_cwRd_none (hc : cwAt s a = none) : exec (.cwRd a k) s = .next (respondOk 0 0 s) := by
  simp only [exec, execCwRd, unlessHalted_running _ hrun, symbolOf_of_lt ha, wordSelOf_of_lt hk, withOperand_some,
    toNat_symbol hp ha, hc]

end

theorem exec_cwRd_badOperand (h : s.params.nsym ≤ a ∨ s.params.cwWords ≤ k) :
    exec (.cwRd a k) s = .next (raise .badOperand s) := by
  rw [exec, execCwRd, unlessHalted_running _ hrun]
  rcases Nat.lt_or_ge a s.params.nsym with ha | ha
  · rw [symbolOf_of_lt ha, withOperand_some, wordSelOf_of_ge (h.resolve_left ha.not_ge), withOperand_none]
  · rw [symbolOf_of_ge ha, withOperand_none]

end

/-- Settles O29: a coded symbol by `exec_cwRd_some`, whose word's digits are `codewordWord_digit`'s, one without a codeword by
`exec_cwRd_none`. -/
theorem codewordReadReturnsTheWord : Obligations.CodewordReadReturnsTheWord := by
  refine ⟨fun s a k c hp hrun ha hk hc => ?_, fun s a k hp hrun ha hk hc => ?_, fun s a k hrun h => exec_cwRd_badOperand hrun h⟩
  · exact ⟨codewordWord c.bits k, exec_cwRd_some hrun hp ha hk hc, fun j hj => codewordWord_digit _ _ hj⟩
  · exact exec_cwRd_none hrun hp ha hk (by simpa [cwValid] using hc)

end Sys2Proof.Machine
end

section
/-!
PROOFS. The transitions of CR_FSM (42_codeword_recorder.md R192).
-/

namespace Sys2Proof.Machine

open Sys2Proof.Summary

variable {s t u v : State}

/-- GENCODE with a tree runs the recorder from G_START. -/
theorem exec_genCode_run (hrun : s.fatal = false) (hv : s.treeValid = true) :
    exec .genCode s = runToEnd (setCrFsm .gStart s) := by
  rw [exec, execGenCode, unlessHalted_running _ hrun, if_pos hv]

/-- A step of the recorder leads where the transition table says. -/
theorem recorderStep_goesTo (h : recorderStep s = .next t) : recorderGoesTo s = some t.crFsm := by
  unfold recorderStep at h
  split at h
  · next hf => cases h; simp [recorderGoesTo, hf]
  · next hf =>
    obtain ⟨n, hn, ⟨hl, u, -, rfl⟩ | ⟨hl, rfl⟩⟩ := recorderStart_next h <;> simp [recorderGoesTo, hf, hn, hl]
  · next hf =>
    obtain ⟨n, hn, ⟨hl, u, -, rfl⟩ | ⟨hl, u, hu, rfl⟩⟩ := descendStep_next h
    · simp [recorderGoesTo, hf, hn, hl]
    · obtain ⟨-, rfl⟩ := writeTstk_eq_next.1 hu
      simp [recorderGoesTo, hf, hn, hl]
  · next hf =>
    rcases ascendStep_next h with ⟨hd, rfl⟩ | ⟨hd, hdig, x, n, -, -, rfl⟩ | ⟨hd, hdig, rfl⟩
    · simp [recorderGoesTo, hf, hd]
    · simp only [recorderGoesTo, hf, if_neg hd, hdig, Bool.false_eq_true, if_false, setCrFsm_crFsm]
    · simp only [recorderGoesTo, hf, if_neg hd, if_pos hdig, setDEPTH_crFsm, setPATH_crFsm, dropTstk_crFsm]
  · next hf => cases h; simp [recorderGoesTo, hf]

/-- Settles O44: GENCODE enters G_START by `exec_genCode_run`, and a step of the idle queue and builder is the recorder's
(`tick_recorder`), which leads where the table says (`recorderStep_goesTo`). -/
theorem recorderMachineTransitions : Obligations.RecorderMachineTransitions :=
  ⟨fun _ hrun hv => exec_genCode_run hrun hv, fun _ _ hp hb h => recorderStep_goesTo (tick_recorder hp hb ▸ h)⟩

end Sys2Proof.Machine
end

section
/-!
PROOFS. The leaves of the tree (10_state.md R43 item 5): the subtrees of a record's two children have no record in common, so each of the
NLEAF leaves lies below exactly one of them.
-/

namespace Sys2Proof.Machine

variable {s : State} {i a b c p q l r : Nat} {n : NodeRec}

theorem childOf_left (hn : nodeAt s p = some n) (hl : n.leaf = false) : ChildOf s p n.left.toNat := ⟨n, hn, hl, .inl rfl⟩

theorem childOf_right (hn : nodeAt s p = some n) (hl : n.leaf = false) : ChildOf s p n.right.toNat := ⟨n, hn, hl, .inr rfl⟩

theorem ChildOf.lt (ha : ArenaOk s) (h : ChildOf s p c) : c < p := by
  obtain ⟨n, hn, hl, rfl | rfl⟩ := h
  · exact (ha.inner hn hl).leftBelow
  · exact (ha.inner hn hl).rightBelow

theorem Below.le (ha : ArenaOk s) (h : Below s p c) : c ≤ p := by
  induction h with
  | refl => exact le_rfl
  | tail _ hc ih => exact (hc.lt ha).le.trans ih

section
variable (ht : TreeShape s) (ha : ArenaOk s)
include ht ha

/-- A record below ROOT has one parent. -/
theorem TreeShape.parent_eq (hc : c < s.root.toNat) (hp : ChildOf s p c) (hq : ChildOf s q c) : p = q := by
  obtain ⟨n, hn⟩ := hp
  obtain ⟨m, hm⟩ := hq
  exact congrArg Prod.fst (ht.parent_unique hc ((mem_parentsOf ha).2 hn) ((mem_parentsOf ha).2 hm))

/-- Of two records of the tree above the same record, one is above the other. -/
theorem TreeShape.below_total (hr : a ≤ s.root.toNat) (hac : Below s a c) (hbc : Below s b c) : Below s a b ∨ Below s b a := by
  induction hac with
  | refl => exact .inr hbc
  | tail ham hmc ih =>
    rcases Relation.ReflTransGen.cases_tail hbc with rfl | ⟨q, hbq, hqc⟩
    · exact .inl (ham.tail hmc)
    · have hlt := (hmc.lt ha).trans_le (Below.le ha ham)
      exact ih (ht.parent_eq ha (hlt.trans_le hr) hmc hqc ▸ hbq)

/-- A record is not in the subtree of its sibling. -/
theorem TreeShape.not_below_sibling (hp : p ≤ s.root.toNat) (hl : ChildOf s p l) (hr : ChildOf s p r) (hne : l ≠ r) :
    ¬ Below s l r := by
  intro h
  rcases Relation.ReflTransGen.cases_tail h with rfl | ⟨q, hlq, hqr⟩
  · exact hne rfl
  · have hqp := ht.parent_eq ha ((hr.lt ha).trans_le hp) hqr hr
    have hle := Below.le ha hlq
    have hlt := hl.lt ha
    omega

/-- The subtrees of a record's two children are disjoint. -/
theorem TreeShape.subtrees_disjoint (hp : p ≤ s.root.toNat) (hn : nodeAt s p = some n) (hl : n.leaf = false)
    (hlc : Below s n.left.toNat c) : ¬ Below s n.right.toNat c := by
  intro hrc
  have hleft := childOf_left hn hl
  have hright := childOf_right hn hl
  have hne : n.left.toNat ≠ n.right.toNat := fun h => (ha.inner hn hl).distinct (BitVec.eq_of_toNat_eq h)
  rcases ht.below_total ha ((hleft.lt ha).le.trans hp) hlc hrc with h | h
  · exact ht.not_below_sibling ha hp hleft hright hne h
  · exact ht.not_below_sibling ha hp hright hleft hne.symm h

end

/-! ### The leaves below a record -/

open Classical in
/-- The leaves of the tree in the subtree of record `i`. -/
noncomputable def leavesBelow (s : State) (i : Nat) : Finset Nat := (Finset.range s.nleaf.toNat).filter (Below s i)

theorem mem_leavesBelow : c ∈ leavesBelow s i ↔ c < s.nleaf.toNat ∧ Below s i c := by
  simp [leavesBelow]

theorem TreeShape.leavesBelow_leaf (ht : TreeShape s) (hi : i ≤ s.root.toNat) (hn : nodeAt s i = some n) (hl : n.leaf = true) :
    leavesBelow s i = {i} := by
  ext c
  rw [mem_leavesBelow, Finset.mem_singleton]
  refine ⟨fun h => h.2.eq_of_leaf hn hl, ?_⟩
  rintro rfl
  exact ⟨ht.leaf_lt hi hn hl, .refl⟩

section
variable (ht : TreeShape s) (ha : ArenaOk s)
include ht ha

theorem TreeShape.leavesBelow_root : leavesBelow s s.root.toNat = Finset.range s.nleaf.toNat := by
  ext c
  rw [mem_leavesBelow, Finset.mem_range]
  refine and_iff_left_of_imp fun hc => ht.below_root ha ?_
  have hroot := ht.rootIs
  omega

variable (hi : i ≤ s.root.toNat) (hn : nodeAt s i = some n) (hl : n.leaf = false)
include hi hn hl

omit ha in
/-- An internal record of the tree comes after the leaves. -/
theorem TreeShape.nleaf_le : s.nleaf.toNat ≤ i := by
  have h := ht.leavesFirst i hi n hn
  rw [hl] at h
  simpa using h.symm

omit ha in
theorem TreeShape.mem_leavesBelow_inner :
    c ∈ leavesBelow s i ↔ c ∈ leavesBelow s n.left.toNat ∨ c ∈ leavesBelow s n.right.toNat := by
  simp only [mem_leavesBelow, ← and_or_left]
  refine and_congr_right fun hc => ⟨fun h => ?_, ?_⟩
  · refine (h.cases_inner hn).resolve_left ?_
    rintro rfl
    exact hc.not_ge (ht.nleaf_le hi hn hl)
  · rintro (h | h)
    · exact .head (childOf_left hn hl) h
    · exact .head (childOf_right hn hl) h

theorem TreeShape.card_leavesBelow_inner :
    (leavesBelow s i).card = (leavesBelow s n.left.toNat).card + (leavesBelow s n.right.toNat).card := by
  have hunion : leavesBelow s i = leavesBelow s n.left.toNat ∪ leavesBelow s n.right.toNat := by
    ext c
    rw [Finset.mem_union, ht.mem_leavesBelow_inner hi hn hl]
  rw [hunion, Finset.card_union_of_disjoint]
  exact Finset.disjoint_left.2 fun c hc hc' =>
    ht.subtrees_disjoint ha hi hn hl (mem_leavesBelow.1 hc).2 (mem_leavesBelow.1 hc').2

end

end Sys2Proof.Machine
end

section
/-!
PROOFS. The recursion `walk` of GENCODE (42_codeword_recorder.md R190): `Walked` is its evaluation, by the constructors of the tree. On a
tree it answers; it counts the leaves, codes the symbol of each, and no other, and its codewords lead to them.
-/

namespace Sys2Proof.Machine

open Sys2Proof.Summary

variable {s : State} {i : NodeRef} {n : NodeRec} {d : Nat} {p : Bits} {t u w : Table} {c c' : Codeword} {sym sym' : Nat}

/-! ### Where a path leads -/

/-- Digits 0 to `d - 1` of a path. -/
def pathDigits (d : Nat) (p : Bits) : List Bool := (List.range d).map (digitAt p)

theorem pathDigits_succ (d : Nat) (p : Bits) : pathDigits (d + 1) p = pathDigits d p ++ [digitAt p d] := by
  simp [pathDigits, List.range_succ]

theorem setDigit_true (p : Bits) (d : Nat) : setDigit p d true = p ||| (1#256 <<< d) := rfl

theorem pathDigits_setDigit (hd : d < 256) (b : Bool) : pathDigits d (setDigit p d b) = pathDigits d p :=
  List.map_congr_left fun j hj => by
    have hj := List.mem_range.1 hj
    rw [digitAt_setDigit _ _ _ _ (by omega), if_neg hj.ne]

theorem follow_append (s : State) (j : Nat) (xs ys : List Bool) :
    follow s j (xs ++ ys) = (follow s j xs).bind fun k => follow s k ys := by
  induction xs generalizing j with
  | nil => rfl
  | cons x xs ih =>
    rw [List.cons_append, follow, follow]
    cases nodeAt s j with
    | none => rfl
    | some n => cases hl : n.leaf <;> simp [hl, ih]

/-- A digit leads from an internal record to one of its children. -/
theorem follow_child {j : Nat} (hn : nodeAt s j = some n) (hl : n.leaf = false) (b : Bool) :
    follow s j [b] = some (if b then n.right.toNat else n.left.toNat) := by
  simp [follow, hn, hl]

/-- No digit leads on from a leaf. -/
theorem follow_leaf {j k : Nat} (hn : nodeAt s j = some n) (hl : n.leaf = true) {ds : List Bool} (h : follow s j ds = some k) :
    ds = [] ∧ k = j := by
  cases ds with
  | nil => exact ⟨rfl, (Option.some.inj h).symm⟩
  | cons b ds => simp [follow, hn, hl] at h

/-- The digits of `c` lead from ROOT to a leaf of symbol `sym`. -/
def LeadsToLeaf (s : State) (c : Codeword) (sym : Nat) : Prop :=
  ∃ j n, follow s s.root.toNat (digitsOf c) = some j ∧ nodeAt s j = some n ∧ n.leaf = true ∧ n.sym.toNat = sym

/-- R200: codewords that lead to leaves of different symbols are not prefixes of each other. -/
theorem LeadsToLeaf.not_prefix (h : LeadsToLeaf s c sym) (h' : LeadsToLeaf s c' sym') (hne : sym ≠ sym') :
    ¬ digitsOf c <+: digitsOf c' := by
  rintro ⟨rest, hrest⟩
  obtain ⟨j, n, hj, hn, hl, rfl⟩ := h
  obtain ⟨k, m, hk, hm, -, rfl⟩ := h'
  rw [← hrest, follow_append, hj, Option.bind_some] at hk
  obtain ⟨-, rfl⟩ := follow_leaf hn hl hk
  obtain rfl : n = m := Option.some.inj (hn.symm.trans hm)
  exact hne rfl

/-! ### The evaluation -/

/-- The table after the leaf `n` has been reached by the `d` digits of `p`. -/
def addCode (n : NodeRec) (d : Nat) (p : Bits) (t : Table) : Table :=
  { cw := arrSet t.cw n.sym.toNat { len := BitVec.ofNat 8 d, bits := p }, cnt := t.cnt + 1 }

/-- The walk from record `i`, reached by the `d` digits of `p`, with the table `t` before and the table `w` after it. -/
inductive Walked (s : State) : NodeRef → Nat → Bits → Table → Table → Prop
  | leaf {i : NodeRef} {d : Nat} {p : Bits} {t : Table} {n : NodeRec} : nodeAt s i.toNat = some n → n.leaf = true →
      Walked s i d p t (addCode n d p t)
  | inner {i : NodeRef} {d : Nat} {p : Bits} {t u w : Table} {n : NodeRec} : nodeAt s i.toNat = some n → n.leaf = false →
      Walked s n.left (d + 1) p t u → Walked s n.right (d + 1) (setDigit p d true) u w → Walked s i d p t w

/-- With fuel for the records below it, the walk from a record of the arena answers. -/
theorem walk_answers (ha : ArenaOk s) {fuel : Nat} (hi : i.toNat < s.nodeCnt.toNat) (hf : i.toNat < fuel) :
    ∃ w, walk s fuel i d p t = some w ∧ Walked s i d p t w := by
  induction fuel generalizing i d p t with
  | zero => exact absurd hf (Nat.not_lt_zero _)
  | succ fuel ih =>
    obtain ⟨n, hn⟩ := ha.exists_node hi
    cases hl : n.leaf with
    | true => exact ⟨addCode n d p t, by rw [walk, hn]; exact if_pos hl, .leaf hn hl⟩
    | false =>
      have hleft := (ha.inner hn hl).leftBelow
      have hright := (ha.inner hn hl).rightBelow
      obtain ⟨u, hu, hwu⟩ := ih (i := n.left) (d := d + 1) (p := p) (t := t) (by omega) (by omega)
      obtain ⟨w, hw, hww⟩ := ih (i := n.right) (d := d + 1) (p := setDigit p d true) (t := u) (by omega) (by omega)
      refine ⟨w, ?_, .inner hn hl hwu hww⟩
      simpa [walk, hn, hl, hu, setDigit_true] using hw

/-! ### A block that holds a tree -/

/-- What GENCODE needs of a block. -/
structure HoldsTree (s : State) : Prop where
  legal : s.params.legal = true
  arena : ArenaOk s
  shape : TreeShape s
  symbols : ∀ e ∈ s.node, e.2.sym.toNat < s.params.nsym

theorem CoreInv.holdsTree (h : CoreInv s) (ht : TreeOk s) (hv : s.treeValid = true) : HoldsTree s :=
  ⟨h.legal, h.arena, ht.tree hv, h.widths.symbols⟩

theorem HoldsTree.symbol_lt (h : HoldsTree s) {j : Nat} (hn : nodeAt s j = some n) : n.sym.toNat < s.params.nsym :=
  h.symbols _ (arrGet_mem hn)

/-- A tree of NODE has at most NSYM leaves (R176). -/
theorem HoldsTree.nleaf_le_nsym (h : HoldsTree s) : s.nleaf.toNat ≤ s.params.nsym := by
  have hroot := h.shape.rootIs
  have hin := h.shape.inArena
  have hcnt := h.arena.cntLe
  have hmax := s.params.nodeMax_eq
  omega

/-- Record `i` of the tree is reached from ROOT by the `d` digits of `p`. -/
structure PathTo (s : State) (i : NodeRef) (d : Nat) (p : Bits) : Prop where
  depth : d + i.toNat ≤ s.root.toNat
  short : d + s.nleaf.toNat ≤ s.root.toNat + 1
  zeros : ∀ j, d ≤ j → digitAt p j = false
  leads : follow s s.root.toNat (pathDigits d p) = some i.toNat

theorem PathTo.root (ht : TreeShape s) : PathTo s s.root 0 0 where
  depth := (Nat.zero_add _).le
  short := by
    have := ht.someLeaf
    have := ht.rootIs
    omega
  zeros j _ := by simp [digitAt]
  leads := rfl

theorem PathTo.le_root (h : PathTo s i d p) : i.toNat ≤ s.root.toNat := by
  have := h.depth
  omega

section
variable (hs : HoldsTree s) (h : PathTo s i d p)
include hs h

omit hs in
/-- A path has fewer digits than the tree has leaves (R201). -/
theorem PathTo.depth_lt_nleaf (ht : TreeShape s) : d + 1 ≤ s.nleaf.toNat := by
  have := h.short
  have := ht.rootIs
  omega

/-- The length of a path fits `len`. -/
theorem PathTo.toNat_depth : (BitVec.ofNat 8 d).toNat = d := by
  have := h.depth_lt_nleaf hs.shape
  have := hs.nleaf_le_nsym
  have := (Params.nsym_bounds hs.legal).2
  exact Nat.mod_eq_of_lt (by omega)

variable (hn : nodeAt s i.toNat = some n) (hl : n.leaf = false)
include hn hl

/-- The path to an internal record is shorter than CODE_MAX, since the records on it get smaller (R201). -/
theorem PathTo.depth_lt : d < s.params.codeMax := by
  have hdepth := h.depth
  have hinner := hs.shape.nleaf_le h.le_root hn hl
  have hroot := hs.shape.rootIs
  have hleaves := hs.nleaf_le_nsym
  have hmax := s.params.codeMax_eq
  omega

theorem PathTo.lt_256 : d + 1 < 256 := by
  have := h.depth_lt hs hn hl
  obtain ⟨-, -, -, hmax, -⟩ := Params.sizes_fit hs.legal
  omega

omit hs in
/-- Below an internal record a path is one digit longer. -/
theorem PathTo.short_succ (ht : TreeShape s) : d + 1 + s.nleaf.toNat ≤ s.root.toNat + 1 := by
  have := h.depth
  have := ht.nleaf_le h.le_root hn hl
  omega

theorem PathTo.left : PathTo s n.left (d + 1) p where
  depth := by
    have := h.depth
    have := (hs.arena.inner hn hl).leftBelow
    omega
  short := h.short_succ hn hl hs.shape
  zeros j hj := h.zeros j (by omega)
  leads := by
    rw [pathDigits_succ, follow_append, h.leads, Option.bind_some, h.zeros d le_rfl, follow_child hn hl]
    rfl

theorem PathTo.right : PathTo s n.right (d + 1) (setDigit p d true) where
  depth := by
    have := h.depth
    have := (hs.arena.inner hn hl).rightBelow
    omega
  short := h.short_succ hn hl hs.shape
  zeros j hj := digitAt_setDigit_beyond (d := d + 1) (fun j hj _ => h.zeros j (by omega)) (by omega) hj
  leads := by
    have hd := h.lt_256 hs hn hl
    rw [pathDigits_succ, pathDigits_setDigit (by omega), digitAt_setDigit _ _ _ _ (by omega), if_pos rfl, follow_append, h.leads,
      Option.bind_some, follow_child hn hl]
    rfl

end

/-! ### What the walk does to the table -/

/-- `c` is the codeword of the path to a leaf of symbol `sym`. -/
inductive CodesLeaf (s : State) : Nat → Codeword → Prop
  | intro {i : NodeRef} {d : Nat} {p : Bits} {n : NodeRec} : PathTo s i d p → nodeAt s i.toNat = some n → n.leaf = true →
      CodesLeaf s n.sym.toNat { len := BitVec.ofNat 8 d, bits := p }

theorem CodesLeaf.leadsToLeaf (h : CodesLeaf s sym c) (hs : HoldsTree s) : LeadsToLeaf s c sym := by
  obtain ⟨hpath, hn, hl⟩ := h
  refine ⟨_, _, ?_, hn, hl, rfl⟩
  rw [digitsOf, hpath.toNat_depth hs]
  exact hpath.leads

/-- Symbol `sym` has a codeword in the table. -/
def Covers (t : Table) (sym : Nat) : Prop := (arrGet t.cw sym).isSome = true

theorem covers_addCode (n : NodeRec) (d : Nat) (p : Bits) (t : Table) (sym : Nat) :
    Covers (addCode n d p t) sym ↔ Covers t sym ∨ n.sym.toNat = sym := by
  rw [Covers, Covers, addCode, arrGet_set]
  split
  · next h => simp [h]
  · next h => simp [Ne.symm h]

section
variable (hs : HoldsTree s) (h : Walked s i d p t w) (hpath : PathTo s i d p)
include hs h hpath

/-- The walk adds codewords of leaves only. -/
theorem Walked.entry (hc : arrGet w.cw sym = some c) : arrGet t.cw sym = some c ∨ CodesLeaf s sym c := by
  induction h with
  | leaf hn hl =>
    rw [addCode, arrGet_set] at hc
    split at hc
    · next hsym =>
      cases hc
      exact .inr (hsym ▸ .intro hpath hn hl)
    · exact .inl hc
  | inner hn hl _ _ ihl ihr =>
    rcases ihr (hpath.right hs hn hl) hc with hc | hc
    · exact ihl (hpath.left hs hn hl) hc
    · exact .inr hc

/-- The walk codes the symbols of the leaves below its record. -/
theorem Walked.covers_iff :
    Covers w sym ↔ Covers t sym ∨ ∃ j ∈ leavesBelow s i.toNat, ∃ n, nodeAt s j = some n ∧ n.sym.toNat = sym := by
  induction h with
  | leaf hn hl => simp [covers_addCode, hs.shape.leavesBelow_leaf hpath.le_root hn hl, hn]
  | inner hn hl _ _ ihl ihr =>
    simp only [ihr (hpath.right hs hn hl), ihl (hpath.left hs hn hl), hs.shape.mem_leavesBelow_inner hpath.le_root hn hl,
      or_and_right, exists_or, or_assoc]

/-- The walk counts the leaves below its record. -/
theorem Walked.cnt_eq : w.cnt = t.cnt + (leavesBelow s i.toNat).card := by
  induction h with
  | leaf hn hl => rw [hs.shape.leavesBelow_leaf hpath.le_root hn hl, Finset.card_singleton, addCode]
  | inner hn hl _ _ ihl ihr =>
    rw [ihr (hpath.right hs hn hl), ihl (hpath.left hs hn hl), hs.shape.card_leavesBelow_inner hs.arena hpath.le_root hn hl,
      Nat.add_assoc]

end

/-! ### The recorded table -/

/-- The table before the walk. -/
def emptyTable : Table := { cw := [], cnt := 0 }

/-- How GENCODE comes to its table: the codeword "0" for a single leaf, else the walk from ROOT. -/
inductive Records (s : State) : Table → Prop
  | single {n : NodeRec} : nodeAt s s.root.toNat = some n → n.leaf = true →
      Records s { cw := arrSet [] n.sym.toNat { len := 1, bits := 0 }, cnt := 1 }
  | walked {n : NodeRec} {w : Table} : nodeAt s s.root.toNat = some n → n.leaf = false →
      Walked s s.root 0 0 emptyTable w → Records s w

theorem recordedTable_answers (hs : HoldsTree s) : ∃ w, recordedTable s = some w ∧ Records s w := by
  obtain ⟨n, hn⟩ := hs.arena.exists_node hs.shape.inArena
  cases hl : n.leaf with
  | true => exact ⟨_, by rw [recordedTable, hn]; exact if_pos hl, .single hn hl⟩
  | false =>
    obtain ⟨w, hw, hwalk⟩ := walk_answers (d := 0) (p := 0) (t := emptyTable) hs.arena hs.shape.inArena (Nat.lt_succ_self _)
    exact ⟨w, by rw [recordedTable, hn]; exact (if_neg (by simp [hl])).trans hw, .walked hn hl hwalk⟩

/-- A tree has one leaf exactly when ROOT is that leaf. -/
theorem TreeShape.root_leaf_iff (ht : TreeShape s) (hn : nodeAt s s.root.toNat = some n) : n.leaf = true ↔ s.nleaf.toNat = 1 := by
  have := ht.rootIs
  rw [ht.leavesFirst _ le_rfl n hn, decide_eq_true_iff]
  omega

section
variable (h : Records s w) (hs : HoldsTree s)
include h hs

/-- CNT = NLEAF (R200). -/
theorem Records.cnt_eq : w.cnt = s.nleaf.toNat := by
  cases h with
  | single hn hl => exact ((hs.shape.root_leaf_iff hn).1 hl).symm
  | walked hn hl hwalk =>
    rw [hwalk.cnt_eq hs (.root hs.shape), hs.shape.leavesBelow_root hs.arena, Finset.card_range]
    exact Nat.zero_add _

/-- Exactly the symbols of the leaves have a codeword (R200). -/
theorem Records.covers_iff : Covers w sym ↔ leafSymbol s sym = true := by
  rw [leafSymbol_iff]
  cases h with
  | single hn hl =>
    have hone := (hs.shape.root_leaf_iff hn).1 hl
    have hroot : s.root.toNat = 0 := by
      have := hs.shape.rootIs
      omega
    rw [hroot] at hn
    simp [Covers, arrSet, arrGet, hone, hn]
  | walked hn hl hwalk =>
    simp only [hwalk.covers_iff hs (.root hs.shape), hs.shape.leavesBelow_root hs.arena, Finset.mem_range]
    simp [Covers, emptyTable]

/-- In a tree with two leaves or more every codeword leads from ROOT to its leaf. -/
theorem Records.codesLeaf (htwo : 2 ≤ s.nleaf.toNat) (hc : arrGet w.cw sym = some c) : CodesLeaf s sym c := by
  cases h with
  | single hn hl =>
    have := (hs.shape.root_leaf_iff hn).1 hl
    omega
  | walked hn hl hwalk => exact (hwalk.entry hs (.root hs.shape) hc).resolve_left nofun

/-- In a tree with one leaf there is one codeword, "0". -/
theorem Records.single_eq (hone : s.nleaf.toNat = 1) : ∃ sym, w.cw = [(sym, { len := 1, bits := 0 })] := by
  cases h with
  | single hn hl => exact ⟨_, rfl⟩
  | walked hn hl hwalk =>
    rw [(hs.shape.root_leaf_iff hn).2 hone] at hl
    cases hl

/-- No codeword is a prefix of another (R200). -/
theorem Records.not_prefix (hne : sym ≠ sym') (hc : arrGet w.cw sym = some c) (hc' : arrGet w.cw sym' = some c') :
    ¬ digitsOf c <+: digitsOf c' := by
  by_cases htwo : 2 ≤ s.nleaf.toNat
  · exact ((h.codesLeaf hs htwo hc).leadsToLeaf hs).not_prefix ((h.codesLeaf hs htwo hc').leadsToLeaf hs) hne
  · have hsome := hs.shape.someLeaf
    obtain ⟨k, hk⟩ := h.single_eq hs (by omega)
    have only : ∀ {i e}, arrGet w.cw i = some e → k = i := fun {i e} he => by
      rw [hk, arrGet_cons] at he
      by_contra hki
      rw [if_neg hki] at he
      cases he
    exact absurd ((only hc).symm.trans (only hc')) hne

end

end Sys2Proof.Machine
end

section
/-!
PROOFS. CR_FSM computes the recursion (42_codeword_recorder.md R198): entered in G_DESCEND at a record, the recorder arrives in G_ASCEND
with the table of the walk from that record, and with DEPTH, PATH and TSTK as they were.
-/

namespace Sys2Proof.Machine

open Sys2Proof.Summary

variable {s u v x : State} {i cur : NodeRef} {n : NodeRec} {d j k : Nat} {p : Bits} {stk : Arr NodeRef} {t w : Table}

/-! ### Runs of a known length -/

/-- `k` steps lead from `u` to `v`. -/
def Leads (k : Nat) (u v : State) : Prop := ∀ m, runUnits (k + m) u = runUnits m v

theorem Leads.step (hb : unitsIdle u = false) (ht : tick u = .next v) : Leads 1 u v := fun m => by
  rw [Nat.add_comm, runUnits_step hb, ht, andThen_next]

theorem Leads.trans (h : Leads j u v) (h' : Leads k v x) : Leads (j + k) u x := fun m => by
  rw [Nat.add_assoc, h, h']

/-- A run that comes to rest within the bound of R263 is the command's. -/
theorem Leads.runToEnd (h : Leads k u v) (hi : unitsIdle v = true) (hk : k ≤ Config.STEP_BOUND) : runToEnd u = .next v := by
  refine runUnits_mono hk ?_
  rw [← Nat.add_zero k, h, runUnits_idle hi]

/-! ### The digit on top of PATH -/

theorem setDigit_digitAt {b : Bool} (h : digitAt p d = b) : setDigit p d b = p := by
  refine BitVec.eq_of_getLsbD_eq fun j hj => ?_
  rw [← digitAt, ← digitAt, digitAt_setDigit _ _ _ _ hj]
  split
  · next he => rw [he, h]
  · rfl

theorem setDigit_setDigit (p : Bits) (d : Nat) (a b : Bool) : setDigit (setDigit p d a) d b = setDigit p d b := by
  refine BitVec.eq_of_getLsbD_eq fun j hj => ?_
  rw [← digitAt, ← digitAt, digitAt_setDigit _ _ _ _ hj, digitAt_setDigit _ _ _ _ hj, digitAt_setDigit _ _ _ _ hj]
  split <;> rfl

/-- Popping what was pushed. -/
theorem Dense.erase_push {α : Type} {m : Arr α} (h : Dense d m) (v : α) : arrErase (arrSet m d v) d = m := by
  have hkeep : ∀ e ∈ m, (e.1 != d) = true := fun e he => by simpa using (h.key_lt he).ne
  rw [h.arrSet_end]
  simp [arrErase, List.filter_append, List.filter_eq_self.2 hkeep]

/-! ### The steps as equations -/

theorem recorderStart_inner (hn : nodeAt u u.root.toNat = some n) (hl : n.leaf = false) :
    recorderStart u = .next (setCrFsm .gDescend (setCUR u.root (freshTable u))) := by
  rw [recorderStart, readNode_some _ hn, if_neg (by simp [hl])]

theorem descendStep_leaf (hn : nodeAt u u.cr.CUR.toNat = some n) (hl : n.leaf = true) (hsym : n.sym.toNat < u.params.nsym) :
    descendStep u = .next (setCrFsm .gAscend (setCNT (u.cr.CNT + 1) (putCw u n.sym u.cr.DEPTH u.cr.PATH))) := by
  rw [descendStep, readNode_some _ hn, if_pos hl, Machine.recordLeaf, writeCw_eq_next.2 ⟨hsym, rfl⟩, andThen_next, putCw_cr]

theorem descendStep_inner (hn : nodeAt u u.cr.CUR.toNat = some n) (hl : n.leaf = false) (hd : u.cr.DEPTH.toNat = d)
    (hroom : d < u.params.codeMax) :
    descendStep u =
      .next (setCUR n.left (setDEPTH (u.cr.DEPTH + 1) (setPATH (setDigit u.cr.PATH d false) (putTstk u d u.cr.CUR)))) := by
  rw [descendStep, readNode_some _ hn, if_neg (by simp [hl]), Machine.descendLeft, hd, writeTstk_eq_next.2 ⟨hroom, rfl⟩, andThen_next,
    putTstk_cr, hd]

theorem ascendStep_top (hd : u.cr.DEPTH = 0) : ascendStep u = .next (setCrFsm .gDone u) := if_pos hd

theorem ne_zero_of_toNat_succ (hd : u.cr.DEPTH.toNat = d + 1) : u.cr.DEPTH ≠ 0 := fun h => by simp [h] at hd

theorem ascendStep_left (hd : u.cr.DEPTH.toNat = d + 1) (hdig : digitAt u.cr.PATH d = false) (hi : tstkAt u d = some i)
    (hn : nodeAt u i.toNat = some n) :
    ascendStep u = .next (setCrFsm .gDescend (setCUR n.right (setPATH (setDigit u.cr.PATH d true) u))) := by
  rw [ascendStep, if_neg (ne_zero_of_toNat_succ hd), hd, Nat.add_sub_cancel, if_neg (by simp [hdig]), Machine.turnRight, readTstk_some _ hi,
    readNode_some _ hn]

theorem ascendStep_right (hd : u.cr.DEPTH.toNat = d + 1) (hdig : digitAt u.cr.PATH d = true) :
    ascendStep u = .next (setDEPTH (u.cr.DEPTH - 1) (setPATH (setDigit u.cr.PATH d false) (dropTstk u d))) := by
  rw [ascendStep, if_neg (ne_zero_of_toNat_succ hd), hd, Nat.add_sub_cancel, if_pos hdig, Machine.popDigit]

/-! ### The recorder at work -/

/-- The block of `s` with its recorder in state `f` at record `cur`, `d` digits of `p` deep, with the stack `stk` and the table `t`. -/
def recording (s : State) (f : CrState) (cur : NodeRef) (d : Nat) (p : Bits) (stk : Arr NodeRef) (t : Table) : State :=
  { s with
    crFsm := f, cr := { CUR := cur, DEPTH := BitVec.ofNat 8 d, PATH := p, CNT := BitVec.ofNat 9 t.cnt }, tstk := stk, cw := t.cw }

theorem ofNat_sub_one {m : Nat} (k : Nat) : BitVec.ofNat m (k + 1) - 1 = BitVec.ofNat m k :=
  (congrArg (· - 1#m) (BitVec.ofNat_add k 1)).trans (BitVec.add_sub_cancel ..)

section
variable (hs : HoldsTree s) (hpq : s.pqFsm = .pIdle) (htb : s.tbFsm = .bIdle)
include hpq htb

/-- A step of the recorder at work. -/
theorem leads_recording {f : CrState} (hf : f ≠ .gIdle) (hstep : recorderStep (recording s f cur d p stk t) = .next v) :
    Leads 1 (recording s f cur d p stk t) v :=
  .step (by simpa [unitsIdle, recording] using fun _ _ => hf) ((tick_recorder (s := recording s f cur d p stk t) hpq htb).trans hstep)

include hs

/-- R194: a leaf gets its codeword. -/
theorem leads_recordLeaf (hn : nodeAt s i.toNat = some n) (hl : n.leaf = true) :
    Leads 1 (recording s .gDescend i d p stk t) (recording s .gAscend i d p stk (addCode n d p t)) :=
  leads_recording hpq htb nofun <| (descendStep_leaf (u := recording s .gDescend i d p stk t) hn hl (hs.symbol_lt hn)).trans <| by
    simp only [recording, addCode, BitVec.ofNat_add]
    rfl

variable (hpath : PathTo s i d p) (hn : nodeAt s i.toNat = some n) (hl : n.leaf = false)
include hpath hn hl

/-- R195: an internal record is pushed and its left child entered. -/
theorem leads_descendLeft :
    Leads 1 (recording s .gDescend i d p stk t) (recording s .gDescend n.left (d + 1) p (arrSet stk d i) t) :=
  leads_recording hpq htb nofun <| (descendStep_inner (u := recording s .gDescend i d p stk t) hn hl (hpath.toNat_depth hs)
    (d := d) (show d < s.params.codeMax from hpath.depth_lt hs hn hl)).trans <| by
      rw [show (recording s .gDescend i d p stk t).cr.PATH = p from rfl, setDigit_digitAt (hpath.zeros d le_rfl)]
      simp only [recording, BitVec.ofNat_add]
      rfl

/-- R196: after the left subtree the right child is entered. -/
theorem leads_turnRight : Leads 1 (recording s .gAscend cur (d + 1) p (arrSet stk d i) t)
    (recording s .gDescend n.right (d + 1) (setDigit p d true) (arrSet stk d i) t) :=
  leads_recording hpq htb nofun <| ascendStep_left (u := recording s .gAscend cur (d + 1) p (arrSet stk d i) t)
    (Nat.mod_eq_of_lt (hpath.lt_256 hs hn hl)) (hpath.zeros d le_rfl) (arrGet_set_self ..) hn

/-- R196: after the right subtree the digit and the record are popped. -/
theorem leads_popDigit (hstk : Dense d stk) : Leads 1 (recording s .gAscend cur (d + 1) (setDigit p d true) (arrSet stk d i) t)
    (recording s .gAscend cur d p stk t) :=
  have hd := hpath.lt_256 hs hn hl
  leads_recording hpq htb nofun <| (ascendStep_right (u := recording s .gAscend cur (d + 1) (setDigit p d true) (arrSet stk d i) t)
    (Nat.mod_eq_of_lt hd) ((digitAt_setDigit _ _ _ _ (by omega)).trans (if_pos rfl))).trans <| by
      rw [show (recording s .gAscend cur (d + 1) (setDigit p d true) (arrSet stk d i) t).cr.PATH = setDigit p d true from rfl,
        setDigit_setDigit, setDigit_digitAt (hpath.zeros d le_rfl)]
      simp only [setDEPTH, setPATH, dropTstk, recording, hstk.erase_push, ofNat_sub_one]

end

/-- R198: entered at a record, the recorder comes back with the table of the walk, four steps for each leaf but three (R202). -/
theorem Walked.leads (hs : HoldsTree s) (hpq : s.pqFsm = .pIdle) (htb : s.tbFsm = .bIdle) (h : Walked s i d p t w)
    (hpath : PathTo s i d p) (hstk : Dense d stk) :
    ∃ cur k, k + 4 * t.cnt + 3 = 4 * w.cnt ∧ Leads k (recording s .gDescend i d p stk t) (recording s .gAscend cur d p stk w) := by
  induction h generalizing stk with
  | leaf hn hl => exact ⟨_, 1, by simp only [addCode]; omega, leads_recordLeaf hs hpq htb hn hl⟩
  | inner hn hl _ _ ihl ihr =>
    obtain ⟨c1, k1, hk1, hleft⟩ := ihl (hpath.left hs hn hl) (hstk.push _)
    obtain ⟨c2, k2, hk2, hright⟩ := ihr (hpath.right hs hn hl) (hstk.push _)
    exact ⟨c2, 1 + k1 + 1 + k2 + 1, by omega, ((((leads_descendLeft hs hpq htb hpath hn hl).trans hleft).trans
      (leads_turnRight hs hpq htb hpath hn hl)).trans hright).trans (leads_popDigit hs hpq htb hpath hn hl hstk)⟩

end Sys2Proof.Machine
end

section
/-!
PROOFS. The command GENCODE as its recursion (42_codeword_recorder.md R190), and the way from the counts to the code (R200).
-/

namespace Sys2Proof.Machine

open Sys2Proof.Summary

variable {s t u : State} {n : NodeRec} {w : Table} {c : Codeword} {cur : NodeRef} {cr : CrRegs} {i sym : Nat}

/-! ### GENCODE -/

/-- The block after a GENCODE that recorded the table `w`. -/
def withCodes (s : State) (w : Table) (cr : CrRegs) : State :=
  { s with crFsm := .gIdle, cw := w.cw, cwReady := true, cr := cr, tstk := [], rsp := some (okWord (BitVec.ofNat 24 w.cnt) 0) }

section
variable (hpq : s.pqFsm = .pIdle) (htb : s.tbFsm = .bIdle)
include hpq htb

/-- R193: where ROOT is an internal record the walk begins there with a fresh table. -/
theorem leads_startWalk (hn : nodeAt s s.root.toNat = some n) (hl : n.leaf = false) :
    Leads 1 (setCrFsm .gStart s) (recording s .gDescend s.root 0 0 [] emptyTable) :=
  .step (by simp [unitsIdle]) <| calc
    tick (setCrFsm .gStart s) = recorderStart (setCrFsm .gStart s) := tick_recorder (s := setCrFsm .gStart s) hpq htb
    _ = .next (setCrFsm .gDescend (setCUR s.root (freshTable (setCrFsm .gStart s)))) :=
      recorderStart_inner (u := setCrFsm .gStart s) hn hl
    _ = .next (recording s .gDescend s.root 0 0 [] emptyTable) := by
      simp only [setCrFsm, setCUR, freshTable, emptyTstk, invalidateCw, setPATH, setDEPTH, setCNT, recording, emptyTable]
      rfl

/-- R196: at depth 0 the walk is over. -/
theorem leads_endWalk : Leads 1 (recording s .gAscend cur 0 0 [] w) (recording s .gDone cur 0 0 [] w) :=
  leads_recording hpq htb nofun (ascendStep_top (u := recording s .gAscend cur 0 0 [] w) rfl)

/-- R197: the table is announced and CNT answered. -/
theorem leads_done (hcnt : w.cnt < 512) :
    Leads 1 (recording s .gDone cur 0 0 [] w) (withCodes s w (recording s .gDone cur 0 0 [] w).cr) := by
  have hanswer : (BitVec.ofNat 9 w.cnt).setWidth 24 = BitVec.ofNat 24 w.cnt := by
    refine BitVec.eq_of_toNat_eq ?_
    simp only [BitVec.toNat_setWidth, BitVec.toNat_ofNat]
    rw [Nat.mod_eq_of_lt hcnt]
  refine leads_recording hpq htb nofun ?_
  rw [withCodes, ← hanswer]
  rfl

end

theorem singleCodeDone_eq (i : Symbol) (s : State) :
    singleCodeDone i (setCrFsm .gStart s) =
      withCodes s { cw := arrSet [] i.toNat { len := 1, bits := 0 }, cnt := 1 } (singleCodeDone i (setCrFsm .gStart s)).cr := by
  simp only [singleCodeDone, singleCode, withCodes, respondOk, respond, setCrFsm, setCwReady, setCNT, putCw, freshTable, emptyTstk,
    invalidateCw, setPATH, setDEPTH]
  rfl

/-- GENCODE ends with the table of its recursion (R198), within the bound of R263. -/
theorem exec_genCode_records (hs : HoldsTree s) (hi : unitsIdle s = true) (hf : s.fatal = false) (hv : s.treeValid = true)
    (hw : Records s w) : ∃ cr, exec .genCode s = .next (withCodes s w cr) := by
  obtain ⟨hpq, htb, -⟩ := unitsIdle_iff.1 hi
  have hcnt : w.cnt ≤ 256 := (hw.cnt_eq hs).trans_le (hs.nleaf_le_nsym.trans (Params.nsym_bounds hs.legal).2)
  cases hw with
  | single hn hl => exact ⟨_, (exec_genCode_leaf hi hf hv hn hl (hs.symbol_lt hn)).trans (congrArg _ (singleCodeDone_eq ..))⟩
  | walked hn hl hwalk =>
    obtain ⟨cur, k, hk, hrun⟩ := hwalk.leads hs hpq htb (.root hs.shape) (stk := []) rfl
    have hall := (((leads_startWalk hpq htb hn hl).trans hrun).trans (leads_endWalk hpq htb)).trans (leads_done hpq htb (by omega))
    have hbound : 1 + k + 1 + 1 ≤ Config.STEP_BOUND := by
      rw [show Config.STEP_BOUND = 11274 from rfl]
      omega
    exact ⟨_, (exec_genCode_run hf hv).trans (hall.runToEnd (unitsIdle_iff.2 ⟨hpq, htb, rfl⟩) hbound)⟩

theorem exec_genCode_noTree (hf : s.fatal = false) (hv : s.treeValid = false) : exec .genCode s = .next (raise .noTree s) := by
  rw [exec, execGenCode, unlessHalted_running _ hf, if_neg (by simp [hv])]

/-- Settles O45: the recursion answers (`recordedTable_answers`), and the recorder ends with its table (`exec_genCode_records`, by induction
on the evaluation of the recursion: `Walked.leads`); without a tree by `exec_genCode_noTree`. -/
theorem gencodeRecordsTheWalk : Obligations.GencodeRecordsTheWalk := by
  refine ⟨fun s hf hv => exec_genCode_noTree hf hv, fun s hs ht hv => ?_⟩
  have hhold := hs.holdsTree ht hv
  obtain ⟨w, hw, hrec⟩ := recordedTable_answers hhold
  obtain ⟨cr, hrun⟩ := exec_genCode_records hhold hs.idle hs.notFatal hv hrec
  refine ⟨_, w, hw, hrun, ?_⟩
  simp only [withCodes, (unitsIdle_iff.1 hs.idle).2.2, hs.stackEmpty]

/-! ### BUILD -/

/-- A block with the tree of the symbols that occur in `s`, ready for GENCODE. -/
structure TreeOfCounts (s t : State) : Prop where
  holdsTree : HoldsTree t
  idle : unitsIdle t = true
  running : t.fatal = false
  valid : t.treeValid = true
  params : t.params = s.params
  nleaf : t.nleaf.toNat = symbolCount s
  symbols : ∀ sym, leafSymbol t sym = true ↔ sym ∈ occurring s

/-- The leaves of a finished tree are those of the symbols that occur (R169). -/
theorem Built.leafSymbol_iff (h : Built s t) (sym : Nat) : leafSymbol t sym = true ↔ sym ∈ occurring t := by
  obtain ⟨inner, hforest⟩ := h.forest
  have hsmall : ∀ {i k}, (occurring t)[i]? = some k → (BitVec.ofNat 8 k).toNat = k := fun hk =>
    toNat_symbol h.sound.legal (mem_occurring.1 (List.mem_of_getElem? hk)).1
  have hleaf : ∀ {i k}, (occurring t)[i]? = some k → nodeAt t i = some (leafOf t k) := hforest.nodeAt_leaf h.sound.arena
  rw [Machine.leafSymbol_iff, List.mem_iff_getElem?, h.leaves]
  refine exists_congr fun i => ⟨?_, fun hk => ?_⟩
  · rintro ⟨hi, n, hn, rfl⟩
    have hk := List.getElem?_eq_getElem hi
    rw [hleaf hk] at hn
    cases hn
    exact hk.trans (congrArg some (hsmall hk).symm)
  · exact ⟨(List.getElem?_eq_some_iff.1 hk).1, _, hleaf hk, hsmall hk⟩

/-- BUILD leaves the tree of the symbols that occur. -/
theorem exec_build_tree (hp : s.params.legal = true) (hi : unitsIdle s = true) (hf : s.fatal = false) (hpos : 0 < symbolCount s)
    (hfits : totalCount s ≤ s.params.kmax) : ∃ t, exec .build s = .next t ∧ TreeOfCounts s t := by
  obtain ⟨w, hw, hb, -⟩ := build_countsOnly hp hpos hfits
  obtain ⟨t, ht, hview⟩ := exec_build_of_countsOnly hp hi hf hpos hfits hw
  have hfatal : w.fatal = false := Building.runUnits_fatal (sound_countsOnly hp hfits) ((symbolCount_countsOnly s).symm ▸ hpos)
    ((totalCount_countsOnly s).symm ▸ hfits) (Building.start (unitsIdle_countsOnly s)) (.inl rfl) hw
  have hidle : unitsIdle w = true := runUnits_ends_idle hw
  have hend := result_of_view hview hidle
  have same : ∀ {β : Type} (f : State → β), (∀ v, f (liveStore .bIdle v) = f v) → f t = f w := fun f hf => field_of_view f hend hf
  have hparams : t.params = w.params := same State.params fun _ => rfl
  have hnode : t.node = w.node := same State.node fun _ => rfl
  have hcnt : t.nodeCnt = w.nodeCnt := same State.nodeCnt fun _ => rfl
  have hnleaf : t.nleaf = w.nleaf := same State.nleaf fun _ => rfl
  have hocc : occurring w = occurring s := (occurring_congr hb.counts hb.params).trans (occurring_countsOnly s)
  have hshape : TreeShape w := hb.treeOk.tree hb.valid
  refine ⟨t, ht, ⟨hparams ▸ hb.sound.legal, hb.sound.arena.congr hparams hnode hcnt,
    hshape.congr hnode hcnt (same State.root fun _ => rfl) hnleaf, ?_⟩, (unitsIdle_of_view hview).trans hidle,
    (field_of_view State.fatal hview fun _ => rfl).trans hfatal, (same State.treeValid fun _ => rfl).trans hb.valid,
    hparams.trans hb.params, ?_, fun sym => ?_⟩
  · rw [hnode, hparams]
    exact hb.sound.widths.symbols
  · rw [hnleaf, hb.leaves, hocc]
    rfl
  · rw [show leafSymbol t sym = leafSymbol w sym from same (leafSymbol · sym) fun _ => rfl, hb.leafSymbol_iff, hocc]

/-! ### From the counts to the code -/

theorem follow_congr (h : u.node = t.node) (i : Nat) (ds : List Bool) : follow u i ds = follow t i ds := by
  induction ds generalizing i with
  | nil => rfl
  | cons d ds ih => simp only [follow, nodeAt, h, ih]

/-- The codewords of the tree lead to its leaves also in the block that has recorded them. -/
theorem LeadsToLeaf.congr (h : LeadsToLeaf t c sym) (hn : u.node = t.node) (hr : u.root = t.root) : LeadsToLeaf u c sym := by
  simpa only [LeadsToLeaf, follow_congr hn, hr, nodeAt, hn] using h

/-- Settles O49: BUILD leaves the tree of the symbols that occur (`exec_build_tree`), GENCODE the table of its walk
(`exec_genCode_records`), of which the lemmas of `Records` say what it holds. -/
theorem buildAndGencodeMakeAPrefixCode : Obligations.BuildAndGencodeMakeAPrefixCode := by
  intro s hp hi hf hpos hfits
  obtain ⟨t, ht, htree⟩ := exec_build_tree hp hi hf hpos hfits
  have hs := htree.holdsTree
  obtain ⟨w, -, hw⟩ := recordedTable_answers hs
  obtain ⟨cr, hu⟩ := exec_genCode_records hs htree.idle htree.running htree.valid hw
  refine ⟨t, _, ht, hu, ?_, fun sym hsym => ?_, fun _ _ _ _ hne => hw.not_prefix hs hne, fun htwo _ _ hc => ?_, fun hone sym c hc => ?_⟩
  · rw [← htree.nleaf, ← hw.cnt_eq hs]
    rfl
  · have hcovers : cwValid (withCodes t w cr) sym = true ↔ sym ∈ occurring s := (hw.covers_iff hs).trans (htree.symbols sym)
    rw [Bool.eq_iff_iff, hcovers, mem_occurring, decide_eq_true_iff, and_iff_right hsym]
  · exact ((hw.codesLeaf hs (htree.nleaf ▸ htwo) hc).leadsToLeaf hs).congr rfl rfl
  · obtain ⟨k, hk⟩ := hw.single_eq hs (htree.nleaf.trans hone)
    have hget : arrGet [(k, ({ len := 1, bits := 0 } : Codeword))] sym = some c := hk ▸ hc
    rw [arrGet_cons, arrGet_nil, Option.ite_none_right_eq_some] at hget
    cases hget.2
    rfl

end Sys2Proof.Machine
end

section
/-!
PROOFS. The system commands CLEAR and CSR_RD (43_system.md R210, R212).
-/

namespace Sys2Proof.Machine

variable {s t u : State} {i : Instr} {c : Nat} {e : ErrKind}

/-! ### What only CLEAR and reset take back: FATAL and the bits of ERRFLAGS (10_state.md R34, 60_exceptions.md R233) -/

/-- Every bit of ERRFLAGS that is set stays set. -/
def FlagsKept (s t : State) : Prop := ∀ k, s.errflags.getLsbD k = true → t.errflags.getLsbD k = true

theorem FlagsKept.of_eq (h : t.errflags = s.errflags) : FlagsKept s t := fun k hk => by rwa [h]

theorem FlagsKept.trans (h : FlagsKept s t) (h' : FlagsKept t u) : FlagsKept s u := fun k hk => h' k (h k hk)

theorem FlagsGrow.kept (h : FlagsGrow s t) : FlagsKept s t := by
  rcases h with h | ⟨e, h⟩
  · exact .of_eq h
  · intro k hk
    rw [h, setErrBit_bit, hk, Bool.true_or]

theorem flagsKept_raise (e : ErrKind) (s : State) : FlagsKept s (raise e s) := FlagsGrow.kept (.inr ⟨e, rfl⟩)

/-- The run of a unit keeps the bits, since each of its steps does. -/
theorem flagsKept_runToEnd (hu : u.errflags = s.errflags) (h : runToEnd u = .next t) : FlagsKept s t :=
  runUnits_induct (P := FlagsKept s) (fun _ _ hv _ hw => hv.trans (tick_flags hw).kept) (.of_eq hu) h

/-- FATAL, when it is set, and the bits of ERRFLAGS stay set. -/
def ErrorsKept (s t : State) : Prop := (s.fatal = true → t.fatal = true) ∧ FlagsKept s t

theorem errorsKept_raise (e : ErrKind) (s : State) : ErrorsKept s (raise e s) := ⟨id, flagsKept_raise e s⟩

/-- Past the halt check FATAL is 0, so that only the bits are left to keep. -/
theorem errorsKept_unlessHalted {k : Result} (h : unlessHalted s k = .next t) (hk : k = .next t → FlagsKept s t) :
    ErrorsKept s t := by
  rcases unlessHalted_eq_next.1 h with ⟨-, rfl⟩ | ⟨hrun, h⟩
  · exact errorsKept_raise .halted s
  · exact ⟨fun hf => absurd hf (by simp [hrun]), hk h⟩

theorem flagsKept_withOperand {α : Type} {o : Option α} {k : α → Result} (h : withOperand o s k = .next t)
    (hk : ∀ v, k v = .next t → FlagsKept s t) : FlagsKept s t := by
  rcases withOperand_eq_next.1 h with ⟨-, rfl⟩ | ⟨v, -, h⟩
  · exact flagsKept_raise .badOperand s
  · exact hk v h

/-- Every command but CLEAR keeps FATAL and the bits of ERRFLAGS. -/
theorem exec_errorsKept (hi : i ≠ .clear) (h : exec i s = .next t) : ErrorsKept s t := by
  cases i with
  | clear => exact absurd rfl hi
  | csrRd a =>
    rcases withOperand_eq_next.1 h with ⟨-, rfl⟩ | ⟨c, -, h⟩
    · exact errorsKept_raise .badOperand s
    · cases h; exact ⟨id, .of_eq rfl⟩
  | ftWr a b =>
    exact errorsKept_unlessHalted h fun h => flagsKept_withOperand h fun sym h => flagsKept_withOperand h fun f h => by
      cases h; exact .of_eq rfl
  | ftRd a =>
    exact errorsKept_unlessHalted h fun h => flagsKept_withOperand h fun sym h => by cases h; exact .of_eq rfl
  | leaf a b =>
    refine errorsKept_unlessHalted h fun h => flagsKept_withOperand h fun sym h => flagsKept_withOperand h fun f h => ?_
    split at h
    · cases h; exact flagsKept_raise .arenaFull s
    · obtain ⟨u, hu, h⟩ := andThen_eq_next.1 h
      obtain ⟨-, rfl⟩ := allocNode_eq_next.1 hu
      cases h; exact .of_eq rfl
  | nodeRd a | nodeCh a =>
    refine errorsKept_unlessHalted h fun h => flagsKept_withOperand h fun x h => ?_
    obtain ⟨n, -, h⟩ := readNode_eq_next.1 h
    cases h; exact .of_eq rfl
  | pqInit a =>
    exact errorsKept_unlessHalted h fun h => flagsKept_withOperand h fun cap h => by cases h; exact .of_eq rfl
  | pqIns a =>
    refine errorsKept_unlessHalted h fun h => flagsKept_withOperand h fun x h => ?_
    split at h
    · cases h; exact flagsKept_raise .queueFull s
    · obtain ⟨u, hu, h⟩ := andThen_eq_next.1 h
      exact flagsKept_runToEnd (insertStart_frame hu).errflags_eq h
  | pqExt =>
    refine errorsKept_unlessHalted h fun h => ?_
    split at h
    · cases h; exact flagsKept_raise .emptyQueue s
    · obtain ⟨u, hu, h⟩ := andThen_eq_next.1 h
      exact flagsKept_runToEnd (extractStart_frame hu).errflags_eq h
  | heapRd a =>
    refine errorsKept_unlessHalted h fun h => flagsKept_withOperand h fun k h => ?_
    obtain ⟨x, -, h⟩ := readSlot_eq_next.1 h
    obtain ⟨f, -, h⟩ := readKey_eq_next.1 h
    cases h; exact .of_eq rfl
  | build => exact errorsKept_unlessHalted h (flagsKept_runToEnd rfl)
  | genCode =>
    refine errorsKept_unlessHalted h fun h => ?_
    split at h
    · exact flagsKept_runToEnd (setCrFsm_errflags ..) h
    · cases h; exact flagsKept_raise .noTree s
  | cwRd a b =>
    refine errorsKept_unlessHalted h fun h => flagsKept_withOperand h fun sym h => flagsKept_withOperand h fun k h => ?_
    split at h <;> cases h <;> exact .of_eq rfl

/-! ### CLEAR -/

/-- Settles O21: the other commands by `exec_errorsKept`; CLEAR's values are those it writes, and its state the reset state by
`visible_clear`. -/
theorem clearPutsTheBlockInItsResetState : Obligations.ClearPutsTheBlockInItsResetState := by
  refine ⟨fun i s t hi _ h => exec_errorsKept hi h, fun s hidle => ⟨_, rfl, rfl, ?_⟩⟩
  refine ⟨fun _ => rfl, rfl, rfl, rfl, rfl, rfl, rfl, rfl, rfl, fun _ => rfl, rfl, fun _ => rfl, fun _ => rfl, visible_clear hidle rfl⟩

/-! ### CSR_RD -/

theorem exec_csrRd (h : c < 8) : exec (.csrRd c) s = .next (respondOk 0 (csrValue s c) s) := by
  rw [exec, execCsrRd, csrOf, csrCount, if_pos h, withOperand_some]

theorem exec_csrRd_badOperand (h : 7 < c) : exec (.csrRd c) s = .next (raise .badOperand s) := by
  rw [exec, execCsrRd, csrOf, csrCount, if_neg (by omega), withOperand_none]

/-- The ID of a legal block fits its 32 bits (10_state.md R33). -/
theorem toNat_csrValue_id (hp : s.params.legal = true) : (csrValue s 0).toNat = 2 ^ 16 + 2 ^ 8 * s.params.kw + s.params.symW := by
  obtain ⟨-, hsym, -, hkw⟩ := Params.legal_iff.1 hp
  have hid : s.params.id = 2 ^ 16 + 2 ^ 8 * s.params.kw + s.params.symW := by
    rw [Params.id, Config.VERSION, Nat.one_mul, Nat.mul_comm]
  rw [csrValue, BitVec.toNat_ofNat, hid]
  exact Nat.mod_eq_of_lt (by omega)

/-- STATUS, bit by bit (10_state.md R32). -/
theorem statusWord_bits (s : State) : (statusWord s).getLsbD 0 = s.treeValid ∧ (statusWord s).getLsbD 1 = s.cwReady ∧
    (statusWord s).getLsbD 2 = s.fatal ∧ (statusWord s).toNat < 8 := by
  have hflags : ∀ tree codes halt : Bool, let v := flagBit tree 0 ||| flagBit codes 1 ||| flagBit halt 2
      v.getLsbD 0 = tree ∧ v.getLsbD 1 = codes ∧ v.getLsbD 2 = halt ∧ v.toNat < 8 := by decide
  exact hflags s.treeValid s.cwReady s.fatal

theorem toNat_rootReads (s : State) : (rootReads s).toNat = if s.treeValid then s.root.toNat else 0 := by
  rw [rootReads, apply_ite BitVec.toNat, BitVec.toNat_setWidth_of_le (by decide)]
  rfl

theorem toNat_nleafReads (s : State) : (nleafReads s).toNat = if s.treeValid then s.nleaf.toNat else 0 := by
  rw [nleafReads, apply_ite BitVec.toNat, BitVec.toNat_setWidth_of_le (by decide)]
  rfl

/-- Settles O22: the answer by `exec_csrRd`; each CSR's value is the register's, zero-extended. -/
theorem csrReadReturnsTheRegister : Obligations.CsrReadReturnsTheRegister := by
  refine ⟨fun s c hc => ⟨csrValue s c, exec_csrRd hc, ?id, ?standardId, ?status, ?size, ?cap, ?count, ?root, ?nleaf, ?errflags⟩,
    fun s c hc => exec_csrRd_badOperand hc⟩
  case id => rintro rfl hp; exact toNat_csrValue_id hp
  case standardId => rintro rfl hp; rw [csrValue, hp, Params.standard_id]
  case status => rintro rfl; exact statusWord_bits s
  case root => rintro rfl; exact toNat_rootReads s
  case nleaf => rintro rfl; exact toNat_nleafReads s
  case size | cap | count | errflags => rintro rfl; exact BitVec.toNat_setWidth_of_le (by decide)

end Sys2Proof.Machine
end

section
/-!
PROOFS. Error entry (60_exceptions.md R224) and the internal fault (R232).
-/

namespace Sys2Proof.Machine

variable {s : State} {e : ErrKind}

/-! ### Error entry -/

/-- Settles O11: the bit by `setErrBit_bit`; the rest is what `raise` writes. -/
theorem raiseIsTheWholeErrorEntry : Obligations.RaiseIsTheWholeErrorEntry := by
  refine ⟨fun e s => rfl, fun e s k _ => setErrBit_bit s.errflags e k, fun e s hi => ?_, rfl⟩
  have hidle : unitsIdle { raise e s with rsp := none } = true := hi
  rw [cmdReady, hidle]
  rfl

/-! ### The internal fault -/

theorem tick_bFault (hp : s.pqFsm = .pIdle) (hf : s.tbFsm = .bFault e) :
    tick s = .next (raise e (setTbFsm .bIdle (setTree 0 0 false (setFatal true s)))) := by
  rw [tick_builder hp (by simp [hf]), builderStep, hf]
  rfl

theorem tick_extractsFromEmpty (hp : s.pqFsm = .pIdle) (hf : s.tbFsm = .bExtU ∨ s.tbFsm = .bExtV) (h0 : s.pqSize = 0) :
    tick s = .next (setTbFsm (.bFault .emptyQueue) s) := by
  rcases hf with hf | hf
  all_goals rw [tick_builder hp (by simp [hf]), builderStep, hf]; exact if_pos h0

theorem tick_insertsIntoFull (hp : s.pqFsm = .pIdle) (hf : s.tbFsm = .bInsW) (hfull : s.pqSize = s.pqCap) :
    tick s = .next (setTbFsm (.bFault .queueFull) s) := by
  rw [tick_builder hp (by simp [hf]), builderStep, hf]
  exact if_pos hfull

theorem tick_leafIntoFull (hp : s.pqFsm = .pIdle) (hf : s.tbFsm = .bLeaves) (hS : s.tb.S.toNat < s.params.nsym)
    (hz : ftAt s s.tb.S.toNat ≠ 0) (hfull : s.pqSize = s.pqCap) :
    tick s = .next (setS (s.tb.S + 1) (setTbFsm (.bFault .queueFull) s)) := by
  rw [tick_builder hp (by simp [hf]), builderStep, hf]
  simp only [leavesStep, if_pos hS, if_neg hz, if_pos hfull]

/-- Settles O17: the fault by `tick_bFault`, and its entries by the state of TB_FSM in which the primitive fails. -/
theorem internalFaultHaltsTheBlock : Obligations.InternalFaultHaltsTheBlock :=
  ⟨fun _ _ hp hf => tick_bFault hp hf, fun _ hp hf h0 => tick_extractsFromEmpty hp hf h0,
    fun _ hp hf hfull => tick_insertsIntoFull hp hf hfull, fun _ hp hf hS hz hfull => tick_leafIntoFull hp hf hS hz hfull⟩

end Sys2Proof.Machine
end

section
/-!
PROOFS. A BUILD whose check fails (41_tree_builder.md R166, R167): the scan counts every symbol, B_CHECK finds the error, and B_FAIL raises
it. Nothing is asked of FT or the arena, only legal parameters.
-/

namespace Sys2Proof.Machine

open Sys2Proof.Summary

variable {s u v : State} {k : Nat} {e : ErrKind}

/-! ### The scan -/

/-- The block after the scan of the symbols below `k`, but for TB_FSM: their number is in N and their sum in ACC. -/
@[irreducible] def counted (s : State) (k : Nat) : State :=
  setACC (BitVec.ofNat 40 (sumBelow s k)) (setN (BitVec.ofNat 9 (occBelow s k).length) (setS (BitVec.ofNat 9 k) s))

@[simp] theorem counted_params (s : State) (k : Nat) : (counted s k).params = s.params := by simp [counted]
@[simp] theorem counted_ft (s : State) (k : Nat) : (counted s k).ft = s.ft := by simp [counted]
@[simp] theorem counted_pqFsm (s : State) (k : Nat) : (counted s k).pqFsm = s.pqFsm := by simp [counted]
@[simp] theorem counted_crFsm (s : State) (k : Nat) : (counted s k).crFsm = s.crFsm := by simp [counted]

theorem counted_zero (s : State) : setTbFsm .bScan (counted s 0) = builderStart s := by
  rw [counted]
  rfl

theorem counted_succ (s : State) (k : Nat) :
    counted s (k + 1) = setS ((counted s k).tb.S + 1) (if ftAt s k = 0 then counted s k else
      setACC ((counted s k).tb.ACC + (ftAt s k).setWidth 40) (setN ((counted s k).tb.N + 1) (counted s k))) := by
  rw [counted, counted, occBelow_succ, sumBelow_succ, BitVec.ofNat_add, BitVec.ofNat_add, BitVec.ofNat_toNat]
  split
  · next hz =>
    have h0 : (ftAt s k).setWidth 40 = 0#40 := by rw [hz]; rfl
    rw [h0, BitVec.add_zero]
    rfl
  · rw [List.length_append, BitVec.ofNat_add]
    rfl

section
variable (hk : k ≤ 256)
include hk

theorem toNat_counted_S : (counted s k).tb.S.toNat = k := by
  rw [counted]
  exact Nat.mod_eq_of_lt (by omega)

theorem toNat_counted_N : (counted s k).tb.N.toNat = (occBelow s k).length := by
  have := occBelow_length_le s k
  rw [counted]
  exact Nat.mod_eq_of_lt (by omega)

/-- ACC holds the sum of any counts (10_state.md R36). -/
theorem toNat_counted_ACC : (counted s k).tb.ACC.toNat = sumBelow s k := by
  have hle : sumBelow s k ≤ k * (2 ^ 32 - 1) := by
    have := List.sum_le_card_nsmul ((List.range k).map fun i => (ftAt s i).toNat) (2 ^ 32 - 1) fun x hx => by
      obtain ⟨i, -, rfl⟩ := List.mem_map.1 hx
      exact Nat.le_pred_of_lt (ftAt s i).isLt
    rwa [List.length_map, List.length_range, smul_eq_mul] at this
  rw [counted]
  exact Nat.mod_eq_of_lt (by omega)

end

/-! ### The steps -/

/-- A step of the builder is a step of the block. -/
theorem leads_builderStep (hq : u.pqFsm = .pIdle) (hf : u.tbFsm ≠ .bIdle) (h : builderStep u = .next v) : Leads 1 u v :=
  .step (Bool.eq_false_iff.2 fun hi => hf (unitsIdle_iff.1 hi).2.1) ((tick_builder hq hf).trans h)

/-- R167 B_SCAN: one more symbol is counted. -/
theorem scanStep_counted (hk : k < s.params.nsym) (hk' : k ≤ 256) :
    scanStep (setTbFsm .bScan (counted s k)) = .next (setTbFsm .bScan (counted s (k + 1))) := by
  have hft : ftAt (setTbFsm .bScan (counted s k)) = ftAt s := ftAt_congr (by simp)
  rw [scanStep, countSymbol, hft, setTbFsm_tb, toNat_counted_S hk', if_pos (by simpa using hk), counted_succ]
  split
  · rfl
  · rfl

theorem scanStep_counted_all (hn : s.params.nsym ≤ 256) :
    scanStep (setTbFsm .bScan (counted s s.params.nsym)) = .next (setTbFsm .bCheck (counted s s.params.nsym)) := by
  rw [scanStep, setTbFsm_tb, toNat_counted_S hn, if_neg (by simp)]
  rfl

/-- R167 B_CHECK: the precondition that fails decides the error. -/
theorem checkStep_counted (hn : s.params.nsym ≤ 256) (h : preconditionError s .build = some e) :
    checkStep (setTbFsm .bCheck (counted s s.params.nsym)) = .next (setTbFsm (.bFail e) (counted s s.params.nsym)) := by
  have hN : (counted s s.params.nsym).tb.N = 0 ↔ symbolCount s = 0 := by
    rw [← BitVec.toNat_inj]
    exact Eq.congr_left (toNat_counted_N hn)
  have hACC : (counted s s.params.nsym).tb.ACC.toNat = totalCount s := toNat_counted_ACC hn
  simp only [checkStep, setTbFsm_tb, setTbFsm_params, counted_params, hN, hACC]
  rw [preconditionError] at h
  split at h
  · next h0 => cases h; rw [if_pos h0]; rfl
  · next h0 =>
    split at h
    · next hk => cases h; rw [if_neg h0, if_pos hk]; rfl
    · cases h

/-! ### BUILD -/

section
variable (hq : s.pqFsm = .pIdle) (hn : s.params.nsym ≤ 256)
include hq hn

theorem leads_counted (hk : k ≤ s.params.nsym) : Leads k (builderStart s) (setTbFsm .bScan (counted s k)) := by
  induction k with
  | zero => exact fun m => by rw [Nat.zero_add, counted_zero]
  | succ k ih =>
    exact (ih (by omega)).trans (leads_builderStep (by simpa using hq) (by simp) (scanStep_counted (by omega) (by omega)))

/-- The scan of all symbols, B_CHECK and B_FAIL (R166, R167). -/
theorem leads_raise (h : preconditionError s .build = some e) :
    Leads (s.params.nsym + 1 + 1 + 1) (builderStart s) (raise e (setTbFsm .bIdle (counted s s.params.nsym))) := by
  have hidle : ∀ f, (setTbFsm f (counted s s.params.nsym)).pqFsm = .pIdle := fun f => by simpa using hq
  have hscan := leads_builderStep (hidle .bScan) (by simp) (scanStep_counted_all hn)
  have hcheck := leads_builderStep (hidle .bCheck) (by simp) (checkStep_counted hn h)
  have hfail := leads_builderStep (u := setTbFsm (.bFail e) (counted s s.params.nsym)) (hidle _) (by simp) rfl
  exact (((leads_counted hq hn le_rfl).trans hscan).trans hcheck).trans hfail

end

theorem exec_build_fails (hp : s.params.legal = true) (hi : unitsIdle s = true) (hrun : s.fatal = false)
    (h : preconditionError s .build = some e) :
    exec .build s = .next (raise e (setTbFsm .bIdle (counted s s.params.nsym))) := by
  obtain ⟨hq, -, hc⟩ := unitsIdle_iff.1 hi
  have hn := (Params.nsym_bounds hp).2
  rw [exec, execBuild, unlessHalted_running _ hrun]
  refine (leads_raise hq hn h).runToEnd (unitsIdle_iff.2 (by simp [hq, hc])) ?_
  rw [show Config.STEP_BOUND = 11274 from rfl]
  omega

/-- The scan writes working registers only. -/
theorem visible_raise_counted (hb : s.tbFsm = .bIdle) (e : ErrKind) (k : Nat) :
    visible (raise e (setTbFsm .bIdle (counted s k))) = visible (raise e s) := by
  simp [visible, counted, hb]

end Sys2Proof.Machine
end

section
/-!
PROOFS. The checks of every command, in their order (60_exceptions.md R226): the first that fails decides the error.
-/

namespace Sys2Proof.Machine

open Sys2Proof.Summary

variable {s : State} {i : Instr} {e : ErrKind} {a : Nat}

/-! ### Halt -/

theorem exec_halted (hf : s.fatal = true) (hi : servedWhenHalted i = false) : exec i s = .next (raise .halted s) := by
  cases i with
  | clear | csrRd => cases hi
  | ftWr | ftRd | leaf | nodeRd | nodeCh | pqInit | pqIns | pqExt | heapRd | build | genCode | cwRd => exact if_pos hf

/-- Past the halt check: the block runs, or it serves the command while halted. -/
def PassesHalt (s : State) (i : Instr) : Prop := s.fatal = false ∨ servedWhenHalted i = true

theorem PassesHalt.running (h : PassesHalt s i) (hi : servedWhenHalted i = false) : s.fatal = false :=
  h.resolve_right (by simp [hi])

/-! ### Operand bounds -/

theorem exec_pqIns_badOperand (hrun : s.fatal = false) (h : s.nodeCnt.toNat ≤ a) :
    exec (.pqIns a) s = .next (raise .badOperand s) := by
  rw [exec, execPqIns, unlessHalted_running _ hrun, nodeRefOf_of_ge h, withOperand_none]

theorem exec_badOperand (hh : PassesHalt s i) (h : operandsLegal s i = false) : exec i s = .next (raise .badOperand s) := by
  cases i with
  | clear | pqExt | build | genCode => cases h
  | csrRd a => exact exec_csrRd_badOperand (by simpa [operandsLegal] using h)
  | ftWr a b => exact exec_ftWr_badOperand (hh.running rfl) (by simpa [operandsLegal, Decidable.imp_iff_not_or] using h)
  | ftRd a => exact exec_ftRd_badOperand (hh.running rfl) (by simpa [operandsLegal] using h)
  | leaf a b => exact exec_leaf_badOperand (hh.running rfl) (by simpa [operandsLegal, Decidable.imp_iff_not_or] using h)
  | nodeRd a => exact exec_nodeRd_badOperand (hh.running rfl) (by simpa [operandsLegal] using h)
  | nodeCh a => exact exec_nodeCh_badOperand (hh.running rfl) (by simpa [operandsLegal] using h)
  | pqInit a => exact exec_pqInit_badOperand (hh.running rfl) (by simpa [operandsLegal] using h)
  | pqIns a => exact exec_pqIns_badOperand (hh.running rfl) (by simpa [operandsLegal] using h)
  | heapRd a => exact exec_heapRd_badOperand (hh.running rfl) (by simpa [operandsLegal] using h)
  | cwRd a k => exact exec_cwRd_badOperand (hh.running rfl) (by simpa [operandsLegal, Decidable.imp_iff_not_or] using h)

/-! ### State preconditions -/

theorem exec_pqIns_queueFull (hrun : s.fatal = false) (h : a < s.nodeCnt.toNat) (hfull : s.pqSize = s.pqCap) :
    exec (.pqIns a) s = .next (raise .queueFull s) := by
  rw [exec, execPqIns, unlessHalted_running _ hrun, nodeRefOf_of_lt h, withOperand_some, if_pos hfull]

theorem exec_pqExt_emptyQueue (hrun : s.fatal = false) (h : s.pqSize = 0) : exec .pqExt s = .next (raise .emptyQueue s) := by
  rw [exec, execPqExt, unlessHalted_running _ hrun, if_pos h]

theorem exec_precondition (hp : s.params.legal = true) (hidle : unitsIdle s = true) (hh : PassesHalt s i)
    (hok : operandsLegal s i = true) (h : preconditionError s i = some e) :
    ∃ t, exec i s = .next t ∧ visible t = visible (raise e s) := by
  cases i with
  | clear | csrRd | ftWr | ftRd | nodeRd | nodeCh | pqInit | heapRd | cwRd => cases h
  | leaf a b =>
    obtain ⟨hfull, ⟨⟩⟩ := Option.ite_none_right_eq_some.1 h
    obtain ⟨ha, hb⟩ : a < s.params.nsym ∧ b ≤ s.params.kmax := by simpa [operandsLegal] using hok
    exact ⟨_, exec_leaf_arenaFull (hh.running rfl) ha hb hfull, rfl⟩
  | pqIns a =>
    obtain ⟨hfull, ⟨⟩⟩ := Option.ite_none_right_eq_some.1 h
    exact ⟨_, exec_pqIns_queueFull (hh.running rfl) (by simpa [operandsLegal] using hok) hfull, rfl⟩
  | pqExt =>
    obtain ⟨h0, ⟨⟩⟩ := Option.ite_none_right_eq_some.1 h
    exact ⟨_, exec_pqExt_emptyQueue (hh.running rfl) h0, rfl⟩
  | build => exact ⟨_, exec_build_fails hp hidle (hh.running rfl) h, visible_raise_counted (unitsIdle_iff.1 hidle).2.1 e _⟩
  | genCode =>
    obtain ⟨hv, ⟨⟩⟩ := Option.ite_none_left_eq_some.1 h
    exact ⟨_, exec_genCode_noTree (hh.running rfl) (by simpa using hv), rfl⟩

/-! ### The order -/

theorem passesHalt_iff : PassesHalt s i ↔ (s.fatal && !servedWhenHalted i) = false := by
  rw [PassesHalt, Bool.and_eq_false_iff, Bool.not_eq_false']

theorem checkError_of_passesHalt (h : PassesHalt s i) :
    checkError s i = if operandsLegal s i then preconditionError s i else some .badOperand := by
  rw [checkError, passesHalt_iff.1 h, if_neg Bool.false_ne_true]

theorem checkError_of_not_passesHalt (h : ¬ PassesHalt s i) :
    s.fatal = true ∧ servedWhenHalted i = false ∧ checkError s i = some .halted := by
  obtain ⟨hf, hi⟩ : s.fatal = true ∧ servedWhenHalted i = false := by simpa [PassesHalt] using h
  exact ⟨hf, hi, by rw [checkError, hf, hi]; rfl⟩

/-- Which check fails first. -/
theorem checkError_cases (h : checkError s i = some e) :
    (s.fatal = true ∧ servedWhenHalted i = false ∧ e = .halted) ∨
    (PassesHalt s i ∧ operandsLegal s i = false ∧ e = .badOperand) ∨
    (PassesHalt s i ∧ operandsLegal s i = true ∧ preconditionError s i = some e) := by
  by_cases hh : PassesHalt s i
  · rw [checkError_of_passesHalt hh] at h
    split at h
    · next hok => exact .inr (.inr ⟨hh, hok, h⟩)
    · next hbad => cases h; exact .inr (.inl ⟨hh, by simpa using hbad, rfl⟩)
  · obtain ⟨hf, hi, hhalt⟩ := checkError_of_not_passesHalt hh
    exact .inl ⟨hf, hi, Option.some.inj (h.symm.trans hhalt)⟩

/-- A failing check is the whole command: its error entry happens, and nothing else but in the working registers. -/
theorem exec_checkError (hp : s.params.legal = true) (hidle : unitsIdle s = true) (h : checkError s i = some e) :
    ∃ t, exec i s = .next t ∧ visible t = visible (raise e s) := by
  rcases checkError_cases h with ⟨hf, hi, rfl⟩ | ⟨hh, hbad, rfl⟩ | ⟨hh, hok, hpre⟩
  · exact ⟨_, exec_halted hf hi, rfl⟩
  · exact ⟨_, exec_badOperand hh hbad, rfl⟩
  · exact exec_precondition hp hidle hh hok hpre

/-- Settles O12: decode by `runWord_noCommand`, then halt, operand bounds and precondition by `exec_checkError`. -/
theorem firstFailingCheckDecides : Obligations.FirstFailingCheckDecides :=
  ⟨fun _ s h => runWord_noCommand h s, fun _ _ _ hp hidle h => exec_checkError hp hidle h⟩

end Sys2Proof.Machine
end

section
/-!
PROOFS. One clock edge of an idle block, and the halted block (60_exceptions.md R233).
-/

namespace Sys2Proof.Machine

open Sys2Proof.Summary

variable {s t : State} {w : Word64} {i : Instr}

theorem step_reset (hrst : (pinsNow s).rst = true) : step s = .next (resetBlock (afterEdge s)) := if_pos hrst

/-- One edge of an idle block without reset: nothing but a change at the ports, or the presented word runs. -/
theorem step_idle (hi : unitsIdle s = true) (hrst : (pinsNow s).rst = false) (h : step s = .next t) :
    t = afterEdge s ∨ t = { afterEdge s with rsp := none } ∨
      ((pinsNow s).cmdValid = true ∧ runWord (pinsNow s).cmdData (afterEdge s) = .next t) := by
  have hi : unitsIdle (afterEdge s) = true := hi
  rw [step, portEdge, if_neg (by simp [hrst]), if_pos hi] at h
  split at h
  · unfold responseEdge at h
    split at h <;> cases h
    · exact .inr (.inl rfl)
    · exact .inl rfl
  · unfold commandEdge at h
    split at h
    · next hv => exact .inr (.inr ⟨hv, h⟩)
    · cases h; exact .inl rfl

/-- A word runs as the command it spells, or raises IllegalCommand. -/
theorem runWord_next (h : runWord w s = .next t) : (∃ i, decode w = .ok i ∧ exec i s = .next t) ∨ t = raise .illegalCommand s := by
  unfold runWord at h
  split at h
  · next i hi => exact .inl ⟨i, hi, h⟩
  · cases h; exact .inr rfl

theorem servedWhenHalted_eq_false (hclear : i.opcode ≠ .clear) (hcsr : i.opcode ≠ .csrRd) : servedWhenHalted i = false := by
  cases i with
  | clear => exact absurd rfl hclear
  | csrRd => exact absurd rfl hcsr
  | ftWr | ftRd | leaf | nodeRd | nodeCh | pqInit | pqIns | pqExt | heapRd | build | genCode | cwRd => rfl

/-- Neither an edge without reset nor a command but CLEAR ends the halt. -/
theorem step_staysHalted (hf : s.fatal = true) (hi : unitsIdle s = true) (hrst : (pinsNow s).rst = false)
    (hclear : (pinsNow s).cmdValid = true → decode (pinsNow s).cmdData ≠ .ok .clear) (h : step s = .next t) : t.fatal = true := by
  rcases step_idle hi hrst h with rfl | rfl | ⟨hv, h⟩
  · exact hf
  · exact hf
  · rcases runWord_next h with ⟨i, hd, h⟩ | rfl
    · have hne : i ≠ .clear := fun he => hclear hv (he ▸ hd)
      exact (exec_errorsKept hne h).1 hf
    · exact hf

/-- Settles O16: the refused commands by `exec_halted`, CLEAR and reset by what they write, CSR_RD by `exec_csrRd`, and that nothing else
ends the halt by `step_staysHalted`. -/
theorem haltedBlockServesTwoCommands : Obligations.HaltedBlockServesTwoCommands :=
  ⟨fun _ _ hf hclear hcsr => exec_halted hf (servedWhenHalted_eq_false hclear hcsr), fun _ _ => ⟨_, rfl, rfl, rfl⟩,
    fun _ _ hrst => ⟨_, step_reset hrst, rfl⟩, fun s a hf ha => ⟨_, csrValue s a, exec_csrRd ha, hf, rfl⟩,
    fun _ _ hf hi hrst hclear h => step_staysHalted hf hi hrst hclear h⟩

end Sys2Proof.Machine
end

section
/-!
PROOFS. Only B_FAIL and B_FAULT write ERRFLAGS and only B_FAULT sets FATAL, of all steps of the state machines (10_state.md R34,
60_exceptions.md R232).
-/

namespace Sys2Proof.Machine

variable {s t : State}

/-- The caller of a primitive goes on: it writes TB's registers, TB_FSM and the response only. -/
def CallerOnly (s t : State) : Prop := t = { s with tb := t.tb, tbFsm := t.tbFsm, rsp := t.rsp }

theorem afterInsert_frame (h : afterInsert s = .next t) : CallerOnly s t := by
  rcases afterInsert_next h with ⟨-, rfl⟩ | ⟨-, rfl⟩ | ⟨-, rfl⟩ | ⟨-, -, -, rfl⟩ <;> rfl

theorem afterExtract_frame (h : afterExtract s = .next t) : CallerOnly s t := by
  rcases afterExtract_next h with ⟨-, n, -, rfl⟩ | ⟨-, rfl⟩ | ⟨-, rfl⟩ | ⟨-, -, -, rfl⟩ <;> rfl

theorem whenPqIdle_frame {k : State → Result} (hk : ∀ t, k s = .next t → CallerOnly s t) (h : whenPqIdle k s = .next t) :
    CallerOnly s t := by
  rcases whenPqIdle_eq_next.1 h with ⟨-, h⟩ | ⟨-, rfl⟩
  · exact hk t h
  · rfl

/-- A step of the queue unit, its caller's going on included. -/
theorem tick_primitive_frame (hp : s.pqFsm ≠ .pIdle) (h : tick s = .next t) : ∃ u, QueueOnly s u ∧ CallerOnly u t := by
  rcases tick_next h with ⟨-, u, hu, h⟩ | ⟨-, u, hu, h⟩ | ⟨hp', -⟩ | ⟨hp', -⟩
  · exact ⟨u, (upStep_frame hu).1, whenPqIdle_frame (fun _ => afterInsert_frame) h⟩
  · exact ⟨u, (downStep_frame hu).1, whenPqIdle_frame (fun _ => afterExtract_frame) h⟩
  · exact absurd hp' hp
  · exact absurd hp' hp

theorem CallerOnly.errflags_eq (h : CallerOnly s t) : t.errflags = s.errflags := by rw [h]
theorem CallerOnly.fatal_eq (h : CallerOnly s t) : t.fatal = s.fatal := by rw [h]

theorem recorderStep_fatal (h : recorderStep s = .next t) : t.fatal = s.fatal := by
  unfold recorderStep at h
  split at h
  · cases h; rfl
  · obtain ⟨n, -, ⟨-, u, hu, rfl⟩ | ⟨-, rfl⟩⟩ := recorderStart_next h
    · obtain ⟨-, rfl⟩ := writeCw_eq_next.1 hu
      simp [freshTable]
    · simp [freshTable]
  · obtain ⟨n, -, ⟨-, u, hu, rfl⟩ | ⟨-, u, hu, rfl⟩⟩ := descendStep_next h
    · obtain ⟨-, rfl⟩ := writeCw_eq_next.1 hu
      simp
    · obtain ⟨-, rfl⟩ := writeTstk_eq_next.1 hu
      simp
  · rcases ascendStep_next h with ⟨-, rfl⟩ | ⟨-, -, x, n, -, -, rfl⟩ | ⟨-, -, rfl⟩ <;> simp
  · cases h; simp

/-- Every step but B_FAULT's leaves FATAL as it was. -/
theorem tick_fatal_of_noFault (hf : ∀ e, s.tbFsm ≠ .bFault e) (h : tick s = .next t) : t.fatal = s.fatal := by
  by_cases hp : s.pqFsm = .pIdle
  · by_cases hb : s.tbFsm = .bIdle
    · rw [tick_recorder hp hb] at h
      exact recorderStep_fatal h
    · exact tick_fatal hb hf h
  · obtain ⟨u, hu, ht⟩ := tick_primitive_frame hp h
    exact ht.fatal_eq.trans hu.fatal_eq

theorem builderStep_errflags (hp : pendingError s.tbFsm = none) (h : builderStep s = .next t) : t.errflags = s.errflags := by
  unfold builderStep at h
  split at h
  · cases h; rfl
  · rcases scanStep_next h with ⟨-, -, rfl⟩ | ⟨-, -, rfl⟩ | ⟨-, rfl⟩ <;> rfl
  · rcases checkStep_next h with ⟨-, rfl⟩ | ⟨-, -, rfl⟩ | ⟨-, -, rfl⟩ <;> rfl
  · cases h; rfl
  · rcases leavesStep_next h with ⟨-, -, rfl⟩ | ⟨-, -, -, rfl⟩ | ⟨-, -, -, u, hu, ht⟩ | ⟨-, rfl⟩
    · rfl
    · rfl
    · obtain ⟨-, rfl⟩ := allocNode_eq_next.1 hu
      exact (insertStart_frame ht).errflags_eq
    · rfl
  · rcases loopStep_next h with ⟨-, rfl⟩ | ⟨-, rfl⟩ <;> rfl
  · rcases extractOrFault_next h with ⟨-, rfl⟩ | ⟨-, h⟩
    · rfl
    · exact (extractStart_frame h).errflags_eq
  · rcases extractOrFault_next h with ⟨-, rfl⟩ | ⟨-, h⟩
    · rfl
    · exact (extractStart_frame h).errflags_eq
  · obtain ⟨u, v, a, -, -, ha, rfl⟩ := mergeStep_next h
    obtain ⟨-, rfl⟩ := allocNode_eq_next.1 ha
    rfl
  · rcases insertMerged_next h with ⟨-, rfl⟩ | ⟨-, h⟩
    · rfl
    · exact (insertStart_frame h).errflags_eq
  · obtain ⟨r, n, -, -, rfl⟩ := doneStep_next h
    rfl
  · next e he => rw [he] at hp; cases hp
  · next e he => rw [he] at hp; cases hp

/-- Every step but those of B_FAIL and B_FAULT leaves ERRFLAGS as it was. -/
theorem tick_errflags (hp : pendingError s.tbFsm = none) (h : tick s = .next t) : t.errflags = s.errflags := by
  rcases tick_next h with ⟨hq, -⟩ | ⟨hq, -⟩ | ⟨-, -, h⟩ | ⟨-, -, h⟩
  · obtain ⟨u, hu, ht⟩ := tick_primitive_frame (by simp [hq]) h
    exact ht.errflags_eq.trans hu.errflags_eq
  · obtain ⟨u, hu, ht⟩ := tick_primitive_frame (by simp [hq]) h
    exact ht.errflags_eq.trans hu.errflags_eq
  · exact recorderStep_flags h
  · exact builderStep_errflags hp h

end Sys2Proof.Machine
end

section
/-!
PROOFS. A command whose checks all pass answers OK and sets no bit of ERRFLAGS, if it ends (60_exceptions.md R226). What holds of the
stored part (`Sound`) keeps BUILD off B_FAULT.
-/

namespace Sys2Proof.Machine

open Sys2Proof.Summary

variable {s t u : State} {i : Instr} {e : ErrKind}

/-- The response waiting is OK, and no bit of ERRFLAGS has been set. -/
def PassesOk (s t : State) : Prop := AnswersOk t ∧ FlagsKept t s

theorem PassesOk.respondOk (a : BitVec 24) (b : BitVec 32) (h : u.errflags = s.errflags) : PassesOk s (respondOk a b u) :=
  ⟨answersOk_respondOk a b u, .of_eq h.symm⟩

/-! ### Runs -/

/-- With the builder idle a run raises no error. -/
theorem runToEnd_passesOk (hb : u.tbFsm = .bIdle) (hbusy : unitsIdle u = false) (hf : u.errflags = s.errflags)
    (h : runToEnd u = .next t) : PassesOk s t := by
  have hstep : ∀ v w, EndsOk v ∧ v.errflags = s.errflags → unitsIdle v = false → tick v = .next w →
      EndsOk w ∧ w.errflags = s.errflags := by
    rintro v w ⟨hv, hvf⟩ hvb hw
    exact ⟨hv.tick hvb hw, (tick_errflags (by rw [hv.1]; rfl) hw).trans hvf⟩
  obtain ⟨hend, hflags⟩ := runUnits_induct hstep ⟨⟨hb, fun hi => by simp [hbusy] at hi⟩, hf⟩ h
  exact ⟨hend.2 (runUnits_ends_idle h), .of_eq hflags.symm⟩

theorem pendingError_of_midway {f : TbState} {q : PqState} (h : midway f q = true) : pendingError f = none := by
  cases f with
  | bFail | bFault => cases h
  | bIdle | bScan | bCheck | bInit | bLeaves | bLoop | bExtU | bExtV | bMerge | bInsW | bDone => rfl

/-- A BUILD whose checks pass raises no error. -/
theorem build_passesOk (hs : Sound s) (hi : unitsIdle s = true) (hpos : 0 < symbolCount s) (hfits : totalCount s ≤ s.params.kmax)
    (h : runToEnd (builderStart s) = .next t) : PassesOk s t := by
  have hstep : ∀ v w, Building s v ∧ Succeeds v ∧ v.errflags = s.errflags → unitsIdle v = false → tick v = .next w →
      Building s w ∧ Succeeds w ∧ w.errflags = s.errflags := by
    rintro v w ⟨hb, hv, hvf⟩ hbusy hw
    have hpending := pendingError_of_midway (hb.midway_of_succeeds hv hbusy)
    exact ⟨hb.tick hs hbusy hw, hb.succeeds hv hpos hfits hbusy hw, (tick_errflags hpending hw).trans hvf⟩
  obtain ⟨-, hsucc, hflags⟩ := runUnits_induct hstep ⟨Building.start hi, .inl rfl, rfl⟩ h
  refine ⟨?_, .of_eq hflags.symm⟩
  rcases hsucc with hgo | ⟨-, -, n, -, hrsp⟩
  · rw [(unitsIdle_iff.1 (runUnits_ends_idle h)).2.1] at hgo
    cases hgo
  · exact ⟨_, _, hrsp⟩

/-! ### The commands -/

theorem checkError_eq_none (h : checkError s i = none) : operandsLegal s i = true ∧ preconditionError s i = none := by
  by_cases hh : PassesHalt s i
  · rw [checkError_of_passesHalt hh] at h
    split at h
    · next hok => exact ⟨hok, h⟩
    · cases h
  · rw [(checkError_of_not_passesHalt hh).2.2] at h
    cases h

theorem preconditionError_build_eq_none (h : preconditionError s .build = none) :
    0 < symbolCount s ∧ totalCount s ≤ s.params.kmax := by
  rw [preconditionError] at h
  split at h
  · cases h
  · next hpos =>
    split at h
    · cases h
    · next hfits => exact ⟨Nat.pos_of_ne_zero hpos, Nat.not_lt.1 hfits⟩

/-- A command whose checks pass runs as its own rule says, to an OK response. -/
theorem exec_passesOk (hs : Sound s) (hidle : unitsIdle s = true) (hc : checkError s i = none) (h : exec i s = .next t) :
    PassesOk s t := by
  obtain ⟨hok, hpre⟩ := checkError_eq_none hc
  have hrun := hs.notFatal
  have hb := (unitsIdle_iff.1 hidle).2.1
  cases i with
  | clear => cases h; exact ⟨answersOk_respondOk .., fun k hk => by simp at hk⟩
  | csrRd a =>
    rw [exec_csrRd (Nat.lt_succ_of_le (of_decide_eq_true hok))] at h
    cases h; exact .respondOk _ _ rfl
  | ftWr a b =>
    obtain ⟨ha, hb⟩ := of_decide_eq_true hok
    rw [exec_ftWr hrun ha hb] at h
    cases h; exact .respondOk _ _ rfl
  | ftRd a =>
    rw [exec_ftRd hrun hs.legal (of_decide_eq_true hok)] at h
    cases h; exact .respondOk _ _ rfl
  | leaf a b =>
    obtain ⟨ha, hb⟩ := of_decide_eq_true hok
    have hroom : s.nodeCnt.toNat ≠ s.params.nodeMax := by simpa [preconditionError] using hpre
    rw [exec_leaf hrun ha hb (hs.arena.cntLe.lt_of_ne hroom)] at h
    cases h; exact .respondOk _ _ rfl
  | nodeRd a | nodeCh a =>
    have ha : a < s.nodeCnt.toNat := of_decide_eq_true hok
    obtain ⟨n, hn⟩ := hs.arena.exists_node ha
    have href := toNat_reference hs.legal hs.arena.cntLe ha
    simp only [exec_nodeRd hrun ha href hn, exec_nodeCh hrun ha href hn] at h
    cases h; exact .respondOk _ _ rfl
  | pqInit a =>
    rw [exec_pqInit hrun (of_decide_eq_true hok)] at h
    cases h; exact .respondOk _ _ rfl
  | pqIns a =>
    have hroom : s.pqSize ≠ s.pqCap := by simpa [preconditionError] using hpre
    rw [exec, execPqIns, unlessHalted_running _ hrun, nodeRefOf_of_lt (of_decide_eq_true hok), withOperand_some, if_neg hroom] at h
    obtain ⟨u, hu, h⟩ := andThen_eq_next.1 h
    have hf := insertStart_frame hu
    obtain ⟨-, rfl⟩ := insertStart_eq_next.1 hu
    exact runToEnd_passesOk (hf.tbFsm_eq.trans hb) (by simp [unitsIdle]) hf.errflags_eq h
  | pqExt =>
    have h0 : s.pqSize ≠ 0 := by simpa [preconditionError] using hpre
    rw [exec, execPqExt, unlessHalted_running _ hrun, if_neg h0] at h
    obtain ⟨u, hu, h⟩ := andThen_eq_next.1 h
    have hf := extractStart_frame hu
    obtain ⟨x, v, -, -, rfl⟩ := extractStart_eq_next.1 hu
    exact runToEnd_passesOk (hf.tbFsm_eq.trans hb) (by simp [unitsIdle]) hf.errflags_eq h
  | heapRd a =>
    have ha : a < s.pqSize.toNat := of_decide_eq_true hok
    obtain ⟨x, n, hx, -, hn⟩ := hs.exists_slot ha
    rw [exec_heapRd hrun ha hx hn] at h
    cases h; exact .respondOk _ _ rfl
  | build =>
    rw [exec, execBuild, unlessHalted_running _ hrun] at h
    obtain ⟨hpos, hfits⟩ := preconditionError_build_eq_none hpre
    exact build_passesOk hs hidle hpos hfits h
  | genCode =>
    have hv : s.treeValid = true := by simpa [preconditionError] using hpre
    rw [exec_genCode_run hrun hv] at h
    exact runToEnd_passesOk (u := setCrFsm .gStart s) hb (by simp [unitsIdle]) rfl h
  | cwRd a k =>
    obtain ⟨ha, hk⟩ := of_decide_eq_true hok
    cases hcw : cwAt s a with
    | none =>
      rw [exec_cwRd_none hrun hs.legal ha hk hcw] at h
      cases h; exact .respondOk _ _ rfl
    | some c =>
      rw [exec_cwRd_some hrun hs.legal ha hk hcw] at h
      cases h; exact .respondOk _ _ rfl

/-- The checks decide the answer: the error of the first that fails, with its bit, or OK. -/
theorem exec_decided (hs : Sound s) (hidle : unitsIdle s = true) (h : exec i s = .next t) :
    (∃ e, checkError s i = some e ∧ t.rsp = some (errorWord e) ∧ t.errflags = setErrBit s.errflags e) ∨ PassesOk s t := by
  cases hc : checkError s i with
  | none => exact .inr (exec_passesOk hs hidle hc h)
  | some e =>
    obtain ⟨u, hu, hvis⟩ := exec_checkError hs.legal hidle hc
    obtain rfl : t = u := Host.Outcome.next.inj (h.symm.trans hu)
    exact .inl ⟨e, rfl, field_of_view State.rsp hvis fun _ => rfl, field_of_view State.errflags hvis fun _ => rfl⟩

end Sys2Proof.Machine
end

section
/-!
PROOFS. The halt is never observed (60_exceptions.md R234).
-/

namespace Sys2Proof.Machine

open Sys2Proof.Summary

variable {s t : State} {i : Instr} {e : ErrKind}

theorem preconditionError_build (h : preconditionError s .build = some e) : e = .emptyAlphabet ∨ e = .freqOverflow := by
  rw [preconditionError] at h
  split at h
  · exact .inl (Option.some.inj h).symm
  · exact .inr (Option.some.inj (Option.ite_none_right_eq_some.1 h).2).symm

theorem preconditionError_ne_halted (i : Instr) : preconditionError s i ≠ some .halted := by
  intro h
  cases i with
  | clear | csrRd | ftWr | ftRd | nodeRd | nodeCh | pqInit | heapRd | cwRd => cases h
  | leaf | pqIns | pqExt => cases (Option.ite_none_right_eq_some.1 h).2
  | genCode => cases (Option.ite_none_left_eq_some.1 h).2
  | build => rcases preconditionError_build h with h | h <;> cases h

theorem checkError_ne_halted (hrun : s.fatal = false) (i : Instr) : checkError s i ≠ some .halted := by
  intro h
  rcases checkError_cases h with ⟨hf, -⟩ | ⟨-, -, he⟩ | ⟨-, -, hpre⟩
  · rw [hrun] at hf; cases hf
  · cases he
  · exact preconditionError_ne_halted i hpre

theorem checkError_build (hrun : s.fatal = false) (h : checkError s .build = some e) : e = .emptyAlphabet ∨ e = .freqOverflow := by
  rcases checkError_cases h with ⟨hf, -⟩ | ⟨-, hok, -⟩ | ⟨-, -, hpre⟩
  · rw [hrun] at hf; cases hf
  · cases hok
  · exact preconditionError_build hpre

section
variable (hs : Sound s) (hidle : unitsIdle s = true)
include hs hidle

/-- An error answer is the error of the first check that fails. -/
theorem exec_error_of_check (h : exec i s = .next t) (he : t.rsp = some (errorWord e)) : checkError s i = some e := by
  rcases exec_decided hs hidle h with ⟨f, hf, hrsp, -⟩ | ⟨⟨a, b, hok⟩, -⟩
  · rw [hf, errorWord_injective (Option.some.inj (hrsp.symm.trans he))]
  · exact absurd (Option.some.inj (hok.symm.trans he)) (okWord_ne_errorWord a b e)

/-- No command sets the bit of Halted. -/
theorem exec_bitNine (h9 : s.errflags.getLsbD 9 = false) (h : exec i s = .next t) : t.errflags.getLsbD 9 = false := by
  rcases exec_decided hs hidle h with ⟨e, he, -, hflags⟩ | ⟨-, hkept⟩
  · have hne : 9 ≠ errCode e := fun h9 => checkError_ne_halted hs.notFatal i (errCode_injective (f := .halted) h9.symm ▸ he)
    rw [hflags, setErrBit_bit, h9, decide_eq_false hne]
    rfl
  · exact Bool.eq_false_iff.2 fun ht => by rw [hkept 9 ht] at h9; cases h9

theorem step_bitNine (h9 : s.errflags.getLsbD 9 = false) (h : step s = .next t) : t.errflags.getLsbD 9 = false := by
  cases hrst : (pinsNow s).rst with
  | true =>
    rw [step_reset hrst] at h
    cases h
    exact BitVec.getLsbD_zero
  | false =>
    rcases step_idle hidle hrst h with rfl | rfl | ⟨-, h⟩
    · exact h9
    · exact h9
    · rcases runWord_next h with ⟨i, -, h⟩ | rfl
      · exact exec_bitNine (s := afterEdge s) (Sound.of_store (s := s) rfl hs) hidle h9 h
      · exact (setErrBit_bit ..).trans (by rw [show (afterEdge s).errflags.getLsbD 9 = false from h9]; rfl)

end

theorem reachable_bitNine (h : Reachable s) : s.errflags.getLsbD 9 = false := by
  induction h with
  | reset inputs _ => exact BitVec.getLsbD_zero
  | drive pins _ ih => exact ih
  | step hr hstep ih =>
    have hinv := reachableStatesMeetTheInvariants _ hr
    exact step_bitNine hinv.core.sound hinv.core.idle ih hstep

/-- Settles O18: FATAL by `tick_fatal_of_noFault` and the invariants of every reachable state, bit 9 by `reachable_bitNine`, and the answers
by the check that gives each (`exec_error_of_check`). -/
theorem haltIsNeverObserved : Obligations.HaltIsNeverObserved := by
  refine ⟨fun s t h hf hft => ?_, fun s hr => ?_⟩
  · by_contra hno
    rw [tick_fatal_of_noFault (not_exists.1 hno) h, hf] at hft
    cases hft
  · obtain ⟨hcore, -⟩ := reachableStatesMeetTheInvariants s hr
    have hrun := hcore.notFatal
    have check : ∀ {i t e}, exec i s = .next t → t.rsp = some (errorWord e) → checkError s i = some e :=
      exec_error_of_check hcore.sound hcore.idle
    have build : ∀ {t e}, exec .build s = .next t → t.rsp = some (errorWord e) → e = .emptyAlphabet ∨ e = .freqOverflow :=
      fun h he => checkError_build hrun (check h he)
    exact ⟨hrun, reachable_bitNine hr, fun i t h he => checkError_ne_halted hrun i (check h he),
      fun t h => ⟨fun he => (build h he).elim nofun nofun, fun he => (build h he).elim nofun nofun⟩⟩

end Sys2Proof.Machine
end

section
/-!
PROOFS. Reset as a transition from every state (70_reset_and_hazards.md R251).
-/

namespace Sys2Proof.Machine

variable {s : State}

/-- Where reset leads does not depend on what was in progress: only the parameters and the host's later inputs stay. -/
theorem step_eq_resetAt (hrst : (pinsNow s).rst = true) : step s = .next (State.resetAt s.params s.host.tail) :=
  step_reset hrst

@[simp] theorem cmdReady_resetAt (p : Params) (inputs : List HostPins) : cmdReady (State.resetAt p inputs) = true := by
  simp [cmdReady, unitsIdle_iff]

/-- Settles O9: the next state is the reset state itself (`step_eq_resetAt`), which holds no response and is ready (`cmdReady_resetAt`). -/
theorem resetFromEveryState : Obligations.ResetFromEveryState :=
  fun s hrst => ⟨State.resetAt s.params s.host.tail, step_eq_resetAt hrst, rfl, resetAt_rsp .., cmdReady_resetAt ..⟩

end Sys2Proof.Machine
end

section
/-!
PROOFS. What the steps of the state machines leave unchanged: the builder, the recorder, and a primitive that a command runs.
-/

namespace Sys2Proof.Machine

variable {s t u : State} {x : NodeRef}

/-- What BUILD leaves alone: the parameters, FT, the recorder with its registers, and the host's inputs. -/
def outsideBuilder (s : State) : State :=
  { State.resetAt s.params s.host with ft := s.ft, crFsm := s.crFsm, cr := s.cr, tstk := s.tstk }

/-- What GENCODE leaves alone: all but CW, CW_READY, the recorder with its registers, and the response. -/
def outsideRecorder (s : State) : State :=
  { s with cw := [], cwReady := false, crFsm := .gIdle, cr := State.reset.cr, tstk := [], rsp := none }

/-- What PQ_INS and PQ_EXT leave alone: all but HEAP, PQ_SIZE, the queue unit with its registers, and the response. -/
def outsideQueue (s : State) : State :=
  { s with heap := [], pqSize := 0, pqFsm := .pIdle, pq := State.reset.pq, rsp := none }

theorem QueueOnly.outsideBuilder_eq (h : QueueOnly s t) : outsideBuilder t = outsideBuilder s := by rw [h]; rfl

theorem CallerOnly.outsideBuilder_eq (h : CallerOnly s t) : outsideBuilder t = outsideBuilder s := by rw [h]; rfl

theorem QueueOnly.outsideQueue_eq (h : QueueOnly s t) : outsideQueue t = outsideQueue s := by rw [h]; rfl

theorem builderStep_frame (h : builderStep s = .next t) : outsideBuilder t = outsideBuilder s := by
  unfold builderStep at h
  split at h
  · cases h; simp [outsideBuilder]
  · rcases scanStep_next h with ⟨-, -, rfl⟩ | ⟨-, -, rfl⟩ | ⟨-, rfl⟩ <;> simp [outsideBuilder, countSymbol]
  · rcases checkStep_next h with ⟨-, rfl⟩ | ⟨-, -, rfl⟩ | ⟨-, -, rfl⟩ <;> simp [outsideBuilder]
  · cases h; simp [outsideBuilder]
  · rcases leavesStep_next h with ⟨-, -, rfl⟩ | ⟨-, -, -, rfl⟩ | ⟨-, -, -, u, hu, ht⟩ | ⟨-, rfl⟩
    · simp [outsideBuilder]
    · simp [outsideBuilder]
    · obtain ⟨-, rfl⟩ := allocNode_eq_next.1 hu
      exact (insertStart_frame ht).outsideBuilder_eq.trans (by simp [outsideBuilder])
    · simp [outsideBuilder]
  · rcases loopStep_next h with ⟨-, rfl⟩ | ⟨-, rfl⟩ <;> simp [outsideBuilder]
  · rcases extractOrFault_next h with ⟨-, rfl⟩ | ⟨-, h⟩
    · simp [outsideBuilder]
    · exact (extractStart_frame h).outsideBuilder_eq
  · rcases extractOrFault_next h with ⟨-, rfl⟩ | ⟨-, h⟩
    · simp [outsideBuilder]
    · exact (extractStart_frame h).outsideBuilder_eq
  · obtain ⟨u, v, a, -, -, ha, rfl⟩ := mergeStep_next h
    obtain ⟨-, rfl⟩ := allocNode_eq_next.1 ha
    simp [outsideBuilder]
  · rcases insertMerged_next h with ⟨-, rfl⟩ | ⟨-, h⟩
    · simp [outsideBuilder]
    · exact (insertStart_frame h).outsideBuilder_eq
  · obtain ⟨r, n, -, -, rfl⟩ := doneStep_next h
    simp [outsideBuilder]
  · cases h; simp [outsideBuilder]
  · cases h; simp [outsideBuilder]

theorem recorderStep_frame (h : recorderStep s = .next t) : outsideRecorder t = outsideRecorder s := by
  unfold recorderStep at h
  split at h
  · cases h; simp [outsideRecorder]
  · obtain ⟨n, -, ⟨-, u, hu, rfl⟩ | ⟨-, rfl⟩⟩ := recorderStart_next h
    · obtain ⟨-, rfl⟩ := writeCw_eq_next.1 hu
      simp [outsideRecorder, freshTable]
    · simp [outsideRecorder, freshTable]
  · obtain ⟨n, -, ⟨-, u, hu, rfl⟩ | ⟨-, u, hu, rfl⟩⟩ := descendStep_next h
    · obtain ⟨-, rfl⟩ := writeCw_eq_next.1 hu
      simp [outsideRecorder]
    · obtain ⟨-, rfl⟩ := writeTstk_eq_next.1 hu
      simp [outsideRecorder]
  · rcases ascendStep_next h with ⟨-, rfl⟩ | ⟨-, -, x, n, -, -, rfl⟩ | ⟨-, -, rfl⟩ <;> simp [outsideRecorder]
  · cases h; simp [outsideRecorder]

/-- With the recorder idle a step of a busy block is the builder's or its callee's. -/
theorem tick_outsideBuilder (hc : s.crFsm = .gIdle) (hbusy : unitsIdle s = false) (h : tick s = .next t) :
    outsideBuilder t = outsideBuilder s := by
  by_cases hp : s.pqFsm = .pIdle
  · have hb : s.tbFsm ≠ .bIdle := fun hb => by rw [unitsIdle_iff.2 ⟨hp, hb, hc⟩] at hbusy; cases hbusy
    rw [tick_builder hp hb] at h
    exact builderStep_frame h
  · obtain ⟨u, hu, ht⟩ := tick_primitive_frame hp h
    exact ht.outsideBuilder_eq.trans hu.outsideBuilder_eq

theorem runUnits_outsideBuilder {n : Nat} (hc : s.crFsm = .gIdle) (h : runUnits n s = .next t) : outsideBuilder t = outsideBuilder s :=
  runUnits_induct (P := fun v => outsideBuilder v = outsideBuilder s)
    (fun _ _ hv hbusy hw => (tick_outsideBuilder ((field_of_view State.crFsm hv fun _ => rfl).trans hc) hbusy hw).trans hv) rfl h

/-- BUILD keeps the parameters, FT, the recorder's registers and the host's inputs. -/
theorem build_outsideBuilder (hi : unitsIdle s = true) (h : runToEnd (builderStart s) = .next t) : outsideBuilder t = outsideBuilder s :=
  (runUnits_outsideBuilder (by simpa using (unitsIdle_iff.1 hi).2.2) h).trans (by simp [outsideBuilder])

/-- GENCODE, once its machine has started. -/
theorem genCode_outsideRecorder (hi : unitsIdle s = true) (h : runToEnd (setCrFsm .gStart s) = .next t) :
    outsideRecorder t = outsideRecorder s := by
  obtain ⟨hq, hb, -⟩ := unitsIdle_iff.1 hi
  refine runUnits_induct (P := fun v => outsideRecorder v = outsideRecorder s) (fun v w hv _ hw => ?_)
    (by simp [outsideRecorder] : outsideRecorder (setCrFsm .gStart s) = outsideRecorder s) h
  have hqv : v.pqFsm = s.pqFsm := field_of_view State.pqFsm hv fun _ => rfl
  have hbv : v.tbFsm = s.tbFsm := field_of_view State.tbFsm hv fun _ => rfl
  rw [tick_recorder (hqv.trans hq) (hbv.trans hb)] at hw
  exact (recorderStep_frame hw).trans hv

/-- A primitive that a command runs, with its answer to the host. -/
theorem primitive_outsideQueue (hb : s.tbFsm = .bIdle) (hc : s.crFsm = .gIdle) (h : runToEnd s = .next t) :
    outsideQueue t = outsideQueue s := by
  refine runUnits_induct (P := fun v => outsideQueue v = outsideQueue s) (fun v w hv hbusy hw => Eq.trans ?_ hv) rfl h
  have hbv : v.tbFsm = .bIdle := (field_of_view State.tbFsm hv fun _ => rfl).trans hb
  have hcv : v.crFsm = .gIdle := (field_of_view State.crFsm hv fun _ => rfl).trans hc
  rcases tick_next hw with ⟨-, u, hu, hw⟩ | ⟨-, u, hu, hw⟩ | ⟨hp, -⟩ | ⟨-, hb', -⟩
  · have hf := (upStep_frame hu).1
    rw [← hf.outsideQueue_eq]
    rcases whenPqIdle_eq_next.1 hw with ⟨-, hw⟩ | ⟨-, rfl⟩
    · rw [afterInsert, hf.tbFsm_eq, hbv] at hw
      cases hw; rfl
    · rfl
  · have hf := (downStep_frame hu).1
    rw [← hf.outsideQueue_eq]
    rcases whenPqIdle_eq_next.1 hw with ⟨-, hw⟩ | ⟨-, rfl⟩
    · rw [afterExtract, hf.tbFsm_eq, hbv] at hw
      obtain ⟨n, -, hw⟩ := readNode_eq_next.1 hw
      cases hw; rfl
    · rfl
  · rw [unitsIdle_iff.2 ⟨hp, hbv, hcv⟩] at hbusy
    cases hbusy
  · exact absurd hbv hb'

theorem pqIns_outsideQueue (hi : unitsIdle s = true) (hu : insertStart x s = .next u) (h : runToEnd u = .next t) :
    outsideQueue t = outsideQueue s := by
  have hf := insertStart_frame hu
  obtain ⟨-, hb, hc⟩ := unitsIdle_iff.1 hi
  exact (primitive_outsideQueue (hf.tbFsm_eq.trans hb) (hf.crFsm_eq.trans hc) h).trans hf.outsideQueue_eq

theorem pqExt_outsideQueue (hi : unitsIdle s = true) (hu : extractStart s = .next u) (h : runToEnd u = .next t) :
    outsideQueue t = outsideQueue s := by
  have hf := extractStart_frame hu
  obtain ⟨-, hb, hc⟩ := unitsIdle_iff.1 hi
  exact (primitive_outsideQueue (hf.tbFsm_eq.trans hb) (hf.crFsm_eq.trans hc) h).trans hf.outsideQueue_eq

/-! ### The parameters and the host's inputs -/

/-- The parameters are constants of the block (00_scope.md R6), and no rule uses up input levels but the edge itself. -/
theorem tick_ports (h : tick s = .next t) : t.params = s.params ∧ t.host = s.host := by
  by_cases hp : s.pqFsm = .pIdle
  · by_cases hb : s.tbFsm = .bIdle
    · rw [tick_recorder hp hb] at h
      have hf := recorderStep_frame h
      exact ⟨field_of_view State.params hf fun _ => rfl, field_of_view State.host hf fun _ => rfl⟩
    · rw [tick_builder hp hb] at h
      have hf := builderStep_frame h
      exact ⟨field_of_view State.params hf fun _ => rfl, field_of_view State.host hf fun _ => rfl⟩
  · obtain ⟨u, hu, ht⟩ := tick_primitive_frame hp h
    have hf := ht.outsideBuilder_eq.trans hu.outsideBuilder_eq
    exact ⟨field_of_view State.params hf fun _ => rfl, field_of_view State.host hf fun _ => rfl⟩

theorem runToEnd_ports (h : runToEnd s = .next t) : t.params = s.params ∧ t.host = s.host :=
  runUnits_induct (P := fun v => v.params = s.params ∧ v.host = s.host)
    (fun _ _ hv _ hw => ⟨(tick_ports hw).1.trans hv.1, (tick_ports hw).2.trans hv.2⟩) ⟨rfl, rfl⟩ h

theorem Effect.ports (h : Effect s t) : t.params = s.params ∧ t.host = s.host := by
  cases h with
  | raised | answered | counted | allocated | queueMade => exact ⟨rfl, rfl⟩
  | cleared h => cases h; exact ⟨rfl, rfl⟩
  | inserted x _ _ hu h =>
    have hf := (insertStart_frame hu).outsideQueue_eq
    exact ⟨(runToEnd_ports h).1.trans (field_of_view State.params hf fun _ => rfl),
      (runToEnd_ports h).2.trans (field_of_view State.host hf fun _ => rfl)⟩
  | extracted hu h =>
    have hf := (extractStart_frame hu).outsideQueue_eq
    exact ⟨(runToEnd_ports h).1.trans (field_of_view State.params hf fun _ => rfl),
      (runToEnd_ports h).2.trans (field_of_view State.host hf fun _ => rfl)⟩
  | built h => simpa using runToEnd_ports h
  | coded _ h => simpa using runToEnd_ports h

end Sys2Proof.Machine
end

section
/-!
PROOFS. What every step keeps: the canonical form of the arrays, the core invariants, heap order, and all of 10_state.md R43.
-/

namespace Sys2Proof.Machine

variable {s t : State}

/-! ### The canonical form (20_memory.md R62) -/

theorem wf_runToEnd (hs : Memory.wf s = true) (h : runToEnd s = .next t) : Memory.wf t = true :=
  runUnits_induct (P := fun v => Memory.wf v = true) (fun _ _ hv _ hw => wf_tick hv hw) hs h

theorem Effect.wf (hs : Memory.wf s = true) (h : Effect s t) : Memory.wf t = true := by
  cases h with
  | raised e => rwa [wf_raise]
  | answered a b => rwa [wf_respondOk]
  | cleared h => cases h; exact wf_resetAt s.params []
  | counted a b sym f hsym => rw [wf_respondOk]; exact wf_writeFt sym f hsym hs
  | allocated a b sym f _ _ hroom => rw [wf_respondOk]; exact wf_allocNode hs (allocNode_eq_next.2 ⟨hroom, rfl⟩)
  | queueMade a b cap => rw [wf_respondOk]; exact wf_createQueue cap hs
  | inserted x _ _ hu h => exact wf_runToEnd (wf_insertStart hs hu) h
  | extracted hu h => exact wf_runToEnd (wf_extractStart hs hu) h
  | built h => exact wf_runToEnd (by rwa [wf_builderStart]) h
  | coded _ h => exact wf_runToEnd (by rwa [wf_setCrFsm]) h

/-- One edge from any state: of a busy block without reset it is a step of its machines. -/
theorem step_next (h : step s = .next t) :
    t = resetBlock (afterEdge s) ∨ t = afterEdge s ∨ t = { afterEdge s with rsp := none } ∨ Effect (afterEdge s) t ∨
      tick (afterEdge s) = .next t := by
  cases hi : unitsIdle (afterEdge s) with
  | true =>
    rcases portEdge_next hi h with h | h | h | h
    · exact .inl h
    · exact .inr (.inl h)
    · exact .inr (.inr (.inl h))
    · exact .inr (.inr (.inr (.inl h)))
  | false =>
    cases hrst : (pinsNow s).rst with
    | true => rw [step_reset hrst] at h; cases h; exact .inl rfl
    | false =>
      rw [step, portEdge, if_neg (by simp [hrst]), if_neg (by simp [hi])] at h
      exact .inr (.inr (.inr (.inr h)))

/-- Settles O55: a step is one of `step_next`'s, and the commands (`Effect.wf`) and the steps of the machines (`wf_tick`) write inside the
arrays only. -/
theorem stepKeepsArraysCanonical : Obligations.StepKeepsArraysCanonical := by
  intro s t hs h
  have hedge : Memory.wf (afterEdge s) = true := hs
  rcases step_next h with rfl | rfl | rfl | he | ht
  · exact wf_resetAt _ _
  · exact hedge
  · exact hedge
  · exact he.wf hedge
  · exact wf_tick hedge ht

/-! ### The invariants (10_state.md R43) -/

theorem params_step (h : step s = .next t) : t.params = s.params := by
  rcases step_next h with rfl | rfl | rfl | he | ht
  · rfl
  · rfl
  · rfl
  · exact he.ports.1
  · exact (tick_ports ht).1

/-- An edge of an idle block is an effect of a command, but for reset and changes at the ports. -/
theorem CoreInv.step_cases (hs : CoreInv s) (h : step s = .next t) :
    (∃ inputs, t = State.resetAt s.params inputs) ∨ (store t = store s ∧ unitsIdle t = true) ∨ Effect (afterEdge s) t := by
  rcases portEdge_next (s := afterEdge s) hs.idle h with rfl | rfl | rfl | he
  · exact .inl ⟨_, rfl⟩
  · exact .inr (.inl ⟨rfl, hs.idle⟩)
  · exact .inr (.inl ⟨rfl, hs.idle⟩)
  · exact .inr (.inr he)

theorem CoreInv.step (hs : CoreInv s) (h : step s = .next t) : CoreInv t := by
  have hedge : Sound (afterEdge s) := Sound.of_store (s := s) rfl hs.sound
  rcases hs.step_cases h with ⟨inputs, rfl⟩ | ⟨hst, hi⟩ | he
  · exact (sound_resetAt hs.legal inputs).core rfl
  · exact (Sound.of_store hst hs.sound).core hi
  · exact (he.sound hedge hs.idle).core (he.idle hs.idle)

/-- Settles O56: reset and every command keep the stored part of the invariants (`Effect.sound`); the parameters by `params_step`. -/
theorem stepKeepsTheCoreInvariants : Obligations.StepKeepsTheCoreInvariants :=
  ⟨fun _ _ hs h => hs.step h, fun _ _ h => params_step h⟩

/-- Settles O57: the heap is empty after reset, and the queue's primitives keep its order (`Effect.heapOrdered`). -/
theorem stepKeepsHeapOrder : Obligations.StepKeepsHeapOrder := by
  intro s t hs ho h
  have hedge : Sound (afterEdge s) := Sound.of_store (s := s) rfl hs.sound
  rcases hs.step_cases h with ⟨inputs, rfl⟩ | ⟨hst, -⟩ | he
  · exact heapOrdered_of_empty rfl
  · exact HeapOrdered.of_store hst ho
  · exact he.heapOrdered hedge hs.idle (HeapOrdered.of_store (s := s) rfl ho)

/-- Settles O58, by `BlockInv.step`. -/
theorem stepKeepsTheInvariants : Obligations.StepKeepsTheInvariants := fun _ _ hs h => hs.step h

/-- Settles O31: PQ_INS raises an error or runs the insertion, which keeps heap order (`Effect.heapOrdered`). -/
theorem queueInsertKeepsHeapOrder : Obligations.QueueInsertKeepsHeapOrder := fun _ _ _ hs ho h =>
  (exec_effect h).heapOrdered hs.sound hs.idle ho

/-- Settles O54: `blockInv_resetAt`, and the default parameters' table by computation. -/
theorem resetMeetsTheInvariants : Obligations.ResetMeetsTheInvariants :=
  ⟨fun _ inputs hp => blockInv_resetAt hp inputs, blockInv_resetAt Params.standard_legal [], rfl, rfl, rfl, rfl, rfl, rfl, rfl, rfl⟩

end Sys2Proof.Machine
end

section
/-!
PROOFS. Words that decode, and the ports at one edge (30_encoding.md R90 to R103).
-/

namespace Sys2Proof.Machine

variable {s : State}

/-- Settles O2, by `decode_encode`. -/
theorem decodeOfEncodeIsTheCommand : Obligations.DecodeOfEncodeIsTheCommand := fun _ h => decode_encode h

/-- Settles O1: each word is the encoding of its command. -/
theorem exampleWordsDecode : Obligations.ExampleWordsDecode := by
  have spelled : ∀ {w i}, encode i = w → i.wellFormed = true → decode w = .ok i := fun hw hi => hw ▸ decode_encode hi
  exact ⟨spelled rfl rfl, spelled rfl rfl, spelled rfl rfl, spelled rfl rfl, spelled rfl rfl, spelled rfl rfl, spelled rfl rfl,
    spelled rfl rfl, spelled rfl rfl, spelled rfl rfl, spelled rfl rfl, spelled rfl rfl, spelled rfl rfl, spelled rfl rfl⟩

theorem cmdReady_iff : cmdReady s = true ↔ unitsIdle s = true ∧ s.rsp = none := by simp [cmdReady]

/-- At an edge without reset a ready block runs the word presented, if one is. -/
theorem step_ready (hready : cmdReady s = true) (hrst : (pinsNow s).rst = false) :
    step s = commandEdge (pinsNow s) (afterEdge s) := by
  obtain ⟨hi, hrsp⟩ := cmdReady_iff.1 hready
  have hi : unitsIdle (afterEdge s) = true := hi
  have hrsp : rspValid (afterEdge s) = false := by simp [rspValid, hrsp]
  rw [step, portEdge, if_neg (by simp [hrst]), if_pos hi, if_neg (by simp [hrsp])]

/-- At an edge without reset a waiting response is taken or held. -/
theorem step_waiting {w : Word64} (hi : unitsIdle s = true) (hrsp : s.rsp = some w) (hrst : (pinsNow s).rst = false) :
    step s = responseEdge (pinsNow s) (afterEdge s) := by
  have hi : unitsIdle (afterEdge s) = true := hi
  have hrsp : rspValid (afterEdge s) = true := by simp [rspValid, hrsp]
  rw [step, portEdge, if_neg (by simp [hrst]), if_pos hi, if_pos hrsp]

/-- A presented word is transferred and run at an edge of a ready block. -/
theorem step_runWord {w : Word64} {ready : Bool} {rest : List HostPins} (hready : cmdReady s = true)
    (hhost : s.host = { rst := false, cmdValid := true, cmdData := w, rspReady := ready } :: rest) :
    step s = runWord w { s with host := rest } := by
  have hpins : pinsNow s = { rst := false, cmdValid := true, cmdData := w, rspReady := ready } := by rw [pinsNow, hhost]; rfl
  have hrest : afterEdge s = { s with host := rest } := by rw [afterEdge, hhost]; rfl
  rw [step_ready hready (by rw [hpins]), hpins, hrest]
  rfl

/-- Settles O7: a ready block runs the word presented (`step_runWord`), which is its command or IllegalCommand. -/
theorem stepRunsThePresentedCommand : Obligations.StepRunsThePresentedCommand := by
  refine ⟨fun s w ready rest i hready hhost hd => ?_, fun s w ready rest hready hhost hd => ?_, fun s w i hd => ?_, fun _ _ _ => rfl⟩
  · rw [step_runWord hready hhost, runWord_of_decode hd]
  · rw [step_runWord hready hhost, runWord_noCommand hd]
  · have hready : cmdReady (presentWord w s) = true := rfl
    rw [step_runWord hready (rest := s.host) rfl, runWord_of_decode hd]
    rfl

/-- Settles O8: the four kinds of edge, by the branches of `portEdge`. -/
theorem edgeWithoutACommand : Obligations.EdgeWithoutACommand := by
  refine ⟨fun s hrst hi => ?_, fun s w hrst hi hrsp hr => ?_, fun s w hrst hi hrsp hr => ?_, fun s hrst hready hv => ?_⟩
  · have hi : unitsIdle (afterEdge s) = false := hi
    rw [step, portEdge, if_neg (by simp [hrst]), if_neg (by simp [hi])]
    rfl
  · rw [step_waiting hi hrsp hrst, responseEdge, if_neg (by simp [hr])]
    rfl
  · rw [step_waiting hi hrsp hrst, responseEdge, if_pos hr]
    rfl
  · rw [step_ready hready hrst, commandEdge, if_neg (by simp [hv])]
    rfl

end Sys2Proof.Machine
end

section
/-!
PROOFS. PQ_FSM's transitions (40_priority_queue.md R128).
-/

namespace Sys2Proof.Machine

/-- Settles O35: the beginnings by `insertStart_fsms` and `extractStart_fsms`, a sift's step by `tick_siftUp` and `tick_siftDown`, and that
only TB_FSM's four calling states start a primitive by `builderStep_moves`. -/
theorem queueMachineTransitions : Obligations.QueueMachineTransitions := by
  refine ⟨fun x s t h => (insertStart_fsms h).2, fun s t h => (extractStart_fsms h).2, fun s t hf h => tick_siftUp hf h,
    fun s t hf h => tick_siftDown hf h, fun s t hf h hne => ?_⟩
  by_cases hb : s.tbFsm = .bIdle
  · rw [tick_recorder hf hb] at h
    exact absurd ((recorderStep_pqFsm h).trans hf) hne
  · rw [tick_builder hf hb] at h
    obtain ⟨-, hins, hext⟩ := builderStep_moves hf h
    cases hq : t.pqFsm with
    | pIdle => exact absurd hq hne
    | pUp => exact (hins hq).elim .inl fun h => .inr (.inr (.inr h))
    | pDown => exact (hext hq).elim (fun h => .inr (.inl h)) fun h => .inr (.inr (.inl h))

end Sys2Proof.Machine
end

section
/-!
PROOFS. What GENCODE leaves in the codeword table (42_codeword_recorder.md R200, R201), from the table of its walk.
-/

namespace Sys2Proof.Machine

open Sys2Proof.Summary

variable {s : State} {w : Table} {sym : Nat} {c : Codeword}

/-- GENCODE ends with the table of its walk (R198). -/
theorem CoreInv.exec_genCode (hs : CoreInv s) (ht : TreeOk s) (hv : s.treeValid = true) :
    ∃ w cr, Records s w ∧ exec .genCode s = .next (withCodes s w cr) := by
  have hhold := hs.holdsTree ht hv
  obtain ⟨w, -, hw⟩ := recordedTable_answers hhold
  obtain ⟨cr, hrun⟩ := exec_genCode_records hhold hs.idle hs.notFatal hv hw
  exact ⟨w, cr, hw, hrun⟩

/-- Every entry of a recorded table is the "0" of a single leaf, or the path to a leaf. -/
theorem Records.entry_cases (h : Records s w) (hs : HoldsTree s) (hc : arrGet w.cw sym = some c) :
    (s.nleaf.toNat = 1 ∧ c = { len := 1, bits := 0 }) ∨ (2 ≤ s.nleaf.toNat ∧ CodesLeaf s sym c) := by
  have hsome := hs.shape.someLeaf
  by_cases hone : s.nleaf.toNat = 1
  · obtain ⟨k, hk⟩ := h.single_eq hs hone
    rw [hk, arrGet_cons, arrGet_nil, Option.ite_none_right_eq_some] at hc
    exact .inl ⟨hone, (Option.some.inj hc.2).symm⟩
  · have htwo : 2 ≤ s.nleaf.toNat := by omega
    exact .inr ⟨htwo, h.codesLeaf hs htwo hc⟩

/-- A path to a leaf below ROOT has a digit, fewer than there are leaves, and no bit beyond its digits. -/
theorem CodesLeaf.digits (h : CodesLeaf s sym c) (hs : HoldsTree s) (htwo : 2 ≤ s.nleaf.toNat) :
    1 ≤ c.len.toNat ∧ c.len.toNat + 1 ≤ s.nleaf.toNat ∧ ∀ j, c.len.toNat ≤ j → digitAt c.bits j = false := by
  obtain ⟨hpath, hn, hl⟩ := h
  rename_i i d p n
  have hd := hpath.toNat_depth hs
  refine ⟨?_, ?_, ?_⟩
  all_goals simp only [hd]
  · rcases Nat.eq_zero_or_pos d with rfl | hpos
    · have hroot : s.root.toNat = i.toNat := by simpa [pathDigits, follow] using hpath.leads
      rw [← hroot] at hn
      have := (hs.shape.root_leaf_iff hn).1 hl
      omega
    · exact hpos
  · exact hpath.depth_lt_nleaf hs.shape
  · exact hpath.zeros

/-- Settles O46: the recorded table covers the leaves' symbols (`Records.covers_iff`), and its entries are the paths to them. -/
theorem gencodeCodesEveryLeaf : Obligations.GencodeCodesEveryLeaf := by
  intro s hs ht hv
  have hhold := hs.holdsTree ht hv
  obtain ⟨w, cr, hw, hrun⟩ := hs.exec_genCode ht hv
  refine ⟨_, hrun, ?_, fun sym _ => ?_, fun sym c hc => ?_, fun htwo sym c hc => (hw.codesLeaf hhold htwo hc).leadsToLeaf hhold⟩
  · rw [← hw.cnt_eq hhold]
    rfl
  · rw [Bool.eq_iff_iff]
    exact hw.covers_iff hhold
  · rcases hw.entry_cases hhold hc with ⟨-, rfl⟩ | ⟨htwo, hcode⟩
    · decide
    · exact toNat_lt_of_digits (hcode.digits hhold htwo).2.2

/-- Settles O47, by `Records.not_prefix`. -/
theorem codewordsArePrefixFree : Obligations.CodewordsArePrefixFree := by
  intro s hs ht hv
  obtain ⟨w, cr, hw, hrun⟩ := hs.exec_genCode ht hv
  exact ⟨_, hrun, fun _ _ _ _ hne => hw.not_prefix (hs.holdsTree ht hv) hne⟩

/-- Settles O48: a codeword is the "0" of a single leaf or a path to a leaf (`Records.entry_cases`), whose length `CodesLeaf.digits`
bounds. -/
theorem codewordLengthIsBounded : Obligations.CodewordLengthIsBounded := by
  intro s hs ht hv
  have hhold := hs.holdsTree ht hv
  obtain ⟨w, cr, hw, hrun⟩ := hs.exec_genCode ht hv
  refine ⟨_, hrun, fun sym c hc => ?_⟩
  rcases hw.entry_cases hhold hc with ⟨hone, rfl⟩ | ⟨htwo, hcode⟩
  · exact ⟨le_rfl, fun htwo => by omega, fun _ => rfl, by decide⟩
  · obtain ⟨hpos, hlt, hzero⟩ := hcode.digits hhold htwo
    have := c.len.isLt
    exact ⟨hpos, fun _ => hlt, fun hone => by simp [hone] at htwo, hzero 255 (by omega)⟩

end Sys2Proof.Machine
end

section
/-!
PROOFS. What each command can do, command by command: the error entry, or its own write (30_encoding.md R100).
-/

namespace Sys2Proof.Machine

variable {s t u : State} {i : Instr} {o : Opcode} {P Q : State → Prop}

/-- A command's own write, without an error: of each command, in terms of the shared operations. -/
inductive Ran (s : State) : Opcode → State → Prop
  | read {o : Opcode} (a : BitVec 24) (b : BitVec 32) : isRead o = true → Ran s o (respondOk a b s)
  | cleared {t : State} : execClear s = .next t → Ran s .clear t
  | counted (sym : Symbol) (f : Key) : Ran s .ftWr (respondOk 0 0 (writeFt s sym f))
  | allocated (a : BitVec 24) (n : NodeRec) : s.nodeCnt.toNat < s.params.nodeMax → Ran s .leaf (respondOk a 0 (putNode s n))
  | queueMade (cap : Count9) : Ran s .pqInit (respondOk 0 0 (createQueue s cap))
  | inserted {u t : State} (x : NodeRef) : insertStart x s = .next u → runToEnd u = .next t → Ran s .pqIns t
  | extracted {u t : State} : extractStart s = .next u → runToEnd u = .next t → Ran s .pqExt t
  | built {t : State} : s.fatal = false → runToEnd (builderStart s) = .next t → Ran s .build t
  | coded {t : State} : runToEnd (setCrFsm .gStart s) = .next t → Ran s .genCode t

/-- The error entry, or what `P` says. -/
def RaisedOr (s : State) (P : State → Prop) (t : State) : Prop := (∃ e, t = raise e s) ∨ P t

theorem raisedOr_unlessHalted {k : Result} (h : unlessHalted s k = .next t) (hk : s.fatal = false → k = .next t → RaisedOr s P t) :
    RaisedOr s P t := by
  rcases unlessHalted_eq_next.1 h with ⟨-, rfl⟩ | ⟨hf, h⟩
  · exact .inl ⟨_, rfl⟩
  · exact hk hf h

theorem raisedOr_withOperand {α : Type} {o : Option α} {k : α → Result} (h : withOperand o s k = .next t)
    (hk : ∀ v, k v = .next t → RaisedOr s P t) : RaisedOr s P t := by
  rcases withOperand_eq_next.1 h with ⟨-, rfl⟩ | ⟨v, -, h⟩
  · exact .inl ⟨_, rfl⟩
  · exact hk v h

/-- A read command answers from the state and changes nothing else. -/
theorem read_answers (hr : isRead i.opcode = true) (h : exec i s = .next t) :
    RaisedOr s (fun t => ∃ a b, t = respondOk a b s) t := by
  have answered : ∀ a b, .next (respondOk a b s) = (.next t : Result) → RaisedOr s (fun t => ∃ a b, t = respondOk a b s) t :=
    fun a b h => by cases h; exact .inr ⟨a, b, rfl⟩
  cases i with
  | csrRd a => exact raisedOr_withOperand h fun c h => answered _ _ h
  | ftRd a => exact raisedOr_unlessHalted h fun _ h => raisedOr_withOperand h fun sym h => answered _ _ h
  | nodeRd a | nodeCh a =>
    refine raisedOr_unlessHalted h fun _ h => raisedOr_withOperand h fun x h => ?_
    obtain ⟨n, -, h⟩ := readNode_eq_next.1 h
    exact answered _ _ h
  | heapRd a =>
    refine raisedOr_unlessHalted h fun _ h => raisedOr_withOperand h fun k h => ?_
    obtain ⟨x, -, h⟩ := readSlot_eq_next.1 h
    obtain ⟨f, -, h⟩ := readKey_eq_next.1 h
    exact answered _ _ h
  | cwRd a b =>
    refine raisedOr_unlessHalted h fun _ h => raisedOr_withOperand h fun sym h => raisedOr_withOperand h fun k h => ?_
    split at h <;> exact answered _ _ h
  | clear | ftWr | leaf | pqInit | pqIns | pqExt | build | genCode => cases hr

/-- Every command raises an error or does its own write. -/
theorem exec_ran (h : exec i s = .next t) : RaisedOr s (Ran s i.opcode) t := by
  cases i with
  | csrRd | ftRd | nodeRd | nodeCh | heapRd | cwRd =>
    exact (read_answers rfl h).imp_right fun ⟨a, b, ht⟩ => ht ▸ .read a b rfl
  | clear => exact .inr (.cleared h)
  | ftWr a b =>
    refine raisedOr_unlessHalted h fun _ h => raisedOr_withOperand h fun sym h => raisedOr_withOperand h fun f h => ?_
    cases h
    exact .inr (.counted sym f)
  | leaf a b =>
    refine raisedOr_unlessHalted h fun _ h => raisedOr_withOperand h fun sym h => raisedOr_withOperand h fun f h => ?_
    split at h
    · cases h; exact .inl ⟨_, rfl⟩
    · obtain ⟨u, hu, h⟩ := andThen_eq_next.1 h
      obtain ⟨hroom, rfl⟩ := allocNode_eq_next.1 hu
      cases h
      exact .inr (.allocated _ _ hroom)
  | pqInit a =>
    refine raisedOr_unlessHalted h fun _ h => raisedOr_withOperand h fun cap h => ?_
    cases h
    exact .inr (.queueMade cap)
  | pqIns a =>
    refine raisedOr_unlessHalted h fun _ h => raisedOr_withOperand h fun x h => ?_
    split at h
    · cases h; exact .inl ⟨_, rfl⟩
    · obtain ⟨u, hu, h⟩ := andThen_eq_next.1 h
      exact .inr (.inserted x hu h)
  | pqExt =>
    refine raisedOr_unlessHalted h fun _ h => ?_
    split at h
    · cases h; exact .inl ⟨_, rfl⟩
    · obtain ⟨u, hu, h⟩ := andThen_eq_next.1 h
      exact .inr (.extracted hu h)
  | build => exact raisedOr_unlessHalted h fun hf h => .inr (.built hf h)
  | genCode =>
    refine raisedOr_unlessHalted h fun _ h => ?_
    split at h
    · exact .inr (.coded h)
    · cases h; exact .inl ⟨_, rfl⟩

/-! ### Reads (20_memory.md R64) -/

/-- A read command does not look at the response port, and overwrites it. -/
theorem exec_read_rsp (hr : isRead i.opcode = true) (r : Option Word64) : exec i { s with rsp := r } = exec i s := by
  cases i with
  | csrRd | ftRd | nodeRd | nodeCh | heapRd | cwRd => rfl
  | clear | ftWr | leaf | pqInit | pqIns | pqExt | build | genCode => cases hr

/-- Settles O50: a read raises an error or answers (`read_ran`), and what it answers does not depend on the response port. -/
theorem readsAreFreeOfSideEffects : Obligations.ReadsAreFreeOfSideEffects := by
  intro i s t hr h
  rcases read_answers hr h with ⟨e, rfl⟩ | ⟨a, b, rfl⟩
  · exact ⟨rfl, fun a b hok => absurd (Option.some.inj hok).symm (okWord_ne_errorWord a b e)⟩
  · exact ⟨rfl, fun _ _ _ => ⟨rfl, (exec_read_rsp hr _).trans h⟩⟩

end Sys2Proof.Machine
end

section
/-!
PROOFS. How BUILD enters an error, from every idle state: B_SCAN and B_CHECK write the builder's own registers only, so that B_FAIL leaves no
partial result, and B_FAULT halts the block (60_exceptions.md R225, R232).
-/

namespace Sys2Proof.Machine

open Sys2Proof.Summary

variable {s t u : State} {i : Instr} {e : ErrKind}

/-- How a command other than CLEAR leaves ERRFLAGS: an error sets its one bit, and nothing else is written unless the block halts; an OK
response leaves the register as it was. -/
def Entered (s t : State) : Prop :=
  (∃ e, t.rsp = some (errorWord e) ∧ t.errflags = setErrBit s.errflags e ∧
    (t.fatal = s.fatal → t = { s with errflags := setErrBit s.errflags e, rsp := some (errorWord e), tb := t.tb })) ∨
  (AnswersOk t ∧ t.errflags = s.errflags)

theorem entered_raise (e : ErrKind) (s : State) : Entered s (raise e s) := .inl ⟨e, rfl, rfl, fun _ => rfl⟩

/-- The states of TB_FSM before anything but the builder's own registers is written (R167, and B_FAIL, R166). -/
def scans : TbState → Bool
  | .bScan | .bCheck | .bInit | .bFail _ => true
  | .bIdle | .bLeaves | .bLoop | .bExtU | .bExtV | .bMerge | .bInsW | .bDone | .bFault _ => false

/-- The states of TB_FSM from B_LEAVES on. -/
def grows : TbState → Bool
  | .bLeaves | .bLoop | .bExtU | .bExtV | .bMerge | .bInsW | .bDone | .bFault _ => true
  | .bIdle | .bScan | .bCheck | .bInit | .bFail _ => false

/-- Where a BUILD from `s` is, as far as its errors are concerned. -/
inductive BuildPhase (s : State) : State → Prop
  | scanning {u : State} : scans u.tbFsm = true → u = { s with tb := u.tb, tbFsm := u.tbFsm } → BuildPhase s u
  | growing {u : State} : grows u.tbFsm = true → u.errflags = s.errflags → u.crFsm = .gIdle → BuildPhase s u
  | ended {u : State} : unitsIdle u = true → Entered s u → BuildPhase s u

/-- Only B_DONE and B_FAULT lead out of the states from B_LEAVES on. -/
theorem grows_builderGoesTo (hu : grows u.tbFsm = true) (hd : u.tbFsm ≠ .bDone) (hfault : ∀ e, u.tbFsm ≠ .bFault e) :
    grows (builderGoesTo u) = true := by
  unfold builderGoesTo
  cases hf : u.tbFsm with
  | bIdle | bScan | bCheck | bInit | bFail => rw [hf] at hu; cases hu
  | bDone => exact absurd hf hd
  | bFault e => exact absurd hf (hfault e)
  | bMerge => rfl
  | bLoop | bExtU | bExtV | bInsW => dsimp only; split <;> rfl
  | bLeaves => dsimp only; split <;> (try split) <;> rfl

/-- The caller that goes on after a primitive is still in one of these states. -/
theorem grows_tick_primitive (hu : grows u.tbFsm = true) (hp : u.pqFsm ≠ .pIdle) (h : tick u = .next t) : grows t.tbFsm = true := by
  rcases tick_next h with ⟨-, v, hv, h⟩ | ⟨-, v, hv, h⟩ | ⟨hp', -⟩ | ⟨hp', -⟩
  · rw [← (upStep_frame hv).1.tbFsm_eq] at hu
    rcases whenPqIdle_eq_next.1 h with ⟨-, h⟩ | ⟨-, rfl⟩
    · rcases afterInsert_next h with ⟨-, rfl⟩ | ⟨-, rfl⟩ | ⟨-, rfl⟩ | ⟨-, -, -, rfl⟩
      · exact hu
      · exact hu
      · rfl
      · exact hu
    · exact hu
  · rw [← (downStep_frame hv).1.tbFsm_eq] at hu
    rcases whenPqIdle_eq_next.1 h with ⟨-, h⟩ | ⟨-, rfl⟩
    · rcases afterExtract_next h with ⟨-, n, -, rfl⟩ | ⟨-, rfl⟩ | ⟨-, rfl⟩ | ⟨-, -, -, rfl⟩
      · exact hu
      · rfl
      · rfl
      · exact hu
    · exact hu
  · exact absurd hp' hp
  · exact absurd hp' hp

/-- B_SCAN to B_INIT and B_FAIL. -/
theorem BuildPhase.scanStep (hi : unitsIdle s = true) (hscan : scans u.tbFsm = true) (hu : u = { s with tb := u.tb, tbFsm := u.tbFsm })
    (h : tick u = .next t) : BuildPhase s t := by
  obtain ⟨hq, -, hc⟩ := unitsIdle_iff.1 hi
  have hqu : u.pqFsm = .pIdle := by rw [hu]; exact hq
  have hcu : u.crFsm = .gIdle := by rw [hu]; exact hc
  have hflags : u.errflags = s.errflags := by rw [hu]
  have hb : u.tbFsm ≠ .bIdle := fun hb => by rw [hb] at hscan; cases hscan
  rw [tick_builder hqu hb, builderStep] at h
  cases hf : u.tbFsm with
  | bIdle | bLeaves | bLoop | bExtU | bExtV | bMerge | bInsW | bDone | bFault => rw [hf] at hscan; cases hscan
  | bScan =>
    simp only [hf] at h
    rcases scanStep_next h with ⟨-, -, rfl⟩ | ⟨-, -, rfl⟩ | ⟨-, rfl⟩
    · exact .scanning hscan (by rw [hu]; rfl)
    · exact .scanning hscan (by rw [hu]; rfl)
    · exact .scanning rfl (by rw [hu]; rfl)
  | bCheck =>
    simp only [hf] at h
    rcases checkStep_next h with ⟨-, rfl⟩ | ⟨-, -, rfl⟩ | ⟨-, -, rfl⟩ <;> exact .scanning rfl (by rw [hu]; rfl)
  | bInit =>
    simp only [hf, initStep_eq] at h
    cases h
    exact .growing (by simp [grows]) (by simpa using hflags) (by simpa using hcu)
  | bFail e =>
    simp only [hf] at h
    cases h
    refine .ended (unitsIdle_iff.2 ⟨hqu, rfl, hcu⟩) (.inl ⟨e, rfl, congrArg (setErrBit · e) hflags, fun _ => ?_⟩)
    rw [hu]
    simp only [raise, respond, setErrflags, setTbFsm, errorWord, (unitsIdle_iff.1 hi).2.1]

/-- From B_LEAVES on. -/
theorem BuildPhase.growStep (hrun : s.fatal = false) (hgrow : grows u.tbFsm = true) (hflags : u.errflags = s.errflags)
    (hc : u.crFsm = .gIdle) (hbusy : unitsIdle u = false) (h : tick u = .next t) : BuildPhase s t := by
  have hct : t.crFsm = .gIdle := (field_of_view State.crFsm (tick_outsideBuilder hc hbusy h) fun _ => rfl).trans hc
  have hb : u.tbFsm ≠ .bIdle := fun hb => by rw [hb] at hgrow; cases hgrow
  by_cases hq : u.pqFsm = .pIdle
  · by_cases hd : u.tbFsm = .bDone
    · rw [tick_builder hq hb, builderStep, hd] at h
      obtain ⟨r, n, -, -, rfl⟩ := doneStep_next h
      exact .ended (unitsIdle_iff.2 ⟨hq, rfl, hct⟩) (.inr ⟨answersOk_respondOk .., hflags⟩)
    · by_cases hfault : ∃ e, u.tbFsm = .bFault e
      · obtain ⟨e, hf⟩ := hfault
        rw [tick_bFault hq hf] at h
        cases h
        refine .ended (unitsIdle_iff.2 ⟨hq, rfl, hct⟩) (.inl ⟨e, rfl, congrArg (setErrBit · e) hflags, fun hfatal => ?_⟩)
        rw [hrun] at hfatal
        cases hfatal
      · have hnone : pendingError u.tbFsm = none := by
          cases hf : u.tbFsm with
          | bFail => rw [hf] at hgrow; cases hgrow
          | bFault e => exact absurd ⟨e, hf⟩ hfault
          | _ => rfl
        have hgoes := (builderStep_moves hq (builderStep_of_tick hq hb h)).goesTo
        exact .growing (hgoes ▸ grows_builderGoesTo hgrow hd (not_exists.1 hfault)) ((tick_errflags hnone h).trans hflags) hct
  · obtain ⟨v, hv, ht⟩ := tick_primitive_frame hq h
    exact .growing (grows_tick_primitive hgrow hq h) ((ht.errflags_eq.trans hv.errflags_eq).trans hflags) hct

theorem build_entered (hi : unitsIdle s = true) (hrun : s.fatal = false) (h : runToEnd (builderStart s) = .next t) : Entered s t := by
  have hstep : ∀ u v, BuildPhase s u → unitsIdle u = false → tick u = .next v → BuildPhase s v := by
    intro u v hu hbusy hv
    cases hu with
    | scanning hscan hu => exact .scanStep hi hscan hu hv
    | growing hgrow hflags hc => exact .growStep hrun hgrow hflags hc hbusy hv
    | ended hi => rw [hi] at hbusy; cases hbusy
  have hend := runUnits_ends_idle h
  have hb := (unitsIdle_iff.1 hend).2.1
  cases runUnits_induct hstep (.scanning rfl rfl) h with
  | scanning hscan => rw [hb] at hscan; cases hscan
  | growing hgrow => rw [hb] at hgrow; cases hgrow
  | ended _ h => exact h

theorem eq_clear_of_opcode (h : i.opcode = .clear) : i = .clear := by
  cases i with
  | clear => rfl
  | csrRd | ftWr | ftRd | leaf | nodeRd | nodeCh | pqInit | pqIns | pqExt | heapRd | build | genCode | cwRd => cases h

/-- Every command but CLEAR, from every idle state, enters an error or answers OK. -/
theorem exec_entered (hi : unitsIdle s = true) (hne : i ≠ .clear) (h : exec i s = .next t) : Entered s t := by
  have hb := (unitsIdle_iff.1 hi).2.1
  rcases exec_ran h with ⟨e, rfl⟩ | hran
  · exact entered_raise e s
  · generalize ho : i.opcode = o at hran
    cases hran with
    | cleared => exact absurd (eq_clear_of_opcode ho) hne
    | read | counted | allocated | queueMade => exact .inr ⟨answersOk_respondOk .., rfl⟩
    | inserted x hu h =>
      exact .inr ⟨insertStart_answersOk hi (andThen_eq_next.2 ⟨_, hu, h⟩), field_of_view State.errflags (pqIns_outsideQueue hi hu h) fun _ => rfl⟩
    | extracted hu h =>
      exact .inr ⟨extractStart_answersOk hi (andThen_eq_next.2 ⟨_, hu, h⟩), field_of_view State.errflags (pqExt_outsideQueue hi hu h) fun _ => rfl⟩
    | built hrun h => exact build_entered hi hrun h
    | coded h =>
      exact .inr ⟨runToEnd_answersOk (s := setCrFsm .gStart s) hb (by simp [unitsIdle]) h,
        field_of_view State.errflags (genCode_outsideRecorder hi h) fun _ => rfl⟩

theorem runWord_entered {w : Word64} (hi : unitsIdle s = true) (hne : decode w ≠ .ok .clear) (h : runWord w s = .next t) :
    Entered s t := by
  rcases runWord_next h with ⟨i, hd, h⟩ | rfl
  · exact exec_entered hi (fun hi => hne (hi ▸ hd)) h
  · exact entered_raise _ s

/-- No error entry answers OK. -/
theorem AnswersOk.ne_errorWord (h : AnswersOk t) (he : t.rsp = some (errorWord e)) : False := by
  obtain ⟨a, b, hok⟩ := h
  exact okWord_ne_errorWord a b e (Option.some.inj (hok.symm.trans he))

/-- Settles O13: CLEAR answers OK, and every other word enters its error alone (`runWord_entered`). -/
theorem errorsLeaveNoPartialResult : Obligations.ErrorsLeaveNoPartialResult := by
  intro w s t e hi h he hfatal
  by_cases hclear : decode w = .ok .clear
  · rw [runWord_of_decode hclear] at h
    cases h
    exact (AnswersOk.ne_errorWord (answersOk_respondOk ..) he).elim
  · rcases runWord_entered hi hclear h with ⟨f, hf, -, hframe⟩ | ⟨hok, -⟩
    · obtain rfl := errorWord_injective (Option.some.inj (hf.symm.trans he))
      exact hframe hfatal
    · exact (hok.ne_errorWord he).elim

/-- Settles O14, by `exec_answers`. -/
theorem errorsAreThoseOfTheMatrix : Obligations.ErrorsAreThoseOfTheMatrix := fun _ _ _ _ hi h he => (exec_answers hi h).allowed he

/-- Settles O10: a command ends idle (`Effect.idle`) with the host's inputs untouched (`Effect.ports`), and answers OK or with an error
(`exec_answers`). -/
theorem everyCommandEndsWithOneResponse : Obligations.EveryCommandEndsWithOneResponse := by
  intro w s t hi h
  have heffect := runWord_effect h
  refine ⟨heffect.idle hi, heffect.ports.2, ?_⟩
  rcases runWord_next h with ⟨i, -, h⟩ | rfl
  · exact (exec_answers hi h).imp_right fun ⟨e, he, _⟩ => ⟨e, he⟩
  · exact .inr ⟨_, rfl⟩

/-- The bits of ERRFLAGS after an entry: the old ones, and the one of the error answered. -/
theorem Entered.bits (h : Entered s t) (k : Nat) :
    t.errflags.getLsbD k = true ↔ s.errflags.getLsbD k = true ∨ ∃ e, errCode e = k ∧ t.rsp = some (errorWord e) := by
  rcases h with ⟨e, he, hflags, -⟩ | ⟨hok, hflags⟩
  · rw [hflags, setErrBit_bit, Bool.or_eq_true, decide_eq_true_iff]
    refine or_congr_right ⟨fun hk => ⟨e, hk.symm, he⟩, ?_⟩
    rintro ⟨f, rfl, hf⟩
    rw [errorWord_injective (Option.some.inj (hf.symm.trans he))]
  · rw [hflags]
    exact ⟨.inl, Or.rec id fun ⟨e, _, he⟩ => (hok.ne_errorWord he).elim⟩

/-- Settles O19: a word sets the bit of the error it answers with and no other (`Entered.bits`), CLEAR and reset clear the register, an edge
without a command leaves it, and bit 0 is part of the invariants of reachable states. -/
theorem errflagsAreSticky : Obligations.ErrflagsAreSticky := by
  refine ⟨fun w s t k hi h hclear _ => (runWord_entered hi hclear h).bits k, fun s t h => (store_execClear h).2.2, fun s t hrst h => ?_,
    fun s t hrst hi hcmd h => ?_, fun s hr => (reachableStatesMeetTheInvariants s hr).noBitZero⟩
  · rw [step_reset hrst] at h
    cases h
    rfl
  · cases hrsp : s.rsp with
    | some w =>
      rw [step_waiting hi hrsp hrst, responseEdge] at h
      split at h <;> cases h <;> rfl
    | none =>
      have hready : cmdReady s = true := cmdReady_iff.2 ⟨hi, hrsp⟩
      rw [hready, Bool.true_and] at hcmd
      rw [step_ready hready hrst, commandEdge, if_neg (by simp [hcmd])] at h
      cases h
      rfl

end Sys2Proof.Machine
end

section
/-!
PROOFS. The frame of every command (20_memory.md R61), and that allocated records are never written again (10_state.md R24).
-/

namespace Sys2Proof.Machine

open Sys2Proof.Summary

variable {s t u : State} {i : Instr} {o : Opcode}

/-- What `o` leaves unchanged, piece by piece (20_memory.md R61). -/
structure Leaves (o : Opcode) (s t : State) : Prop where
  ft : o ∉ [.clear, .ftWr] → t.ft = s.ft
  arena : o ∉ [.clear, .leaf, .build] → t.node = s.node ∧ t.nodeCnt = s.nodeCnt
  heap : o ∉ [.clear, .pqInit, .pqIns, .pqExt, .build] → t.heap = s.heap ∧ t.pqSize = s.pqSize
  capacity : o ∉ [.clear, .pqInit, .build] → t.pqCap = s.pqCap
  tree : o ∉ [.clear, .build] → t.root = s.root ∧ t.nleaf = s.nleaf ∧ t.treeValid = s.treeValid ∧ t.fatal = s.fatal
  codes : o ∉ [.clear, .build, .genCode] → t.cw = s.cw ∧ t.cwReady = s.cwReady
  queueRegs : o ∉ [.clear, .pqIns, .pqExt, .build] → t.pq = s.pq
  builderRegs : o ∉ [.clear, .build] → t.tb = s.tb
  recorderRegs : o ∉ [.clear, .genCode] → t.cr = s.cr ∧ t.tstk = s.tstk

theorem leaves_self (s : State) : Leaves o s s :=
  ⟨fun _ => rfl, fun _ => ⟨rfl, rfl⟩, fun _ => ⟨rfl, rfl⟩, fun _ => rfl, fun _ => ⟨rfl, rfl, rfl, rfl⟩, fun _ => ⟨rfl, rfl⟩, fun _ => rfl,
    fun _ => rfl, fun _ => ⟨rfl, rfl⟩⟩

theorem leaves_respondOk (a : BitVec 24) (b : BitVec 32) (h : Leaves o s t) : Leaves o s (respondOk a b t) :=
  ⟨h.ft, h.arena, h.heap, h.capacity, h.tree, h.codes, h.queueRegs, h.builderRegs, h.recorderRegs⟩

theorem leaves_raise (e : ErrKind) (s : State) : Leaves o s (raise e s) :=
  have h : Leaves o s s := leaves_self s
  ⟨h.ft, h.arena, h.heap, h.capacity, h.tree, h.codes, h.queueRegs, h.builderRegs, h.recorderRegs⟩

/-- A primitive that a command runs. -/
theorem leaves_of_outsideQueue (ho : o = .pqIns ∨ o = .pqExt) (h : outsideQueue t = outsideQueue s) : Leaves o s t where
  ft _ := field_of_view State.ft h fun _ => rfl
  arena _ := ⟨field_of_view State.node h fun _ => rfl, field_of_view State.nodeCnt h fun _ => rfl⟩
  heap hn := by rcases ho with rfl | rfl <;> simp at hn
  capacity _ := field_of_view State.pqCap h fun _ => rfl
  tree _ := ⟨field_of_view State.root h fun _ => rfl, field_of_view State.nleaf h fun _ => rfl, field_of_view State.treeValid h fun _ => rfl,
    field_of_view State.fatal h fun _ => rfl⟩
  codes _ := ⟨field_of_view State.cw h fun _ => rfl, field_of_view State.cwReady h fun _ => rfl⟩
  queueRegs hn := by rcases ho with rfl | rfl <;> simp at hn
  builderRegs _ := field_of_view State.tb h fun _ => rfl
  recorderRegs _ := ⟨field_of_view State.cr h fun _ => rfl, field_of_view State.tstk h fun _ => rfl⟩

theorem leaves_of_outsideRecorder (h : outsideRecorder t = outsideRecorder s) : Leaves .genCode s t where
  ft _ := field_of_view State.ft h fun _ => rfl
  arena _ := ⟨field_of_view State.node h fun _ => rfl, field_of_view State.nodeCnt h fun _ => rfl⟩
  heap _ := ⟨field_of_view State.heap h fun _ => rfl, field_of_view State.pqSize h fun _ => rfl⟩
  capacity _ := field_of_view State.pqCap h fun _ => rfl
  tree _ := ⟨field_of_view State.root h fun _ => rfl, field_of_view State.nleaf h fun _ => rfl, field_of_view State.treeValid h fun _ => rfl,
    field_of_view State.fatal h fun _ => rfl⟩
  codes hn := by simp at hn
  queueRegs _ := field_of_view State.pq h fun _ => rfl
  builderRegs _ := field_of_view State.tb h fun _ => rfl
  recorderRegs hn := by simp at hn

theorem leaves_of_outsideBuilder (h : outsideBuilder t = outsideBuilder s) : Leaves .build s t where
  ft _ := field_of_view State.ft h fun _ => rfl
  arena hn := by simp at hn
  heap hn := by simp at hn
  capacity hn := by simp at hn
  tree hn := by simp at hn
  codes hn := by simp at hn
  queueRegs hn := by simp at hn
  builderRegs hn := by simp at hn
  recorderRegs _ := ⟨field_of_view State.cr h fun _ => rfl, field_of_view State.tstk h fun _ => rfl⟩

theorem Ran.leaves (hi : unitsIdle s = true) (h : Ran s o t) : Leaves o s t := by
  cases h with
  | read a b => exact leaves_respondOk a b (leaves_self s)
  | cleared => constructor <;> intro hn <;> simp at hn
  | counted sym f => constructor <;> intro hn <;> simp at hn ⊢
  | allocated a n => constructor <;> intro hn <;> simp at hn ⊢
  | queueMade cap => constructor <;> intro hn <;> simp at hn ⊢
  | inserted x hu h => exact leaves_of_outsideQueue (.inl rfl) (pqIns_outsideQueue hi hu h)
  | extracted hu h => exact leaves_of_outsideQueue (.inr rfl) (pqExt_outsideQueue hi hu h)
  | built _ h => exact leaves_of_outsideBuilder (build_outsideBuilder hi h)
  | coded h => exact leaves_of_outsideRecorder (genCode_outsideRecorder hi h)

theorem exec_leaves (hi : unitsIdle s = true) (h : exec i s = .next t) : Leaves i.opcode s t := by
  rcases exec_ran h with ⟨e, rfl⟩ | hran
  · exact leaves_raise e s
  · exact hran.leaves hi

/-- Settles O51: the pieces by `exec_leaves`, and that the units are idle and the ports untouched by the effect of a command. -/
theorem onlyNamedCommandsWrite : Obligations.OnlyNamedCommandsWrite := by
  intro i s t hi h
  obtain ⟨hft, harena, hheap, hcap, htree, hcodes, hpq, htb, hcr⟩ := exec_leaves hi h
  have heffect := exec_effect h
  exact ⟨hft, harena, hheap, hcap, htree, hcodes, hpq, htb, hcr, heffect.ports.2, heffect.ports.1, heffect.idle hi⟩

/-- An error that a check of a sound block raises leaves the arena as it was. -/
theorem exec_error_arena {e : ErrKind} (hs : Sound s) (hi : unitsIdle s = true) (h : exec i s = .next t) (he : t.rsp = some (errorWord e)) :
    t.node = s.node ∧ t.nodeCnt = s.nodeCnt := by
  obtain ⟨u, hu, hvis⟩ := exec_checkError hs.legal hi (exec_error_of_check hs hi h he)
  obtain rfl : t = u := Host.Outcome.next.inj (h.symm.trans hu)
  exact ⟨field_of_view (s := raise e s) State.node hvis fun _ => rfl, field_of_view (s := raise e s) State.nodeCnt hvis fun _ => rfl⟩

/-- Settles O52: LEAF writes a new record only, a failed BUILD nothing (`exec_error_arena`), and no other command but CLEAR writes the
arena (`exec_leaves`). -/
theorem allocatedRecordsNeverChange : Obligations.AllocatedRecordsNeverChange := by
  intro i s t hs h hclear hbuild
  have unchanged : t.node = s.node ∧ t.nodeCnt = s.nodeCnt →
      s.nodeCnt.toNat ≤ t.nodeCnt.toNat ∧ ∀ j, j < s.nodeCnt.toNat → nodeAt t j = nodeAt s j := by
    rintro ⟨hnode, hcnt⟩
    exact ⟨hcnt ▸ le_rfl, fun j _ => by rw [nodeAt, hnode, ← nodeAt]⟩
  by_cases ho : i.opcode = .build
  · obtain ⟨e, he⟩ := hbuild ho
    exact unchanged (exec_error_arena hs.sound hs.idle h he)
  · by_cases hl : i.opcode = .leaf
    · rcases exec_ran h with ⟨e, rfl⟩ | hran
      · exact unchanged ⟨rfl, rfl⟩
      · rw [hl] at hran
        cases hran with
        | read a b hr => cases hr
        | allocated a n hroom =>
          have hcnt := toNat_nodeCnt_putNode hs.legal hroom n
          exact ⟨hcnt ▸ Nat.le_succ _, fun j hj => nodeAt_putNode_old n hj⟩
    · exact unchanged ((exec_leaves hs.idle h).arena (by simp [hclear, hl, ho]))

end Sys2Proof.Machine
end

section
/-!
PROOFS. A queue primitive run by the block's steps is the primitive run by itself (40_priority_queue.md R131, R133), from every state: a sift
has at most the ten levels that a 9-bit slot can be deep.
-/

namespace Sys2Proof.Machine

open Sys2Proof.Summary

variable {s t u v : State} {x : NodeRef} {f : PqState} {stepOf after : State → Result} {n k m : Nat}

/-! ### Running a primitive by itself -/

/-- A property that every step on the way keeps, and what the last step makes of it. -/
theorem runPq_induct {P Q : State → Prop} (hgo : ∀ u v, P u → stepOf u = .next v → v.pqFsm ≠ .pIdle → P v)
    (hend : ∀ u v, P u → stepOf u = .next v → v.pqFsm = .pIdle → Q v) (hu : P u) (h : runPq stepOf n u = .next t) : Q t := by
  induction n generalizing u with
  | zero => cases h
  | succ n ih =>
    obtain ⟨v, hv, h⟩ := andThen_eq_next.1 h
    split at h
    · next hidle => cases h; exact hend u _ hu hv hidle
    · next hbusy => exact ih (hgo u v hu hv hbusy) h

theorem runPq_ends_idle (h : runPq stepOf n u = .next t) : t.pqFsm = .pIdle :=
  runPq_induct (P := fun _ => True) (Q := fun t => t.pqFsm = .pIdle) (fun _ _ _ _ _ => trivial) (fun _ _ _ _ hi => hi) trivial h

/-- A primitive whose every step answers and shortens what is left ends. -/
theorem runPq_answers {P : State → Prop} (left : State → Nat) (hpos : ∀ u, P u → 1 ≤ left u)
    (hstep : ∀ u, P u → ∃ v, stepOf u = .next v ∧ (v.pqFsm = .pIdle ∨ (P v ∧ left v < left u))) (hu : P u) (hn : left u ≤ n) :
    ∃ t, runPq stepOf n u = .next t := by
  induction n generalizing u with
  | zero => exact absurd (hpos u hu) (by omega)
  | succ n ih =>
    obtain ⟨v, hv, hcase⟩ := hstep u hu
    rw [runPq, hv, andThen_next]
    by_cases hidle : v.pqFsm = .pIdle
    · exact ⟨v, if_pos hidle⟩
    · obtain ⟨hpv, hlt⟩ := hcase.resolve_left hidle
      rw [if_neg hidle]
      exact ih hpv (by omega)

/-- The block's steps while a primitive runs are the primitive's, and then its caller goes on. The primitive is given by the state `f` of PQ_FSM,
its step and its caller; `left` counts the steps it can still make. -/
theorem runUnits_primitive (left : State → Nat) (hf : f ≠ .pIdle) (hpos : ∀ u, 1 ≤ left u)
    (htick : ∀ u, u.pqFsm = f → tick u = andThen (stepOf u) (whenPqIdle after))
    (hshort : ∀ u v, u.pqFsm = f → stepOf u = .next v → v.pqFsm = .pIdle ∨ (v.pqFsm = f ∧ left v < left u))
    (hu : u.pqFsm = f) (hn : left u ≤ n) :
    ∃ k ≤ n, ∀ m, runUnits (k + m) u = andThen (runPq stepOf n u) fun t => andThen (after t) (runUnits m) := by
  induction n generalizing u with
  | zero => exact absurd (hpos u) (by omega)
  | succ n ih =>
    have hbusy : unitsIdle u = false := Bool.eq_false_iff.2 fun hi => hf (hu.symm.trans (unitsIdle_iff.1 hi).1)
    have first : ∀ m, runUnits (1 + m) u = andThen (stepOf u) fun v => andThen (whenPqIdle after v) (runUnits m) := fun m => by
      rw [Nat.add_comm, runUnits_step hbusy, htick u hu, andThen_assoc]
    cases hv : stepOf u with
    | fault e => exact ⟨1, by omega, fun m => by rw [first, runPq, hv]; rfl⟩
    | refused e => exact ⟨1, by omega, fun m => by rw [first, runPq, hv]; rfl⟩
    | next v =>
      by_cases hidle : v.pqFsm = .pIdle
      · exact ⟨1, by omega, fun m => by
          rw [first, runPq, hv, andThen_next, andThen_next, if_pos hidle, andThen_next, whenPqIdle, if_pos hidle]⟩
      · obtain ⟨hvf, hlt⟩ := (hshort u v hu hv).resolve_left hidle
        obtain ⟨k, hk, hrun⟩ := ih hvf (by omega)
        exact ⟨k + 1, by omega, fun m => by
          rw [Nat.add_comm k 1, Nat.add_assoc, first, hv, andThen_next, whenPqIdle_busy hidle, andThen_next, hrun, runPq, hv, andThen_next,
            if_neg hidle]⟩

/-! ### The two sifts -/

theorem tick_pUp (h : u.pqFsm = .pUp) : tick u = andThen (upStep u) (whenPqIdle afterInsert) := by rw [tick, h]

theorem tick_pDown (h : u.pqFsm = .pDown) : tick u = andThen (downStep u) (whenPqIdle afterExtract) := by rw [tick, h]

theorem log_slot9_le (c : Count9) : Nat.log 2 (c.toNat + 1) ≤ 9 := by
  have := c.isLt
  have : Nat.log 2 (c.toNat + 1) < 10 := Nat.log_lt_of_lt_pow (by omega) (by omega)
  omega

/-- Levels between the moving element and the root, and the step that sees it rest. -/
def upLeft (u : State) : Nat := Nat.log 2 (u.pq.I.toNat + 1) + 1

/-- Levels that a 9-bit slot can still go down, and the step that sees it rest. -/
def downLeft (u : State) : Nat := 10 - Nat.log 2 (u.pq.I.toNat + 1)

theorem upLeft_le (u : State) : upLeft u ≤ 10 := Nat.succ_le_succ (log_slot9_le _)

theorem downLeft_pos (u : State) : 1 ≤ downLeft u := by
  have := log_slot9_le u.pq.I
  simp only [downLeft]
  omega

theorem upStep_shortens (hf : u.pqFsm = .pUp) (h : upStep u = .next v) : v.pqFsm = .pIdle ∨ (v.pqFsm = .pUp ∧ upLeft v < upLeft u) := by
  rcases upStep_eq_next.1 h with ⟨-, rfl⟩ | ⟨h0, kp, ki, -, -, ⟨-, rfl⟩ | ⟨-, w, hw, rfl⟩⟩
  · exact .inl rfl
  · exact .inl rfl
  · have hpos : 0 < u.pq.I.toNat := Nat.pos_of_ne_zero fun h => h0 (BitVec.eq_of_toNat_eq h)
    have hparent : parentSlot u.pq.I.toNat < 512 := by
      have := u.pq.I.isLt
      simp only [parentSlot]
      omega
    refine .inr ⟨(swapSlots_keeps hw).1.trans hf, ?_⟩
    simp only [upLeft, setI_pq_I, BitVec.toNat_ofNat, Nat.mod_eq_of_lt hparent, ← log_parentSlot hpos]
    omega

theorem downStep_shortens (hf : u.pqFsm = .pDown) (h : downStep u = .next v) :
    v.pqFsm = .pIdle ∨ (v.pqFsm = .pDown ∧ downLeft v < downLeft u) := by
  rcases downStep_next h with rfl | ⟨m, w, ⟨hchild, hlt, -⟩, hw, rfl⟩
  · exact .inl rfl
  · have hm : m < 512 := hlt.trans u.pqSize.isLt
    have hparent : parentSlot m = u.pq.I.toNat := by
      simp only [parentSlot]
      omega
    have hlog := log_parentSlot (k := m) (by omega)
    have hle : Nat.log 2 (m + 1) ≤ 9 := by simpa [Nat.mod_eq_of_lt hm] using log_slot9_le (BitVec.ofNat 9 m)
    refine .inr ⟨(swapSlots_keeps hw).1.trans hf, ?_⟩
    simp only [downLeft, setI_pq_I, BitVec.toNat_ofNat, Nat.mod_eq_of_lt hm, ← hlog, hparent] at hle ⊢
    omega

theorem runUnits_up (hu : u.pqFsm = .pUp) :
    ∃ k ≤ 10, ∀ m, runUnits (k + m) u = andThen (runPq upStep 10 u) fun t => andThen (afterInsert t) (runUnits m) :=
  runUnits_primitive (f := .pUp) upLeft nofun (fun _ => Nat.succ_pos _) (fun _ => tick_pUp) (fun _ _ => upStep_shortens) hu (upLeft_le u)

theorem runUnits_down (hu : u.pqFsm = .pDown) :
    ∃ k ≤ 10, ∀ m, runUnits (k + m) u = andThen (runPq downStep 10 u) fun t => andThen (afterExtract t) (runUnits m) :=
  runUnits_primitive (f := .pDown) downLeft nofun downLeft_pos (fun _ => tick_pDown) (fun _ _ => downStep_shortens) hu (Nat.sub_le ..)

/-! ### PQ_INS and PQ_EXT (R131, R133) -/

theorem QueueOnly.refl (s : State) : QueueOnly s s := rfl

theorem QueueOnly.trans (h : QueueOnly s u) (h' : QueueOnly u t) : QueueOnly s t := by
  rw [QueueOnly, h', h]

theorem runPq_up_frame (h : runPq upStep n u = .next t) : QueueOnly u t :=
  runPq_induct (P := QueueOnly u) (fun _ _ hv hw _ => hv.trans (upStep_frame hw).1) (fun _ _ hv hw _ => hv.trans (upStep_frame hw).1) (.refl u) h

theorem runPq_down_frame (h : runPq downStep n u = .next t) : QueueOnly u t :=
  runPq_induct (P := QueueOnly u) (fun _ _ hv hw _ => hv.trans (downStep_frame hw).1) (fun _ _ hv hw _ => hv.trans (downStep_frame hw).1)
    (.refl u) h

theorem pqInsert_frame (h : pqInsert x s = .next t) : QueueOnly s t ∧ t.pqFsm = .pIdle := by
  obtain ⟨u, hu, h⟩ := andThen_eq_next.1 h
  exact ⟨(insertStart_frame hu).trans (runPq_up_frame h), runPq_ends_idle h⟩

theorem pqExtract_frame (h : pqExtract s = .next t) : QueueOnly s t ∧ t.pqFsm = .pIdle := by
  obtain ⟨u, hu, h⟩ := andThen_eq_next.1 h
  exact ⟨(extractStart_frame hu).trans (runPq_down_frame h), runPq_ends_idle h⟩

theorem andThen_congr {r : Result} {K L : State → Result} (h : ∀ t, r = .next t → K t = L t) : andThen r K = andThen r L := by
  cases r with
  | next t => exact h t rfl
  | fault | refused => rfl

/-- A run of at most ten steps from a busy state to an idle one, to the end of the command. -/
theorem runToEnd_of_run {r : Result} {K : State → Result} (hrun : ∃ k ≤ 10, ∀ m, runUnits (k + m) u = andThen r fun t => andThen (K t) (runUnits m))
    (hend : ∀ t v, r = .next t → K t = .next v → unitsIdle v = true) : runToEnd u = andThen r K := by
  obtain ⟨k, hk, hrun⟩ := hrun
  obtain ⟨m, hm⟩ : ∃ m, Config.STEP_BOUND = k + m := ⟨11274 - k, by rw [show Config.STEP_BOUND = 11274 from rfl]; omega⟩
  rw [runToEnd, hm, hrun]
  refine andThen_congr fun t ht => ?_
  cases hK : K t with
  | next v => exact runUnits_idle (hend t v ht hK)
  | fault | refused => rfl

section
variable (hi : unitsIdle s = true) (hrun : s.fatal = false)
include hi hrun

/-- PQ_INS is `pq_insert` and the response with the slot. -/
theorem exec_pqIns_eq {a : Nat} (ha : a < s.nodeCnt.toNat) (hroom : s.pqSize ≠ s.pqCap) :
    exec (.pqIns a) s = andThen (pqInsert (BitVec.ofNat 9 a) s) fun t => .next (respondOk (BitVec.ofNat 24 t.pq.I.toNat) 0 t) := by
  obtain ⟨-, hb, hc⟩ := unitsIdle_iff.1 hi
  rw [exec, execPqIns, unlessHalted_running _ hrun, nodeRefOf_of_lt ha, withOperand_some, if_neg hroom, pqInsert, andThen_assoc]
  refine andThen_congr fun u hu => ?_
  have caller : ∀ t, runPq upStep 10 u = .next t → t.tbFsm = .bIdle ∧ t.crFsm = .gIdle := fun t ht => by
    have hf := (insertStart_frame hu).trans (runPq_up_frame ht)
    exact ⟨hf.tbFsm_eq.trans hb, hf.crFsm_eq.trans hc⟩
  have answer : ∀ t, runPq upStep 10 u = .next t → afterInsert t = .next (respondOk (BitVec.ofNat 24 t.pq.I.toNat) 0 t) := fun t ht => by
    rw [afterInsert, (caller t ht).1, BitVec.ofNat_toNat]
  refine (runToEnd_of_run (runUnits_up (insertStart_fsms hu).2) fun t v ht hv => ?_).trans (andThen_congr answer)
  rw [answer t ht] at hv
  cases hv
  exact unitsIdle_iff.2 ⟨(runPq_ends_idle ht : t.pqFsm = .pIdle), caller t ht⟩

/-- PQ_EXT is `pq_extract` and the response with the reference and its key. -/
theorem exec_pqExt_eq (h0 : s.pqSize ≠ 0) :
    exec .pqExt s = andThen (pqExtract s) fun t =>
      readNode t t.pq.XN.toNat fun n => .next (respondOk (BitVec.ofNat 24 t.pq.XN.toNat) n.freq t) := by
  obtain ⟨-, hb, hc⟩ := unitsIdle_iff.1 hi
  rw [exec, execPqExt, unlessHalted_running _ hrun, if_neg h0, pqExtract, andThen_assoc]
  refine andThen_congr fun u hu => ?_
  have caller : ∀ t, runPq downStep 10 u = .next t → t.tbFsm = .bIdle ∧ t.crFsm = .gIdle := fun t ht => by
    have hf := (extractStart_frame hu).trans (runPq_down_frame ht)
    exact ⟨hf.tbFsm_eq.trans hb, hf.crFsm_eq.trans hc⟩
  have answer : ∀ t, runPq downStep 10 u = .next t →
      afterExtract t = readNode t t.pq.XN.toNat fun n => .next (respondOk (BitVec.ofNat 24 t.pq.XN.toNat) n.freq t) := fun t ht => by
    rw [afterExtract, (caller t ht).1, BitVec.ofNat_toNat]
  refine (runToEnd_of_run (runUnits_down (extractStart_fsms hu).2) fun t v ht hv => ?_).trans (andThen_congr answer)
  rw [answer t ht] at hv
  obtain ⟨n, -, hv⟩ := readNode_eq_next.1 hv
  cases hv
  exact unitsIdle_iff.2 ⟨(runPq_ends_idle ht : t.pqFsm = .pIdle), caller t ht⟩

end

/-- Settles O36: with idle units the caller of a primitive is the command, so its run is the primitive and the response (`exec_pqIns_eq`,
`exec_pqExt_eq`), faults included. -/
theorem queueCommandsRunThePrimitives : Obligations.QueueCommandsRunThePrimitives :=
  ⟨fun _ _ hi hrun hx hroom => exec_pqIns_eq hi hrun hx hroom, fun _ hi hrun h0 => exec_pqExt_eq hi hrun h0⟩

/-! ### The primitives end -/

theorem Sound.runPq_up_answers (hs : Sound u) (hf : u.pqFsm = .pUp) (hsl : SlotOk u) : ∃ t, runPq upStep 10 u = .next t := by
  refine runPq_answers (P := fun u => Sound u ∧ u.pqFsm = .pUp ∧ SlotOk u) primitiveLeft
    (fun v ⟨hs, hf, hsl⟩ => (hsl.primitiveLeft_bounds hs (by simp [hf])).1) (fun v ⟨hs, hf, hsl⟩ => ?_) ⟨hs, hf, hsl⟩
    (((hsl.primitiveLeft_bounds hs (by simp [hf])).2).trans (by omega))
  obtain ⟨w, hw, hcase⟩ := upStep_siftsOn hs hf (hsl.up hf)
  exact ⟨w, hw, hcase.imp_right fun ⟨hwf, hwsl, hlt⟩ => ⟨⟨(upStep_moves hs hf hw).sound, hwf.trans hf, hwsl⟩, hlt⟩⟩

theorem Sound.runPq_down_answers (hs : Sound u) (hf : u.pqFsm = .pDown) (hsl : SlotOk u) : ∃ t, runPq downStep 10 u = .next t := by
  refine runPq_answers (P := fun u => Sound u ∧ u.pqFsm = .pDown ∧ SlotOk u) primitiveLeft
    (fun v ⟨hs, hf, hsl⟩ => (hsl.primitiveLeft_bounds hs (by simp [hf])).1) (fun v ⟨hs, hf, hsl⟩ => ?_) ⟨hs, hf, hsl⟩
    (((hsl.primitiveLeft_bounds hs (by simp [hf])).2).trans (by omega))
  obtain ⟨w, hw, hcase⟩ := downStep_siftsOn hs hf
  exact ⟨w, hw, hcase.imp_right fun ⟨hwf, hwsl, hlt⟩ => ⟨⟨(downStep_moves hs hf hw).sound, hwf.trans hf, hwsl⟩, hlt⟩⟩

theorem Sound.pqInsert_answers (hs : Sound s) (hroom : s.pqSize ≠ s.pqCap) (hx : x.toNat < s.nodeCnt.toNat) :
    ∃ t, pqInsert x s = .next t := by
  obtain ⟨u, hu, hf, hsl⟩ := hs.insertStart_answers hroom x
  obtain ⟨t, ht⟩ := (insertStart_sound hs hroom hx hu).runPq_up_answers hf hsl
  exact ⟨t, andThen_eq_next.2 ⟨u, hu, ht⟩⟩

theorem Sound.pqExtract_answers (hs : Sound s) (h0 : s.pqSize ≠ 0) : ∃ t, pqExtract s = .next t := by
  obtain ⟨u, hu, hf, hsl⟩ := hs.extractStart_answers h0
  obtain ⟨t, ht⟩ := (extractStart_sound hs hu).runPq_down_answers hf hsl
  exact ⟨t, andThen_eq_next.2 ⟨u, hu, ht⟩⟩

/-- What `pq_extract` answers and leaves in a sound queue (R124). -/
theorem Sound.pqExtract_refs (hs : Sound s) (h : pqExtract s = .next t) :
    slotAt s 0 = some t.pq.XN ∧ Sound t ∧ (t.pq.XN :: queueRefs t).Perm (queueRefs s) ∧ t.pqSize.toNat + 1 = s.pqSize.toNat := by
  obtain ⟨u, hu, h⟩ := andThen_eq_next.1 h
  obtain ⟨-, hperm, hsize⟩ := extractStart_refs hs.queue hu
  have hxn : slotAt s 0 = some u.pq.XN := by
    obtain ⟨x, v, hx, hv, rfl⟩ := extractStart_eq_next.1 hu
    have hmove : v.pq.XN = x := by
      rcases moveLast_eq_next.1 hv with ⟨-, rfl⟩ | ⟨-, y, w, -, hw, rfl⟩
      · simp
      · obtain ⟨-, rfl⟩ := writeSlot_eq_next.1 hw
        simp
    simpa [hmove] using hx
  have step : ∀ v w, (v.pqFsm = .pDown ∧ QueueMoves u v) → downStep v = .next w → QueueMoves u w := fun v w ⟨hf, hv⟩ hw => by
    have hm := downStep_moves hv.sound hf hw
    refine ⟨hv.frame.trans hm.frame, hm.sound, hm.refs.trans hv.refs, fun h => hm.shape (hv.shape h), ?_, hm.taken.trans hv.taken⟩
    rcases hm.fsm with h | h
    · exact .inl h
    · rcases hv.fsm with h' | h'
      · exact .inl (h.trans h')
      · exact .inr (h.trans h')
  have hfu := (extractStart_fsms hu).2
  have hsu := extractStart_sound hs hu
  have hmoves : QueueMoves u t := by
    refine runPq_induct (P := fun v => v.pqFsm = .pDown ∧ QueueMoves u v) (fun v w hv hw hbusy => ?_) (fun v w hv hw _ => step v w hv hw)
      ⟨hfu, ⟨.refl u, hsu, .rfl, id, .inr rfl, rfl⟩⟩ h
    have hm := step v w hv hw
    exact ⟨(hm.fsm.resolve_left hbusy).trans hfu, hm⟩
  refine ⟨hmoves.taken ▸ hxn, hmoves.sound, hmoves.taken ▸ (hmoves.refs.cons _).trans hperm, ?_⟩
  rw [← hmoves.sound.queue.length_refs, hmoves.refs.length_eq, hsu.queue.length_refs, hsize]

/-- PQ_EXT of a sound queue that is not empty. -/
theorem Sound.exec_pqExt (hs : Sound s) (hi : unitsIdle s = true) (h0 : s.pqSize ≠ 0) :
    ∃ t n, pqExtract s = .next t ∧ nodeAt s t.pq.XN.toNat = some n ∧
      exec .pqExt s = .next (respondOk (BitVec.ofNat 24 t.pq.XN.toNat) n.freq t) := by
  obtain ⟨t, ht⟩ := hs.pqExtract_answers h0
  obtain ⟨hslot, -, -, -⟩ := hs.pqExtract_refs ht
  obtain ⟨n, hn⟩ := hs.arena.exists_node (hs.queue.ref_lt (hs.queue.mem_refs hslot))
  have hnt : nodeAt t t.pq.XN.toNat = some n := by
    rw [nodeAt, show t.node = s.node by rw [(pqExtract_frame ht).1]]
    exact hn
  exact ⟨t, n, ht, hn, by rw [exec_pqExt_eq hi hs.notFatal h0, ht, andThen_next, readNode_some _ hnt]⟩

theorem ne_zero_of_pos {c : Count9} (h : 0 < c.toNat) : c ≠ 0 := fun h0 => by simp [h0] at h

/-- Settles O32, by `Sound.pqExtract_refs`. -/
theorem queueExtractRemovesTheRoot : Obligations.QueueExtractRemovesTheRoot := by
  intro s hs hpos
  obtain ⟨t, n, ht, hn, hexec⟩ := hs.sound.exec_pqExt hs.idle (ne_zero_of_pos hpos)
  obtain ⟨hslot, -, hperm, hsize⟩ := hs.sound.pqExtract_refs ht
  obtain ⟨hframe, hidle⟩ := pqExtract_frame ht
  refine ⟨_, t.pq.XN, n, hslot, hn, hexec, ?_, hsize, hperm.symm⟩
  have hq := (unitsIdle_iff.1 hs.idle).1
  rw [QueueOnly, hidle, ← hq] at hframe
  rw [respondOk, respond, hframe]
  rfl

/-- In heap order slot 0 has a least key (R27). -/
theorem HeapOrdered.root_le (ho : HeapOrdered s) (hs : Sound s) : ∀ k, k < s.pqSize.toNat → KeyLe s 0 k := by
  intro k
  induction k using Nat.strong_induction_on with
  | _ k ih =>
    intro hk
    rcases Nat.eq_zero_or_pos k with rfl | hpos
    · exact .refl s 0
    · have hparent : parentSlot k < k := by
        simp only [parentSlot]
        omega
      obtain ⟨f, hf⟩ := hs.exists_key (hparent.trans hk)
      exact (ih _ hparent (hparent.trans hk)).trans hf (heapOrdered_iff.1 ho k hk hpos)

/-- Settles O33: the reference answered is that of slot 0, whose key is least (`HeapOrdered.root_le`), and the order is kept. -/
theorem queueExtractReturnsALeastKey : Obligations.QueueExtractReturnsALeastKey := by
  intro s hs ho hpos
  obtain ⟨t, n, ht, hn, hexec⟩ := hs.sound.exec_pqExt hs.idle (ne_zero_of_pos hpos)
  obtain ⟨hslot, -⟩ := hs.sound.pqExtract_refs ht
  have hroot : keyAt s 0 = some n.freq := keyAt_eq_some.2 ⟨_, n, hslot, hn, rfl⟩
  refine ⟨_, _, _, hexec, rfl, fun k g hg => ?_, (exec_effect hexec).heapOrdered hs.sound hs.idle ho⟩
  obtain ⟨x, m, hx, -⟩ := keyAt_eq_some.1 hg
  exact ho.root_le hs.sound k (hs.queue.slot_lt hx) _ hroot _ hg

end Sys2Proof.Machine
end

section
/-!
PROOFS. The queue reads keys and nothing else of a record (40_priority_queue.md R120, R127): two queues with equal keys stay so, step by step.
-/

namespace Sys2Proof.Machine

open Sys2Proof.Summary

variable {s r t u v : State} {x : NodeRef} {stepOf : State → Result} {n i j k m c : Nat}

/-- Two blocks whose queues and frequencies agree, with equal positions of a running primitive. -/
structure SameKeys (u v : State) : Prop where
  params : u.params = v.params
  heap : u.heap = v.heap
  pqSize : u.pqSize = v.pqSize
  pqFsm : u.pqFsm = v.pqFsm
  slot : u.pq.I = v.pq.I
  taken : u.pq.XN = v.pq.XN
  freqs : ∀ i, (nodeAt u i).map NodeRec.freq = (nodeAt v i).map NodeRec.freq

theorem SameKeys.slotAt_eq (h : SameKeys u v) (k : Nat) : slotAt u k = slotAt v k := by rw [slotAt, h.heap, ← slotAt]

theorem SameKeys.keyAt_eq (h : SameKeys u v) (k : Nat) : keyAt u k = keyAt v k := by simp only [keyAt, h.slotAt_eq, h.freqs]

/-- The second block follows a result of the first. -/
def Follows (q r : Result) : Prop := ∀ t, q = .next t → ∃ w, r = .next w ∧ SameKeys t w

theorem SameKeys.follows (h : SameKeys u v) : Follows (.next u) (.next v) := fun t ht => by
  cases ht
  exact ⟨v, rfl, h⟩

theorem Follows.andThen {q r : Result} {K L : State → Result} (h : Follows q r) (hK : ∀ t w, SameKeys t w → Follows (K t) (L w)) :
    Follows (andThen q K) (andThen r L) := fun t ht => by
  obtain ⟨a, ha, ht⟩ := andThen_eq_next.1 ht
  obtain ⟨b, hb, hab⟩ := h a ha
  obtain ⟨w, hw, htw⟩ := hK a b hab t ht
  exact ⟨w, andThen_eq_next.2 ⟨b, hb, hw⟩, htw⟩

section
variable (h : SameKeys u v)
include h

theorem SameKeys.readSlot {f g : NodeRef → Result} (hf : ∀ x, Follows (f x) (g x)) : Follows (readSlot u k f) (readSlot v k g) :=
  fun t ht => by
    obtain ⟨x, hx, ht⟩ := readSlot_eq_next.1 ht
    rw [readSlot_some _ (h.slotAt_eq k ▸ hx)]
    exact hf x t ht

theorem SameKeys.readKey {f g : Key → Result} (hf : ∀ a, Follows (f a) (g a)) : Follows (readKey u k f) (readKey v k g) :=
  fun t ht => by
    obtain ⟨a, ha, ht⟩ := readKey_eq_next.1 ht
    rw [readKey_some _ (h.keyAt_eq k ▸ ha)]
    exact hf a t ht

theorem SameKeys.putSlot (k : Nat) (x : NodeRef) : SameKeys (putSlot u k x) (putSlot v k x) :=
  ⟨h.params, congrArg (arrSet · k x) h.heap, h.pqSize, h.pqFsm, h.slot, h.taken, h.freqs⟩

theorem SameKeys.writeSlot (k : Nat) (x : NodeRef) : Follows (writeSlot u k x) (writeSlot v k x) := fun t ht => by
  obtain ⟨hk, rfl⟩ := writeSlot_eq_next.1 ht
  exact ⟨_, writeSlot_eq_next.2 ⟨h.params ▸ hk, rfl⟩, h.putSlot k x⟩

theorem SameKeys.dropSlot (k : Nat) : SameKeys (dropSlot u k) (dropSlot v k) :=
  ⟨h.params, congrArg (arrErase · k) h.heap, h.pqSize, h.pqFsm, h.slot, h.taken, h.freqs⟩

theorem SameKeys.setPqFsm (f : PqState) : SameKeys (setPqFsm f u) (setPqFsm f v) :=
  ⟨h.params, h.heap, h.pqSize, rfl, h.slot, h.taken, h.freqs⟩

theorem SameKeys.setPqSize (c : Count9) : SameKeys (setPqSize c u) (setPqSize c v) :=
  ⟨h.params, h.heap, rfl, h.pqFsm, h.slot, h.taken, h.freqs⟩

theorem SameKeys.setI (c : Count9) : SameKeys (setI c u) (setI c v) := ⟨h.params, h.heap, h.pqSize, h.pqFsm, rfl, h.taken, h.freqs⟩

theorem SameKeys.setM (c : Count9) : SameKeys (setM c u) (setM c v) := ⟨h.params, h.heap, h.pqSize, h.pqFsm, h.slot, h.taken, h.freqs⟩

theorem SameKeys.swapSlots (i j : Nat) : Follows (swapSlots u i j) (swapSlots v i j) :=
  h.readSlot fun x => h.readSlot fun y => (h.writeSlot i y).andThen fun _ _ h => h.writeSlot j x

theorem SameKeys.upStep : Follows (upStep u) (upStep v) := by
  unfold Machine.upStep
  rw [h.slot]
  split
  · exact (h.setPqFsm .pIdle).follows
  · refine h.readKey fun kp => h.readKey fun ki => ?_
    split
    · exact (h.swapSlots _ _).andThen fun _ _ h => by
        rw [h.slot]
        exact (h.setI _).follows
    · exact (h.setPqFsm .pIdle).follows

theorem SameKeys.lesserSlot {f g : Nat → Result} (hf : ∀ m, Follows (f m) (g m)) : Follows (lesserSlot u m c f) (lesserSlot v m c g) := by
  unfold Machine.lesserSlot
  rw [h.pqSize]
  split
  · refine h.readKey fun kc => h.readKey fun km => ?_
    split <;> exact hf _
  · exact hf m

theorem SameKeys.downStep : Follows (downStep u) (downStep v) := by
  unfold Machine.downStep
  rw [h.slot]
  refine h.lesserSlot fun m => h.lesserSlot fun m => ?_
  split
  · exact ((h.setM _).setPqFsm .pIdle).follows
  · exact (h.swapSlots _ _).andThen fun _ _ h => ((h.setM _).setI _).follows

theorem SameKeys.runPq (hstep : ∀ u v, SameKeys u v → Follows (stepOf u) (stepOf v)) (n : Nat) :
    Follows (runPq stepOf n u) (runPq stepOf n v) := by
  induction n generalizing u v with
  | zero => exact fun t ht => by cases ht
  | succ n ih =>
    refine (hstep u v h).andThen fun a b hab => ?_
    rw [hab.pqFsm]
    split
    · exact hab.follows
    · exact ih hab

end

/-- Two queues with equal keys, whatever a primitive last left in the working registers. -/
structure SameQueues (s r : State) : Prop where
  params : s.params = r.params
  heap : s.heap = r.heap
  pqSize : s.pqSize = r.pqSize
  pqFsm : s.pqFsm = r.pqFsm
  freqs : ∀ i, (nodeAt s i).map NodeRec.freq = (nodeAt r i).map NodeRec.freq

theorem SameQueues.pqInsert (h : SameQueues s r) (x : NodeRef) : Follows (pqInsert x s) (pqInsert x r) := by
  have hbegin : SameKeys (setI s.pqSize (setXN x s)) (setI s.pqSize (setXN x r)) := ⟨h.params, h.heap, h.pqSize, h.pqFsm, rfl, rfl, h.freqs⟩
  unfold Summary.pqInsert insertStart
  rw [← h.pqSize]
  exact ((hbegin.writeSlot _ _).andThen fun _ _ h => by
    rw [h.pqSize]
    exact ((h.setPqSize _).setPqFsm _).follows).andThen fun _ _ h => h.runPq (fun _ _ h => h.upStep) _

theorem SameKeys.moveLast (h : SameKeys u v) : Follows (moveLast u) (moveLast v) := by
  unfold Machine.moveLast
  rw [h.pqSize]
  split
  · exact (h.dropSlot 0).follows
  · exact h.readSlot fun y => (h.writeSlot 0 y).andThen fun _ _ h => by
      rw [h.pqSize]
      exact (h.dropSlot _).follows

/-- `pq_extract` writes I and XN before it reads them. -/
theorem pqExtract_fresh (s : State) : pqExtract (setI 0 (setXN 0 s)) = pqExtract s :=
  extractStart_congr (K := runPq downStep Config.PRIM_STEPS) (L := runPq downStep Config.PRIM_STEPS) ⟨rfl, rfl, rfl, rfl, rfl, rfl⟩
    fun _ _ => congrArg _ (by simp only [setPqFsm, setI, withHeap, setPqSize, setXN])

theorem SameQueues.pqExtract (h : SameQueues s r) : Follows (pqExtract s) (pqExtract r) := by
  have hbegin : SameKeys (setI 0 (setXN 0 s)) (setI 0 (setXN 0 r)) := ⟨h.params, h.heap, h.pqSize, h.pqFsm, rfl, rfl, h.freqs⟩
  rw [← pqExtract_fresh s, ← pqExtract_fresh r]
  refine Follows.andThen ?_ fun _ _ h => h.runPq (fun _ _ h => h.downStep) _
  unfold extractStart
  refine hbegin.readSlot fun x => ?_
  have hx : SameKeys (setXN x (setI 0 (setXN 0 s))) (setXN x (setI 0 (setXN 0 r))) :=
    ⟨h.params, h.heap, h.pqSize, h.pqFsm, rfl, rfl, h.freqs⟩
  rw [show (setI 0 (setXN 0 s)).pqSize = (setI 0 (setXN 0 r)).pqSize from h.pqSize]
  exact (hx.setPqSize _).moveLast.andThen fun _ _ h => ((h.setI 0).setPqFsm .pDown).follows

/-- Settles O37: where the checks pass both commands are the primitives (`exec_pqIns_eq`, `exec_pqExt_eq`), which follow each other on equal
keys (`SameQueues.pqInsert`, `SameQueues.pqExtract`); where a check fails, it fails in both. -/
theorem queueReadsKeysOnly : Obligations.QueueReadsKeysOnly := by
  intro s r hp hi hi' hf hf' hheap hsize hcap hcnt hfreqs
  have hq : SameQueues s r := ⟨hp, hheap, hsize, (unitsIdle_iff.1 hi).1.trans (unitsIdle_iff.1 hi').1.symm, hfreqs⟩
  refine ⟨fun x t h => ?_, fun t h => ?_⟩
  · by_cases hx : x < s.nodeCnt.toNat
    · by_cases hfull : s.pqSize = s.pqCap
      · rw [exec_pqIns_queueFull hf hx hfull] at h
        cases h
        exact ⟨_, exec_pqIns_queueFull hf' (hcnt ▸ hx) (hsize ▸ hcap ▸ hfull), hheap.symm, hsize.symm, rfl⟩
      · rw [exec_pqIns_eq hi hf hx hfull] at h
        obtain ⟨a, ha, h⟩ := andThen_eq_next.1 h
        cases h
        obtain ⟨b, hb, hab⟩ := hq.pqInsert _ a ha
        have hexec : exec (.pqIns x) r = .next (respondOk (BitVec.ofNat 24 b.pq.I.toNat) 0 b) := by
          rw [exec_pqIns_eq hi' hf' (hcnt ▸ hx) (hsize ▸ hcap ▸ hfull), hb, andThen_next]
        exact ⟨_, hexec, hab.heap.symm, hab.pqSize.symm, by rw [respondOk_rsp, respondOk_rsp, hab.slot]⟩
    · rw [exec_pqIns_badOperand hf (Nat.le_of_not_lt hx)] at h
      cases h
      exact ⟨_, exec_pqIns_badOperand hf' (hcnt ▸ Nat.le_of_not_lt hx), hheap.symm, hsize.symm, rfl⟩
  · by_cases h0 : s.pqSize = 0
    · rw [exec_pqExt_emptyQueue hf h0] at h
      cases h
      exact ⟨_, exec_pqExt_emptyQueue hf' (hsize ▸ h0), hheap.symm, hsize.symm, rfl⟩
    · rw [exec_pqExt_eq hi hf h0] at h
      obtain ⟨a, ha, h⟩ := andThen_eq_next.1 h
      obtain ⟨n, hn, h⟩ := readNode_eq_next.1 h
      cases h
      obtain ⟨b, hb, hab⟩ := hq.pqExtract a ha
      have hfreq := hab.freqs a.pq.XN.toNat
      rw [hn, hab.taken, Option.map_some, eq_comm, Option.map_eq_some_iff] at hfreq
      obtain ⟨m, hm, hnm⟩ := hfreq
      have hexec : exec .pqExt r = .next (respondOk (BitVec.ofNat 24 b.pq.XN.toNat) m.freq b) := by
        rw [exec_pqExt_eq hi' hf' (hsize ▸ h0), hb, andThen_next, readNode_some _ hm]
      exact ⟨_, hexec, hab.heap.symm, hab.pqSize.symm, by rw [respondOk_rsp, respondOk_rsp, hab.taken, hnm]⟩

end Sys2Proof.Machine
end

section
/-!
PROOFS. Where PQ_INS puts the reference (40_priority_queue.md R122, R123): the path from the new slot to the root while the element rises.
-/

namespace Sys2Proof.Machine

open Sys2Proof.Summary

variable {s t u v : State} {x : NodeRef} {f : Key} {n i j k m : Nat}

theorem QueueOnly.nodeAt_eq (h : QueueOnly s t) (i : Nat) : nodeAt t i = nodeAt s i := by
  rw [nodeAt, show t.node = s.node by rw [h]]
  rfl

/-! ### The path to the root (10_state.md R25) -/

theorem parentSlot_le (k : Nat) : parentSlot k ≤ k := by
  simp only [parentSlot]
  omega

theorem parentSlot_lt (h : 0 < k) : parentSlot k < k := by
  simp only [parentSlot]
  omega

theorem self_mem_pathToRoot (m k : Nat) : k ∈ pathToRoot m k := by
  cases m with
  | zero => simp [pathToRoot]
  | succ m =>
    rw [pathToRoot]
    split <;> simp_all

theorem mem_pathToRoot_succ : j ∈ pathToRoot (m + 1) k ↔ j = k ∨ (k ≠ 0 ∧ j ∈ pathToRoot m (parentSlot k)) := by
  rw [pathToRoot]
  split <;> simp_all

theorem le_of_mem_pathToRoot (h : j ∈ pathToRoot m k) : j ≤ k := by
  induction m generalizing k with
  | zero => simp_all [pathToRoot]
  | succ m ih =>
    rcases mem_pathToRoot_succ.1 h with rfl | ⟨-, h⟩
    · exact le_rfl
    · exact (ih h).trans (parentSlot_le k)

/-- The path goes on to the root, if `m` parents are enough. -/
theorem parentSlot_mem_pathToRoot (hm : k + 1 < 2 ^ (m + 1)) (hj : j ∈ pathToRoot m k) (hpos : 0 < j) : parentSlot j ∈ pathToRoot m k := by
  induction m generalizing k with
  | zero =>
    have := le_of_mem_pathToRoot hj
    omega
  | succ m ih =>
    rw [mem_pathToRoot_succ] at hj ⊢
    rcases hj with rfl | ⟨hk, hj⟩
    · exact .inr ⟨hpos.ne', self_mem_pathToRoot m _⟩
    · have hhalf : parentSlot k + 1 < 2 ^ (m + 1) := by
        simp only [parentSlot]
        omega
      exact .inr ⟨hk, ih hhalf hj⟩

/-- Between a slot of the path and its parent lies no other. -/
theorem le_parentSlot_of_mem (hj : j ∈ pathToRoot m k) (hi : i ∈ pathToRoot m k) (hlt : i < j) : i ≤ parentSlot j := by
  induction m generalizing k with
  | zero => simp_all [pathToRoot]
  | succ m ih =>
    rcases mem_pathToRoot_succ.1 hj with rfl | ⟨-, hj⟩
    · rcases mem_pathToRoot_succ.1 hi with rfl | ⟨-, hi⟩
      · exact absurd hlt (lt_irrefl _)
      · exact le_of_mem_pathToRoot hi
    · rcases mem_pathToRoot_succ.1 hi with rfl | ⟨-, hi⟩
      · exact absurd ((le_of_mem_pathToRoot hj).trans (parentSlot_le _)) hlt.not_ge
      · exact ih hj hi

/-! ### The element on its way up -/

/-- The queue of `s` with a new element that has risen to slot I: the path below it has moved down by one parent each, from strictly greater
keys, and every other slot is as before. -/
structure Rising (s : State) (x : NodeRef) (f : Key) (u : State) : Prop where
  frame : QueueOnly s u
  size : u.pqSize = s.pqSize + 1
  onPath : u.pq.I.toNat ∈ pathToRoot 8 s.pqSize.toNat
  placed : slotAt u u.pq.I.toNat = some x
  moved : ∀ j ∈ pathToRoot 8 s.pqSize.toNat, u.pq.I.toNat < j →
    slotAt u j = slotAt s (parentSlot j) ∧ ∃ kp, keyAt s (parentSlot j) = some kp ∧ f.toNat < kp.toNat
  others : ∀ j, j ∉ pathToRoot 8 s.pqSize.toNat ∨ j < u.pq.I.toNat → slotAt u j = slotAt s j

theorem Rising.start (h : insertStart x s = .next u) : Rising s x f u := by
  have hframe := insertStart_frame h
  obtain ⟨-, rfl⟩ := insertStart_eq_next.1 h
  refine ⟨hframe, by simp, by simpa using self_mem_pathToRoot 8 _, by simp [slotAt], fun j hj hlt => ?_, fun j hj => ?_⟩
  · exact absurd (le_of_mem_pathToRoot hj) hlt.not_ge
  · have hne : j ≠ s.pqSize.toNat := by
      rintro rfl
      exact hj.elim (absurd (self_mem_pathToRoot 8 _)) (lt_irrefl _)
    simp [slotAt, arrGet_set, hne]

theorem Rising.idle (h : Rising s x f u) : Rising s x f (setPqFsm .pIdle u) :=
  ⟨h.frame.trans rfl, h.size, h.onPath, h.placed, h.moved, h.others⟩

/-- Above the element the keys are those of `s`. -/
theorem Rising.keyAt_parent (h : Rising s x f u) (hpos : 0 < u.pq.I.toNat) :
    keyAt u (parentSlot u.pq.I.toNat) = keyAt s (parentSlot u.pq.I.toNat) :=
  keyAt_congr (h.others _ (.inr (parentSlot_lt hpos))) (by rw [h.frame])

/-- The element is exchanged with a parent whose key is strictly greater. -/
theorem Rising.swap {kp : Key} (h : Rising s x f u) (hsize : s.pqSize.toNat < 256) (hpos : 0 < u.pq.I.toNat)
    (hkp : keyAt u (parentSlot u.pq.I.toNat) = some kp) (hlt : f.toNat < kp.toNat)
    (hv : swapSlots u (parentSlot u.pq.I.toNat) u.pq.I.toNat = .next v) :
    Rising s x f (setI (BitVec.ofNat 9 (parentSlot u.pq.I.toNat)) v) := by
  have hup := parentSlot_lt hpos
  have hI : (BitVec.ofNat 9 (parentSlot u.pq.I.toNat)).toNat = parentSlot u.pq.I.toNat := Nat.mod_eq_of_lt (hup.trans u.pq.I.isLt)
  have hpath := parentSlot_mem_pathToRoot (m := 8) (by omega) h.onPath hpos
  obtain ⟨hp, hc, hrest⟩ := swapSlots_swapped hv
  have hframe := swapSlots_frame hv
  refine ⟨h.frame.trans (by rw [hframe]; rfl), by rw [setI_pqSize, (swapSlots_keeps hv).2, h.size], ?_, ?_, fun j hj hlow => ?_, fun j hj => ?_⟩
  all_goals rw [setI_pq_I, hI] at *
  · exact hpath
  · exact hp.trans h.placed
  · rcases Nat.lt_trichotomy j u.pq.I.toNat with hlt' | rfl | hgt
    · exact absurd (le_parentSlot_of_mem h.onPath hj hlt') hlow.not_ge
    · exact ⟨hc.trans (h.others _ (.inr hup)), kp, (h.keyAt_parent hpos).symm.trans hkp, hlt⟩
    · exact ⟨(hrest j (by omega) hgt.ne').trans (h.moved j hj hgt).1, (h.moved j hj hgt).2⟩
  · have hne : j ≠ u.pq.I.toNat := by
      rintro rfl
      exact hj.elim (absurd h.onPath) hup.not_gt
    have hne' : j ≠ parentSlot u.pq.I.toNat := by
      rintro rfl
      exact hj.elim (absurd hpath) (lt_irrefl _)
    exact (hrest j hne' hne).trans (h.others j (hj.imp_right (·.trans hup)))

/-- The element rests where its parent's key is not greater. -/
def Rests (s : State) (f : Key) (u : State) : Prop :=
  0 < u.pq.I.toNat → ∃ kp, keyAt s (parentSlot u.pq.I.toNat) = some kp ∧ kp.toNat ≤ f.toNat

theorem Rising.upStep (hx : (nodeAt s x.toNat).map NodeRec.freq = some f) (hsize : s.pqSize.toNat < 256) (h : Rising s x f u)
    (hf : u.pqFsm = .pUp) (hv : upStep u = .next v) : Rising s x f v ∧ (v.pqFsm = .pIdle ∧ Rests s f v ∨ v.pqFsm = .pUp) := by
  rcases upStep_eq_next.1 hv with ⟨h0, rfl⟩ | ⟨h0, kp, ki, hkp, hki, hcase⟩
  · exact ⟨h.idle, .inl ⟨rfl, fun hpos => by simp [h0] at hpos⟩⟩
  · have hpos : 0 < u.pq.I.toNat := Nat.pos_of_ne_zero fun h => h0 (BitVec.eq_of_toNat_eq h)
    have hkf : ki = f := by
      rw [keyAt, h.placed, Option.bind_some, h.frame.nodeAt_eq, hx] at hki
      exact (Option.some.inj hki).symm
    rw [hkf, BitVec.lt_def] at hcase
    rcases hcase with ⟨hle, rfl⟩ | ⟨hlt, w, hw, rfl⟩
    · exact ⟨h.idle, .inl ⟨rfl, fun _ => ⟨kp, (h.keyAt_parent hpos).symm.trans hkp, Nat.not_lt.1 hle⟩⟩⟩
    · exact ⟨h.swap hsize hpos hkp hlt hw, .inr ((swapSlots_keeps hw).1.trans hf)⟩

/-- `pq_insert` lets the element rise until it rests. -/
theorem pqInsert_rises (hx : (nodeAt s x.toNat).map NodeRec.freq = some f) (hsize : s.pqSize.toNat < 256) (h : pqInsert x s = .next t) :
    Rising s x f t ∧ Rests s f t := by
  obtain ⟨u, hu, h⟩ := andThen_eq_next.1 h
  refine runPq_induct (P := fun u => Rising s x f u ∧ u.pqFsm = .pUp) (Q := fun t => Rising s x f t ∧ Rests s f t)
    (fun v w ⟨hv, hvf⟩ hw hbusy => ?_) (fun v w ⟨hv, hvf⟩ hw hidle => ?_) ⟨.start hu, (insertStart_fsms hu).2⟩ h
  · obtain ⟨hrise, hcase⟩ := hv.upStep hx hsize hvf hw
    exact ⟨hrise, hcase.resolve_left fun h => hbusy h.1⟩
  · obtain ⟨hrise, hcase⟩ := hv.upStep hx hsize hvf hw
    rcases hcase with ⟨-, hrest⟩ | hup
    · exact ⟨hrise, hrest⟩
    · rw [hidle] at hup
      cases hup

/-- Settles O30: the insertion ends (`Sound.pqInsert_answers`), with the element where `pqInsert_rises` says. -/
theorem queueInsertPlacesTheReference : Obligations.QueueInsertPlacesTheReference := by
  intro s x f hs hx hroom hfreq
  have hsound := hs.sound
  have href : (BitVec.ofNat 9 x).toNat = x := toNat_reference hs.legal hs.arena.cntLe hx
  have hsize : s.pqSize.toNat < 256 := hroom.trans_le (hs.queue.capLe.trans (Params.nsym_bounds hs.legal).2)
  have hne : s.pqSize ≠ s.pqCap := fun he => by simp [he] at hroom
  obtain ⟨t, ht⟩ := hsound.pqInsert_answers hne (href.symm ▸ hx)
  obtain ⟨⟨hframe, hgrown, hpath, hplaced, hmoved, hothers⟩, hrests⟩ := pqInsert_rises (href.symm ▸ hfreq) hsize ht
  refine ⟨respondOk (BitVec.ofNat 24 t.pq.I.toNat) 0 t, t.pq.I.toNat, ?_, ?_, ?_, hpath, hplaced, hrests, hmoved, hothers⟩
  · rw [exec_pqIns_eq hs.idle hs.notFatal hx hne, ht, andThen_next]
  · rw [QueueOnly, (pqInsert_frame ht).2, ← (unitsIdle_iff.1 hs.idle).1] at hframe
    rw [respondOk, respond, hframe]
    rfl
  · rw [respondOk_pqSize, hgrown]
    exact BitVec.toNat_add_of_lt (by simp; omega)

end Sys2Proof.Machine
end

section
/-!
PROOFS. Every command of a sound block with its invariants ends (70_reset_and_hazards.md R264).
-/

namespace Sys2Proof.Machine

open Sys2Proof.Summary

variable {s : State} {i : Instr}

/-- A command whose checks pass has a next state. -/
theorem exec_answers_of_checks (hs : CoreInv s) (ht : TreeOk s) (hc : checkError s i = none) : ∃ t, exec i s = .next t := by
  obtain ⟨hok, hpre⟩ := checkError_eq_none hc
  have hrun := hs.notFatal
  have hsound := hs.sound
  cases i with
  | clear => exact ⟨_, rfl⟩
  | csrRd a => exact ⟨_, exec_csrRd (Nat.lt_succ_of_le (of_decide_eq_true hok))⟩
  | ftWr a b =>
    obtain ⟨ha, hb⟩ := of_decide_eq_true hok
    exact ⟨_, exec_ftWr hrun ha hb⟩
  | ftRd a => exact ⟨_, exec_ftRd hrun hs.legal (of_decide_eq_true hok)⟩
  | leaf a b =>
    obtain ⟨ha, hb⟩ := of_decide_eq_true hok
    have hroom : s.nodeCnt.toNat ≠ s.params.nodeMax := by simpa [preconditionError] using hpre
    exact ⟨_, exec_leaf hrun ha hb (hs.arena.cntLe.lt_of_ne hroom)⟩
  | nodeRd a =>
    have ha : a < s.nodeCnt.toNat := of_decide_eq_true hok
    obtain ⟨n, hn⟩ := hs.arena.exists_node ha
    exact ⟨_, exec_nodeRd hrun ha (toNat_reference hs.legal hs.arena.cntLe ha) hn⟩
  | nodeCh a =>
    have ha : a < s.nodeCnt.toNat := of_decide_eq_true hok
    obtain ⟨n, hn⟩ := hs.arena.exists_node ha
    exact ⟨_, exec_nodeCh hrun ha (toNat_reference hs.legal hs.arena.cntLe ha) hn⟩
  | pqInit a => exact ⟨_, exec_pqInit hrun (of_decide_eq_true hok)⟩
  | pqIns a =>
    have ha : a < s.nodeCnt.toNat := of_decide_eq_true hok
    have hroom : s.pqSize ≠ s.pqCap := by simpa [preconditionError] using hpre
    obtain ⟨t, ht⟩ := hsound.pqInsert_answers (x := BitVec.ofNat 9 a) hroom ((toNat_reference hs.legal hs.arena.cntLe ha).symm ▸ ha)
    exact ⟨_, by rw [exec_pqIns_eq hs.idle hrun ha hroom, ht, andThen_next]⟩
  | pqExt =>
    have h0 : s.pqSize ≠ 0 := by simpa [preconditionError] using hpre
    obtain ⟨t, n, -, -, hexec⟩ := hsound.exec_pqExt hs.idle h0
    exact ⟨_, hexec⟩
  | heapRd a =>
    have ha : a < s.pqSize.toNat := of_decide_eq_true hok
    obtain ⟨x, n, hx, -, hn⟩ := hsound.exists_slot ha
    exact ⟨_, exec_heapRd hrun ha hx hn⟩
  | build =>
    rw [exec, execBuild, unlessHalted_running _ hrun]
    exact build_answers hsound hs.idle (preconditionError_build_eq_none hpre).1
  | genCode =>
    have hv : s.treeValid = true := by simpa [preconditionError] using hpre
    obtain ⟨w, cr, -, hexec⟩ := hs.exec_genCode ht hv
    exact ⟨_, hexec⟩
  | cwRd a k =>
    obtain ⟨ha, hk⟩ := of_decide_eq_true hok
    cases hcw : cwAt s a with
    | none => exact ⟨_, exec_cwRd_none hrun hs.legal ha hk hcw⟩
    | some c => exact ⟨_, exec_cwRd_some hrun hs.legal ha hk hcw⟩

/-- Settles O15: the command ends (`exec_answers_of_checks`), and one whose checks pass answers OK (`exec_passesOk`). -/
theorem passedChecksAnswerOk : Obligations.PassedChecksAnswerOk := by
  intro i s hs hc
  obtain ⟨t, ht⟩ := exec_answers_of_checks hs.core hs.tree hc
  obtain ⟨⟨a, b, hrsp⟩, -⟩ := exec_passesOk hs.core.sound hs.core.idle hc ht
  exact ⟨t, a, b, ht, hrsp⟩

/-- Every command has a next state: the error entry of the first check that fails, or its own end. -/
theorem exec_ends (hs : CoreInv s) (ht : TreeOk s) (i : Instr) : ∃ t, exec i s = .next t := by
  cases hc : checkError s i with
  | none => exact exec_answers_of_checks hs ht hc
  | some e =>
    obtain ⟨t, h, -⟩ := exec_checkError hs.legal hs.idle hc
    exact ⟨t, h⟩

theorem runWord_ends (hs : CoreInv s) (ht : TreeOk s) (w : Word64) : ∃ t, runWord w s = .next t := by
  unfold runWord
  split
  · exact exec_ends hs ht _
  · exact ⟨_, rfl⟩

/-- Settles O60: at every edge of an idle block reset, a change at the ports or a word's run answers, and a word's run ends (`runWord_ends`). -/
theorem blockNeverStops : Obligations.BlockNeverStops := by
  intro s hs pins
  have hedge : BlockInv (afterEdge { s with host := pins }) := hs.of_store rfl rfl rfl
  rw [StepsOn, step, portEdge, if_pos hedge.core.idle]
  split
  · exact ⟨_, rfl⟩
  · split
    · unfold responseEdge
      split <;> exact ⟨_, rfl⟩
    · unfold commandEdge
      split
      · exact runWord_ends hedge.core hedge.tree _
      · exact ⟨_, rfl⟩

end Sys2Proof.Machine
end

section
/-!
PROOFS. The working registers are dead between commands (10_state.md R40, section 7): each unit writes a register before it reads it, in every
state of its machine. `live` drops what the coming steps do not read, and a step looks the same from a state and from what is live in it.
-/

namespace Sys2Proof.Machine

open Sys2Proof.Summary

variable {s t u v w r : State} {i m : Nat} {K L : State → Result}

/-! ### What is live -/

/-- TB's registers are live from B_SCAN to B_DONE, each as `liveBuilder` says; the error states read none. -/
def liveMerger (f : TbState) (q : TbRegs) : TbRegs :=
  match f with
  | .bIdle | .bFail _ | .bFault _ => State.reset.tb
  | .bScan | .bCheck | .bInit | .bLeaves | .bLoop | .bExtU | .bExtV | .bMerge | .bInsW | .bDone => liveBuilder f q

/-- CR's registers are written in G_START; G_DONE reads CNT only. -/
def liveRecorder (f : CrState) (q : CrRegs) : CrRegs :=
  match f with
  | .gIdle | .gStart => State.reset.cr
  | .gDescend | .gAscend => q
  | .gDone => { State.reset.cr with CNT := q.CNT }

/-- The state without the working registers that the coming steps do not read. -/
def live (u : State) : State :=
  { u with pq := liveQueue u.pqFsm u.pq, tb := liveMerger u.tbFsm u.tb, cr := liveRecorder u.crFsm u.cr }

/-- An outcome as far as the coming steps can tell. -/
def alive (r : Result) : Result := andThen r fun t => .next (live t)

@[simp] theorem alive_next (u : State) : alive (.next u) = .next (live u) := rfl

theorem alive_andThen (r : Result) : alive (andThen r K) = andThen r fun t => alive (K t) := andThen_assoc ..

theorem sameForest_live (u : State) : SameForest u (live u) := ⟨rfl, rfl, rfl, rfl, rfl, rfl⟩

@[simp] theorem unitsIdle_live (u : State) : unitsIdle (live u) = unitsIdle u := rfl

@[simp] theorem liveQueue_idem (f : PqState) (q : PqRegs) : liveQueue f (liveQueue f q) = liveQueue f q := by cases f <;> rfl

@[simp] theorem liveMerger_idem (f : TbState) (q : TbRegs) : liveMerger f (liveMerger f q) = liveMerger f q := by cases f <;> rfl

@[simp] theorem liveRecorder_idem (f : CrState) (q : CrRegs) : liveRecorder f (liveRecorder f q) = liveRecorder f q := by cases f <;> rfl

/-- Between commands nothing is live but what the host can see. -/
theorem live_of_idle (h : unitsIdle u = true) : live u = visible u := by
  obtain ⟨hp, hb, hc⟩ := unitsIdle_iff.1 h
  simp [live, visible, hp, hb, hc, liveQueue, liveMerger, liveRecorder]

/-- Outcomes alike in what is live go on alike, if states alike in it do. -/
theorem andThen_of_alive {a b : Result} (h : alive a = alive b) (hK : ∀ u v, live u = live v → K u = L v) : andThen a K = andThen b L := by
  cases a with
  | next u =>
    cases b with
    | next v => exact hK u v (Host.Outcome.next.inj h)
    | fault | refused => cases h
  | fault | refused =>
    cases b with
    | next v => cases h
    | fault | refused => cases h <;> rfl

/-! ### One step -/

theorem alive_builderStep (hq : u.pqFsm = .pIdle) : alive (builderStep u) = alive (builderStep (live u)) := by
  have hf := sameForest_live u
  have hb : (live u).tbFsm = u.tbFsm := rfl
  cases h : u.tbFsm with
  | bIdle =>
    simp only [builderStep, hb, h]
    simp [alive, live, h, hq, liveMerger, liveQueue]
  | bScan =>
    simp only [builderStep, hb, h]
    refine scanStep_congr rfl ?_ ?_ ?_ (fun _ => rfl) ?_ (fun a c => ?_) ?_ <;> simp [live, h, hq, liveMerger, liveBuilder, liveQueue]
  | bCheck =>
    simp only [builderStep, hb, h]
    refine checkStep_congr rfl ?_ ?_ (fun e => ?_) ?_ <;> simp [live, h, hq, liveMerger, liveBuilder, liveQueue]
  | bInit =>
    simp only [builderStep, hb, h]
    simp [alive, initStep, live, h, hq, liveMerger, liveBuilder, liveQueue]
  | bLeaves =>
    simp only [builderStep, hb, h]
    refine leavesStep_congr hf ?_ (fun _ => rfl) ?_ ?_ (fun n x => insertStart_congr (hf.putNode n) fun a => ?_) ?_ <;>
      simp [live, withHeap, h, hq, liveMerger, liveBuilder, liveQueue]
  | bLoop =>
    simp only [builderStep, hb, h]
    refine loopStep_congr hf ?_ ?_ <;> simp [live, h, hq, liveMerger, liveBuilder, liveQueue]
  | bExtU | bExtV =>
    simp only [builderStep, hb, h]
    refine extractOrFault_congr hf ?_ (extractStart_congr hf fun a y => ?_) <;> simp [live, withHeap, h, hq, liveMerger, liveBuilder, liveQueue]
  | bMerge =>
    simp only [builderStep, hb, h]
    refine mergeStep_congr hf ?_ ?_ (fun x n => ?_) <;> simp [live, h, hq, liveMerger, liveBuilder, liveQueue]
  | bInsW =>
    simp only [builderStep, hb, h]
    refine insertMerged_congr hf ?_ ?_ (fun x => insertStart_congr hf fun a => ?_) <;>
      simp [live, withHeap, h, hq, liveMerger, liveBuilder, liveQueue]
  | bDone =>
    simp only [builderStep, hb, h]
    refine doneStep_congr hf ?_ (fun a f => ?_) <;> simp [live, h, hq, liveMerger, liveBuilder, liveQueue]
  | bFail e =>
    simp only [builderStep, hb, h]
    simp [alive, failStep, live, h, hq, liveMerger, liveQueue]
  | bFault e =>
    simp only [builderStep, hb, h]
    simp [alive, faultStep, live, h, hq, liveMerger, liveQueue]

theorem alive_tick_up (hq : u.pqFsm = .pUp) : alive (tick u) = alive (tick (live u)) := by
  rw [tick_pUp hq, tick_pUp (u := live u) hq, alive_andThen, alive_andThen]
  refine upStep_congr (sameForest_live u) ?_ ?_ fun a c => ?_
  · simp [live, hq, liveQueue]
  · cases h : u.tbFsm <;> simp [whenPqIdle, afterInsert, alive, live, h, hq, liveMerger, liveBuilder, liveQueue]
  · simp [whenPqIdle, alive, live, withHeap, hq, liveQueue]

theorem alive_tick_down (hq : u.pqFsm = .pDown) : alive (tick u) = alive (tick (live u)) := by
  have hf := sameForest_live u
  have hb : (live u).tbFsm = u.tbFsm := rfl
  rw [tick_pDown hq, tick_pDown (u := live u) hq, alive_andThen, alive_andThen]
  refine downStep_congr hf ?_ (fun c => ?_) fun a c => ?_
  · simp [live, hq, liveQueue]
  · cases h : u.tbFsm with
    | bIdle =>
      simp only [whenPqIdle, afterExtract, alive, setPqFsm_pqFsm, setPqFsm_tbFsm, setM_tbFsm, h, hb, if_true, andThen_readNode]
      have hset : SameForest (setPqFsm .pIdle (setM c u)) (setPqFsm .pIdle (setM c (live u))) := ⟨rfl, rfl, rfl, rfl, rfl, rfl⟩
      have hxn : (setM c (live u)).pq.XN = (setM c u).pq.XN := by simp [live, hq, liveQueue]
      simp only [setPqFsm_pq, hxn]
      refine readNode_congr hset fun n => ?_
      simp [live, h, hq, liveMerger, liveQueue]
    | _ => simp [whenPqIdle, afterExtract, alive, live, h, hq, liveMerger, liveBuilder, liveQueue]
  · simp [whenPqIdle, alive, live, withHeap, hq, liveQueue]

theorem writeCw_congr {sym : Symbol} {l : Len} {b : Bits} (hp : u.params = v.params) (hK : K (putCw u sym l b) = L (putCw v sym l b)) :
    andThen (writeCw u sym l b) K = andThen (writeCw v sym l b) L := by
  unfold writeCw
  rw [hp]
  split
  · exact hK
  · rfl

theorem writeTstk_congr {d : Nat} {x : NodeRef} (hp : u.params = v.params) (hK : K (putTstk u d x) = L (putTstk v d x)) :
    andThen (writeTstk u d x) K = andThen (writeTstk v d x) L := by
  unfold writeTstk
  rw [hp]
  split
  · exact hK
  · rfl

theorem andThen_readTstk {d : Nat} (f : NodeRef → Result) : andThen (readTstk s d f) K = readTstk s d fun x => andThen (f x) K := by
  unfold readTstk
  cases tstkAt s d <;> rfl

theorem readTstk_congr {d : Nat} {f g : NodeRef → Result} (h : u.tstk = v.tstk) (hf : ∀ x, f x = g x) :
    readTstk u d f = readTstk v d g := by
  unfold readTstk
  rw [tstkAt, h, funext hf]
  rfl

theorem alive_recorderStep (hq : u.pqFsm = .pIdle) (hb : u.tbFsm = .bIdle) : alive (recorderStep u) = alive (recorderStep (live u)) := by
  have hf := sameForest_live u
  have hc : (live u).crFsm = u.crFsm := rfl
  cases h : u.crFsm with
  | gIdle =>
    simp only [recorderStep, hc, h]
    simp [alive, live, h, hq, hb, liveMerger, liveQueue, liveRecorder]
  | gStart =>
    simp only [recorderStep, hc, h, recorderStart, freshTable, alive, andThen_readNode]
    refine readNode_congr hf fun n => ?_
    split
    · rw [andThen_assoc, andThen_assoc]
      refine writeCw_congr rfl ?_
      simp [live, h, hq, hb, liveMerger, liveQueue, liveRecorder, setPATH, setDEPTH, setCNT]
    · simp [live, h, hq, hb, liveMerger, liveQueue, liveRecorder, setCUR, setPATH, setDEPTH, setCNT]
  | gDescend =>
    have hlive : (live u).cr = u.cr := by simp [live, h, liveRecorder]
    simp only [recorderStep, hc, h, descendStep, recordLeaf, descendLeft, hlive, alive, andThen_readNode]
    refine readNode_congr hf fun n => ?_
    split
    · rw [andThen_assoc, andThen_assoc]
      refine writeCw_congr rfl ?_
      simp [live, h, hq, hb, liveMerger, liveQueue, liveRecorder, setCNT]
    · rw [andThen_assoc, andThen_assoc]
      refine writeTstk_congr rfl ?_
      simp [live, h, hq, hb, liveMerger, liveQueue, liveRecorder, setCUR, setPATH, setDEPTH]
  | gAscend =>
    have hlive : (live u).cr = u.cr := by simp [live, h, liveRecorder]
    simp only [recorderStep, hc, h, ascendStep, turnRight, popDigit, hlive]
    split
    · simp [alive, live, h, hq, hb, liveMerger, liveQueue, liveRecorder]
    split
    · simp [alive, live, h, hq, hb, liveMerger, liveQueue, liveRecorder, setPATH, setDEPTH]
    · simp only [alive, andThen_readTstk, andThen_readNode]
      refine readTstk_congr rfl fun x => readNode_congr hf fun n => ?_
      simp [live, h, hq, hb, liveMerger, liveQueue, liveRecorder, setCUR, setPATH]
  | gDone =>
    simp only [recorderStep, hc, h]
    simp [alive, recorderDone, live, h, hq, hb, liveMerger, liveQueue, liveRecorder]

/-- A step reads nothing but what is live. -/
theorem alive_tick (u : State) : alive (tick u) = alive (tick (live u)) := by
  cases hq : u.pqFsm with
  | pUp => exact alive_tick_up hq
  | pDown => exact alive_tick_down hq
  | pIdle =>
    have htick : ∀ v, v.pqFsm = .pIdle → tick v = if v.tbFsm = .bIdle then recorderStep v else builderStep v := fun v hv => by
      rw [tick, hv]
    rw [htick u hq, htick (live u) hq, show (live u).tbFsm = u.tbFsm from rfl]
    split
    · next hb => exact alive_recorderStep hq hb
    · exact alive_builderStep hq

theorem alive_tick_congr (h : live u = live v) : alive (tick u) = alive (tick v) := by
  rw [alive_tick u, h, ← alive_tick v]

theorem unitsIdle_of_live (h : live u = live v) : unitsIdle u = unitsIdle v := by
  rw [← unitsIdle_live u, h, unitsIdle_live]

theorem alive_runUnits (h : live u = live v) : alive (runUnits m u) = alive (runUnits m v) := by
  have hidle := unitsIdle_of_live h
  induction m generalizing u v with
  | zero =>
    rw [runUnits, runUnits, hidle]
    split
    · rw [alive_next, alive_next, h]
    · rfl
  | succ m ih =>
    rw [runUnits, runUnits, hidle]
    split
    · rw [alive_next, alive_next, h]
    · rw [alive_andThen, alive_andThen]
      exact andThen_of_alive (alive_tick_congr h) fun a b hab => ih hab (unitsIdle_of_live hab)

theorem alive_runToEnd (h : live u = live v) : alive (runToEnd u) = alive (runToEnd v) := alive_runUnits h

/-! ### The commands -/

@[simp] theorem live_live (u : State) : live (live u) = live u := by simp [live]

theorem live_respondOk (a : BitVec 24) (b : BitVec 32) (u : State) : live (respondOk a b u) = respondOk a b (live u) := rfl

theorem live_raise (e : ErrKind) (u : State) : live (raise e u) = raise e (live u) := rfl

theorem alive_unlessHalted {k l : Result} (h : alive k = alive l) : alive (unlessHalted u k) = alive (unlessHalted (live u) l) := by
  rw [unlessHalted, unlessHalted, show (live u).fatal = u.fatal from rfl]
  split
  · rw [alive_next, alive_next, live_raise, live_raise, live_live]
  · exact h

theorem alive_withOperand {α : Type} {k l : α → Result} (o : Option α) (h : ∀ a, alive (k a) = alive (l a)) :
    alive (withOperand o u k) = alive (withOperand o (live u) l) := by
  cases o with
  | some a => exact h a
  | none => rw [withOperand, withOperand, alive_next, alive_next, live_raise, live_raise, live_live]

theorem alive_respondOk (a : BitVec 24) (b : BitVec 32) (h : live u = live v) :
    alive (.next (respondOk a b u)) = alive (.next (respondOk a b v)) := by
  rw [alive_next, alive_next, live_respondOk, live_respondOk, h]

theorem alive_raise (e : ErrKind) : alive (.next (raise e u)) = alive (.next (raise e (live u))) := by
  rw [alive_next, alive_next, live_raise, live_raise, live_live]

theorem alive_readNode {f g : NodeRec → Result} (h : ∀ n, alive (f n) = alive (g n)) :
    alive (readNode u i f) = alive (readNode (live u) i g) := by
  rw [alive, alive, andThen_readNode, andThen_readNode]
  exact readNode_congr (sameForest_live u) h

theorem alive_readSlot {f g : NodeRef → Result} (h : ∀ x, alive (f x) = alive (g x)) :
    alive (readSlot u i f) = alive (readSlot (live u) i g) := by
  rw [alive, alive, andThen_readSlot, andThen_readSlot]
  exact readSlot_congr (sameForest_live u) h

/-- A command from an idle block, and from the same block without its working registers. -/
theorem alive_exec (i : Instr) (hi : unitsIdle s = true) : alive (exec i s) = alive (exec i (live s)) := by
  have hf := sameForest_live s
  obtain ⟨hp, hb, hc⟩ := unitsIdle_iff.1 hi
  cases i with
  | clear => simp [exec, execClear, dropWorking, live, hp, hb, hc, liveMerger, liveQueue, liveRecorder]
  | csrRd a => exact alive_withOperand _ fun c => alive_respondOk 0 _ (live_live s).symm
  | ftWr a b =>
    exact alive_unlessHalted <| alive_withOperand _ fun sym => alive_withOperand _ fun f =>
      alive_respondOk 0 0 (congrArg (fun t => writeFt t sym f) (live_live s).symm)
  | ftRd a => exact alive_unlessHalted <| alive_withOperand _ fun sym => alive_respondOk 0 _ (live_live s).symm
  | leaf a b =>
    refine alive_unlessHalted <| alive_withOperand _ fun sym => alive_withOperand _ fun f => ?_
    rw [show (live s).nodeCnt = s.nodeCnt from rfl, show (live s).params = s.params from rfl]
    split
    · exact alive_raise _
    · rw [alive_andThen, alive_andThen]
      exact allocNode_congr hf _ (alive_respondOk _ 0 (congrArg (fun t => putNode t (leafRec s.params sym f)) (live_live s).symm))
  | nodeRd a =>
    exact alive_unlessHalted <| alive_withOperand _ fun i => alive_readNode fun n => alive_respondOk _ _ (live_live s).symm
  | nodeCh a =>
    exact alive_unlessHalted <| alive_withOperand _ fun i => alive_readNode fun n => alive_respondOk _ _ (live_live s).symm
  | pqInit a =>
    exact alive_unlessHalted <| alive_withOperand _ fun cap =>
      alive_respondOk 0 0 (congrArg (fun t => createQueue t cap) (live_live s).symm)
  | pqIns a =>
    refine alive_unlessHalted <| alive_withOperand _ fun x => ?_
    rw [show (live s).pqSize = s.pqSize from rfl, show (live s).pqCap = s.pqCap from rfl]
    split
    · exact alive_raise _
    · rw [alive_andThen, alive_andThen]
      refine insertStart_congr hf fun a => alive_runToEnd ?_
      simp [live, withHeap, hp, liveQueue]
  | pqExt =>
    refine alive_unlessHalted ?_
    rw [show (live s).pqSize = s.pqSize from rfl]
    split
    · exact alive_raise _
    · rw [alive_andThen, alive_andThen]
      refine extractStart_congr hf fun a y => alive_runToEnd ?_
      simp [live, withHeap, hp, liveQueue]
  | heapRd a =>
    exact alive_unlessHalted <| alive_withOperand _ fun k => alive_readSlot fun x => alive_readSlot fun y => alive_readNode fun n =>
      alive_respondOk _ _ (live_live s).symm
  | build =>
    refine alive_unlessHalted <| alive_runToEnd ?_
    simp [live, liveMerger, liveBuilder]
  | genCode =>
    refine alive_unlessHalted ?_
    rw [show (live s).treeValid = s.treeValid from rfl]
    split
    · refine alive_runToEnd ?_
      simp [live, liveRecorder]
    · exact alive_raise _
  | cwRd a b =>
    refine alive_unlessHalted <| alive_withOperand _ fun sym => alive_withOperand _ fun k => ?_
    rw [show cwAt (live s) sym.toNat = cwAt s sym.toNat from rfl]
    split
    · exact alive_respondOk _ _ (live_live s).symm
    · exact alive_respondOk _ _ (live_live s).symm

theorem sameOutcome_of_alive {a b : Result} (h : alive a = alive b) : SameOutcome a b := by
  cases a with
  | next u =>
    cases b with
    | next v =>
      have hl : live u = live v := Host.Outcome.next.inj h
      have hv : visible (live u) = visible (live v) := by rw [hl]
      exact hv
    | fault | refused => cases h
  | fault | refused =>
    cases b with
    | next v => cases h
    | fault | refused => cases h <;> rfl

theorem alive_exec_congr (i : Instr) (hs : unitsIdle s = true) (hr : unitsIdle r = true) (h : live s = live r) :
    alive (exec i s) = alive (exec i r) := by
  rw [alive_exec i hs, h, ← alive_exec i hr]

/-- An edge at which both blocks are idle. -/
theorem alive_portEdge (p : HostPins) (hs : unitsIdle s = true) (hr : unitsIdle r = true) (h : live s = live r) :
    alive (portEdge p s) = alive (portEdge p r) := by
  have hreset : resetBlock s = resetBlock r := by
    change resetBlock (live s) = resetBlock (live r)
    rw [h]
  have htaken : live { s with rsp := none } = live { r with rsp := none } := congrArg (fun t : State => { t with rsp := none }) h
  have hrsp : rspValid s = rspValid r := by
    change rspValid (live s) = rspValid (live r)
    rw [h]
  rw [portEdge, portEdge, hreset, hs, hr, hrsp]
  split
  · rfl
  simp only [if_true]
  split
  · simp only [responseEdge]
    split
    · rw [alive_next, alive_next, htaken]
    · rw [alive_next, alive_next, h]
  · simp only [commandEdge]
    split
    · simp only [runWord]
      split
      · exact alive_exec_congr _ hs hr h
      · rw [alive_next, alive_next, live_raise, live_raise, h]
    · rw [alive_next, alive_next, h]

/-- Settles O53: two idle blocks that look alike have the same live part (`live_of_idle`), and no command or edge tells more
(`alive_exec`, `alive_portEdge`). -/
theorem workingRegistersAreDead : Obligations.WorkingRegistersAreDead := by
  intro s r hs hr h
  have hl : live s = live r := by rw [live_of_idle hs, live_of_idle hr, h]
  have hpins : pinsNow s = pinsNow r := by
    change pinsNow (live s) = pinsNow (live r)
    rw [hl]
  have hafter : live (afterEdge s) = live (afterEdge r) := congrArg afterEdge hl
  refine ⟨fun i => sameOutcome_of_alive (alive_exec_congr i hs hr hl), sameOutcome_of_alive ?_⟩
  rw [step, step, hpins]
  exact alive_portEdge _ hs hr hafter

end Sys2Proof.Machine
end

section
/-!
PROOFS. BUILD against its summary (41_tree_builder.md section 3). The merger's run is cut at the ends of the queue primitives, and each piece,
seen without the merger, is a step of the summary.
-/

namespace Sys2Proof.Machine

open Sys2Proof.Summary

variable {s t u v w : State} {x : NodeRef} {c : TbRegs} {n k m : Nat} {stepOf : State → Result}

/-! ### A primitive reads nothing of its caller -/

/-- The state with the merger idle, its registers being `c`. -/
def alone (c : TbRegs) (u : State) : State := { u with tbFsm := .bIdle, tb := c }

theorem sameForest_alone (c : TbRegs) (u : State) : SameForest (alone c u) u := ⟨rfl, rfl, rfl, rfl, rfl, rfl⟩

theorem andThen_next_right (r : Result) : andThen r .next = r := by cases r <;> rfl

/-- A step that answers the same without the merger as with it. -/
def Unaware (stepOf : State → Result) : Prop := ∀ c u, stepOf (alone c u) = andThen (stepOf u) fun t => .next (alone c t)

theorem unaware_insertStart (x : NodeRef) : Unaware (insertStart x) := fun c u => by
  rw [← andThen_next_right (insertStart x (alone c u))]
  exact insertStart_congr (sameForest_alone c u) fun _ => by simp only [alone, withHeap, setPqFsm, setPqSize, setI, setXN]

theorem unaware_upStep : Unaware upStep := fun c u => by
  rw [← andThen_next_right (upStep (alone c u))]
  exact upStep_congr (sameForest_alone c u) rfl rfl fun _ _ => rfl

theorem unaware_extractStart : Unaware extractStart := fun c u => by
  rw [← andThen_next_right (extractStart (alone c u))]
  exact extractStart_congr (sameForest_alone c u) fun _ _ => by simp only [alone, withHeap, setPqFsm, setPqSize, setI, setXN]

theorem unaware_downStep : Unaware downStep := fun c u => by
  rw [← andThen_next_right (downStep (alone c u))]
  exact downStep_congr (sameForest_alone c u) rfl (fun _ => rfl) fun _ _ => rfl

theorem unaware_runPq (h : Unaware stepOf) (n : Nat) : Unaware (runPq stepOf n) := by
  induction n with
  | zero => exact fun _ _ => rfl
  | succ n ih =>
    intro c u
    rw [runPq, h c u, runPq, andThen_assoc, andThen_assoc]
    refine andThen_congr fun t _ => ?_
    rw [andThen_next, show (alone c t).pqFsm = t.pqFsm from rfl]
    split
    · rfl
    · exact ih c t

theorem unaware_andThen {f g : State → Result} (hf : Unaware f) (hg : Unaware g) : Unaware fun u => andThen (f u) g := fun c u => by
  dsimp only
  rw [hf c u, andThen_assoc, andThen_assoc]
  exact andThen_congr fun t _ => hg c t

theorem unaware_pqInsert (x : NodeRef) : Unaware (pqInsert x) := unaware_andThen (unaware_insertStart x) (unaware_runPq unaware_upStep _)

theorem unaware_pqExtract : Unaware pqExtract := unaware_andThen unaware_extractStart (unaware_runPq unaware_downStep _)

theorem unaware_allocNode (n : NodeRec) : Unaware fun u => allocNode u n := fun c u => by
  dsimp only
  rw [← andThen_next_right (allocNode (alone c u) n)]
  exact allocNode_congr (sameForest_alone c u) n rfl

theorem Unaware.next (h : Unaware stepOf) (c : TbRegs) (hu : stepOf u = .next t) : stepOf (alone c u) = .next (alone c t) := by
  rw [h c u, hu, andThen_next]

/-! ### How many references a primitive leaves -/

theorem upStep_pqSize (h : upStep u = .next v) : v.pqSize = u.pqSize := by
  rcases upStep_eq_next.1 h with ⟨-, rfl⟩ | ⟨-, kp, ki, -, -, ⟨-, rfl⟩ | ⟨-, w, hw, rfl⟩⟩
  · rfl
  · rfl
  · exact (swapSlots_keeps hw).2

theorem downStep_pqSize (h : downStep u = .next v) : v.pqSize = u.pqSize := by
  rcases downStep_next h with rfl | ⟨m, w, -, hw, rfl⟩
  · rfl
  · exact (swapSlots_keeps hw).2

theorem runPq_pqSize (hstep : ∀ u v, stepOf u = .next v → v.pqSize = u.pqSize) (h : runPq stepOf n u = .next t) : t.pqSize = u.pqSize :=
  runPq_induct (P := fun v => v.pqSize = u.pqSize) (fun v w hv hw _ => (hstep v w hw).trans hv) (fun v w hv hw _ => (hstep v w hw).trans hv)
    rfl h

theorem pqInsert_pqSize (h : pqInsert x s = .next t) : t.pqSize = s.pqSize + 1 := by
  obtain ⟨u, hu, h⟩ := andThen_eq_next.1 h
  obtain ⟨-, rfl⟩ := insertStart_eq_next.1 hu
  rw [runPq_pqSize (fun _ _ => upStep_pqSize) h, setPqFsm_pqSize, setPqSize_pqSize]

theorem pqExtract_pqSize (h : pqExtract s = .next t) : t.pqSize = s.pqSize - 1 := by
  obtain ⟨u, hu, h⟩ := andThen_eq_next.1 h
  obtain ⟨y, v, -, hv, rfl⟩ := extractStart_eq_next.1 hu
  rw [runPq_pqSize (fun _ _ => downStep_pqSize) h, setPqFsm_pqSize, setI_pqSize]
  rcases moveLast_eq_next.1 hv with ⟨-, rfl⟩ | ⟨-, z, a, -, ha, rfl⟩
  · rw [dropSlot_pqSize, setPqSize_pqSize]
  · obtain ⟨-, rfl⟩ := writeSlot_eq_next.1 ha
    rw [dropSlot_pqSize, putSlot_pqSize, setPqSize_pqSize]

/-! ### A run and its pieces -/

/-- The run from `u` ends in `w`. -/
def Ends (u w : State) : Prop := ∃ m, runUnits m u = .next w

theorem Ends.of_leads (h : Ends u w) (hl : Leads k u v) : Ends v w := by
  obtain ⟨m, hm⟩ := h
  exact ⟨m, (hl m).symm.trans (runUnits_mono (Nat.le_add_left ..) hm)⟩

theorem Ends.eq_of_idle (h : Ends u w) (hi : unitsIdle u = true) : w = u := by
  obtain ⟨m, hm⟩ := h
  rw [runUnits_idle hi] at hm
  exact (Host.Outcome.next.inj hm).symm

/-- A busy block makes a step. -/
theorem Ends.tick (h : Ends u w) (hbusy : unitsIdle u = false) : ∃ v, Machine.tick u = .next v ∧ Ends v w := by
  obtain ⟨m, hm⟩ := h
  cases m with
  | zero => simp [runUnits, hbusy] at hm
  | succ m =>
    rw [runUnits_step hbusy] at hm
    obtain ⟨v, hv, hm⟩ := andThen_eq_next.1 hm
    exact ⟨v, hv, m, hm⟩

theorem Ends.builderStep (h : Ends u w) (hq : u.pqFsm = .pIdle) (hb : u.tbFsm ≠ .bIdle) :
    ∃ v, Machine.builderStep u = .next v ∧ Ends v w := by
  obtain ⟨v, hv, hw⟩ := h.tick (Bool.eq_false_iff.2 fun hi => hb (unitsIdle_iff.1 hi).2.1)
  exact ⟨v, builderStep_of_tick hq hb hv, hw⟩

/-- An insertion that the merger has started, to the merger's next step. -/
theorem Ends.inserted (h : Ends v w) (hv : insertStart x u = .next v) :
    ∃ t v', pqInsert x u = .next t ∧ afterInsert t = .next v' ∧ Ends v' w := by
  obtain ⟨m, hm⟩ := h
  obtain ⟨k, -, hrun⟩ := runUnits_up (insertStart_fsms hv).2
  have hall := runUnits_mono (Nat.le_add_left m k) hm
  rw [hrun] at hall
  obtain ⟨t, ht, hall⟩ := andThen_eq_next.1 hall
  obtain ⟨v', hv', hall⟩ := andThen_eq_next.1 hall
  exact ⟨t, v', andThen_eq_next.2 ⟨v, hv, ht⟩, hv', m, hall⟩

/-- An extraction that the merger has started, to the merger's next step. -/
theorem Ends.extracted (h : Ends v w) (hv : extractStart u = .next v) :
    ∃ t v', pqExtract u = .next t ∧ afterExtract t = .next v' ∧ Ends v' w := by
  obtain ⟨m, hm⟩ := h
  obtain ⟨k, -, hrun⟩ := runUnits_down (extractStart_fsms hv).2
  have hall := runUnits_mono (Nat.le_add_left m k) hm
  rw [hrun] at hall
  obtain ⟨t, ht, hall⟩ := andThen_eq_next.1 hall
  obtain ⟨v', hv', hall⟩ := andThen_eq_next.1 hall
  exact ⟨t, v', andThen_eq_next.2 ⟨v, hv, ht⟩, hv', m, hall⟩

/-- Where the merger stands at its next own step: PQ and CR idle. -/
structure Merging (f : TbState) (u : State) : Prop where
  state : u.tbFsm = f
  queueIdle : u.pqFsm = .pIdle
  recorderIdle : u.crFsm = .gIdle

theorem Merging.step {f : TbState} (h : Merging f u) (hw : Ends u w) (hf : f ≠ .bIdle) : ∃ v, builderStep u = .next v ∧ Ends v w :=
  hw.builderStep h.queueIdle (h.state ▸ hf)

theorem Merging.to {f : TbState} (h : Merging f u) (g : TbState) : Merging g (setTbFsm g u) := ⟨rfl, h.queueIdle, h.recorderIdle⟩

/-- A run that reaches B_FAULT ends halted. -/
theorem Merging.fatal {e : ErrKind} (h : Merging (.bFault e) u) (hw : Ends u w) : w.fatal = true := by
  obtain ⟨v, hv, hw⟩ := h.step hw nofun
  rw [builderStep, h.state] at hv
  cases hv
  rw [hw.eq_of_idle (unitsIdle_iff.2 ⟨h.queueIdle, rfl, h.recorderIdle⟩)]
  rfl

/-! ### The leaves (R169) -/

/-- The symbols from `k` on that occur. -/
def occurringFrom (s : State) (k : Nat) : List Nat := (List.range' k (s.params.nsym - k)).filter fun i => ftAt s i != 0

theorem occurringFrom_zero (s : State) : occurringFrom s 0 = occurring s := by
  rw [occurringFrom, occurring, List.range_eq_range', Nat.sub_zero]

theorem occurringFrom_nsym (s : State) : occurringFrom s s.params.nsym = [] := by
  rw [occurringFrom, Nat.sub_self]
  rfl

theorem occurringFrom_of_lt (hk : k < s.params.nsym) :
    occurringFrom s k = if ftAt s k = 0 then occurringFrom s (k + 1) else k :: occurringFrom s (k + 1) := by
  rw [occurringFrom, show s.params.nsym - k = s.params.nsym - (k + 1) + 1 by omega, List.range'_succ, List.filter_cons]
  simp [occurringFrom]

/-- What the leaves and the merges keep, apart from the forest. -/
structure SameCounts (s u : State) : Prop where
  ft : u.ft = s.ft
  params : u.params = s.params
  symbols : u.tb.N = s.tb.N

theorem SameCounts.refl (s : State) : SameCounts s s := ⟨rfl, rfl, rfl⟩

theorem SameCounts.trans (h : SameCounts s u) (h' : SameCounts u v) : SameCounts s v :=
  ⟨h'.ft.trans h.ft, h'.params.trans h.params, h'.symbols.trans h.symbols⟩

/-- One symbol of the `for` loop on a state of the summary. -/
def addSymbol (sym : Nat) (s : State) : Result :=
  if ftAt s sym = 0 then .next s
  else andThen (allocNode s (leafRec s.params (BitVec.ofNat 8 sym) (ftAt s sym))) (pqInsert (s.nodeCnt.setWidth 9))

/-- R169: the merger goes on to the next symbol. -/
theorem Merging.symbol (c : TbRegs) (hrun : w.fatal = false) (h : Merging .bLeaves u) (hlt : u.tb.S.toNat < u.params.nsym) (hw : Ends u w) :
    ∃ v, Merging .bLeaves v ∧ v.tb.S = u.tb.S + 1 ∧ SameCounts u v ∧ Ends v w ∧
      addSymbol u.tb.S.toNat (alone c u) = .next (alone c v) := by
  obtain ⟨hf, hq, hc⟩ := h
  obtain ⟨v, hv, hw⟩ := Merging.step ⟨hf, hq, hc⟩ hw nofun
  rw [builderStep, hf] at hv
  rcases leavesStep_next hv with ⟨-, hz, rfl⟩ | ⟨-, -, -, rfl⟩ | ⟨-, hz, -, a, ha, hv⟩ | ⟨hle, -⟩
  · exact ⟨setS (u.tb.S + 1) u, ⟨hf, hq, hc⟩, rfl, ⟨rfl, rfl, rfl⟩, hw, if_pos hz⟩
  · have hfault : Merging (.bFault .queueFull) (setS (u.tb.S + 1) (setTbFsm (.bFault .queueFull) u)) := ⟨rfl, hq, hc⟩
    rw [hfault.fatal hw] at hrun
    cases hrun
  · obtain ⟨t, v', ht, hv', hw⟩ := hw.inserted hv
    obtain ⟨hframe, hidle⟩ := pqInsert_frame ht
    obtain ⟨-, rfl⟩ := allocNode_eq_next.1 ha
    rw [afterInsert, hframe.tbFsm_eq, putNode_tbFsm, hf] at hv'
    cases hv'
    have htb := hframe.tb_eq
    rw [putNode_tb] at htb
    refine ⟨setS (t.tb.S + 1) t, ⟨hframe.tbFsm_eq.trans hf, hidle, hframe.crFsm_eq.trans hc⟩, ?_, ⟨?_, hframe.params_eq, ?_⟩, hw, ?_⟩
    · rw [setS_tb_S, htb]
    · rw [hframe]
      rfl
    · exact (congrArg TbRegs.N htb : t.tb.N = u.tb.N)
    · have hs := (unaware_pqInsert _).next c ht
      exact (if_neg hz).trans (andThen_eq_next.2 ⟨_, (unaware_allocNode _).next c ha, hs⟩)
  · omega

theorem addLeaves_occurringFrom (hk : k < s.params.nsym) (hf : ftAt u = ftAt s) :
    addLeaves (occurringFrom s k) u = andThen (addSymbol k u) (addLeaves (occurringFrom s (k + 1))) := by
  rw [occurringFrom_of_lt hk, addSymbol, hf]
  split
  · rfl
  · rw [addLeaves, hf, andThen_assoc]

theorem Merging.leaves (c : TbRegs) (hn : s.params.nsym ≤ 256) (hrun : w.fatal = false) (h : Merging .bLeaves u) (hs : SameCounts s u)
    (hk : u.tb.S.toNat = k) (hle : k ≤ s.params.nsym) (hw : Ends u w) :
    ∃ v, Merging .bLoop v ∧ SameCounts s v ∧ Ends v w ∧ addLeaves (occurringFrom s k) (alone c u) = .next (alone c v) := by
  induction hj : s.params.nsym - k generalizing u k with
  | zero =>
    obtain rfl : k = s.params.nsym := by omega
    obtain ⟨v, hv, hw⟩ := h.step hw nofun
    rw [builderStep, h.state] at hv
    rcases leavesStep_next hv with ⟨hlt, -⟩ | ⟨hlt, -⟩ | ⟨hlt, -⟩ | ⟨-, rfl⟩
    · rw [hs.params] at hlt; omega
    · rw [hs.params] at hlt; omega
    · rw [hs.params] at hlt; omega
    · exact ⟨setTbFsm .bLoop u, h.to .bLoop, ⟨hs.ft, hs.params, hs.symbols⟩, hw, by rw [occurringFrom_nsym]; rfl⟩
  | succ j ih =>
    have hlt : k < s.params.nsym := by omega
    obtain ⟨v, hv, hS, huv, hvw, hsym⟩ := h.symbol c hrun (by rw [hk, hs.params]; exact hlt) hw
    have hk' : v.tb.S.toNat = k + 1 := by
      rw [hS, BitVec.toNat_add_of_lt (by simp; omega), hk]
      rfl
    obtain ⟨t, ht, hst, htw, hadd⟩ := ih hv (hs.trans huv) hk' (by omega) hvw (by omega)
    refine ⟨t, ht, hst, htw, ?_⟩
    rw [addLeaves_occurringFrom hlt (ftAt_congr hs.ft : ftAt (alone c u) = ftAt s), ← hk, hsym, andThen_next, hk, hadd]

/-! ### The merges (R170 to R172) -/

/-- The merger's two extractions. -/
theorem Merging.extraction {f : TbState} (c : TbRegs) (hf : f = .bExtU ∨ f = .bExtV) (h : Merging f u) (hpos : u.pqSize ≠ 0) (hw : Ends u w) :
    ∃ t v, pqExtract u = .next t ∧ QueueOnly u t ∧ t.pqFsm = .pIdle ∧ afterExtract t = .next v ∧ Ends v w ∧
      pqExtract (alone c u) = .next (alone c t) := by
  obtain ⟨v, hv, hw⟩ := h.step hw (by rcases hf with rfl | rfl <;> nofun)
  have hstep : extractOrFault u = .next v := by
    rw [builderStep, h.state] at hv
    rcases hf with rfl | rfl <;> exact hv
  obtain ⟨h0, -⟩ | ⟨-, hstart⟩ := extractOrFault_next hstep
  · exact absurd h0 hpos
  · obtain ⟨t, v', ht, hv', hw⟩ := hw.extracted hstart
    exact ⟨t, v', ht, (pqExtract_frame ht).1, (pqExtract_frame ht).2, hv', hw, unaware_pqExtract.next c ht⟩

theorem toNat_add_one_le (c : Count9) : (c + 1).toNat ≤ c.toNat + 1 := by
  rw [BitVec.toNat_add]
  exact Nat.mod_le ..

/-- A count that is not 0 goes down by one. -/
theorem toNat_sub_one {c : Count9} (h : c ≠ 0) : (c - 1).toNat = c.toNat - 1 := by
  have hne : c.toNat ≠ 0 := fun h0 => h (BitVec.eq_of_toNat_eq h0)
  rw [BitVec.toNat_sub_of_le (by rw [BitVec.le_def]; exact Nat.one_le_iff_ne_zero.2 hne)]
  rfl

/-- B_MERGE and B_INS_W: the two records that U and V refer to get a parent, which is inserted. -/
theorem Merging.join (c : TbRegs) (hrun : w.fatal = false) (h : Merging .bMerge u) (hw : Ends u w) :
    ∃ v x y, nodeAt u u.tb.U.toNat = some x ∧ nodeAt u u.tb.V.toNat = some y ∧ Merging .bLoop v ∧ SameCounts u v ∧
      v.pqSize = u.pqSize + 1 ∧ Ends v w ∧
      andThen (allocNode (alone c u) (innerRec (x.freq + y.freq) u.tb.U u.tb.V)) (pqInsert (u.nodeCnt.setWidth 9)) = .next (alone c v) := by
  obtain ⟨a, ha, hw⟩ := h.step hw nofun
  rw [builderStep, h.state] at ha
  obtain ⟨x, y, b, hx, hy, hb, rfl⟩ := mergeStep_next ha
  have halloc := (unaware_allocNode _).next c hb
  have hb' := (allocNode_eq_next.1 hb).2
  have hq : b.pqFsm = .pIdle := by rw [hb']; exact h.queueIdle
  have hc : b.crFsm = .gIdle := by rw [hb']; exact h.recorderIdle
  have hW : b.tb.W = u.nodeCnt.setWidth 9 := by rw [hb', putNode_tb, setW_tb_W]
  have hbc : SameCounts u b := by rw [hb']; exact ⟨rfl, rfl, rfl⟩
  have hbs : b.pqSize = u.pqSize := by rw [hb']; rfl
  have hm : Merging .bInsW (setTbFsm .bInsW b) := ⟨rfl, hq, hc⟩
  obtain ⟨a, ha, hw⟩ := hm.step hw nofun
  rcases insertMerged_next ha with ⟨-, rfl⟩ | ⟨-, hstart⟩
  · rw [(hm.to (.bFault .queueFull)).fatal hw] at hrun
    cases hrun
  · obtain ⟨t, a, ht, ha, hw⟩ := hw.inserted hstart
    obtain ⟨hframe, hqt⟩ := pqInsert_frame ht
    rw [afterInsert, hframe.tbFsm_eq] at ha
    cases ha
    rw [setTbFsm_tb, hW] at ht
    have hins := (unaware_pqInsert _).next c ht
    refine ⟨setTbFsm .bLoop t, x, y, hx, hy, ⟨rfl, hqt, hframe.crFsm_eq.trans hc⟩, hbc.trans ⟨?_, hframe.params_eq, ?_⟩, ?_, hw,
      andThen_eq_next.2 ⟨_, halloc, hins⟩⟩
    · rw [hframe]
      rfl
    · exact congrArg TbRegs.N hframe.tb_eq
    · exact (pqInsert_pqSize ht).trans (congrArg (· + 1) hbs)

theorem Merging.round (c : TbRegs) (hrun : w.fatal = false) (h : Merging .bLoop u) (hsize : 1 < u.pqSize.toNat) (hw : Ends u w) :
    ∃ v, Merging .bLoop v ∧ SameCounts u v ∧ v.pqSize.toNat < u.pqSize.toNat ∧ Ends v w ∧ mergeRound (alone c u) = .next (alone c v) := by
  obtain ⟨a, ha, hw⟩ := h.step hw nofun
  rw [builderStep, h.state] at ha
  obtain ⟨-, rfl⟩ | ⟨hle, -⟩ := loopStep_next ha
  swap
  · omega
  have hpos : u.pqSize ≠ 0 := ne_zero_of_pos (by omega)
  obtain ⟨t1, a, ht1, hframe1, hq1, ha, hw, hs1⟩ := (h.to .bExtU).extraction c (.inl rfl) hpos hw
  rw [afterExtract, hframe1.tbFsm_eq] at ha
  cases ha
  have hsize1 : t1.pqSize.toNat = u.pqSize.toNat - 1 := (congrArg BitVec.toNat (pqExtract_pqSize ht1)).trans (toNat_sub_one hpos)
  have hm1 : Merging .bExtV (setTbFsm .bExtV (setU t1.pq.XN t1)) := ⟨rfl, hq1, hframe1.crFsm_eq.trans h.recorderIdle⟩
  have hpos1 : t1.pqSize ≠ 0 := ne_zero_of_pos (by omega)
  obtain ⟨t2, a, ht2, hframe2, hq2, ha, hw, hs2⟩ := hm1.extraction c (.inr rfl) hpos1 hw
  rw [afterExtract, hframe2.tbFsm_eq] at ha
  cases ha
  have hsize2 : t2.pqSize.toNat = t1.pqSize.toNat - 1 := (congrArg BitVec.toNat (pqExtract_pqSize ht2)).trans (toNat_sub_one hpos1)
  have hm2 : Merging .bMerge (setTbFsm .bMerge (setV t2.pq.XN t2)) := ⟨rfl, hq2, hframe2.crFsm_eq.trans hm1.recorderIdle⟩
  have hU : t2.tb.U = t1.pq.XN := congrArg TbRegs.U hframe2.tb_eq
  obtain ⟨v, x, y, hx, hy, hv, hsame, hsize3, hw, hs3⟩ := hm2.join c hrun hw
  rw [setTbFsm_tb, setV_tb_U, hU] at hx hs3
  refine ⟨v, hv, ?_, ?_, hw, ?_⟩
  · refine SameCounts.trans ⟨?_, ?_, ?_⟩ hsame
    · rw [setTbFsm_ft, setV_ft, hframe2, setTbFsm_ft, setU_ft, hframe1, setTbFsm_ft]
    · rw [setTbFsm_params, setV_params, hframe2, setTbFsm_params, setU_params, hframe1, setTbFsm_params]
    · rw [setTbFsm_tb, setV_tb_N, hframe2, setTbFsm_tb, setU_tb_N, hframe1, setTbFsm_tb]
  · have hle : v.pqSize.toNat ≤ t2.pqSize.toNat + 1 := hsize3 ▸ toNat_add_one_le _
    omega
  · exact andThen_eq_next.2 ⟨alone c t1, hs1, andThen_eq_next.2 ⟨alone c t2, hs2, readNode_eq_next.2 ⟨x, hx, readNode_eq_next.2 ⟨y, hy, hs3⟩⟩⟩⟩

theorem mergeAll_of_le (h : s.pqSize.toNat ≤ 1) (n : Nat) : mergeAll n s = .next s := by
  cases n <;> rw [mergeAll, if_neg (by omega)]

theorem mergeAll_succ (h : 1 < s.pqSize.toNat) (n : Nat) : mergeAll (n + 1) s = andThen (mergeRound s) (mergeAll n) := if_pos h

theorem Merging.endLoop (h : Merging .bLoop u) (hsize : u.pqSize.toNat ≤ 1) (hw : Ends u w) :
    Ends (setTbFsm .bDone u) w := by
  obtain ⟨v, hv, hw⟩ := h.step hw nofun
  rw [builderStep, h.state] at hv
  obtain ⟨hlt, -⟩ | ⟨-, rfl⟩ := loopStep_next hv
  · omega
  · exact hw

/-- The merger's loop to its end. -/
theorem Merging.loop (c : TbRegs) (hrun : w.fatal = false) (h : Merging .bLoop u) (hsize : u.pqSize.toNat ≤ n + 1) (hw : Ends u w) :
    ∃ v, Merging .bDone v ∧ SameCounts u v ∧ Ends v w ∧ mergeAll n (alone c u) = .next (alone c v) := by
  by_cases hle : u.pqSize.toNat ≤ 1
  · exact ⟨setTbFsm .bDone u, h.to .bDone, ⟨rfl, rfl, rfl⟩, h.endLoop hle hw, mergeAll_of_le (s := alone c u) hle n⟩
  · induction n generalizing u with
    | zero => omega
    | succ n ih =>
      obtain ⟨v, hv, huv, hlt, hvw, hround⟩ := h.round c hrun (by omega) hw
      rw [mergeAll_succ (s := alone c u) (by exact Nat.lt_of_not_le hle), hround, andThen_next]
      by_cases hle' : v.pqSize.toNat ≤ 1
      · exact ⟨setTbFsm .bDone v, hv.to .bDone, ⟨huv.ft, huv.params, huv.symbols⟩, hv.endLoop hle' hvw,
          mergeAll_of_le (s := alone c v) hle' n⟩
      · obtain ⟨t, ht, hvt, htw, hall⟩ := ih hv (by omega) hvw hle'
        exact ⟨t, ht, huv.trans hvt, htw, hall⟩

/-- B_DONE is the summary's last lines. -/
theorem Merging.done (c : TbRegs) (h : Merging .bDone u) (hN : u.tb.N = BitVec.ofNat 9 n) (hw : Ends u w) :
    w.tbFsm = .bIdle ∧ finish n (alone c u) = .next (alone c w) := by
  obtain ⟨v, hv, hw⟩ := h.step hw nofun
  rw [builderStep, h.state] at hv
  obtain ⟨r, a, hr, ha, rfl⟩ := doneStep_next hv
  rw [hw.eq_of_idle (unitsIdle_iff.2 ⟨h.queueIdle, rfl, h.recorderIdle⟩), hN]
  exact ⟨rfl, readSlot_eq_next.2 ⟨r, hr, readNode_eq_next.2 ⟨a, ha, by simp only [alone, respondOk, respond, setTree, setTbFsm]⟩⟩⟩

/-- No more references than leaves. -/
theorem addLeaves_pqSize_le {l : List Nat} (h : addLeaves l s = .next t) : t.pqSize.toNat ≤ s.pqSize.toNat + l.length := by
  induction l generalizing s with
  | nil => cases h; exact Nat.le_add_right ..
  | cons sym l ih =>
    obtain ⟨a, ha, h⟩ := andThen_eq_next.1 h
    obtain ⟨b, hb, hrest⟩ := andThen_eq_next.1 h
    obtain ⟨-, rfl⟩ := allocNode_eq_next.1 ha
    have hsize : b.pqSize.toNat ≤ s.pqSize.toNat + 1 := by
      rw [pqInsert_pqSize hb, putNode_pqSize]
      exact toNat_add_one_le _
    have := ih hrest
    rw [List.length_cons]
    omega

/-! ### From the start -/

/-- B_INIT makes the state in which the summary begins. -/
theorem alone_initStep (hi : unitsIdle s = true) (hu : initStep (setTbFsm .bInit (counted s s.params.nsym)) = .next u) :
    alone s.tb u = freshTree (symbolCount s) s ∧ u.tb.N = BitVec.ofNat 9 (symbolCount s) ∧ Merging .bLeaves u ∧ u.tb.S = 0 ∧
      u.ft = s.ft ∧ u.params = s.params := by
  obtain ⟨hq, hb, hc⟩ := unitsIdle_iff.1 hi
  rw [initStep_eq] at hu
  cases hu
  refine ⟨?_, ?_, ⟨rfl, by simpa using hq, by simpa using hc⟩, by simp, by simp, by simp⟩
  · simp only [alone, freshTree, counted, setTbFsm, setS, setN, setACC, invalidateCw, setCwReady, setTree, createQueue, emptyArena, hb]
    rfl
  · simp only [counted, setTbFsm_tb, setS_tb_N, invalidateCw_tb, setCwReady_tb, setTree_tb, createQueue_tb, emptyArena_tb, setACC_tb_N, setN_tb_N]
    rfl

theorem checkStep_passes (hn : s.params.nsym ≤ 256) (hpos : 0 < symbolCount s) (hfits : totalCount s ≤ s.params.kmax) :
    checkStep (setTbFsm .bCheck (counted s s.params.nsym)) = .next (setTbFsm .bInit (counted s s.params.nsym)) := by
  have hN : (counted s s.params.nsym).tb.N ≠ 0 := ne_zero_of_pos (by rw [toNat_counted_N hn]; exact hpos)
  have hACC : (counted s s.params.nsym).tb.ACC.toNat = totalCount s := toNat_counted_ACC hn
  rw [checkStep, setTbFsm_tb, setTbFsm_params, counted_params, if_neg hN, hACC, if_neg (by omega)]
  rfl

/-- R164: from every idle state whose checks pass, the summary ends as a run of the machine that is not halted does, the merger apart. -/
theorem buildSummary_of_ends (hp : s.params.legal = true) (hi : unitsIdle s = true) (hpos : 0 < symbolCount s)
    (hfits : totalCount s ≤ s.params.kmax) (hrun : w.fatal = false) (hw : Ends (builderStart s) w) :
    w.tbFsm = .bIdle ∧ buildSummary s = .next (alone s.tb w) := by
  have hn := (Params.nsym_bounds hp).2
  have hq := (unitsIdle_iff.1 hi).1
  have hidle : ∀ f, (setTbFsm f (counted s s.params.nsym)).pqFsm = .pIdle := fun f => by simpa using hq
  have hscan := leads_builderStep (hidle .bScan) (by simp) (scanStep_counted_all hn)
  have hcheck := leads_builderStep (hidle .bCheck) (by simp) (checkStep_passes hn hpos hfits)
  have hinit := hw.of_leads (((leads_counted hq hn le_rfl).trans hscan).trans hcheck)
  obtain ⟨u, hu, hw⟩ := hinit.builderStep (hidle .bInit) (by simp)
  obtain ⟨hfresh, hN, hu, hS, hft, hpar⟩ := alone_initStep hi hu
  have hofS : occurringFrom u 0 = occurring s := by rw [occurringFrom_zero, occurring_congr hft hpar]
  obtain ⟨v, hv, hsame, hvw, hadd⟩ := hu.leaves s.tb (hpar ▸ hn) hrun (.refl u) (by rw [hS]; rfl) (Nat.zero_le _) hw
  rw [hfresh, hofS] at hadd
  have hsize : v.pqSize.toNat ≤ symbolCount s + 1 := (addLeaves_pqSize_le hadd).trans (by simp [freshTree, symbolCount])
  obtain ⟨t, ht, hsame', htw, hmerge⟩ := hv.loop s.tb hrun hsize hvw
  obtain ⟨hend, hfinish⟩ := ht.done s.tb (hsame'.symbols.trans (hsame.symbols.trans hN)) htw
  refine ⟨hend, ?_⟩
  rw [buildSummary, if_neg (by omega), if_neg (by omega), hadd, andThen_next, hmerge, andThen_next, hfinish]

/-- A BUILD that succeeds, and its summary. -/
theorem exec_build_summary (hp : s.params.legal = true) (hi : unitsIdle s = true) (hf : s.fatal = false) (hpos : 0 < symbolCount s)
    (hfits : totalCount s ≤ s.params.kmax) : ∃ t, exec .build s = .next t ∧ TreeOfCounts s t ∧ buildSummary s = .next (alone s.tb t) := by
  obtain ⟨t, ht, htree⟩ := exec_build_tree hp hi hf hpos hfits
  have hends : Ends (builderStart s) t := ⟨_, (unlessHalted_running _ hf).symm.trans ht⟩
  exact ⟨t, ht, htree, (buildSummary_of_ends hp hi hpos hfits htree.running hends).2⟩

/-- A BUILD whose check fails, and its summary. -/
theorem exec_build_fails_summary {e : ErrKind} (hp : s.params.legal = true) (hi : unitsIdle s = true) (hf : s.fatal = false)
    (h : preconditionError s .build = some e) (hsum : buildSummary s = .next (raise e s)) :
    ∃ t u, exec .build s = .next t ∧ buildSummary s = .next u ∧ visible t = visible u :=
  ⟨_, _, exec_build_fails hp hi hf h, hsum, visible_raise_counted (unitsIdle_iff.1 hi).2.1 e _⟩

/-- Settles O39: the two errors by `exec_build_fails`, the tree by cutting the machine's run at the ends of the primitives
(`buildSummary_of_ends`). -/
theorem buildComputesItsSummary : Obligations.BuildComputesItsSummary := by
  intro s hp hi hf
  by_cases h0 : symbolCount s = 0
  · exact exec_build_fails_summary (e := .emptyAlphabet) hp hi hf (if_pos h0) (if_pos h0)
  · by_cases hover : s.params.kmax < totalCount s
    · exact exec_build_fails_summary (e := .freqOverflow) hp hi hf ((if_neg h0).trans (if_pos hover)) ((if_neg h0).trans (if_pos hover))
    · obtain ⟨t, ht, htree, hsum⟩ := exec_build_summary hp hi hf (Nat.pos_of_ne_zero h0) (Nat.le_of_not_lt hover)
      have hb := (unitsIdle_iff.1 htree.idle).2.1
      refine ⟨t, _, ht, hsum, ?_⟩
      simp [visible, alone, hb]

end Sys2Proof.Machine
end

section
/-!
PROOFS. What a successful BUILD leaves (41_tree_builder.md sections 3 and 5): its summary says what is written at all, and the forest of the
builder's invariant says what the arena then holds.
-/

namespace Sys2Proof.Machine

open Sys2Proof.Summary

variable {s t u v w : State} {x r : NodeRef} {c : TbRegs} {n k sym : Nat} {l : List Nat}

/-! ### The frame of the summary -/

/-- What making leaves and merging them leaves alone: all but the arena, the queue and the queue unit with its registers. -/
def outsideForest (u : State) : State :=
  { u with node := [], nodeCnt := 0, heap := [], pqSize := 0, pqFsm := .pIdle, pq := State.reset.pq }

theorem QueueOnly.outsideForest_eq (h : QueueOnly s t) : outsideForest t = outsideForest s := by rw [h]; rfl

theorem allocNode_outsideForest {a : NodeRec} (h : allocNode s a = .next t) : outsideForest t = outsideForest s := by
  obtain ⟨-, rfl⟩ := allocNode_eq_next.1 h
  rfl

theorem addLeaves_outsideForest (h : addLeaves l s = .next t) : outsideForest t = outsideForest s := by
  induction l generalizing s with
  | nil => cases h; rfl
  | cons sym l ih =>
    obtain ⟨a, ha, h⟩ := andThen_eq_next.1 h
    obtain ⟨b, hb, h⟩ := andThen_eq_next.1 h
    rw [ih h, (pqInsert_frame hb).1.outsideForest_eq, allocNode_outsideForest ha]

theorem mergeRound_outsideForest (h : mergeRound s = .next t) : outsideForest t = outsideForest s := by
  obtain ⟨a, ha, h⟩ := andThen_eq_next.1 h
  obtain ⟨b, hb, h⟩ := andThen_eq_next.1 h
  obtain ⟨x, -, h⟩ := readNode_eq_next.1 h
  obtain ⟨y, -, h⟩ := readNode_eq_next.1 h
  obtain ⟨d, hd, h⟩ := andThen_eq_next.1 h
  rw [(pqInsert_frame h).1.outsideForest_eq, allocNode_outsideForest hd, (pqExtract_frame hb).1.outsideForest_eq,
    (pqExtract_frame ha).1.outsideForest_eq]

theorem mergeAll_keeps (h : mergeAll n s = .next t) : outsideForest t = outsideForest s ∧ t.pqSize.toNat ≤ 1 := by
  induction n generalizing s with
  | zero =>
    rw [mergeAll] at h
    split at h
    · cases h
    · next hle => cases h; exact ⟨rfl, by omega⟩
  | succ n ih =>
    rw [mergeAll] at h
    split at h
    · obtain ⟨u, hu, h⟩ := andThen_eq_next.1 h
      obtain ⟨hout, hle⟩ := ih h
      exact ⟨hout.trans (mergeRound_outsideForest hu), hle⟩
    · next hle => cases h; exact ⟨rfl, by omega⟩

theorem finish_eq_next : finish n s = .next t ↔ ∃ r a, slotAt s 0 = some r ∧ nodeAt s r.toNat = some a ∧
    t = respondOk (r.setWidth 24) a.freq (setTree r (BitVec.ofNat 9 n) true s) := by
  simp only [finish, readSlot_eq_next, readNode_eq_next, Host.Outcome.next.injEq]
  constructor
  · rintro ⟨r, hr, a, ha, rfl⟩
    exact ⟨r, a, hr, ha, rfl⟩
  · rintro ⟨r, a, hr, ha, rfl⟩
    exact ⟨r, hr, a, ha, rfl⟩

/-- What the summary writes where it makes a tree. -/
theorem buildSummary_writes (hpos : 0 < symbolCount s) (hfits : totalCount s ≤ s.params.kmax) (h : buildSummary s = .next t) :
    t.pqSize.toNat ≤ 1 ∧ slotAt t 0 = some t.root ∧ ∃ a, nodeAt t t.root.toNat = some a ∧
      outsideForest t = outsideForest (respondOk (t.root.setWidth 24) a.freq
        (setTree t.root (BitVec.ofNat 9 (symbolCount s)) true (freshTree (symbolCount s) s))) := by
  rw [buildSummary, if_neg (by omega), if_neg (by omega)] at h
  obtain ⟨u, hu, h⟩ := andThen_eq_next.1 h
  obtain ⟨v, hv, h⟩ := andThen_eq_next.1 h
  obtain ⟨r, a, hr, ha, rfl⟩ := finish_eq_next.1 h
  obtain ⟨hout, hle⟩ := mergeAll_keeps hv
  refine ⟨hle, hr, a, ha, ?_⟩
  exact congrArg (fun q => respondOk (r.setWidth 24) a.freq (setTree r (BitVec.ofNat 9 (symbolCount s)) true q))
    (hout.trans (addLeaves_outsideForest hu))

/-! ### The forest of a successful BUILD -/

/-- A successful BUILD makes the forest that a block just reset with the same counts makes. -/
theorem exec_build_built (hp : s.params.legal = true) (hi : unitsIdle s = true) (hf : s.fatal = false) (hpos : 0 < symbolCount s)
    (hfits : totalCount s ≤ s.params.kmax) :
    ∃ t w, exec .build s = .next t ∧ TreeOfCounts s t ∧ buildSummary s = .next (alone s.tb t) ∧ Built (countsOnly s) w ∧
      liveStore .bIdle t = liveStore .bIdle w := by
  obtain ⟨w, hw, hb, -⟩ := build_countsOnly hp hpos hfits
  obtain ⟨t, ht, hview⟩ := exec_build_of_countsOnly hp hi hf hpos hfits hw
  obtain ⟨t', ht', htree, hsum⟩ := exec_build_summary hp hi hf hpos hfits
  obtain rfl : t' = t := Host.Outcome.next.inj (ht'.symm.trans ht)
  exact ⟨t', w, ht', htree, hsum, hb, result_of_view hview (runUnits_ends_idle hw)⟩

/-- A leaf record of BUILD (R169). -/
theorem Built.nodeAt_leaf (h : Built (countsOnly s) w) {i : Nat} (hi : (occurring s)[i]? = some sym) : nodeAt w i = some (leafOf s sym) := by
  obtain ⟨inner, hforest⟩ := h.forest
  have hocc : occurring w = occurring s := (occurring_congr h.counts h.params).trans (occurring_countsOnly s)
  have hsym := (mem_occurring.1 (List.mem_of_getElem? hi)).1
  rw [hforest.nodeAt_leaf h.sound.arena (i := i) (sym := sym) (by rw [← hi, ← hocc]; rfl),
    leafOf_congr (s := countsOnly s) h.params (congrFun (ftAt_congr h.counts) sym), leafOf_congr (s := s) (t := countsOnly s) rfl (ftAt_countsOnly hsym)]

/-- Settles O41: the tree is `exec_build_tree`'s, its leaves are those of the forest (`Built.nodeAt_leaf`). -/
theorem buildLeavesASingleTree : Obligations.BuildLeavesASingleTree := by
  intro s hp hi hf hpos hfits
  obtain ⟨t, w, ht, htree, -, hb, hend⟩ := exec_build_built hp hi hf hpos hfits
  refine ⟨t, ht, htree.holdsTree.arena, htree.holdsTree.shape, fun i sym hsym => ?_⟩
  rw [field_of_view (nodeAt · i) hend fun _ => rfl, hb.nodeAt_leaf hsym]
  rfl

/-- With `n` leaves the arena holds `2n - 1` records (R177). -/
theorem Built.nodeCnt (h : Built (countsOnly s) w) : w.nodeCnt.toNat = 2 * symbolCount s - 1 := by
  obtain ⟨inner, hforest⟩ := h.forest
  have hocc : occurring w = occurring s := (occurring_congr h.counts h.params).trans (occurring_countsOnly s)
  have hcount : 1 + inner.length = (occurring w).length := hforest.count
  have hcnt : w.nodeCnt.toNat = (occurring w).length + inner.length := hforest.nodeCnt_eq h.sound.arena
  rw [hocc] at hcount hcnt
  rw [symbolCount]
  omega

/-- The root's frequency is the total (R175). -/
theorem Built.root_freq {a : NodeRec} (h : Built (countsOnly s) w) (ha : nodeAt w w.root.toNat = some a) : a.freq.toNat = totalCount s := by
  obtain ⟨inner, hforest⟩ := h.forest
  have hsum : freqAt w w.root + 0 = totalCount w := hforest.sum
  rw [← totalCount_countsOnly s, ← totalCount_congr h.counts h.params, ← hsum, Nat.add_zero, freqAt_eq ha]

/-- Settles O40: the summary says what is written (`buildSummary_writes`), the forest how many records there are and what the root's frequency
is. -/
theorem buildLeavesTheTreeRegisters : Obligations.BuildLeavesTheTreeRegisters := by
  intro s hp hi hf hpos hfits
  obtain ⟨t, w, ht, htree, hsum, hb, hend⟩ := exec_build_built hp hi hf hpos hfits
  obtain ⟨hle, hslot, a, ha, hout⟩ := buildSummary_writes hpos hfits hsum
  have same : ∀ {β : Type} (f : State → β), (∀ v, f (liveStore .bIdle v) = f v) → f t = f w := fun f hf => field_of_view f hend hf
  have hroot : t.root = w.root := same State.root fun _ => rfl
  have hsize : t.pqSize = 1 := by
    have hlt := hb.sound.queue.slot_lt ((same (slotAt · 0) fun _ => rfl).symm.trans hslot)
    rw [← same State.pqSize fun _ => rfl] at hlt
    have hle : t.pqSize.toNat ≤ 1 := hle
    exact BitVec.eq_of_toNat_eq (by show _ = 1; omega)
  have hcap : t.pqCap = BitVec.ofNat 9 (symbolCount s) := (congrArg State.pqCap hout).trans (by simp [outsideForest, freshTree])
  have hcount : symbolCount s ≤ s.params.nsym := occBelow_length_le s s.params.nsym
  have hn := (Params.nsym_bounds hp).2
  refine ⟨t, a, ht, ?_, ?_, ?_, ?_, htree.nleaf, hslot, ha, ?_⟩
  · obtain ⟨hq, hbf, -⟩ := unitsIdle_iff.1 hi
    obtain ⟨htq, htb, -⟩ := unitsIdle_iff.1 htree.idle
    calc t = { outsideForest (alone s.tb t) with
          node := t.node, nodeCnt := t.nodeCnt, heap := t.heap, pqSize := 1, pqCap := t.pqCap, nleaf := t.nleaf, pqFsm := t.pqFsm, pq := t.pq,
          tbFsm := t.tbFsm, tb := t.tb } := by rw [← hsize]; rfl
      _ = _ := by
        rw [hout, htq, htb, BitVec.ofNat_toNat]
        simp only [outsideForest, respondOk, respond, setTree, freshTree, invalidateCw, setCwReady, createQueue, emptyArena, okWord, hq, hbf]
        rfl
  · rw [same State.nodeCnt fun _ => rfl, hb.nodeCnt]
  · rw [hcap]
    exact Nat.mod_eq_of_lt (by omega)
  · have := htree.holdsTree.shape.rootIs
    rw [htree.nleaf] at this
    omega
  · refine hb.root_freq ?_
    rw [← hroot]
    exact (same (nodeAt · t.root.toNat) fun _ => rfl).symm.trans ha

end Sys2Proof.Machine
end

section
/-!
PROOFS. The assembler against the grammar of a command line (30_encoding.md R105): what a text of the grammar reads as, token by token, and that
the word it assembles to is the command's own encoding.
-/

namespace Sys2Proof.Machine

open Sys2Proof.Summary

variable {l rest text w lead tail : List Char} {acc : List Char} {ts : List Token} {tok : Token} {o : Opcode} {a b base v : Nat}
  {ds : List (Char × Nat)} {c : Char} {i : Instr} {word : Word64}

/-! ### Tokens -/

/-- A character that belongs to a word. -/
def isPlain (c : Char) : Bool := !(['\'', ';', ',', ' ', '\t'].contains c)

/-- What follows a word: it ends there, and the tokens `ts` come after it. -/
def Delimited (rest : List Char) (ts : List Token) : Prop := ∀ acc, tokens rest acc = .ok (flushWord acc ts)

theorem Delimited.tokens (h : Delimited rest ts) : tokens rest [] = .ok ts := h []

theorem delimited_nil : Delimited [] [] := fun _ => by rw [Machine.tokens]

theorem delimited_comment (comment : List Char) : Delimited (';' :: comment) [] := fun acc => by
  rw [Machine.tokens]

theorem delimited_comma (h : tokens rest [] = .ok ts) : Delimited (',' :: rest) (.comma :: ts) := fun acc => by
  rw [Machine.tokens, h]
  rfl

theorem delimited_blank (hc : c = ' ' ∨ c = '\t') (h : tokens rest [] = .ok ts) : Delimited (c :: rest) ts := fun acc => by
  rcases hc with rfl | rfl <;> rw [Machine.tokens, h] <;> rfl

theorem tokens_blanks (hl : Blanks lead) (h : tokens rest [] = .ok ts) : tokens (lead ++ rest) [] = .ok ts := by
  induction lead with
  | nil => exact h
  | cons c lead ih => exact (delimited_blank (hl c List.mem_cons_self) (ih fun d hd => hl d (List.mem_cons_of_mem c hd))).tokens

theorem Delimited.blanks (h : Delimited rest ts) (hl : Blanks lead) : Delimited (lead ++ rest) ts := by
  cases lead with
  | nil => exact h
  | cons c lead =>
    exact delimited_blank (hl c List.mem_cons_self) (tokens_blanks (fun d hd => hl d (List.mem_cons_of_mem c hd)) h.tokens)

theorem delimited_gap (hl : Blanks lead) (hne : lead ≠ []) (h : tokens rest [] = .ok ts) : Delimited (lead ++ rest) ts := by
  cases lead with
  | nil => exact absurd rfl hne
  | cons c lead => exact delimited_blank (hl c List.mem_cons_self) (tokens_blanks (fun d hd => hl d (List.mem_cons_of_mem c hd)) h)

theorem delimited_lineEnd (h : LineEnd tail) : Delimited tail [] := by
  rcases h with h | ⟨gap, comment, hgap, rfl⟩
  · rw [← List.append_nil tail]
    exact delimited_nil.blanks h
  · exact (delimited_comment comment).blanks hgap

theorem tokens_plain (h : isPlain c = true) (rest acc : List Char) : tokens (c :: rest) acc = tokens rest (c :: acc) := by
  obtain ⟨hquote, hcomment, hcomma, hspace, htab⟩ : c ≠ '\'' ∧ c ≠ ';' ∧ c ≠ ',' ∧ c ≠ ' ' ∧ c ≠ '\t' := by simpa [isPlain] using h
  simp [Machine.tokens, hquote]

theorem tokens_plains (h : ∀ c ∈ w, isPlain c = true) (acc : List Char) : tokens (w ++ rest) acc = tokens rest (w.reverse ++ acc) := by
  induction w generalizing acc with
  | nil => rfl
  | cons c w ih =>
    rw [List.cons_append, tokens_plain (h c List.mem_cons_self), ih fun d hd => h d (List.mem_cons_of_mem c hd), List.reverse_cons,
      List.append_assoc]
    rfl

/-- A text that reads as one token wherever it ends. -/
def Spells (text : List Char) (tok : Token) : Prop := ∀ rest ts, Delimited rest ts → tokens (text ++ rest) [] = .ok (tok :: ts)

theorem spells_word (h : ∀ c ∈ w, isPlain c = true) (hne : w ≠ []) : Spells w (.word w) := fun rest ts hrest => by
  rw [tokens_plains h, List.append_nil, hrest, flushWord, if_neg (by simpa using hne), List.reverse_reverse]

theorem spells_character (hlo : 0x20 ≤ c.toNat) (hhi : c.toNat ≤ 0x7E) : Spells ['\'', c, '\''] (.code c.toNat) := fun rest ts hrest => by
  have hc : isPrintable c = true := decide_eq_true ⟨hlo, hhi⟩
  simp only [List.cons_append, List.nil_append]
  rw [Machine.tokens, if_pos hc, hrest.tokens]
  rfl

/-! ### Operands -/

theorem digitTable_plain : ∀ d ∈ digitTable, isPlain d.1 = true := by decide

theorem digitTable_ne_x : ∀ d ∈ digitTable, d.1 ≠ 'x' := by decide

theorem digitValue_digitTable : ∀ base ∈ [10, 16], ∀ d ∈ digitTable, d.2 < base → digitValue base d.1 = some d.2 := by decide

theorem numberFrom_map (h : ∀ d ∈ ds, digitValue base d.1 = some d.2) :
    numberFrom base v (ds.map Prod.fst) = some (ds.foldl (fun v d => base * v + d.2) v) := by
  induction ds generalizing v with
  | nil => rfl
  | cons d ds ih =>
    rw [List.map_cons, numberFrom, h d List.mem_cons_self]
    exact ih fun e he => h e (List.mem_cons_of_mem d he)

theorem numberFrom_digits (hbase : base ∈ [10, 16]) (h : DigitsOf base ds) :
    numberFrom base 0 (ds.map Prod.fst) = some (numberOf base ds) :=
  numberFrom_map fun d hd => digitValue_digitTable base hbase d (h.2 d hd).1 (h.2 d hd).2

theorem operandOf_hex (h : DigitsOf 16 ds) : operandOf (.word ('0' :: 'x' :: ds.map Prod.fst)) = .ok (numberOf 16 ds) := by
  have hnum := numberFrom_digits (by decide) h
  cases ds with
  | nil => exact absurd rfl h.1
  | cons d ds =>
    rw [List.map_cons] at hnum ⊢
    rw [operandOf, hnum]
    rfl

theorem operandOf_decimal (h : DigitsOf 10 ds) : operandOf (.word (ds.map Prod.fst)) = .ok (numberOf 10 ds) := by
  have hnum := numberFrom_digits (by decide) h
  have hx : 'x' ∉ ds.map Prod.fst := fun hx => by
    obtain ⟨d, hd, hdx⟩ := List.mem_map.1 hx
    exact digitTable_ne_x d (h.2 d hd).1 hdx
  cases ds with
  | nil => exact absurd rfl h.1
  | cons d ds =>
    rw [List.map_cons] at hnum hx ⊢
    rw [operandOf, hnum]
    · rfl
    · rintro c rest h0 he
      rw [he] at hx
      simp at hx

/-- A text of an operand reads as one token of its value. -/
theorem exists_spells (h : OperandText text a) : ∃ tok, Spells text tok ∧ operandOf tok = .ok a := by
  have plain : ∀ {base ds}, DigitsOf base ds → ∀ c ∈ ds.map Prod.fst, isPlain c = true := fun h c hc => by
    obtain ⟨d, hd, rfl⟩ := List.mem_map.1 hc
    exact digitTable_plain d (h.2 d hd).1
  cases h with
  | decimal h => exact ⟨_, spells_word (plain h) (by simpa using h.1), operandOf_decimal h⟩
  | @hex ds h =>
    refine ⟨_, spells_word (fun c hc => ?_) nofun, operandOf_hex h⟩
    rcases List.mem_cons.1 hc with rfl | hc
    · decide
    · rcases List.mem_cons.1 hc with rfl | hc
      · decide
      · exact plain h c hc
  | character hlo hhi => exact ⟨_, spells_character hlo hhi, rfl⟩

/-! ### Words -/

theorem wellFormed_iff : i.wellFormed = true ↔ i.operandA < 2 ^ 24 ∧ i.operandB < 2 ^ 32 :=
  ⟨wellFormed_fits, fun ⟨ha, hb⟩ => instrOf_operands i ▸ wellFormed_instrOf ha hb⟩

theorem wordOf_eq (i : Instr) : wordOf i = if i.operandA < 2 ^ 24 ∧ i.operandB < 2 ^ 32 then .ok (encode i) else .error .operandTooLarge := by
  simp only [wordOf, wellFormed_iff]

theorem mnemonicOf_opcodeMnemonic (o : Opcode) : mnemonicOf (opcodeMnemonic o).toList = some o := by cases o <;> decide

theorem spells_opcodeMnemonic (o : Opcode) : Spells (opcodeMnemonic o).toList (.word (opcodeMnemonic o).toList) :=
  spells_word (List.all_eq_true.1 (by cases o <;> decide)) (by cases o <;> decide)

theorem instrOf_operandA (h : opcodeFormat o = .Z → a = 0) : (instrOf o a b).operandA = a := by
  cases o <;> simp_all [opcodeFormat, instrOf, Instr.operandA]

theorem instrOf_operandB (h : opcodeFormat o ≠ .AB → b = 0) : (instrOf o a b).operandB = b := by
  cases o <;> simp_all [opcodeFormat, instrOf, Instr.operandB]

/-- The operands that a text of the grammar spells are the command's own, the unused ones being 0. -/
theorem operands_of_commandText (h : CommandText text o a b) : (instrOf o a b).operandA = a ∧ (instrOf o a b).operandB = b := by
  cases h with
  | noOperand => exact ⟨instrOf_operandA fun _ => rfl, instrOf_operandB fun _ => rfl⟩
  | oneOperand hf => exact ⟨instrOf_operandA fun hz => (by simp [hf] at hz), instrOf_operandB fun _ => rfl⟩
  | twoOperands hf => exact ⟨instrOf_operandA fun hz => (by simp [hf] at hz), instrOf_operandB fun hz => absurd hf hz⟩

/-- A text of the grammar reads as the mnemonic and the tokens of the operands. -/
theorem tokens_of_commandText (h : CommandText text o a b) (hrest : Delimited rest []) :
    ∃ ts, Machine.tokens (text ++ rest) [] = .ok (.word (opcodeMnemonic o).toList :: ts) ∧ operandsOf (opcodeFormat o) ts = .ok (a, b) := by
  cases h with
  | noOperand hf => exact ⟨[], spells_opcodeMnemonic o _ _ hrest, by rw [hf]; rfl⟩
  | oneOperand hf hgap hne hx =>
    obtain ⟨x, hsx, hox⟩ := exists_spells hx
    refine ⟨[x], ?_, by rw [hf, operandsOf, hox]; rfl⟩
    rw [List.append_assoc, List.append_assoc]
    exact spells_opcodeMnemonic o _ _ (delimited_gap hgap hne (hsx _ _ hrest))
  | twoOperands hf hgap hne hx hgap1 hgap2 hy =>
    obtain ⟨x, hsx, hox⟩ := exists_spells hx
    obtain ⟨y, hsy, hoy⟩ := exists_spells hy
    refine ⟨[x, .comma, y], ?_, by rw [hf, operandsOf, hox, hoy]; rfl⟩
    have hsecond := (delimited_comma (tokens_blanks hgap2 (hsy _ _ hrest))).blanks hgap1
    have hall := spells_opcodeMnemonic o _ _ (delimited_gap hgap hne (hsx _ _ hsecond))
    simpa only [List.append_assoc, List.cons_append] using hall

theorem wordOf_eq_ok (h : wordOf i = .ok word) : i.wellFormed = true ∧ word = encode i := by
  rw [wordOf] at h
  split at h
  · next hi => cases h; exact ⟨hi, rfl⟩
  · cases h

theorem bind_eq_ok {α β : Type} {r : Except AsmError α} {f : α → Except AsmError β} {y : β} (h : r.bind f = .ok y) :
    ∃ x, r = .ok x ∧ f x = .ok y := by
  cases r with
  | error e => cases h
  | ok x => exact ⟨x, rfl, h⟩

/-- Whatever the line, the word is that of a command that fits. -/
theorem encode_of_assembleLine (h : assembleLine l = .ok (some word)) : ∃ i : Instr, i.wellFormed = true ∧ word = encode i := by
  obtain ⟨ts, -, h⟩ := bind_eq_ok h
  split at h
  · cases h
  · cases hw : (commandOf ts).bind wordOf with
    | error e => rw [hw] at h; cases h
    | ok w =>
      rw [hw] at h
      cases h
      obtain ⟨i, -, hi⟩ := bind_eq_ok hw
      exact ⟨i, wordOf_eq_ok hi⟩

/-- Settles O6: by the tokens of each text (`tokens_of_commandText`, `delimited_lineEnd`), and since `wordOf` refuses what does not fit and only
that (`wordOf_eq`). -/
theorem assembledWordsAreEncodings : Obligations.AssembledWordsAreEncodings := by
  refine ⟨wordOf_eq, fun lead text tail o a b hlead htext htail => ?_, fun tail htail => ?_, fun l w h => ?_⟩
  · obtain ⟨ts, hts, hops⟩ := tokens_of_commandText htext (delimited_lineEnd htail)
    obtain ⟨hA, hB⟩ := operands_of_commandText htext
    have hcmd : commandOf (.word (opcodeMnemonic o).toList :: ts) = .ok (instrOf o a b) := by
      rw [commandOf, mnemonicOf_opcodeMnemonic]
      exact congrArg (Except.map fun ab : Nat × Nat => instrOf o ab.1 ab.2) hops
    rw [List.append_assoc, assembleLine, tokens_blanks hlead hts]
    change Except.map some ((commandOf (.word (opcodeMnemonic o).toList :: ts)).bind wordOf) = _
    rw [hcmd, Except.bind, wordOf_eq, hA, hB]
    split <;> rfl
  · rw [assembleLine, (delimited_lineEnd htail).tokens]
    rfl
  · exact encode_of_assembleLine h

end Sys2Proof.Machine
end
